-- ==== Sys2Proof/Word.lean ====
section
/-!
DEFINITION. Words, lane masks, bit fields, bytes in little-endian order (00 R2), and the sorted
association list in which State keeps every sparse table (registers, memory, caches).
-/
namespace Sys2Proof

abbrev Byte := BitVec 8
abbrev Word := BitVec 32
abbrev DWord := BitVec 64
/-- A set of lanes of one warp: bit l stands for lane l (02 R18). -/
abbrev Mask := BitVec 32

/-- A table by natural-number key, strictly rising in the key. -/
abbrev Sparse (α : Type) := List (Nat × α)

/-- The value at a key, if listed. -/
def smGet? {α : Type} : Sparse α → Nat → Option α
  | [], _ => none
  | (k, v) :: m, i => if i = k then some v else smGet? m i

/-- List a value at a key, replacing the one there. -/
def smPut {α : Type} : Sparse α → Nat → α → Sparse α
  | [], i, v => [(i, v)]
  | (k, w) :: m, i, v =>
    if i = k then (i, v) :: m else if i < k then (i, v) :: (k, w) :: m else (k, w) :: smPut m i v

/-- Remove a key. -/
def smDel {α : Type} : Sparse α → Nat → Sparse α
  | [], _ => []
  | (k, w) :: m, i => if i = k then smDel m i else (k, w) :: smDel m i

/-- The value at a key, `d` where nothing is listed. -/
def smGetD {α : Type} (m : Sparse α) (d : α) (i : Nat) : α := (smGet? m i).getD d

/-- Store a value; the default is stored by removing the key, so that equal tables are equal lists. -/
def smSetD {α : Type} [DecidableEq α] (m : Sparse α) (d : α) (i : Nat) (v : α) : Sparse α :=
  if v = d then smDel m i else smPut m i v

/-- Strictly rising keys. -/
def smSorted {α : Type} : Sparse α → Bool
  | [] => true
  | (k, _) :: m => (match m with | [] => true | (k', _) :: _ => decide (k < k')) && smSorted m

/-- Canonical form: rising keys, and no entry equal to the default. -/
def smWf {α : Type} [DecidableEq α] (d : α) (m : Sparse α) : Bool :=
  smSorted m && m.all (fun e => decide (e.2 ≠ d))

/-- Lanes 0 to 31 in ascending order. -/
def laneList : List Nat :=
  [0, 1, 2, 3, 4, 5, 6, 7, 8, 9, 10, 11, 12, 13, 14, 15, 16, 17, 18, 19, 20, 21, 22, 23, 24, 25,
   26, 27, 28, 29, 30, 31]

/-- Is lane l in the set? -/
def inMask (m : Mask) (l : Nat) : Bool := m.getLsbD l

/-- The lanes of a set, ascending. -/
def maskLanes (m : Mask) : List Nat := laneList.filter (inMask m)

/-- The set with the one lane l. -/
def laneBit (l : Nat) : Mask := 1#32 <<< l

/-- The set of the lanes that satisfy p. -/
def maskOf (p : Nat → Bool) : Mask := laneList.foldl (fun m l => if p l then m ||| laneBit l else m) 0#32

def fullMask : Mask := 0xFFFFFFFF#32

/-- The lowest lane of a set. -/
def lowLane (m : Mask) : Option Nat := (maskLanes m).head?

/-- Bits hi down to lo as a number (00 R2). -/
def fld {n : Nat} (x : BitVec n) (hi lo : Nat) : Nat := (x.toNat >>> lo) % 2 ^ (hi + 1 - lo)

/-- Bits hi down to lo of a number. -/
def nfld (x hi lo : Nat) : Nat := (x >>> lo) % 2 ^ (hi + 1 - lo)

/-- The n-bit number x read as two's complement (R5 sext). -/
def sextN (n x : Nat) : Int :=
  let y := x % 2 ^ n
  if 2 * y < 2 ^ n then (y : Int) else (y : Int) - (2 ^ n : Nat)

/-- The low n bits of the two's-complement form of x (R5 trunc). -/
def truncN (n : Nat) (x : Int) : Nat := (x % ((2 ^ n : Nat) : Int)).toNat

/-- sat of R5. -/
def satI (x lo hi : Int) : Int := if x < lo then lo else if hi < x then hi else x

/-- A number as n bytes, least significant first (R2). -/
def toBytes : Nat → Nat → List Byte
  | 0, _ => []
  | n + 1, x => BitVec.ofNat 8 x :: toBytes n (x / 256)

/-- Bytes, least significant first, as a number (R2). -/
def ofBytes : List Byte → Nat
  | [] => 0
  | b :: bs => b.toNat + 256 * ofBytes bs

/-- Two 32-bit halves, low first, as a number (R52). -/
def pairNat (lo hi : Word) : Nat := lo.toNat + 2 ^ 32 * hi.toNat

/-- The 32-bit halves of a 64-bit number, low first. -/
def halves (x : Nat) : List Word := [BitVec.ofNat 32 x, BitVec.ofNat 32 (x / 2 ^ 32)]

/-- floor(log2 x) for x > 0; 0 for 0. -/
def log2N (x : Nat) : Nat := Nat.log2 x

def popcount (n x : Nat) : Nat := (List.range n).foldl (fun c i => c + (x >>> i) % 2) 0

def ceilDiv (a b : Nat) : Nat := (a + b - 1) / b

/-- Replace the element at index i. -/
def setAt {α : Type} : List α → Nat → α → List α
  | [], _, _ => []
  | _ :: xs, 0, v => v :: xs
  | x :: xs, i + 1, v => x :: setAt xs i v

/-- Insert before the first element that p selects; at the end if there is none. -/
def insertBefore {α : Type} (p : α → Bool) (v : α) : List α → List α
  | [] => [v]
  | x :: xs => if p x then v :: x :: xs else x :: insertBefore p v xs

end Sys2Proof
end

