-- ==== Sys2Proof/Syntax.lean ====
section
/-!
DEFINITION. The instructions: the 130 Z1 rows as one core-word record each (11 R211 to R224), the 20
rank-program instructions (23 R412, R413), and the device's and the host's steps (95), with the data
that reaches the device from outside as their arguments.
-/
namespace Sys2Proof

/-- The execution scope (03 R62). -/
inductive Scope where
  | lane | warp | set | block
  deriving DecidableEq, Repr

/-- The sixteen types (11 R216). -/
inductive Ty where
  | b32 | i8 | i16 | i32 | i64 | n8 | n16 | b64 | n32 | n64 | f16 | bf16 | f32 | h2 | bh2 | nf
  deriving DecidableEq, Repr

/-- The memory descriptor of form M (11 R221). -/
structure MemDesc where
  idxP  : Bool
  baseP : Bool
  scale : BitVec 3
  index : BitVec 11
  base  : BitVec 11
  off   : Word
  deriving DecidableEq, Repr

/-- What follows the core word: forms A, I, O, M, C and B (11 R219 to R223). -/
inductive Ext where
  | none
  | imm (i : Word)
  | opnd (sx : Bool) (isel : BitVec 2) (c : BitVec 11) (i : Word)
  | mem (m : MemDesc)
  | cmd (w0 w1 : Word)
  | disp (first second : Word)
  deriving DecidableEq, Repr

/-- The fields of a Z1 instruction other than its opcode (11 R215). -/
structure Z1 where
  ext      : Ext
  scope    : Scope
  giveWay  : Bool
  gap      : BitVec 3
  guardP   : BitVec 3
  guardNeg : Bool
  ty       : Ty
  d        : BitVec 11
  a        : BitVec 11
  b        : BitVec 11
  mod      : BitVec 7
  deriving DecidableEq, Repr

/-- The Z1 operations, one for each row of the opcode map (11 R226); REGQ, RFILL and RTAKE have two. -/
inductive Op where
  | nop | runend | bra | brx | call | ret | exit | loop | lbrk | wait | pause | trap | bkpt
  | iadd | isub | imul | imulh | imad | idiv | irem | imin | imax | iabs | ineg | iaddc | icmp
  | sel | mov | lea | and | or | xor | not | andn | shl | shr | sar | rot | fshf | bfx | bfi
  | clz | ffs | popc | brev | prmt | pset | p2v | v2p | idot4 | ipack | fadd | fsub | fmul | ffma
  | fmin | fmax | fcmp | fclass | frcp | frsq | fsqrt | fdiv | fexp2 | flog2 | fsinp | fcosp
  | ftanh | fscale | frnd | f2i | i2f | f2f | f2n | n2f | fmaxi | fdot2 | qswap | qbcast | shfl
  | vote | wred | wscan | matchLanes | elect | bar | regqImm | regqScalar | ld | st | lds | sts
  | ldk | atom | atoms | bankop | fence | pref | cctl | cpy | tcpy | layset | rfillGet | rfill
  | rtake | rtakeBack | rinit | ringadv | fxw | fxflag | fxrd | fxatom | acwait | acread | mxrsv
  | mxrel | wload | mxmul | mxdrain | atbl | nfset | mxstat | enq | rand | sysrd | syswr | tlbinv
  | xret | ctxsave | ctxload
  deriving DecidableEq, Repr

abbrev Reg4 := BitVec 4

/-- A counted-write packet as it reaches a port (08 R178): source address, counter, key, incarnation,
remote offset, bytes. -/
structure DataPacket where
  src     : Nat
  counter : Nat
  key     : Nat
  inc     : Nat
  off     : Nat
  bytes   : List Byte
  deriving DecidableEq, Repr

/-- A flag as it reaches a port (08 R177): it also carries the count C and the value. -/
structure FlagPacket where
  src     : Nat
  counter : Nat
  key     : Nat
  inc     : Nat
  count   : Nat
  off     : Nat
  value   : Word
  deriving DecidableEq, Repr

/-- A shortfall, a failure notice or an acknowledgement (16 R330); a shortfall names its flag by the offset and by the count that the
flag wants (21 R381; log 27). -/
structure CtlPacket where
  src     : Nat
  counter : Nat
  key     : Nat
  inc     : Nat
  count   : Nat
  off     : Nat
  want    : Nat := 0
  deriving DecidableEq, Repr

/-- A remote read or atomic request (08 R181, R182): source, tag, the world of its port's window, the
range, and for an atomic its operation code and type with the operands A and B. -/
structure RemoteReq where
  src : Nat
  tag : Nat
  off : Nat
  len : Nat
  op  : BitVec 3
  ty  : Ty
  a   : Nat
  b   : Nat
  deriving DecidableEq, Repr

/-- Where a reply arrives and the request tag it answers (08 R181, R182). -/
structure ReplyTo where
  port : Nat
  tag  : Nat
  deriving DecidableEq, Repr

/-- What a patrol read finds (30 R480); `raced` means another write to the line was performed since
the read, so the correction is dropped. -/
inductive ScrubOutcome where
  | clean
  | corrected (raced tile : Bool)
  | uncorrected
  deriving DecidableEq, Repr

/-- One constructor per row of the opcode table. -/
inductive Instr where
  | nop (w : Z1)
  | runend (w : Z1)
  /-- TRAILER_COMMIT (R35): A trailer commits once its run's last fixed-latency result has landed; control transfers, loop-end steps, scoreboard holds and run-boundary stops take effect. -/
  | trailerCommit (core slot : Nat)
  /-- RUN_SELECT (R42): An idle partition selects the next ready warp in slot order, honouring give-way flags and PAUSE intervals. -/
  | runSelect (core part : Nat)
  /-- RENDEZVOUS_FIRE (R66): A set or block latch fires when every member has arrived or exited, and the instruction executes once over E_once. -/
  | rendezvousFire (core block latch : Nat)
  | bra (w : Z1)
  | brx (w : Z1)
  | call (w : Z1)
  | ret (w : Z1)
  | exit (w : Z1)
  | loop (w : Z1)
  | lbrk (w : Z1)
  | wait (w : Z1)
  | pause (w : Z1)
  | trap (w : Z1)
  | bkpt (w : Z1)
  | iadd (w : Z1)
  | isub (w : Z1)
  | imul (w : Z1)
  | imulh (w : Z1)
  | imad (w : Z1)
  | idiv (w : Z1)
  | irem (w : Z1)
  | imin (w : Z1)
  | imax (w : Z1)
  | iabs (w : Z1)
  | ineg (w : Z1)
  | iaddc (w : Z1)
  | icmp (w : Z1)
  | sel (w : Z1)
  | mov (w : Z1)
  | lea (w : Z1)
  | and (w : Z1)
  | or (w : Z1)
  | xor (w : Z1)
  | not (w : Z1)
  | andn (w : Z1)
  | shl (w : Z1)
  | shr (w : Z1)
  | sar (w : Z1)
  | rot (w : Z1)
  | fshf (w : Z1)
  | bfx (w : Z1)
  | bfi (w : Z1)
  | clz (w : Z1)
  | ffs (w : Z1)
  | popc (w : Z1)
  | brev (w : Z1)
  | prmt (w : Z1)
  | pset (w : Z1)
  | p2v (w : Z1)
  | v2p (w : Z1)
  | idot4 (w : Z1)
  | ipack (w : Z1)
  | fadd (w : Z1)
  | fsub (w : Z1)
  | fmul (w : Z1)
  | ffma (w : Z1)
  | fmin (w : Z1)
  | fmax (w : Z1)
  | fcmp (w : Z1)
  | fclass (w : Z1)
  | frcp (w : Z1)
  | frsq (w : Z1)
  | fsqrt (w : Z1)
  | fdiv (w : Z1)
  | fexp2 (w : Z1)
  | flog2 (w : Z1)
  | fsinp (w : Z1)
  | fcosp (w : Z1)
  | ftanh (w : Z1)
  | fscale (w : Z1)
  | frnd (w : Z1)
  | f2i (w : Z1)
  | i2f (w : Z1)
  | f2f (w : Z1)
  | f2n (w : Z1)
  | n2f (w : Z1)
  | fmaxi (w : Z1)
  | fdot2 (w : Z1)
  | qswap (w : Z1)
  | qbcast (w : Z1)
  | shfl (w : Z1)
  | vote (w : Z1)
  | wred (w : Z1)
  | wscan (w : Z1)
  | matchLanes (w : Z1)
  | elect (w : Z1)
  | bar (w : Z1)
  | regqImm (w : Z1)
  | regqScalar (w : Z1)
  | ld (w : Z1)
  | st (w : Z1)
  | lds (w : Z1)
  | sts (w : Z1)
  | ldk (w : Z1)
  | atom (w : Z1)
  | atoms (w : Z1)
  | bankop (w : Z1)
  | fence (w : Z1)
  | pref (w : Z1)
  | cctl (w : Z1)
  | cpy (w : Z1)
  | tcpy (w : Z1)
  | layset (w : Z1)
  | rfillGet (w : Z1)
  | rfill (w : Z1)
  | rtake (w : Z1)
  | rtakeBack (w : Z1)
  | rinit (w : Z1)
  | ringadv (w : Z1)
  | fxw (w : Z1)
  | fxflag (w : Z1)
  | fxrd (w : Z1)
  | fxatom (w : Z1)
  | acwait (w : Z1)
  | acread (w : Z1)
  | mxrsv (w : Z1)
  | mxrel (w : Z1)
  | wload (w : Z1)
  | mxmul (w : Z1)
  | mxdrain (w : Z1)
  | atbl (w : Z1)
  | nfset (w : Z1)
  | mxstat (w : Z1)
  | enq (w : Z1)
  | rand (w : Z1)
  | sysrd (w : Z1)
  | syswr (w : Z1)
  | tlbinv (w : Z1)
  | xret (w : Z1)
  | ctxsave (w : Z1)
  | ctxload (w : Z1)
  /-- RESULT_LAND (R38): A variable-latency result is written and the loads counter falls. -/
  | resultLand (core slot op : Nat) (lanes : Mask)
  /-- STORE_PERFORM (R94): A store or atomic without result is performed at its point of visibility and the stores counter falls. -/
  | storePerform (core slot op : Nat) (lanes : Mask)
  /-- WALK (R429): A two-stage translation walk completes or faults. -/
  | walk (id : Nat)
  /-- FAULT_REPORT (R394): The agent writes a fault report entry, advances the write index and signals MSI-X. -/
  | faultReport (core slot : Nat)
  /-- WARP_RETIRE (R48): A warp whose lanes have exited and whose counters are zero frees its slot and registers. -/
  | warpRetire (core slot : Nat)
  /-- BLOCK_RETIRE (R49): A block whose warps have retired and whose tasks have left frees its resources and is counted against its launch. -/
  | blockRetire (core block : Nat)
  /-- TILE_TASK_START (R153): The matrix engine takes the head tile task when its unit is free, latching weights if needed. -/
  | tileTaskStart (core : Nat)
  /-- TILE_TASK_RETIRE (R158): A tile task's last write lands, the task retires and the tile-operation counters fall. -/
  | tileTaskRetire (core task : Nat)
  /-- COPY_SEGMENT_START (R167): The copy engine takes a copy segment from the leaf head. -/
  | copySegmentStart (core : Nat)
  /-- COPY_SEGMENT_BOUNDARY (R168): A pre-empted segment reaches a 4 KiB boundary and returns to the queue. -/
  | copySegmentBoundary (core seg : Nat)
  /-- COPY_SEGMENT_RETIRE (R167): A copy segment finishes; after the last segment the status word lands. -/
  | copySegmentRetire (core seg : Nat)
  /-- STAGING_ENTRY_DONE (R407): A staging list entry completes or fails; a task whose entries are all complete becomes staged. -/
  | stagingEntryDone (tower leaf task : Nat)
  /-- ACWAIT_COMPLETE (R332): Every waiting ACWAIT of a counter completes when the count is reached, a flag is released or the counter fails. -/
  | acwaitComplete (counter : Nat)
  /-- EGRESS_PACKET_SEND (R457): A port takes the head packet of its egress leaf, reads its payload and sends it. -/
  | egressPacketSend (port : Nat)
  /-- FXW_PACKET_ARRIVE (R178): A counted-write packet arrives at a receiving counter and is performed and counted, or dropped. -/
  | fxwPacketArrive (port : Nat) (p : DataPacket)
  /-- FLAG_ARRIVE (R178): A flag arrives and is released when its count is reached, or parked as pending. -/
  | flagArrive (port : Nat) (p : FlagPacket)
  /-- PENDING_FLAG_TIMER (R178): A parked flag's timer passes T_lost and a shortfall is sent. -/
  | pendingFlagTimer (counter : Nat)
  /-- SHORTFALL_ARRIVE (R330): A shortfall reaches the sending port, which resends under a new incarnation or fails the pair. -/
  | shortfallArrive (port : Nat) (p : CtlPacket)
  /-- FAILURE_NOTICE_ARRIVE (R178): A failure notice fails the counter and writes the failure value at the flag offset. -/
  | failureNoticeArrive (port : Nat) (p : CtlPacket)
  /-- FLAG_ACK_ARRIVE (R330): An acknowledgement reaches the sender; the flag's status lands and covered writes are forgotten. -/
  | flagAckArrive (port : Nat) (p : CtlPacket)
  /-- FLAG_RESEND_TIMER (R330): A flag unanswered for 2 x T_lost is resent alone under its incarnation. -/
  | flagResendTimer (send : Nat)
  /-- REMOTE_READ_REQUEST (R114): A remote read request is performed at the target's home and a reply is sent. -/
  | remoteReadRequest (port : Nat) (r : RemoteReq)
  /-- REMOTE_READ_REPLY (R181): Remote read reply data arrives and is written locally. -/
  | remoteReadReply (r : ReplyTo) (seq : Nat) (data : List Byte)
  /-- REMOTE_READ_RETRANSMIT (R181): The port retransmits lost remote-read packets, failing after three reissues. -/
  | remoteReadRetransmit (tag : Nat)
  /-- REMOTE_ATOMIC_REQUEST (R182): A remote atomic is applied at the target, or answered from the reply cache. -/
  | remoteAtomicRequest (port : Nat) (r : RemoteReq)
  /-- REMOTE_ATOMIC_REPLY (R182): A remote atomic reply arrives and its result is written. -/
  | remoteAtomicReply (r : ReplyTo) (old : Nat)
  /-- REMOTE_ATOMIC_REISSUE (R182): An unanswered remote atomic is reissued after T_lost, failing after the third. -/
  | remoteAtomicReissue (tag : Nat)
  /-- DELIVERY_CONTEXT_TEARDOWN (R456): An idle delivery context is torn down after the quiet period. -/
  | deliveryContextTeardown (pdc : Nat)
  /-- INGEST_DATAGRAM (R174): An ingest datagram is mapped, decrypted and landed as a record, or dropped and counted. -/
  | ingestDatagram (port : Nat) (bytes : List Byte)
  /-- SUBMISSION_PUSH (R384): A write to a submission window's target word pushes the task record as an ENQ would. -/
  | submissionPush (fn target : Nat)
  /-- NODE_OFFER (R404): A node offers its head to its child, whose push program places or refuses it. -/
  | nodeOffer (tower node : Nat)
  /-- PUSH_RETRY_TIMER (R403): A refused or blocked push is retried after the target's retry interval. -/
  | pushRetryTimer (tower task : Nat)
  /-- LAUNCH_FETCH (R386): The leaf fetcher reads a launch record, checks it for tearing, rejects it or forwards a copy to the other tower. -/
  | launchFetch (id : Nat)
  /-- LAUNCH_FETCH_RETRY (R386): After a backoff, a torn record is read again. -/
  | launchFetchRetry (id : Nat)
  /-- LAUNCH_OPEN (R389): A staged, best-ranked launch enters the open window when a slot is free. -/
  | launchOpen (tower : Nat)
  /-- AGENT_CLAIM (R390): An agent with room reserves resources and claims a workgroup by atomic add on an open launch's ticket. -/
  | agentClaim (core : Nat)
  /-- CLAIM_RETURN (R390): A claim's atomic returns; the agent places the block or undoes a void claim. -/
  | claimReturn (core : Nat)
  /-- CTXSAVE_DONE (R358): A block's image is written and the save area status becomes 1. -/
  | ctxsaveDone (core : Nat)
  /-- CTXLOAD_DONE (R359): A restore finishes and the save area status becomes 2 or 4. -/
  | ctxloadDone (core : Nat)
  /-- CTX_SWITCH_SAVE (R395): Host requests a save of every block of a function through the save list. -/
  | ctxSwitchSave (val : Word)
  /-- CTX_SWITCH_RESTORE (R395): Host requests a restore of a function's saved blocks. -/
  | ctxSwitchRestore (val : Word)
  /-- INVALIDATION_COMPLETE (R356): Every cache has dropped the matching entries and prior walks have finished, so the invalidation completes. -/
  | invalidationComplete (id : Nat)
  /-- HV_INVALIDATE_ALL (R435): Hypervisor invalidation of every translation entry. -/
  | hvInvalidateAll
  /-- HV_INVALIDATE_VF (R435): Hypervisor invalidation of every entry of one function. -/
  | hvInvalidateVf (fn : Nat)
  /-- HV_INVALIDATE_PAGE (R435): Hypervisor invalidation of the combined entries covering a virtual address. -/
  | hvInvalidatePage (fn va : Nat)
  /-- HV_INVALIDATE_GPA (R435): Hypervisor invalidation of the entries derived from a guest-physical page. -/
  | hvInvalidateGpa (fn gpa : Nat)
  /-- PAGE_REPLY (R434): A hypervisor reply resolves or fails an outstanding page request and wakes its waiters. -/
  | pageReply (val : DWord)
  /-- QUOTE_REQUEST (R441): Host starts an attestation quote over the measurement chain. -/
  | quoteRequest (val : Word)
  /-- QUOTE_COMPLETE (R441): The signed quote is written and the request word returns to 0. -/
  | quoteComplete
  /-- ASHAPE_HOST_WRITE (R156): Host write of a core's band mask, ignored when it is zero or names a memory-role core. -/
  | ashapeHostWrite (core : Nat) (val : Word)
  /-- CADENCE_WRITE (R157): Power firmware writes a core's requested row-injection cadence. -/
  | cadenceWrite (core : Nat) (val : Word)
  /-- NODE_ENABLE (R419): Writing en of a node descriptor checks its chain, programs, limit and flow slice. -/
  | nodeEnable (tower node : Nat) (val : Word)
  /-- LEAF_ENABLE (R419): Writing en of a leaf descriptor checks its class map, W, programs and limit. -/
  | leafEnable (tower leaf : Nat) (val : Word)
  /-- COUNTER_ENABLE (R454): Enabling an arrival counter opens it with count and incarnation zero. -/
  | counterEnable (counter : Nat) (val : Word)
  /-- COUNTER_DISABLE (R454): Disabling a counter discards parked flags and completes waiting ACWAITs as failed. -/
  | counterDisable (counter : Nat) (val : Word)
  /-- INGEST_RING_ENABLE (R460): Enabling an ingest ring takes its indices from the control block. -/
  | ingestRingEnable (ring : Nat) (val : Word)
  /-- INGEST_RING_DISABLE (R460): Disabling an ingest ring lets the current record complete and drops later packets. -/
  | ingestRingDisable (ring : Nat) (val : Word)
  /-- KEY_INSTALL (R463): A write of word 7 installs an AES-256 key into a port key slot. -/
  | keyInstall (slot : Nat) (val : Word)
  /-- KEY_SLOT_ZEROISE (R463): Writing en of a key slot to 0 zeroises the key. -/
  | keySlotZeroise (slot : Nat) (val : Word)
  /-- PEER_ENABLE (R451): Enabling a peer entry configures the peer id, unless its home port and slot are already taken. -/
  | peerEnable (peer : Nat) (val : Word)
  /-- PORT_ENABLE_WRITE (R449): Writing a port's en starts or stops sending and receiving and writes back cached send records. -/
  | portEnableWrite (port : Nat) (val : Word)
  /-- HOST_APERTURE_READ (R383): Host read through BAR2, performed at the L2 home. -/
  | hostApertureRead (fn off len : Nat)
  /-- HOST_APERTURE_WRITE (R383): Host write through BAR2, performed at the L2 home. -/
  | hostApertureWrite (fn off : Nat) (bytes : List Byte)
  /-- PARTITION_CHANGE_GO (R465): A change request with go set starts the role-change sequence and runs the admit checks. -/
  | partitionChangeGo (val : Word)
  /-- PARTITION_QUIESCE_DONE (R466): Every block has retired and every engine task has finished; the flush begins. -/
  | partitionQuiesceDone
  /-- PARTITION_DRAIN_TIMEOUT (R466): The drain timeout expires and the sequence ends with error 5. -/
  | partitionDrainTimeout
  /-- PARTITION_FLUSH_DONE (R467): The flush and evacuation of changing towers completes and re-enumeration begins. -/
  | partitionFlushDone
  /-- PARTITION_REENUMERATE_DONE (R467): Strata are gated or powered up, maps are rewritten and launches reopen. -/
  | partitionReenumerateDone
  /-- HEARTBEAT_WRITE (R473): Power firmware's heartbeat write arms or restarts the watchdog. -/
  | heartbeatWrite (val : Word)
  /-- WATCHDOG_EXPIRE (R473): 50 ms pass without a heartbeat, so every requested cadence becomes 8. -/
  | watchdogExpire
  /-- THERMAL_TRIP (R472): A die reaches 105 C and every core of its tower runs at cadence 16. -/
  | thermalTrip (die : Nat)
  /-- THERMAL_TRIP_CLEAR (R472): All dies of a tripped tower read below 95 C and the trip ends. -/
  | thermalTripClear (tower : Nat)
  /-- THERMAL_POWER_OFF (R472): A die reaches 115 C; the module removes power and latches the cause. -/
  | thermalPowerOff (die : Nat)
  /-- CURRENT_LIMIT_RAISE (R472): Package di/dt exceeds its limit and the limiter raises effective cadences. -/
  | currentLimitRaise (cores : List Nat)
  /-- CURRENT_LIMIT_RELEASE (R472): Every 10 us the limiter releases one step of each raise. -/
  | currentLimitRelease
  /-- ENERGY_BOOKING (R477): Every 10 us energy is estimated from activity and booked to the accounts; the ballast activity the
  hardware has injected comes with it. -/
  | energyBooking (ballast : Nat)
  /-- OPERATING_POINT_REQUEST (R475): Host writes a cluster's voltage and frequency request, which is accepted, denied or ignored. -/
  | operatingPointRequest (cluster : Nat) (val : Word)
  /-- VOLTAGE_RAMP_DONE (R476): A cluster's voltage ramp completes. -/
  | voltageRampDone (cluster : Nat)
  /-- CLOCK_RELOCK_DONE (R476), at a cluster of a tower: A stopped cluster clock relocks and the clk counter is advanced by the filled clocks. -/
  | clockRelockDone (tower index : Nat)
  /-- SCRUB_READ (R480): The patrol scrubber reads a line and conditionally writes back a correction or marks poison. -/
  | scrubRead (addr : Nat) (kind : ScrubOutcome)
  /-- INFIELD_TEST_SELECT (R481): At each interval, the next unfenced core is selected for test and stops taking blocks. -/
  | infieldTestSelect
  /-- INFIELD_TEST_RUN (R481): The selected core holds no resident block and its test runs. -/
  | infieldTestRun
  /-- INFIELD_TEST_END (R482): A test ends; the core returns to service or is fenced. -/
  | infieldTestEnd (signature : Word)
  /-- FW_STAGE (R484): Update action 0 verifies an image and writes it into the inactive flash slot. -/
  | fwStage (val : Word)
  /-- FW_ACTIVATE_POWER (R484): Update action 1 activates a staged power firmware at once. -/
  | fwActivatePower (val : Word)
  /-- FW_RAISE_MINIMUM (R484): Update action 2 raises the fused minimum security version to the active version. -/
  | fwRaiseMinimum (val : Word)
  /-- FW_ACTION_COMPLETE (R484): An update action finishes and the state becomes done or rejected. -/
  | fwActionComplete
  /-- DEVICE_RESET (R440): Reset boots the signed images in order, falls back where needed and extends the measurement chain. -/
  | deviceReset
  /-- REGISTER_WRITE (R3): A host or firmware write to a configuration register that has no behaviour of its own. -/
  | registerWrite (fn off : Nat) (val : Word)
  /-- RANK_LDT (R413): Loads a task field into a rank register. -/
  | rankLdt (d : Reg4) (f : BitVec 4)
  /-- RANK_LDN (R413): Loads a node or leaf state word. -/
  | rankLdn (d : Reg4) (w : BitVec 3)
  /-- RANK_LDF (R413): Loads a word of a flow. -/
  | rankLdf (d a : Reg4) (w : BitVec 2)
  /-- RANK_STN (R413): Stores a state word. -/
  | rankStn (a : Reg4) (w : BitVec 3)
  /-- RANK_STF (R413): Stores a word of a flow. -/
  | rankStf (a b : Reg4) (w : BitVec 2)
  /-- RANK_ADD (R413): Adds two registers. -/
  | rankAdd (d a b : Reg4)
  /-- RANK_ADDI (R413): Adds a sign-extended immediate. -/
  | rankAddi (d a : Reg4) (i : BitVec 15)
  /-- RANK_SUB (R413): Subtracts two registers. -/
  | rankSub (d a b : Reg4)
  /-- RANK_MUL (R413): Low 32 bits of a product. -/
  | rankMul (d a b : Reg4)
  /-- RANK_SHL (R413): Shift left by an immediate. -/
  | rankShl (d a : Reg4) (n : BitVec 5)
  /-- RANK_SHR (R413): Logical shift right by an immediate. -/
  | rankShr (d a : Reg4) (n : BitVec 5)
  /-- RANK_MIN (R413): Minimum, signed or unsigned. -/
  | rankMin (d a b : Reg4) (sg : Bool)
  /-- RANK_MAX (R413): Maximum, signed or unsigned. -/
  | rankMax (d a b : Reg4) (sg : Bool)
  /-- RANK_AND (R413): Bitwise AND. -/
  | rankAnd (d a b : Reg4)
  /-- RANK_OR (R413): Bitwise OR. -/
  | rankOr (d a b : Reg4)
  /-- RANK_CMPLT (R413): Compare less-than, signed or unsigned, giving 1 or 0. -/
  | rankCmplt (d a b : Reg4) (sg : Bool)
  /-- RANK_SEL (R413): Selects by a third register. -/
  | rankSel (d a b c : Reg4)
  /-- RANK_NOW (R413): Reads the device ns clock or the base-die clk counter from the program's sample. -/
  | rankNow (d : Reg4) (sel : BitVec 2)
  /-- RANK_EMIT (R413): Ends the program with a rank. -/
  | rankEmit (a : Reg4)
  /-- RANK_REFUSE (R413): Refuses the task and ends the program if the register is nonzero. -/
  | rankRefuse (a : Reg4)
  /-- TRANSLATION_CONSUMER_WRITE (R433): The hypervisor writes the consumer word of a function's translation context, freeing queue entries so that page requests waiting for room are written into the queue. -/
  | translationConsumerWrite (fn : Nat) (val : Word)
  deriving DecidableEq, Repr

/-- The Z1 instruction of an operation and its fields. -/
def Instr.ofOp : Op → Z1 → Instr
  | .nop, w => .nop w
  | .runend, w => .runend w
  | .bra, w => .bra w
  | .brx, w => .brx w
  | .call, w => .call w
  | .ret, w => .ret w
  | .exit, w => .exit w
  | .loop, w => .loop w
  | .lbrk, w => .lbrk w
  | .wait, w => .wait w
  | .pause, w => .pause w
  | .trap, w => .trap w
  | .bkpt, w => .bkpt w
  | .iadd, w => .iadd w
  | .isub, w => .isub w
  | .imul, w => .imul w
  | .imulh, w => .imulh w
  | .imad, w => .imad w
  | .idiv, w => .idiv w
  | .irem, w => .irem w
  | .imin, w => .imin w
  | .imax, w => .imax w
  | .iabs, w => .iabs w
  | .ineg, w => .ineg w
  | .iaddc, w => .iaddc w
  | .icmp, w => .icmp w
  | .sel, w => .sel w
  | .mov, w => .mov w
  | .lea, w => .lea w
  | .and, w => .and w
  | .or, w => .or w
  | .xor, w => .xor w
  | .not, w => .not w
  | .andn, w => .andn w
  | .shl, w => .shl w
  | .shr, w => .shr w
  | .sar, w => .sar w
  | .rot, w => .rot w
  | .fshf, w => .fshf w
  | .bfx, w => .bfx w
  | .bfi, w => .bfi w
  | .clz, w => .clz w
  | .ffs, w => .ffs w
  | .popc, w => .popc w
  | .brev, w => .brev w
  | .prmt, w => .prmt w
  | .pset, w => .pset w
  | .p2v, w => .p2v w
  | .v2p, w => .v2p w
  | .idot4, w => .idot4 w
  | .ipack, w => .ipack w
  | .fadd, w => .fadd w
  | .fsub, w => .fsub w
  | .fmul, w => .fmul w
  | .ffma, w => .ffma w
  | .fmin, w => .fmin w
  | .fmax, w => .fmax w
  | .fcmp, w => .fcmp w
  | .fclass, w => .fclass w
  | .frcp, w => .frcp w
  | .frsq, w => .frsq w
  | .fsqrt, w => .fsqrt w
  | .fdiv, w => .fdiv w
  | .fexp2, w => .fexp2 w
  | .flog2, w => .flog2 w
  | .fsinp, w => .fsinp w
  | .fcosp, w => .fcosp w
  | .ftanh, w => .ftanh w
  | .fscale, w => .fscale w
  | .frnd, w => .frnd w
  | .f2i, w => .f2i w
  | .i2f, w => .i2f w
  | .f2f, w => .f2f w
  | .f2n, w => .f2n w
  | .n2f, w => .n2f w
  | .fmaxi, w => .fmaxi w
  | .fdot2, w => .fdot2 w
  | .qswap, w => .qswap w
  | .qbcast, w => .qbcast w
  | .shfl, w => .shfl w
  | .vote, w => .vote w
  | .wred, w => .wred w
  | .wscan, w => .wscan w
  | .matchLanes, w => .matchLanes w
  | .elect, w => .elect w
  | .bar, w => .bar w
  | .regqImm, w => .regqImm w
  | .regqScalar, w => .regqScalar w
  | .ld, w => .ld w
  | .st, w => .st w
  | .lds, w => .lds w
  | .sts, w => .sts w
  | .ldk, w => .ldk w
  | .atom, w => .atom w
  | .atoms, w => .atoms w
  | .bankop, w => .bankop w
  | .fence, w => .fence w
  | .pref, w => .pref w
  | .cctl, w => .cctl w
  | .cpy, w => .cpy w
  | .tcpy, w => .tcpy w
  | .layset, w => .layset w
  | .rfillGet, w => .rfillGet w
  | .rfill, w => .rfill w
  | .rtake, w => .rtake w
  | .rtakeBack, w => .rtakeBack w
  | .rinit, w => .rinit w
  | .ringadv, w => .ringadv w
  | .fxw, w => .fxw w
  | .fxflag, w => .fxflag w
  | .fxrd, w => .fxrd w
  | .fxatom, w => .fxatom w
  | .acwait, w => .acwait w
  | .acread, w => .acread w
  | .mxrsv, w => .mxrsv w
  | .mxrel, w => .mxrel w
  | .wload, w => .wload w
  | .mxmul, w => .mxmul w
  | .mxdrain, w => .mxdrain w
  | .atbl, w => .atbl w
  | .nfset, w => .nfset w
  | .mxstat, w => .mxstat w
  | .enq, w => .enq w
  | .rand, w => .rand w
  | .sysrd, w => .sysrd w
  | .syswr, w => .syswr w
  | .tlbinv, w => .tlbinv w
  | .xret, w => .xret w
  | .ctxsave, w => .ctxsave w
  | .ctxload, w => .ctxload w

/-- The operation and fields of a Z1 instruction; none for the other rows. -/
def Instr.z1? : Instr → Option (Op × Z1)
  | .nop w => some (.nop, w)
  | .runend w => some (.runend, w)
  | .bra w => some (.bra, w)
  | .brx w => some (.brx, w)
  | .call w => some (.call, w)
  | .ret w => some (.ret, w)
  | .exit w => some (.exit, w)
  | .loop w => some (.loop, w)
  | .lbrk w => some (.lbrk, w)
  | .wait w => some (.wait, w)
  | .pause w => some (.pause, w)
  | .trap w => some (.trap, w)
  | .bkpt w => some (.bkpt, w)
  | .iadd w => some (.iadd, w)
  | .isub w => some (.isub, w)
  | .imul w => some (.imul, w)
  | .imulh w => some (.imulh, w)
  | .imad w => some (.imad, w)
  | .idiv w => some (.idiv, w)
  | .irem w => some (.irem, w)
  | .imin w => some (.imin, w)
  | .imax w => some (.imax, w)
  | .iabs w => some (.iabs, w)
  | .ineg w => some (.ineg, w)
  | .iaddc w => some (.iaddc, w)
  | .icmp w => some (.icmp, w)
  | .sel w => some (.sel, w)
  | .mov w => some (.mov, w)
  | .lea w => some (.lea, w)
  | .and w => some (.and, w)
  | .or w => some (.or, w)
  | .xor w => some (.xor, w)
  | .not w => some (.not, w)
  | .andn w => some (.andn, w)
  | .shl w => some (.shl, w)
  | .shr w => some (.shr, w)
  | .sar w => some (.sar, w)
  | .rot w => some (.rot, w)
  | .fshf w => some (.fshf, w)
  | .bfx w => some (.bfx, w)
  | .bfi w => some (.bfi, w)
  | .clz w => some (.clz, w)
  | .ffs w => some (.ffs, w)
  | .popc w => some (.popc, w)
  | .brev w => some (.brev, w)
  | .prmt w => some (.prmt, w)
  | .pset w => some (.pset, w)
  | .p2v w => some (.p2v, w)
  | .v2p w => some (.v2p, w)
  | .idot4 w => some (.idot4, w)
  | .ipack w => some (.ipack, w)
  | .fadd w => some (.fadd, w)
  | .fsub w => some (.fsub, w)
  | .fmul w => some (.fmul, w)
  | .ffma w => some (.ffma, w)
  | .fmin w => some (.fmin, w)
  | .fmax w => some (.fmax, w)
  | .fcmp w => some (.fcmp, w)
  | .fclass w => some (.fclass, w)
  | .frcp w => some (.frcp, w)
  | .frsq w => some (.frsq, w)
  | .fsqrt w => some (.fsqrt, w)
  | .fdiv w => some (.fdiv, w)
  | .fexp2 w => some (.fexp2, w)
  | .flog2 w => some (.flog2, w)
  | .fsinp w => some (.fsinp, w)
  | .fcosp w => some (.fcosp, w)
  | .ftanh w => some (.ftanh, w)
  | .fscale w => some (.fscale, w)
  | .frnd w => some (.frnd, w)
  | .f2i w => some (.f2i, w)
  | .i2f w => some (.i2f, w)
  | .f2f w => some (.f2f, w)
  | .f2n w => some (.f2n, w)
  | .n2f w => some (.n2f, w)
  | .fmaxi w => some (.fmaxi, w)
  | .fdot2 w => some (.fdot2, w)
  | .qswap w => some (.qswap, w)
  | .qbcast w => some (.qbcast, w)
  | .shfl w => some (.shfl, w)
  | .vote w => some (.vote, w)
  | .wred w => some (.wred, w)
  | .wscan w => some (.wscan, w)
  | .matchLanes w => some (.matchLanes, w)
  | .elect w => some (.elect, w)
  | .bar w => some (.bar, w)
  | .regqImm w => some (.regqImm, w)
  | .regqScalar w => some (.regqScalar, w)
  | .ld w => some (.ld, w)
  | .st w => some (.st, w)
  | .lds w => some (.lds, w)
  | .sts w => some (.sts, w)
  | .ldk w => some (.ldk, w)
  | .atom w => some (.atom, w)
  | .atoms w => some (.atoms, w)
  | .bankop w => some (.bankop, w)
  | .fence w => some (.fence, w)
  | .pref w => some (.pref, w)
  | .cctl w => some (.cctl, w)
  | .cpy w => some (.cpy, w)
  | .tcpy w => some (.tcpy, w)
  | .layset w => some (.layset, w)
  | .rfillGet w => some (.rfillGet, w)
  | .rfill w => some (.rfill, w)
  | .rtake w => some (.rtake, w)
  | .rtakeBack w => some (.rtakeBack, w)
  | .rinit w => some (.rinit, w)
  | .ringadv w => some (.ringadv, w)
  | .fxw w => some (.fxw, w)
  | .fxflag w => some (.fxflag, w)
  | .fxrd w => some (.fxrd, w)
  | .fxatom w => some (.fxatom, w)
  | .acwait w => some (.acwait, w)
  | .acread w => some (.acread, w)
  | .mxrsv w => some (.mxrsv, w)
  | .mxrel w => some (.mxrel, w)
  | .wload w => some (.wload, w)
  | .mxmul w => some (.mxmul, w)
  | .mxdrain w => some (.mxdrain, w)
  | .atbl w => some (.atbl, w)
  | .nfset w => some (.nfset, w)
  | .mxstat w => some (.mxstat, w)
  | .enq w => some (.enq, w)
  | .rand w => some (.rand, w)
  | .sysrd w => some (.sysrd, w)
  | .syswr w => some (.syswr, w)
  | .tlbinv w => some (.tlbinv, w)
  | .xret w => some (.xret, w)
  | .ctxsave w => some (.ctxsave, w)
  | .ctxload w => some (.ctxload, w)
  | .trailerCommit _ _ => none
  | .runSelect _ _ => none
  | .rendezvousFire _ _ _ => none
  | .resultLand _ _ _ _ => none
  | .storePerform _ _ _ _ => none
  | .walk _ => none
  | .faultReport _ _ => none
  | .warpRetire _ _ => none
  | .blockRetire _ _ => none
  | .tileTaskStart _ => none
  | .tileTaskRetire _ _ => none
  | .copySegmentStart _ => none
  | .copySegmentBoundary _ _ => none
  | .copySegmentRetire _ _ => none
  | .stagingEntryDone _ _ _ => none
  | .acwaitComplete _ => none
  | .egressPacketSend _ => none
  | .fxwPacketArrive _ _ => none
  | .flagArrive _ _ => none
  | .pendingFlagTimer _ => none
  | .shortfallArrive _ _ => none
  | .failureNoticeArrive _ _ => none
  | .flagAckArrive _ _ => none
  | .flagResendTimer _ => none
  | .remoteReadRequest _ _ => none
  | .remoteReadReply _ _ _ => none
  | .remoteReadRetransmit _ => none
  | .remoteAtomicRequest _ _ => none
  | .remoteAtomicReply _ _ => none
  | .remoteAtomicReissue _ => none
  | .deliveryContextTeardown _ => none
  | .ingestDatagram _ _ => none
  | .submissionPush _ _ => none
  | .nodeOffer _ _ => none
  | .pushRetryTimer _ _ => none
  | .launchFetch _ => none
  | .launchFetchRetry _ => none
  | .launchOpen _ => none
  | .agentClaim _ => none
  | .claimReturn _ => none
  | .ctxsaveDone _ => none
  | .ctxloadDone _ => none
  | .ctxSwitchSave _ => none
  | .ctxSwitchRestore _ => none
  | .invalidationComplete _ => none
  | .hvInvalidateAll => none
  | .hvInvalidateVf _ => none
  | .hvInvalidatePage _ _ => none
  | .hvInvalidateGpa _ _ => none
  | .pageReply _ => none
  | .quoteRequest _ => none
  | .quoteComplete => none
  | .ashapeHostWrite _ _ => none
  | .cadenceWrite _ _ => none
  | .nodeEnable _ _ _ => none
  | .leafEnable _ _ _ => none
  | .counterEnable _ _ => none
  | .counterDisable _ _ => none
  | .ingestRingEnable _ _ => none
  | .ingestRingDisable _ _ => none
  | .keyInstall _ _ => none
  | .keySlotZeroise _ _ => none
  | .peerEnable _ _ => none
  | .portEnableWrite _ _ => none
  | .hostApertureRead _ _ _ => none
  | .hostApertureWrite _ _ _ => none
  | .partitionChangeGo _ => none
  | .partitionQuiesceDone => none
  | .partitionDrainTimeout => none
  | .partitionFlushDone => none
  | .partitionReenumerateDone => none
  | .heartbeatWrite _ => none
  | .watchdogExpire => none
  | .thermalTrip _ => none
  | .thermalTripClear _ => none
  | .thermalPowerOff _ => none
  | .currentLimitRaise _ => none
  | .currentLimitRelease => none
  | .energyBooking _ => none
  | .operatingPointRequest _ _ => none
  | .voltageRampDone _ => none
  | .clockRelockDone _ _ => none
  | .scrubRead _ _ => none
  | .infieldTestSelect => none
  | .infieldTestRun => none
  | .infieldTestEnd _ => none
  | .fwStage _ => none
  | .fwActivatePower _ => none
  | .fwRaiseMinimum _ => none
  | .fwActionComplete => none
  | .deviceReset => none
  | .registerWrite _ _ _ => none
  | .rankLdt _ _ => none
  | .rankLdn _ _ => none
  | .rankLdf _ _ _ => none
  | .rankStn _ _ => none
  | .rankStf _ _ _ => none
  | .rankAdd _ _ _ => none
  | .rankAddi _ _ _ => none
  | .rankSub _ _ _ => none
  | .rankMul _ _ _ => none
  | .rankShl _ _ _ => none
  | .rankShr _ _ _ => none
  | .rankMin _ _ _ _ => none
  | .rankMax _ _ _ _ => none
  | .rankAnd _ _ _ => none
  | .rankOr _ _ _ => none
  | .rankCmplt _ _ _ _ => none
  | .rankSel _ _ _ _ => none
  | .rankNow _ _ => none
  | .rankEmit _ => none
  | .rankRefuse _ => none
  | .translationConsumerWrite _ _ => none

end Sys2Proof
end

