-- ==== Sys2Proof/Machine/Fields.lean ====
section
/-!
DEFINITION. The opcode map (11 R226), the scopes and types each operation accepts, and the checks of
reserved and unused fields that make an encoding illegal (11 R225 and the field table of every
instruction chapter).
-/
namespace Sys2Proof

/-- The six forms of 11 R219. -/
inductive Form where
  | A | I | O | M | C | B
  deriving DecidableEq, Repr

def Ext.form : Ext → Form
  | .none => .A
  | .imm _ => .I
  | .opnd _ _ _ _ => .O
  | .mem _ => .M
  | .cmd _ _ => .C
  | .disp _ _ => .B

/-- The opcode byte (11 R226). -/
def Op.code : Op → Nat
  | .nop => 0x01 | .runend => 0x02 | .bra => 0x03 | .brx => 0x04 | .call => 0x05 | .ret => 0x06
  | .exit => 0x07 | .loop => 0x08 | .lbrk => 0x09 | .wait => 0x0A | .pause => 0x0B | .trap => 0x0C
  | .bkpt => 0x0D
  | .iadd => 0x10 | .isub => 0x11 | .imul => 0x12 | .imulh => 0x13 | .imad => 0x14 | .idiv => 0x15
  | .irem => 0x16 | .imin => 0x17 | .imax => 0x18 | .iabs => 0x19 | .ineg => 0x1A | .iaddc => 0x1B
  | .icmp => 0x1C | .sel => 0x1D | .mov => 0x1E | .lea => 0x1F | .and => 0x20 | .or => 0x21
  | .xor => 0x22 | .not => 0x23 | .andn => 0x24 | .shl => 0x25 | .shr => 0x26 | .sar => 0x27
  | .rot => 0x28 | .fshf => 0x29 | .bfx => 0x2A | .bfi => 0x2B | .clz => 0x2C | .ffs => 0x2D
  | .popc => 0x2E | .brev => 0x2F | .prmt => 0x30 | .pset => 0x31 | .p2v => 0x32 | .v2p => 0x33
  | .idot4 => 0x34 | .ipack => 0x35
  | .fadd => 0x40 | .fsub => 0x41 | .fmul => 0x42 | .ffma => 0x43 | .fmin => 0x44 | .fmax => 0x45
  | .fcmp => 0x46 | .fclass => 0x47 | .frcp => 0x48 | .frsq => 0x49 | .fsqrt => 0x4A | .fdiv => 0x4B
  | .fexp2 => 0x4C | .flog2 => 0x4D | .fsinp => 0x4E | .fcosp => 0x4F | .ftanh => 0x50
  | .fscale => 0x51 | .frnd => 0x52 | .f2i => 0x53 | .i2f => 0x54 | .f2f => 0x55 | .f2n => 0x56
  | .n2f => 0x57 | .fmaxi => 0x58 | .fdot2 => 0x59
  | .qswap => 0x60 | .qbcast => 0x61 | .shfl => 0x62 | .vote => 0x63 | .wred => 0x64 | .wscan => 0x65
  | .matchLanes => 0x66 | .elect => 0x67 | .bar => 0x68 | .regqImm => 0x69 | .regqScalar => 0x69
  | .ld => 0x70 | .st => 0x71 | .lds => 0x72 | .sts => 0x73 | .ldk => 0x74 | .atom => 0x75
  | .atoms => 0x76 | .bankop => 0x77 | .fence => 0x78 | .pref => 0x79 | .cctl => 0x7A
  | .cpy => 0x90 | .tcpy => 0x91 | .layset => 0x92 | .rfillGet => 0x93 | .rfill => 0x93
  | .rtake => 0x94 | .rtakeBack => 0x94 | .rinit => 0x95 | .ringadv => 0x96
  | .fxw => 0xA0 | .fxflag => 0xA1 | .fxrd => 0xA2 | .fxatom => 0xA3 | .acwait => 0xA4 | .acread => 0xA5
  | .mxrsv => 0xB0 | .mxrel => 0xB1 | .wload => 0xB2 | .mxmul => 0xB3 | .mxdrain => 0xB4
  | .atbl => 0xB5 | .nfset => 0xB6 | .mxstat => 0xB7
  | .enq => 0xC0 | .rand => 0xC1 | .sysrd => 0xC2 | .syswr => 0xC3 | .tlbinv => 0xC4 | .xret => 0xC5
  | .ctxsave => 0xC6 | .ctxload => 0xC7

/-- The forms of an operation (11 R226). -/
def Op.forms : Op → List Form
  | .nop | .runend | .pause | .bar | .nfset | .rand => [.A, .I]
  | .bra | .loop => [.B]
  | .brx | .call | .wait | .trap | .sysrd | .syswr | .regqImm => [.I]
  | .ret | .exit | .lbrk | .bkpt | .regqScalar => [.A]
  | .imad | .fshf | .bfx | .bfi | .prmt | .idot4 | .ffma | .fdot2 => [.O]
  | .iabs | .ineg | .not | .clz | .ffs | .popc | .brev | .pset | .p2v | .v2p
  | .fclass | .frcp | .frsq | .fsqrt | .fexp2 | .flog2 | .fsinp | .fcosp | .ftanh | .frnd | .f2i
  | .i2f | .f2f | .f2n | .n2f | .fmaxi | .qswap | .qbcast | .vote | .matchLanes | .fence
  | .cpy | .tcpy | .rfillGet | .rfill | .rtake | .rtakeBack | .ringadv | .fxw | .fxflag | .fxrd
  | .fxatom | .acwait | .acread | .mxrsv | .mxrel | .mxstat | .enq | .tlbinv | .xret | .ctxsave
  | .ctxload => [.A]
  | .ld | .st | .lds | .sts | .ldk | .atom | .atoms | .bankop | .pref | .cctl => [.M]
  | .layset | .rinit | .wload | .mxmul | .mxdrain | .atbl => [.C]
  | .iadd | .isub | .imul | .imulh | .idiv | .irem | .imin | .imax | .iaddc | .icmp | .sel | .mov
  | .lea | .and | .or | .xor | .andn | .shl | .shr | .sar | .rot | .ipack
  | .fadd | .fsub | .fmul | .fmin | .fmax | .fcmp | .fdiv | .fscale
  | .shfl | .wred | .wscan | .elect => [.A, .I, .O]

/-- What latency the result of an operation has (11 R226). -/
inductive Lat where
  | fixed (n : Nat)
  | var
  | none
  | trailer
  | fault
  deriving DecidableEq, Repr

def Ty.width : Ty → Nat
  | .i8 | .n8 => 8
  | .i16 | .n16 | .f16 | .bf16 => 16
  | .b32 | .i32 | .n32 | .f32 | .h2 | .bh2 => 32
  | .i64 | .b64 | .n64 => 64
  | .nf => 8

def Ty.is64 (t : Ty) : Bool := t.width == 64

/-- An i type: its fields are read and extended as two's complement (12 R229). -/
def Ty.signed : Ty → Bool
  | .i8 | .i16 | .i32 | .i64 => true
  | _ => false

/-- Latency of an operation at a type (11 R226; 64-bit integer types add 2, IDIV and IREM take 40). -/
def Op.lat (o : Op) (t : Ty) : Lat :=
  match o with
  | .nop | .runend | .wait | .pause | .bar | .st | .sts | .bankop | .fence | .pref | .cctl | .layset
  | .rfill | .rtakeBack | .rinit | .mxrel | .wload | .mxmul | .atbl | .enq | .syswr | .tlbinv
  | .ctxsave | .ctxload => .none
  | .bra | .brx | .call | .ret | .exit | .loop | .lbrk | .xret => .trailer
  | .trap | .bkpt => .fault
  | .idiv | .irem => .fixed (if t.is64 then 40 else 24)
  | .imul | .imulh | .imad | .idot4 => .fixed (if t.is64 then 8 else 6)
  | .iadd | .isub | .imin | .imax | .iabs | .ineg | .iaddc | .icmp | .sel | .mov | .lea | .and | .or
  | .xor | .not | .andn | .shl | .shr | .sar | .rot | .fshf | .bfx | .bfi | .clz | .ffs | .popc | .brev
  | .prmt | .pset | .p2v | .v2p | .ipack => .fixed (if t.is64 then 6 else 4)
  | .fadd | .fsub | .fmul | .ffma | .fmin | .fmax | .fcmp | .fclass | .fscale | .frnd | .f2i | .i2f
  | .f2f | .f2n | .n2f | .fmaxi => .fixed 4
  | .fdot2 => .fixed 6
  | .frcp | .frsq | .fsqrt | .fdiv | .fexp2 | .flog2 | .fsinp | .fcosp | .ftanh => .var
  | .qswap | .qbcast | .elect => .fixed 4
  | .shfl | .vote => .fixed 6
  | .wred => .fixed 10
  | .wscan => .fixed 12
  | .matchLanes => .fixed 8
  | .regqImm | .regqScalar => .fixed 8
  | .ld | .lds | .ldk | .atom | .atoms => .var
  | .cpy | .tcpy | .fxw | .fxflag | .fxrd | .fxatom | .acwait | .acread | .mxdrain => .var
  | .rfillGet | .rtake => .fixed 4
  | .ringadv => .fixed 16
  | .mxrsv | .mxstat => .fixed 8
  | .nfset => .fixed 4
  | .rand => .fixed 16
  | .sysrd => .fixed 8

/-- The scopes an operation accepts; any other is illegal_scope (03 R62 and each description). -/
def Op.scopes : Op → List Scope
  | .nop => [.lane, .warp, .set, .block]
  | .runend | .bra | .brx | .call | .ret | .exit | .loop | .lbrk | .wait | .pause | .trap | .bkpt => [.lane]
  | .iadd | .isub | .imul | .imulh | .imad | .idiv | .irem | .imin | .imax | .iabs | .ineg | .iaddc
  | .icmp | .sel | .mov | .lea | .and | .or | .xor | .not | .andn | .shl | .shr | .sar | .rot | .fshf
  | .bfx | .bfi | .clz | .ffs | .popc | .brev | .prmt | .pset | .p2v | .v2p | .idot4 | .ipack =>
    [.lane, .set, .block]
  | .fadd | .fsub | .fmul | .ffma | .fmin | .fmax | .fcmp | .fclass | .frcp | .frsq | .fsqrt | .fdiv
  | .fexp2 | .flog2 | .fsinp | .fcosp | .ftanh | .fscale | .frnd | .f2i | .i2f | .f2f | .f2n | .n2f
  | .fmaxi | .fdot2 => [.lane, .warp, .set, .block]
  | .qswap | .qbcast | .shfl | .vote | .wred | .wscan | .matchLanes | .elect | .bar => [.warp]
  | .regqImm | .regqScalar | .rinit => [.block]
  | .ld | .st | .lds | .sts | .ldk | .atom | .atoms | .bankop | .fence | .pref | .cctl | .cpy | .rand =>
    [.lane, .set, .block]
  | .tcpy | .layset | .nfset | .mxstat => [.warp, .set, .block]
  | .rfillGet | .rfill | .rtake | .rtakeBack | .mxrsv => [.warp, .set]
  | .ringadv | .fxw | .fxflag | .fxrd | .fxatom | .acwait | .acread | .enq | .sysrd | .syswr | .tlbinv
  | .xret | .ctxsave | .ctxload => [.warp]
  | .mxrel | .wload | .mxmul | .mxdrain | .atbl => [.set]

def intTys : List Ty := [.i8, .i16, .i32, .i64, .n8, .n16, .n32, .n64]
def fsTys : List Ty := [.f32, .f16, .bf16]
def fpTys : List Ty := [.f32, .f16, .bf16, .h2, .bh2]

/-- The types of a reduction or scan operation code (14 R278). -/
def redTys (k : Nat) : List Ty :=
  if k < 3 then [.i32, .n32, .i64, .n64, .f32] else if k < 6 then [.b32, .b64] else [.f16, .bf16, .f32]

/-- The types of an atomic operation code (15 R309). -/
def atomTys (k : Nat) : List Ty :=
  if k < 3 then [.i32, .n32, .i64, .n64, .f32] else [.b32, .b64]

/-- The types of a bank operation code (15 R313). -/
def bankTys (k : Nat) : List Ty := if k < 4 then [.i32, .n32, .f32] else [.f32]

/-- The accepted types (12 R231, 13 R255, 14, 15 R301, 16 R319, 17 R334). -/
def Op.types (o : Op) (w : Z1) : List Ty :=
  match o with
  | .iadd | .isub | .imul | .imad | .icmp => intTys ++ [.b32, .b64]
  | .imulh | .idiv | .irem | .imin | .imax => intTys
  | .iabs | .ineg => [.i8, .i16, .i32, .i64]
  | .iaddc => [.b32, .i32, .n32]
  | .sel | .mov | .and | .or | .xor | .not | .andn | .shl | .shr | .sar | .rot | .bfi
  | .qswap | .qbcast | .shfl | .matchLanes => [.b32, .b64]
  | .lea => [.n32, .n64]
  | .bfx => [.i32, .i64, .n32, .n64]
  | .clz | .ffs | .popc | .brev => [.n8, .n16, .n32, .n64, .b32, .b64]
  | .idot4 => [.i32, .n32]
  | .ipack => [.i8, .i16, .n8, .n16]
  | .fadd | .fsub | .fmul | .ffma | .fmin | .fmax | .fclass | .fscale | .frnd | .f2f => fpTys
  | .fcmp | .frcp | .frsq | .fsqrt | .fdiv | .fexp2 | .flog2 | .fsinp | .fcosp | .ftanh | .i2f | .n2f
  | .fmaxi => fsTys
  | .f2i => intTys
  | .f2n => [.nf]
  | .fdot2 => [.h2, .bh2]
  | .wred | .wscan => redTys (fld w.mod 3 0)
  | .ld | .st | .lds | .sts | .ldk =>
    if fld w.mod 1 0 = 0 then intTys ++ [.f16, .bf16, .b32, .f32, .h2, .bh2, .b64]
    else if fld w.mod 1 0 = 1 then [.b32, .i32, .n32, .f32, .h2, .bh2, .b64, .i64, .n64]
    else if fld w.mod 1 0 = 2 then [.b32, .i32, .n32, .f32, .h2, .bh2] else []
  | .atom | .atoms | .fxatom => atomTys (fld w.mod 2 0)
  | .bankop => bankTys (fld w.mod 2 0)
  | _ => [.b32]

/-- The low bits of an immediate that an 8- or 16-bit type has (11 R218). -/
def immFits (t : Ty) (i : Word) : Bool := 32 ≤ t.width || decide (i.toNat < 2 ^ t.width)

/-- The extension of a two-source instruction (11 R220). -/
def ext2 (wide : Bool) (w : Z1) : Bool :=
  match w.ext with
  | .imm i => w.b == 0 && (wide || immFits w.ty i)
  | .opnd sx isel c i =>
    isel == 1 && w.b == 0 && c == 0 && (!sx || w.ty.is64) && (wide || immFits w.ty i)
  | _ => true

/-- The extension of a three-source instruction in form O (11 R220). -/
def ext3 (wide : Bool) (w : Z1) : Bool :=
  match w.ext with
  | .opnd sx isel c i =>
    (if isel == 0 then i == 0
     else if isel == 1 then w.b == 0 else isel == 2 && c == 0)
    && (!sx || w.ty.is64) && (wide || immFits w.ty i)
  | _ => true

/-- The mask arrangement of 14 R278: in form A a register when masked is set, else zero. -/
def extMask (masked : Bool) (w : Z1) : Bool :=
  match w.ext with
  | .none => masked || w.b == 0
  | .imm _ => masked && w.b == 0
  | .opnd sx isel c _ => masked && isel == 1 && w.b == 0 && c == 0 && (!sx || w.ty.is64)
  | _ => true

/-- No unused descriptor field is set (11 R221). -/
def memFits (w : Z1) : Bool :=
  match w.ext with
  | .mem m =>
    (if m.idxP then decide (m.scale.toNat ≤ 4) else m.scale == 0 && m.index == 0) && (m.baseP || m.base == 0)
  | _ => true

/-- The numbers of the system registers (17 R349). -/
def sysRegOk (n : Nat) : Bool :=
  decide (n ≤ 1) || (decide (0x10 ≤ n) && decide (n ≤ 0x23)) || n == 0x28 || n == 0x29
  || (decide (0x30 ≤ n) && decide (n ≤ 0x36)) || n == 0x40 || n == 0x41 || n == 0x100 || n == 0x101

/-- A guard of 0b0111. -/
def noGuard (w : Z1) : Bool := w.guardP == 7 && !w.guardNeg

def immOf : Ext → Word
  | .imm i => i
  | .opnd _ _ _ i => i
  | _ => 0

def cmd0 : Ext → Word
  | .cmd w0 _ => w0
  | .disp f _ => f
  | _ => 0

def cmd1 : Ext → Word
  | .cmd _ w1 => w1
  | .disp _ s => s
  | _ => 0

/-- Bits hi down to lo are zero. -/
def zf {n : Nat} (x : BitVec n) (hi lo : Nat) : Bool := fld x hi lo == 0

/-- The data count of a memory descriptor's descriptor being all zero (15 R317). -/
def memZero (w : Z1) : Bool :=
  match w.ext with
  | .mem m => !m.idxP && !m.baseP && m.scale == 0 && m.index == 0 && m.base == 0 && m.off == 0
  | _ => true

/-- The checks of reserved bits, unused fields and modifier values of each operation (11 R225). -/
def Op.fieldsOk (o : Op) (w : Z1) : Bool :=
  let d0 := w.d == 0
  let a0 := w.a == 0
  let b0 := w.b == 0
  let m0 := w.mod == 0
  let i := immOf w.ext
  let x := cmd0 w.ext
  let y := cmd1 w.ext
  match o with
  | .nop => d0 && a0 && b0 && m0 && i == 0
  | .runend =>
    let n := fld w.mod 2 0
    noGuard w && zf w.mod 6 3 && decide (n ≤ 5) && (n ≥ 1 || d0) && (n ≥ 2 || a0) && (n ≥ 3 || b0) &&
    (match w.ext with
     | .imm i => (n ≥ 4 || zf i 10 0) && (n ≥ 5 || zf i 21 11) && zf i 31 22
     | _ => decide (n ≤ 3))
  | .bra => d0 && a0 && b0 && zf w.mod 6 1 && (if fld w.mod 0 0 = 1 then y == 0 else y != 0)
  | .brx => d0 && b0 && zf w.mod 6 1 && (if fld w.mod 0 0 = 1 then i == 0 else i != 0)
  | .call => noGuard w && a0 && b0 && m0
  | .ret => noGuard w && d0 && b0 && m0
  | .exit => d0 && a0 && b0 && m0
  | .loop => noGuard w && d0 && b0 && m0 && (a0 || y == 0)
  | .lbrk => noGuard w && d0 && a0 && b0 && m0
  | .wait => noGuard w && d0 && a0 && b0 && m0 && zf i 31 30 && zf i 23 22 && zf i 15 14 && zf i 7 6
  | .pause => d0 && b0 && m0 && (match w.ext with | .imm i => a0 && zf i 31 16 | _ => true)
  | .trap => d0 && a0 && b0 && m0 && zf i 31 16
  | .bkpt => d0 && a0 && b0 && m0
  | .iadd | .isub =>
    ext2 false w && zf w.mod 6 1 && (fld w.mod 0 0 = 0 || (w.ty != .b32 && w.ty != .b64))
  | .imul | .imulh | .idiv | .irem | .imin | .imax | .and | .or | .xor | .andn => ext2 false w && m0
  | .shl | .shr | .sar | .rot => ext2 true w && m0
  | .imad => ext3 false w && m0
  | .iabs | .ineg => b0 && zf w.mod 6 1
  | .iaddc => ext2 false w && (fld w.mod 6 6 = 1 || zf w.mod 5 3)
  | .icmp => d0 && ext2 false w && decide (fld w.mod 6 3 ≤ 5)
  | .sel => ext2 false w && zf w.mod 6 4
  | .mov => m0 && b0 && (match w.ext with
      | .imm _ => a0
      | .opnd sx isel c _ => isel == 1 && a0 && c == 0 && (!sx || w.ty.is64)
      | _ => true)
  | .lea => ext2 true w && decide (fld w.mod 2 0 ≤ 4) && (fld w.mod 3 3 = 0 || w.ty == .n64) && zf w.mod 6 4
  | .not | .clz | .ffs | .popc | .brev => b0 && m0
  | .fshf => ext3 false w && zf w.mod 6 1
  | .bfx | .bfi | .prmt => ext3 false w && m0
  | .pset => d0 && zf w.a 10 4 && zf w.b 10 4
  | .p2v => a0 && b0 && m0
  | .v2p => d0 && b0
  | .idot4 => ext3 false w && zf w.mod 6 3
  | .ipack => zf w.mod 6 1 &&
    (if w.ty == .i16 || w.ty == .n16 then ext2 true w
     else match w.ext with | .opnd _ _ _ _ => ext3 true w | _ => ext2 true w)
  | .fadd | .fsub | .fmul | .fdiv => ext2 false w && zf w.mod 6 2
  | .ffma | .fdot2 => ext3 false w && zf w.mod 6 2
  | .fmin | .fmax => ext2 false w && m0
  | .fcmp => d0 && ext2 false w
  | .fclass => b0 && m0
  | .frcp | .frsq | .fsqrt | .fexp2 | .flog2 | .fsinp | .fcosp | .ftanh => b0 && zf w.mod 6 2
  | .fscale => ext2 true w && zf w.mod 6 2
  | .frnd => b0 && zf w.mod 6 3
  | .f2i => b0 && fld w.mod 3 2 != 3 && zf w.mod 6 4
  | .i2f => b0 && zf w.mod 6 5
  | .f2f => fld w.mod 3 2 != 3 && zf w.mod 6 4 &&
    (if w.ty == .h2 || w.ty == .bh2 then zf w.mod 3 2 else b0)
  | .f2n => b0 && zf w.mod 1 0 && fld w.mod 3 2 != 3
  | .n2f => b0 && zf w.mod 3 2
  | .fmaxi => m0
  | .qswap => b0 && fld w.mod 1 0 != 3 && zf w.mod 6 2
  | .qbcast => b0 && zf w.mod 6 2
  | .shfl => decide (fld w.mod 2 0 ≤ 4) && decide (fld w.mod 5 3 ≤ 4) &&
    (match w.ext with | .opnd _ _ _ _ => ext3 true w | _ => ext2 true w)
  | .vote => zf w.a 10 4 && decide (fld w.mod 5 3 ≤ 4) && (fld w.mod 6 6 = 1 || b0) &&
    (if fld w.mod 5 3 ≤ 2 then d0 else zf w.mod 2 0)
  | .wred => decide (fld w.mod 3 0 ≤ 6) && extMask (fld w.mod 4 4 = 1) w &&
    (zf w.mod 6 5 || (fld w.mod 3 0 = 0 && w.ty == .f32))
  | .wscan => decide (fld w.mod 3 0 ≤ 5) && extMask (fld w.mod 4 4 = 1) w && zf w.mod 6 6
  | .matchLanes => b0 && zf w.mod 6 3
  | .elect => extMask (fld w.mod 3 3 = 1) w && fld w.mod 6 5 != 3 && (fld w.mod 6 5 = 2 || a0) &&
    (fld w.mod 4 4 = 1 || d0)
  | .bar => d0 && a0 && b0 && zf w.mod 6 4 && zf i 31 6
  | .regqImm => d0 && a0 && b0 && zf w.mod 6 3 && zf i 31 15
  | .regqScalar => d0 && b0 && zf w.mod 6 3 && decide (1536 ≤ w.a.toNat) && decide (w.a.toNat ≤ 1599)
  | .ld => a0 && b0 && zf w.mod 6 4 && memFits w
  | .st => d0 && b0 && zf w.mod 6 4 && memFits w
  | .lds => a0 && b0 && zf w.mod 6 3 && memFits w
  | .sts => d0 && b0 && zf w.mod 6 3 && memFits w
  | .ldk => a0 && b0 && zf w.mod 6 2 && memFits w
  | .atom | .atoms => zf w.mod 6 6 && (fld w.mod 5 5 = 1 || d0) && (fld w.mod 2 0 = 7 || b0) && memFits w
  | .bankop => d0 && decide (fld w.mod 2 0 ≤ 4) && zf w.mod 6 4 && (fld w.mod 2 0 = 4 || b0) && memFits w
  | .fence => d0 && a0 && b0 && zf w.mod 6 4
  | .pref => d0 && a0 && b0 && zf w.mod 6 1 && memFits w
  | .cctl => d0 && a0 && b0 && decide (fld w.mod 2 0 ≤ 5) && zf w.mod 6 3 && memFits w &&
    ((fld w.mod 2 0 != 3 && fld w.mod 2 0 != 5) || memZero w)
  | .cpy => fld w.mod 1 0 != 3 && zf w.mod 6 4
  | .tcpy => b0 && zf w.a 10 3 && (fld w.mod 6 6 = 1 || a0)
  | .layset => d0 && b0 && m0 && zf x 31 9 && decide (fld x 6 4 ≤ 4)
  | .rfillGet => a0 && b0 && zf w.mod 1 1 && zf w.mod 6 6 && fld w.mod 0 0 = 1
  | .rfill => d0 && a0 && b0 && zf w.mod 1 1 && zf w.mod 6 6 && fld w.mod 0 0 = 0
  | .rtake => a0 && b0 && zf w.mod 1 1 && zf w.mod 6 6 && fld w.mod 0 0 = 0
  | .rtakeBack => d0 && a0 && b0 && zf w.mod 1 1 && zf w.mod 6 6 && fld w.mod 0 0 = 1
  | .rinit => d0 && a0 && b0 && m0 && zf x 31 24 && zf y 31 25 && zf y 19 17 && fld x 19 0 % 16 = 0 &&
    fld y 16 0 % 16 = 0 && decide (16 ≤ fld y 16 0) && decide (fld y 16 0 ≤ 65536) &&
    decide (1 ≤ fld y 24 20) && decide (fld y 24 20 ≤ 16)
  | .ringadv => d0 && zf w.mod 6 3
  | .fxw | .fxflag | .fxrd => b0 && m0
  | .fxatom => b0 && zf w.mod 6 5
  | .acwait => m0
  | .acread => b0 && m0
  | .mxrsv => d0 && a0 && b0 && zf w.mod 6 5
  | .mxrel => d0 && a0 && b0 && zf w.mod 6 2
  | .wload => d0 && b0 && m0 && zf x 31 28 && zf y 31 16
  | .mxmul => d0 && b0 && m0 && zf y 31 26 && decide (fld x 25 20 + fld x 31 26 + 1 ≤ 64)
  | .mxdrain => a0 && b0 && m0 && zf x 26 17 && zf y 31 7 && decide (fld y 2 0 ≤ 3) &&
    decide (fld x 7 2 + fld x 13 8 + 1 ≤ 64) && (fld y 2 0 = 0 || fld x 31 31 = 1) &&
    (fld y 2 0 = 3 || zf y 5 3)
  | .atbl => d0 && b0 && m0 && zf x 31 24 && fld x 23 22 != 3 &&
    (if fld x 23 22 = 2 then zf y 31 8 else zf y 31 16 && decide (fld y 7 0 + fld y 15 8 + 1 ≤ 256))
  | .nfset => d0 && b0 && zf w.mod 6 3 && (match w.ext with | .imm i => a0 && zf i 31 16 | _ => true)
  | .mxstat => a0 && b0 && zf w.mod 6 3
  | .enq => d0 && m0
  | .rand => zf w.mod 6 5 && (match w.ext with | .imm _ => b0 | _ => true)
  | .sysrd => a0 && b0 && m0 && zf i 31 12 && sysRegOk (fld i 11 0)
  | .syswr => d0 && b0 && m0 && zf i 31 12 && sysRegOk (fld i 11 0)
  | .tlbinv => d0 && zf w.mod 6 2 && (fld w.mod 1 0 ≥ 2 || a0) && (fld w.mod 1 0 ≥ 1 || b0)
  | .xret => d0 && b0 && fld w.mod 1 0 != 3 && zf w.mod 6 2
  | .ctxsave => d0 && m0
  | .ctxload => d0 && b0 && m0

/-- The encoding of an instruction is legal: its form and type are accepted and its fields are (R225). -/
def Op.legal (o : Op) (w : Z1) : Bool :=
  o.forms.contains w.ext.form && (o.types w).contains w.ty && o.fieldsOk w

end Sys2Proof
end

