-- ==== Sys2Proof/WellFormed.lean ====
section
/-!
DEFINITION. Which terms of Instr an encoding exists for: a legal Z1 record (11 R225), and any rank
instruction that the tree's check accepts (23 R414). The other rows are no encoded instructions.
-/
namespace Sys2Proof

/-- A rank program's instruction is one the tree accepts when the program is enabled (23 R414): field
number at most 13, and NOW's selector not 3. -/
def rankLegal : Instr → Bool
  | .rankLdt _ f => decide (f.toNat ≤ 13)
  | .rankNow _ s => decide (s.toNat ≤ 2)
  | _ => true

/-- The terms that an encoding stands for. -/
def Instr.wf (i : Instr) : Bool :=
  match i.z1? with
  | some (o, w) => o.legal w
  | none => rankLegal i

end Sys2Proof
end

