-- ==== Sys2Proof/Decode.lean ====
section
/-!
DEFINITION. The decoder of Z1 instructions (11 R211 to R226) and of rank-program words (23 R412 to
R414), total on any bytes and rejecting by name, and the encoder written from the same field maps.
-/
namespace Sys2Proof

/-- What the decoder answers: an instruction and its length in bytes, or the fault of 11 R225.
`short` is answered when fewer bytes are given than the length code asks for. -/
inductive Decoded where
  | ok (i : Instr) (len : Nat)
  | illegalOpcode
  | illegalEncoding
  | short
  deriving DecidableEq, Repr

def allOps : List Op :=
  [.nop, .runend, .bra, .brx, .call, .ret, .exit, .loop, .lbrk, .wait, .pause, .trap, .bkpt]
  ++ [.iadd, .isub, .imul, .imulh, .imad, .idiv, .irem, .imin, .imax, .iabs, .ineg, .iaddc, .icmp,
      .sel, .mov, .lea, .and, .or, .xor, .not, .andn, .shl, .shr, .sar, .rot, .fshf, .bfx, .bfi]
  ++ [.clz, .ffs, .popc, .brev, .prmt, .pset, .p2v, .v2p, .idot4, .ipack, .fadd, .fsub, .fmul, .ffma,
      .fmin, .fmax, .fcmp, .fclass, .frcp, .frsq, .fsqrt, .fdiv, .fexp2, .flog2, .fsinp, .fcosp]
  ++ [.ftanh, .fscale, .frnd, .f2i, .i2f, .f2f, .f2n, .n2f, .fmaxi, .fdot2, .qswap, .qbcast, .shfl,
      .vote, .wred, .wscan, .matchLanes, .elect, .bar, .regqImm, .regqScalar, .ld, .st, .lds, .sts]
  ++ [.ldk, .atom, .atoms, .bankop, .fence, .pref, .cctl, .cpy, .tcpy, .layset, .rfillGet, .rfill,
      .rtake, .rtakeBack, .rinit, .ringadv, .fxw, .fxflag, .fxrd, .fxatom, .acwait, .acread, .mxrsv]
  ++ [.mxrel, .wload, .mxmul, .mxdrain, .atbl, .nfset, .mxstat, .enq, .rand, .sysrd, .syswr, .tlbinv,
      .xret, .ctxsave, .ctxload]

/-- The operation of an opcode byte (11 R226); REGQ's two rows differ in the length code (03 R72),
RFILL's and RTAKE's in modifier bit 0 (16 R319). -/
def opOfCode (code lenCode mod0 : Nat) : Option Op :=
  match allOps.find? (fun o => o.code == code) with
  | some .regqImm => some (if lenCode = 0 then .regqScalar else .regqImm)
  | some .rfillGet => some (if mod0 = 1 then .rfillGet else .rfill)
  | some .rtake => some (if mod0 = 1 then .rtakeBack else .rtake)
  | o => o

def Scope.code : Scope → Nat
  | .lane => 0 | .warp => 1 | .set => 2 | .block => 3

def Scope.ofCode (n : Nat) : Scope :=
  if n = 0 then .lane else if n = 1 then .warp else if n = 2 then .set else .block

/-- The type codes of 11 R216. -/
def Ty.code : Ty → Nat
  | .b32 => 0 | .i8 => 1 | .i16 => 2 | .i32 => 3 | .i64 => 4 | .n8 => 5 | .n16 => 6 | .b64 => 7
  | .n32 => 8 | .n64 => 9 | .f16 => 10 | .bf16 => 11 | .f32 => 12 | .h2 => 13 | .bh2 => 14 | .nf => 15

def Ty.ofCode (n : Nat) : Ty :=
  match n with
  | 0 => .b32 | 1 => .i8 | 2 => .i16 | 3 => .i32 | 4 => .i64 | 5 => .n8 | 6 => .n16 | 7 => .b64
  | 8 => .n32 | 9 => .n64 | 10 => .f16 | 11 => .bf16 | 12 => .f32 | 13 => .h2 | 14 => .bh2 | _ => .nf

/-- The 128-bit form of an operation, if it has one. -/
def Op.longForm (o : Op) : Option Form := o.forms.find? (fun f => f != .A && f != .I)

/-- Bytes of an instruction by its length code (11 R211); 0b11 counts as 8 (R212). -/
def lenOfCode (c : Nat) : Nat := if c = 1 then 12 else if c = 2 then 16 else 8

/-- The extension words of an operation, from bits 64 up (11 R218 to R223); none where a reserved bit
is set or the operation has no such form. -/
def decodeExt (o : Op) (lenCode x : Nat) : Option Ext :=
  if lenCode = 0 then some .none
  else if lenCode = 1 then some (.imm (BitVec.ofNat 32 x))
  else if lenCode = 2 then
    let hi := x / 2 ^ 32 % 2 ^ 32
    match o.longForm with
    | some .O =>
      if hi / 2 ^ 14 = 0 then
        some (.opnd (hi / 2 ^ 13 % 2 == 1) (BitVec.ofNat 2 (hi / 2 ^ 11)) (BitVec.ofNat 11 hi) (BitVec.ofNat 32 x))
      else none
    | some .M =>
      if hi / 2 ^ 27 = 0 then
        some (.mem { idxP := hi / 2 ^ 26 % 2 == 1, baseP := hi / 2 ^ 25 % 2 == 1
                     scale := BitVec.ofNat 3 (hi / 2 ^ 22), index := BitVec.ofNat 11 (hi / 2 ^ 11)
                     base := BitVec.ofNat 11 hi, off := BitVec.ofNat 32 x })
      else none
    | some .C => some (.cmd (BitVec.ofNat 32 x) (BitVec.ofNat 32 hi))
    | some .B => some (.disp (BitVec.ofNat 32 x) (BitVec.ofNat 32 hi))
    | _ => none
  else none

/-- The core word's fields (11 R215) around an extension. -/
def decodeFields (c : Nat) (e : Ext) : Z1 :=
  { ext := e, scope := Scope.ofCode (c / 2 ^ 2 % 4), giveWay := c / 2 ^ 4 % 2 == 1
    gap := BitVec.ofNat 3 (c / 2 ^ 5), guardP := BitVec.ofNat 3 (c / 2 ^ 8)
    guardNeg := c / 2 ^ 11 % 2 == 1, ty := Ty.ofCode (c / 2 ^ 20 % 16)
    d := BitVec.ofNat 11 (c / 2 ^ 24), a := BitVec.ofNat 11 (c / 2 ^ 35)
    b := BitVec.ofNat 11 (c / 2 ^ 46), mod := BitVec.ofNat 7 (c / 2 ^ 57) }

/-- Decode a core word and the 64 bits after it (11 R225 from illegal_opcode on). -/
def decodeWords (c x : Nat) : Decoded :=
  match opOfCode (c / 2 ^ 12 % 256) (c % 4) (c / 2 ^ 57 % 2) with
  | none => .illegalOpcode
  | some o =>
    match decodeExt o (c % 4) x with
    | none => .illegalEncoding
    | some e =>
      if o.legal (decodeFields c e) then .ok (Instr.ofOp o (decodeFields c e)) (lenOfCode (c % 4))
      else .illegalEncoding

/-- Decode the instruction at the front of a list of bytes. -/
def decodeBytes (bs : List Byte) : Decoded :=
  if bs.length < 8 then .short
  else
    let c := ofBytes (bs.take 8)
    let n := lenOfCode (c % 4)
    if bs.length < n then .short else decodeWords c (ofBytes ((bs.drop 8).take (n - 8)))

/-- The length code of an extension (11 R211, R219). -/
def Ext.lenCode : Ext → Nat
  | .none => 0
  | .imm _ => 1
  | _ => 2

/-- The bits from 64 up. -/
def Ext.bits : Ext → Nat
  | .none => 0
  | .imm i => i.toNat
  | .opnd sx isel c i => i.toNat + 2 ^ 32 * (c.toNat + 2 ^ 11 * (isel.toNat + 4 * sx.toNat))
  | .mem m => m.off.toNat + 2 ^ 32 * (m.base.toNat + 2 ^ 11 * (m.index.toNat + 2 ^ 11 *
      (m.scale.toNat + 8 * (m.baseP.toNat + 2 * m.idxP.toNat))))
  | .cmd w0 w1 => w0.toNat + 2 ^ 32 * w1.toNat
  | .disp f s => f.toNat + 2 ^ 32 * s.toNat

/-- The core word (11 R215). -/
def encodeCore (o : Op) (w : Z1) : Nat :=
  w.ext.lenCode + 4 * (w.scope.code + 4 * (w.giveWay.toNat + 2 * (w.gap.toNat + 8 * (w.guardP.toNat +
    8 * (w.guardNeg.toNat + 2 * (o.code + 256 * (w.ty.code + 16 * (w.d.toNat + 2 ^ 11 * (w.a.toNat +
      2 ^ 11 * (w.b.toNat + 2 ^ 11 * w.mod.toNat))))))))))

/-- The bytes of a Z1 instruction in memory order (00 R2, 11 R211). -/
def encodeBytes (o : Op) (w : Z1) : List Byte :=
  toBytes 8 (encodeCore o w) ++ toBytes (lenOfCode w.ext.lenCode - 8) w.ext.bits

/-- The fields of a rank-program word (23 R412). -/
def rankWord (op d a b imm : Nat) : Nat := imm + 2 ^ 15 * (b + 16 * (a + 16 * (d + 16 * op)))

/-- Decode a rank-program word; none where the tree rejects it (23 R413, R414). -/
def decodeRank (x : Nat) : Option Instr :=
  let op := x / 2 ^ 27 % 32
  let d := BitVec.ofNat 4 (x / 2 ^ 23)
  let a := BitVec.ofNat 4 (x / 2 ^ 19)
  let b := BitVec.ofNat 4 (x / 2 ^ 15)
  let i := x % 2 ^ 15
  let only (ok : Bool) (r : Instr) : Option Instr := if ok then some r else none
  match op with
  | 0x01 => only (a == 0 && b == 0 && decide (i ≤ 13)) (.rankLdt d (BitVec.ofNat 4 i))
  | 0x02 => only (a == 0 && b == 0 && decide (i < 8)) (.rankLdn d (BitVec.ofNat 3 i))
  | 0x03 => only (b == 0 && decide (i < 4)) (.rankLdf d a (BitVec.ofNat 2 i))
  | 0x04 => only (d == 0 && b == 0 && decide (i < 8)) (.rankStn a (BitVec.ofNat 3 i))
  | 0x05 => only (d == 0 && decide (i < 4)) (.rankStf a b (BitVec.ofNat 2 i))
  | 0x06 => only (i == 0) (.rankAdd d a b)
  | 0x07 => only (b == 0) (.rankAddi d a (BitVec.ofNat 15 i))
  | 0x08 => only (i == 0) (.rankSub d a b)
  | 0x09 => only (i == 0) (.rankMul d a b)
  | 0x0A => only (b == 0 && decide (i < 32)) (.rankShl d a (BitVec.ofNat 5 i))
  | 0x0B => only (b == 0 && decide (i < 32)) (.rankShr d a (BitVec.ofNat 5 i))
  | 0x0C => only (decide (i < 2)) (.rankMin d a b (i == 1))
  | 0x0D => only (decide (i < 2)) (.rankMax d a b (i == 1))
  | 0x0E => only (i == 0) (.rankAnd d a b)
  | 0x0F => only (i == 0) (.rankOr d a b)
  | 0x10 => only (decide (i < 2)) (.rankCmplt d a b (i == 1))
  | 0x11 => only (decide (i < 16)) (.rankSel d a b (BitVec.ofNat 4 i))
  | 0x12 => only (a == 0 && b == 0 && decide (i ≤ 2)) (.rankNow d (BitVec.ofNat 2 i))
  | 0x13 => only (d == 0 && b == 0 && i == 0) (.rankEmit a)
  | 0x14 => only (d == 0 && b == 0 && i == 0) (.rankRefuse a)
  | _ => none

/-- The word of a rank-program instruction; none for the other rows. -/
def encodeRank : Instr → Option Nat
  | .rankLdt d f => some (rankWord 0x01 d.toNat 0 0 f.toNat)
  | .rankLdn d w => some (rankWord 0x02 d.toNat 0 0 w.toNat)
  | .rankLdf d a w => some (rankWord 0x03 d.toNat a.toNat 0 w.toNat)
  | .rankStn a w => some (rankWord 0x04 0 a.toNat 0 w.toNat)
  | .rankStf a b w => some (rankWord 0x05 0 a.toNat b.toNat w.toNat)
  | .rankAdd d a b => some (rankWord 0x06 d.toNat a.toNat b.toNat 0)
  | .rankAddi d a i => some (rankWord 0x07 d.toNat a.toNat 0 i.toNat)
  | .rankSub d a b => some (rankWord 0x08 d.toNat a.toNat b.toNat 0)
  | .rankMul d a b => some (rankWord 0x09 d.toNat a.toNat b.toNat 0)
  | .rankShl d a n => some (rankWord 0x0A d.toNat a.toNat 0 n.toNat)
  | .rankShr d a n => some (rankWord 0x0B d.toNat a.toNat 0 n.toNat)
  | .rankMin d a b s => some (rankWord 0x0C d.toNat a.toNat b.toNat s.toNat)
  | .rankMax d a b s => some (rankWord 0x0D d.toNat a.toNat b.toNat s.toNat)
  | .rankAnd d a b => some (rankWord 0x0E d.toNat a.toNat b.toNat 0)
  | .rankOr d a b => some (rankWord 0x0F d.toNat a.toNat b.toNat 0)
  | .rankCmplt d a b s => some (rankWord 0x10 d.toNat a.toNat b.toNat s.toNat)
  | .rankSel d a b c => some (rankWord 0x11 d.toNat a.toNat b.toNat c.toNat)
  | .rankNow d s => some (rankWord 0x12 d.toNat 0 0 s.toNat)
  | .rankEmit a => some (rankWord 0x13 0 a.toNat 0 0)
  | .rankRefuse a => some (rankWord 0x14 0 a.toNat 0 0)
  | _ => none

/-- The bytes of a well-formed instruction; none for rows that are steps of the device or the host. -/
def encode (i : Instr) : Option (List Byte) :=
  match i.z1? with
  | some (o, w) => some (encodeBytes o w)
  | none => (encodeRank i).map (toBytes 4)

/-- The instruction the decoder reads from the bits of an opcode-table row: a 32-bit row is a
rank-program word, any other is a Z1 instruction in memory order. -/
def decodeTableWord (nbits w : Nat) : Option Instr :=
  if nbits = 32 then decodeRank w
  else match decodeBytes (toBytes 16 w) with
    | .ok i _ => some i
    | _ => none

end Sys2Proof
end

