-- ==== Sys2Proof/Config.lean ====
section
/-!
DEFINITION. What the manual leaves to each part or names by a standard outside it: opaque constants,
so that no proof can see a value of them.
-/
namespace Sys2Proof.Config

/-- A value the manual leaves open, fresh for each number (log 3). -/
opaque freeNat : Nat → Nat

/-- ML-DSA-65 signature, 3,309 bytes, by the key of the fused secret and the measurement of id 0
(25 R441; log 9). -/
opaque quoteSign : List Byte → List Byte → List Byte

/-- The parts of a firmware image, whose layout the manual does not give (25 R439; log 9): header and
body, public key, signature, security version. -/
opaque imageBody : List Byte → List Byte
opaque imageKey : List Byte → List Byte
opaque imageSig : List Byte → List Byte
opaque imageVersion : List Byte → Nat

/-- The strata roles of both towers that a partition configuration image carries (id 5), tower 1's from bit 6. -/
opaque imageRoles : List Byte → Nat

/-- The words 0 and 1 of the thermal admission table of each tower that a partition configuration image carries (28 R464). -/
opaque imageThermal : List Byte → Nat → Nat → Nat

/-- The fused energy of one activity of a kind, in pJ (29 R477; log 56). -/
opaque actEnergy : Nat → Nat

/-- The ballast activity the hardware injects to smooth current in the interval that ends at a device clk (29 R477; log 56). -/
opaque ballast : Nat → Nat

/-- The cores that a partition configuration image names to leave the fenced mask (30 R482). -/
opaque imageUnfence : List Byte → List Nat

/-- Where the section of the container that holds a descriptor begins: the manual gives neither to the machine (18 R362;
log 30). -/
opaque descSection : Nat → Nat

/-- Fused voltage floor in mV of a cluster at a frequency in MHz (29 R475; log 4). -/
opaque voltFloor : Nat → Nat → Nat

/-- Whether a core's in-field test signature is the good one (30 R481; log 10). -/
opaque testPasses : Nat → Nat → Bool

/-- Whether a stratum passes its power-up check (28 R466; log 10). -/
opaque stratumPasses : Nat → Nat → Nat → Bool

end Sys2Proof.Config
end

