-- ==== Sys2Proof/Machine/State.lean ====
section
/-!
DEFINITION. The state of the device as plain data, the reasons a step can stop, and the state after
reset. Each field's rule and reset value stand in INVENTORY.md under State.
-/
namespace Sys2Proof.Machine

/-- Why a step stops with a fault. Every fault of the manual is a next state (09 R183), so these are
raised only in states that no run reaches. -/
inductive Fault where
  /-- Raised by a Z1 meaning when no warp is issuing; step always names one. Safe. -/
  | noWarp
  /-- Raised by a rank instruction when no rank program is running; step always has one. Safe. -/
  | noRankJob
  deriving DecidableEq, Repr

/-- Why a meaning is refused. -/
inductive Refusal where
  /-- Raised by a Dispatch arm whose instruction has no meaning yet. Safe. -/
  | notModelled (mnemonic : String)
  deriving DecidableEq, Repr

/-! ### Memory and translation -/

/-- What a physical address reaches (04 R76). -/
inductive MemKind where
  | hbm (tower : Nat)
  | tier (tower : Nat)
  | bank (tower : Nat)
  | host
  | unmapped
  deriving DecidableEq, Repr

/-- The attributes of a translation (25 R427, R428). -/
structure Attr where
  read       : Bool := false
  write      : Bool := false
  exec       : Bool := false
  share      : Nat := 0
  alloc      : Nat := 0
  wt         : Bool := false
  compr      : Bool := false
  prio       : Nat := 0
  det        : Bool := false
  secure     : Bool := false
  fabric     : Bool := false
  peer       : Nat := 0
  dirty      : Bool := false
  deriving DecidableEq, Repr

/-- One cached translation (25 R432): function, virtual page base and size, guest-physical base,
physical base and attributes. A stage-2 translation used by walks holds its leaf entry and where that lies in `leaf`. -/
structure TlbEntry where
  fn   : Nat
  va   : Nat
  size : Nat
  gpa  : Nat
  gsize : Nat
  pa   : Nat
  attr : Attr
  leaf : Option (Nat × Nat) := none
  deriving DecidableEq, Repr

/-- A 128-byte line of an L1 (04 R82): a valid and a dirty bit for each byte. -/
structure Line where
  valid : BitVec 128
  dirty : BitVec 128
  data  : BitVec 1024
  prio  : Nat
  used  : Nat
  deriving DecidableEq, Repr

/-- A line that an L2 tile holds (04 R85): dirty with respect to the memory behind it, its eviction priority and
the clk of its last use. The bytes stand in State.mem, the view at the homes. -/
structure L2Line where
  dirty : Bool
  prio  : Nat
  used  : Nat
  deriving DecidableEq, Repr

/-- A line of a core's constant cache (04 R81): its bytes and the clk of its last use. -/
structure KLine where
  data : BitVec 1024
  used : Nat
  deriving DecidableEq, Repr

/-- Who walks: a warp's access, a warp's fetch, an engine or the host; what it does when it ends. -/
inductive Walker where
  | warp (core slot : Nat)
  | engine (id : Nat)
  deriving DecidableEq, Repr

/-- A walk that has not ended (25 R429): access kind 0 read, 1 write, 2 execute, 3 atomic. -/
structure Walk where
  id     : Nat
  core   : Nat
  fn     : Nat
  va     : Nat
  kind   : Nat
  secure : Bool
  who    : Walker
  parked : Bool
  failed : Bool := false
  deriving DecidableEq, Repr

/-- An outstanding page request, or one waiting for room (25 R433). -/
structure PageReq where
  tag   : Option Nat
  fn    : Nat
  va    : Nat
  gpa   : Nat
  sub   : Nat
  kind  : Nat
  level : Nat
  walks : List Nat
  deriving DecidableEq, Repr

/-- An invalidation in progress (25 R435, 17 R356): kind, function, address, the walks begun before it,
the agent's warp whose stores counter falls, and the accesses its release awaits. -/
structure Inval where
  id    : Nat
  kind  : Nat
  fn    : Nat
  addr  : Nat
  walks : List Nat
  who   : Option (Nat × Nat)
  rels  : List (Nat × Nat) := []
  deriving DecidableEq, Repr

/-- The outcome known for one address of an access: translated, or the fault of the lane (09 R184). -/
inductive Xlate where
  | ok (pa : Nat) (attr : Attr)
  | bad (code sub : Nat)
  deriving DecidableEq, Repr

/-! ### Warps -/

inductive Role where
  | plain | copy | matrix | vector
  deriving DecidableEq, Repr

/-- An entry of the reconvergence stack (02 R22); `group` marks a BRX entry, whose pending lanes run
group by group, `fall` its lanes that wait at the fall-through address (02 R25). -/
structure StackEnt where
  rpc     : Nat
  restore : Mask
  pending : Mask
  phase   : Bool
  group   : Bool
  fall    : Mask
  deriving DecidableEq, Repr

/-- Serial mode (02 R26): S, the lanes still to run, the former path. -/
structure Serial where
  stop   : Nat
  todo   : Mask
  former : Mask
  deriving DecidableEq, Repr

/-- A hardware loop level (02 R45, R46). -/
structure LoopLvl where
  ls    : Nat
  le    : Nat
  lc    : Nat
  depth : Nat
  deriving DecidableEq, Repr

/-- A control transfer waiting for its trailer (02 R39): the operation, its E and its operands. -/
inductive Xfer where
  | bra (e : Mask) (uni : Bool) (target rpc : Nat)
  | brx (e : Mask) (uni : Bool) (targets : List (Nat × Nat)) (rpc : Nat)
  | call (sd target : Nat)
  | ret (target : Nat)
  | exit (e : Mask)
  | loop (c le : Nat)
  | lbrk
  deriving DecidableEq, Repr

/-- An issued trailer that has not committed (11 R224). -/
structure Trailer where
  addr    : Nat
  len     : Nat
  issued  : Nat
  gap     : Nat
  giveWay : Bool
  names   : List Nat
  deriving DecidableEq, Repr

/-- One register or flag write. -/
inductive Wr where
  | lane (reg lane : Nat) (v : Word)
  | scal (reg : Nat) (v : Word)
  | pred (p lane : Nat) (b : Bool)
  | flags (f : BitVec 5)
  deriving DecidableEq, Repr

/-- A fixed-latency result on its way (02 R35). -/
structure Pend where
  due    : Nat
  writes : List Wr
  deriving DecidableEq, Repr

/-- What an outstanding memory operation does when it is performed (15). -/
inductive OpKind where
  | load
  | store
  | atom (op : Nat) (res : Bool)
  | bank (op : Nat)
  | cctl (op : Nat)
  | value
  deriving DecidableEq, Repr

inductive Space where
  | glob | scr | const | none
  deriving DecidableEq, Repr

/-- One lane's access: its virtual address, where it has one, and the physical, scratchpad or constant one,
attributes, data words A and B. -/
structure LaneAcc where
  lane : Nat
  va   : Nat := 0
  addr : Nat
  attr : Attr
  a    : List Word
  b    : List Word
  deriving DecidableEq, Repr

/-- An outstanding operation of a warp in issue order (02 R38, 05 R95). `members` are the warps whose
registers its result reaches, with their lanes; `opens` those whose counter has not fallen (15 R304); `todo` the
lanes that faulted and are to be replayed (05 R112). -/
structure MemOp where
  id      : Nat
  kind    : OpKind
  space   : Space
  ty      : Ty
  size    : Nat
  dst     : Option Nat
  nreg    : Nat
  members : List (Nat × Mask)
  accs    : List LaneAcc
  acq     : Bool
  rel     : Bool
  share   : Nat
  iaddr   : Nat
  flags   : BitVec 5
  isLoad  : Bool
  remote  : List Nat
  relDone : Bool
  low     : Nat
  e       : Mask
  ev      : Bool := false
  opens   : List Nat := []
  todo    : Mask := 0
  deriving DecidableEq, Repr

/-- The fault record (09 R187), its 1,344 bytes as fields; `temps` holds t0-t7 of every lane. -/
structure FaultRec where
  code     : Nat
  sub      : Nat
  flags    : Nat
  warp     : Nat
  set      : Nat
  pos      : Nat
  instr    : Nat
  runStart : Nat
  lanes    : Mask
  trap     : Nat
  tempsW   : BitVec 8
  time     : Nat
  addrs    : List (Nat × Nat)
  temps    : Sparse Word
  reported : Bool
  resolved : Bool
  walks    : List Nat
  group    : List Nat := []
  contrib  : List (Nat × Mask) := []
  deriving DecidableEq, Repr

/-- An ordering not yet complete (15 R315, 05 R107): whether it awaits the earlier accesses, whether it writes
the L1 back and whether it self-invalidates it; scope 0 core to 3 system; whether the write-back has begun. -/
structure FenceRec where
  waits : Bool
  wb    : Bool
  inv   : Bool
  scope : Nat
  upTo  : Nat
  begun : Bool := false
  deriving DecidableEq, Repr

/-- An arrival at a rendezvous latch (03 R63, R64): latch 0-7 of a set or 8 of the block, the lanes
contributed, the instruction, and whether the latch has counted it. -/
structure Arrival where
  key     : Nat
  lanes   : Mask
  addr    : Nat
  len     : Nat
  instr   : Instr
  counted : Bool
  deriving DecidableEq, Repr

/-- A warp. `outst` lists the registers that a variable-latency result is to fill, with the operation; `resAt`
is the clk at which the last block-level result of its run arrives (02 R35); `skip`: it stands at a trailer it is
to pass over (02 R45); `halt`: it stops at the end of that clk with the warps named (03 R70, R71); `acw`: the pair
of an ACWAIT that has completed and not yet issued (16 R332); `poison`: the instruction that received poisoned data,
with its lanes and their addresses; `bad`: registers with an uncorrected error, by lane, 0 for a scalar (09 R186). -/
structure Warp where
  block    : Nat
  num      : Nat
  role     : Role
  agent    : Bool
  v        : Sparse Word := []
  s        : Sparse Word := []
  tmp      : Sparse Word := []
  tmpW     : BitVec 8 := 0
  p        : Sparse Mask := []
  pc       : Nat
  pcs      : Sparse Nat := []
  path     : Mask
  exited   : Mask := 0
  absent   : Mask := 0
  stack    : List StackEnt := []
  serial   : Option Serial := none
  loops    : List LoopLvl := []
  xflags   : BitVec 5 := 0
  xstat    : BitVec 2 := 0
  loads    : Nat := 0
  stores   : Nat := 0
  copies   : Nat := 0
  tiles    : Nat := 0
  clkHi    : Word := 0
  last     : Nat := 0
  runStart : Nat := 0
  pos      : Nat := 0
  inRun    : Bool := false
  fills    : List Nat := []
  xfer     : Option Xfer := none
  runPause : Option Nat := none
  xret     : List (Nat × Nat) := []
  trailer  : Option Trailer := none
  held     : List Nat := []
  outst    : List (Nat × Nat) := []
  pend     : List Pend := []
  resAt    : Nat := 0
  skip     : Bool := false
  ops      : List MemOp := []
  fences   : List FenceRec := []
  next     : Nat := 0
  pauseUntil : Nat := 0
  giveWay  : Bool := false
  insts    : Sparse Nat := []
  arrived  : Option Arrival := none
  bar      : Option (Nat × Bool) := none
  xl       : List (Nat × Nat × Xlate) := []
  stopped  : Option FaultRec := none
  halt     : Option (Nat × List Nat) := none
  acw      : Option (Word × Word) := none
  replay   : Option (Mask × List (Nat × Mask)) := none
  poison   : Option (Nat × List (Nat × Nat)) := none
  bad      : List (Nat × Nat) := []
  deriving DecidableEq, Repr

/-! ### Blocks -/

/-- A rendezvous latch (03 R63): free, or open on the instance (a, n) with the members counted, by
warp number. -/
structure Latch where
  openOn   : Option (Nat × Nat) := none
  arrivals : List (Nat × Mask) := []
  deriving DecidableEq, Repr

/-- A layout record (08 R165). -/
structure Lay where
  written : Bool := false
  scratch : Bool := false
  base    : Nat := 0
  size    : Nat := 0
  rank    : Nat := 0
  ext     : List Nat := []
  stride  : List Int := []
  deriving DecidableEq, Repr

/-- A stage ring (08 R169, R170): slot states 0 empty, 1 filling, 2 full, 3 taken; the orders in which
slots were filled and taken; the two request queues of warps or sets (16 R326); for each slot handed on, the
accesses whose release comes before it is claimed again (05 R109). -/
structure Ring where
  base    : Nat
  size    : Nat
  n       : Nat
  f       : Nat := 0
  t       : Nat := 0
  fPhase  : Bool := false
  tPhase  : Bool := false
  slots   : List Nat
  filling : List Nat := []
  taken   : List Nat := []
  getQ    : List Nat := []
  takeQ   : List Nat := []
  rel     : Sparse (List (Nat × Nat)) := []
  deriving DecidableEq, Repr

/-- A barrier slot (14 R285). -/
structure Bar where
  n       : Option Nat := none
  counted : List Nat := []
  waiting : List (Nat × Nat) := []
  deriving DecidableEq, Repr

/-- A set (03 R55): member warps, pool size, pool registers by register and lane, those with an uncorrected error. -/
structure SetRec where
  mask : BitVec 32
  size : Nat
  pool : Sparse Word := []
  bad  : List (Nat × Nat) := []
  deriving DecidableEq, Repr

/-- Block-level writes that take effect at a later clk (17 R345, R350; 03 R56). -/
inductive BWr where
  | nf (k : Nat) (v : BitVec 16) (warp : Nat)
  | user (k : Nat) (v : Word) (warp : Nat)
  | pool (set reg lane : Nat) (v : Word)
  | xflags (slot due : Nat) (v : BitVec 5)
  | xstat (slot : Nat) (v : BitVec 2)
  | ashape (v : BitVec 4)
  deriving DecidableEq, Repr

/-! ### Engines and the tree -/

/-- A slot's weight context (07 R143). -/
structure WCtx where
  id   : Nat
  page : Nat
  len  : Nat
  k    : Nat
  n    : Nat
  nf   : BitVec 16
  addr : Nat
  deriving DecidableEq, Repr

/-- A matrix reservation slot (07 R148 to R151, 06 R130 to R132). State 0 free, 1 held, 2 releasing; `ovAt`: the clk
of the last addition that overflowed, with accov as it stood before that clk (17 R346); `bad`: accumulators with an
uncorrected error (09 R186). -/
structure MSlot where
  state : Nat := 0
  owner : Nat := 0
  tile  : Sparse (BitVec 112) := []
  bad   : List Nat := []
  badW  : Bool := false
  tileW : Option Int := none
  projW : Option Int := none
  accov : Bool := false
  ovAt  : Option (Nat × Bool) := none
  ctx   : Option WCtx := none
  bias  : Sparse Word := []
  scale : Sparse Word := []
  slope : Sparse Word := []
  icpt  : Sparse Word := []
  emin  : BitVec 8 := 0
  deriving DecidableEq, Repr

/-- What a tile task does (07 R150). -/
inductive TileKind where
  | wload (c : WCtx)
  | mxmul (c : WCtx) (origin stride m row0 : Nat) (act : BitVec 16) (z : Bool)
  | drain (d0 m row0 col0 stages out : Nat) (nf : BitVec 16) (z : Bool)
  | atbl (part origin c0 count : Nat) (emin : BitVec 8)
  | release
  deriving DecidableEq, Repr

/-- A tile task; `fresh` until it has been pushed, when its effects at the push are made (07 R150). -/
structure TileTask where
  core    : Nat
  block   : Nat
  set     : Nat
  slot    : Nat
  kind    : TileKind
  members : List (Nat × Mask)
  eOnce   : Mask
  iaddr   : Nat
  rels    : List (Nat × Nat)
  fresh   : Bool := true
  deriving DecidableEq, Repr

/-- The body of a fabric packet in an egress leaf (27 R457). -/
inductive Pkt where
  | data (send fxw off len : Nat)
  | flag (send flag : Nat)
  | readReq (tag : Nat)
  | atomReq (tag : Nat)
  deriving DecidableEq, Repr

/-- What a queued task is (17 R354, 23 R400). -/
inductive Body where
  | launch (id : Nat)
  | tile (t : TileTask)
  | seg (copy lo hi : Nat)
  | packet (p : Pkt)
  deriving DecidableEq, Repr

/-- A task of the tree with the fields a rank program reads (23 R400), how many entries of its staging list are done, and
the list once read. -/
structure Task where
  id       : Nat
  kind     : Nat
  cls      : Nat
  tenant   : Nat
  flow     : Nat
  length   : Nat
  stCount  : Nat := 0
  deadline : Nat
  user0    : Nat
  user1    : Nat
  stAddr   : Nat := 0
  origin   : Nat
  fn       : Nat
  secure   : Bool := false
  rank     : Nat := 0
  stDone   : Nat := 0
  stList   : Option (List Byte) := none
  staged   : Bool := false
  walks    : List Nat := []
  body     : Body
  deriving DecidableEq, Repr

/-- A resident block. `tasks` are its unstarted engine tasks while it is being saved (09 R195). -/
structure Block where
  launch   : Nat := 0
  x        : Nat := 0
  y        : Nat := 0
  z        : Nat := 0
  grid     : List Nat := [1, 1, 1]
  bdim     : List Nat := [1, 1, 1]
  fn       : Nat := 0
  secure   : Bool := false
  role     : Bool := false
  roles    : List Role := []
  qPlain   : Nat := 1
  qCopy    : Nat := 1
  qMatrix  : Nat := 1
  qVector  : Nat := 1
  basePart : Nat := 0
  nwarps   : Nat := 1
  slots    : List Nat := []
  sets     : List (Option SetRec) := []
  latches  : Sparse Latch := []
  nf       : Sparse (BitVec 16) := []
  lays     : Sparse Lay := []
  rings    : Sparse Ring := []
  bars     : Sparse Bar := []
  barCount : Nat := 0
  scr      : Sparse Byte := []
  scrBad   : Sparse Unit := []
  scrSize  : Nat := 0
  constAddr : Nat := 0
  constSize : Nat := 0
  ctrBase  : Nat := 0
  ctrCount : Nat := 0
  ringBase : Nat := 0
  ringCount : Nat := 0
  abortPol : Bool := false
  debug    : Bool := false
  tower    : Nat := 0
  cls      : Nat := 0
  tenant   : Nat := 0
  flow     : Nat := 0
  deadline : Nat := 0
  user0    : Word := 0
  user1    : Word := 0
  bpend    : List (Nat × BWr) := []
  faulted  : Bool := false
  held     : List Nat := []
  saving   : Option Nat := none
  tasks    : List Task := []
  retired  : List Nat := []
  deriving DecidableEq, Repr

/-- What follows the end of a rank program (23 R403 to R405). -/
inductive JobEnd where
  /-- A push by ENQ or a window: where the status word goes, whose stores counter falls, and which
  function's window counts. -/
  | enq (status : Option Nat) (who : Option (Nat × Nat)) (window : Option Nat)
  /-- A formed task pushed at its entry point. -/
  | formed
  /-- An offer by a node; on EMIT the task leaves it and its pop program runs. -/
  | offer (node : Nat)
  /-- A pop program: its rank is ignored. -/
  | pop
  deriving DecidableEq, Repr

/-- A rank program being run for a task at a node (leaf = false) or leaf (23 R411). -/
structure RankJob where
  tower  : Nat
  leaf   : Bool
  target : Nat
  pc     : Nat
  left   : Nat
  q      : Sparse Word := []
  stn    : Sparse Word := []
  stf    : Sparse Word := []
  nowNs  : Nat
  nowClk : Nat
  task   : Task
  fin    : JobEnd
  deriving DecidableEq, Repr

/-- A push that waits for its retry time, or for room where it has none (23 R403). -/
structure Waiting where
  tower  : Nat
  leaf   : Bool
  target : Nat
  task   : Task
  fin    : JobEnd
  retry  : Option Nat
  deriving DecidableEq, Repr

/-- A push by ENQ or a submission window whose record is not read yet (17 R355, 22 R384): the core or
pseudo-core that translates, the function, its world, the record's address, the target, and the accesses that its
release awaits. -/
structure PushReq where
  id     : Nat
  core   : Nat
  fn     : Nat
  secure : Bool
  va     : Nat
  target : Nat
  who    : Option (Nat × Nat)
  window : Option Nat
  rels   : List (Nat × Nat) := []
  deriving DecidableEq, Repr

/-- What a copy does (08 R163, R166, R181): CPY's pieces as destination and source by lane, the two or
three layout records of a TCPY, or an FXRD's destination, length, peer and remote offset. -/
inductive CopyKind where
  | cpy (size : Nat) (dScr sScr : Bool) (pieces : List (Nat × Nat))
  | tcpy (d s : Lay) (g : Option Lay)
  | fxrd (dst len peer off : Nat)
  deriving DecidableEq, Repr

/-- A copy in progress (08 R161 to R168): its size and segment size in destination bytes, how much has been
pushed and retired, the first failure by element, its task's fields, the bytes and the outstanding requests of
remote sources, whether it has asked for all its lines, the elements whose line has been written or left out, and
those lines. -/
structure CopyOp where
  id      : Nat
  core    : Nat
  block   : Nat
  kind    : CopyKind
  dst     : Nat
  members : List (Nat × Mask)
  rels    : List (Nat × Nat)
  bytes   : Nat
  segMax  : Nat
  pushed  : Nat := 0
  retired : Nat := 0
  fail    : Option (Nat × Nat) := none
  oob     : Bool := false
  task    : Task
  rbuf    : Sparse (Option Byte) := []
  tags    : List Nat := []
  iaddr   : Nat
  dead    : Bool := false
  held    : Option Word := none
  asked   : Bool := false
  did     : List Nat := []
  lines   : List Nat := []
  deriving DecidableEq, Repr

/-- A segment the copy engine runs: its task, its copy, the bytes left, whether a push stops it at its next
boundary, and the tenant of that push. -/
structure SegRun where
  task  : Task
  copy  : Nat
  lo    : Nat
  hi    : Nat
  stop  : Bool := false
  by'   : Option Nat := none
  deriving DecidableEq, Repr

/-- What waits at a home for a line that a copy owns (04 R86, 05 R110): a lane's access, the bytes a core's L1
writes back, bytes the device writes at an address, or what another agent does. -/
inductive HomeWait where
  | lane (core slot op lane : Nat)
  | write (core : Nat) (x : Line)
  | put (a : Nat) (bs : List Byte)
  | event (i : Instr)
  deriving DecidableEq, Repr

/-- The owner of a line at its home (04 R86): the copy, or none while the line is handed over; the copies queued
for it, and the accesses that wait. -/
structure Owner where
  copy    : Option Nat
  queue   : List Nat
  waiters : List HomeWait
  deriving DecidableEq, Repr

/-! ### Cores -/

structure Part where
  holder  : Option Nat := none
  last    : Nat := 63
  sfuFree : Nat := 0
  deriving DecidableEq, Repr

/-- A claim in flight (22 R390): the launch, the base partition, the ticket value its atomic reads, and what is
reserved for the block (02 R30): the registers on each partition, the resident index, the slots, the scratchpad bytes
and the barrier slots; the record and its block count. -/
structure Claim where
  launch : Nat
  base   : Nat
  value  : Nat
  need   : List Nat
  index  : Nat
  slots  : List Nat
  scr    : Nat
  bars   : Nat
  pa     : Nat := 0
  blocks : Nat := 0
  deriving DecidableEq, Repr

/-- A context save or restore in progress (17 R358, R359): the agent's slot, or none where the host asked for
it through a save list; the block; the save area. -/
structure CtxOp where
  who    : Option Nat
  block  : Nat
  va     : Nat
  pa     : Nat
  fn     : Nat
  secure : Bool
  load   : Bool
  deriving DecidableEq, Repr

/-- A core. `victim`: the tenant and the clk of the push that pre-empts the array's command. -/
structure Core where
  l1      : Sparse Line := []
  tlb     : List TlbEntry := []
  icache  : Sparse (BitVec 256) := []
  kcache  : Sparse KLine := []
  parts   : List Part := [{}, {}, {}, {}, {}, {}, {}, {}]
  warps   : Sparse Warp := []
  blocks  : Sparse Block := []
  slots   : List MSlot := [{}, {}, {}, {}]
  wbuf    : Sparse Byte := []
  latched : Option (Nat × Nat) := none
  arrRun  : Option Task := none
  drnRun  : Option Task := none
  victim  : Option (Nat × Nat) := none
  segs    : List SegRun := []
  ashape  : BitVec 4 := 0xF
  cadReq  : BitVec 5 := 4
  limiter : Nat := 0
  claim   : Option Claim := none
  descs   : Sparse (List Byte) := []
  ctxops  : List CtxOp := []
  deriving DecidableEq, Repr

/-- A cluster's operating-point sequence and added clk (29 R475, R476). Step 0 stable, 1 ramping before
the stop, 2 stopped, 3 ramping after the stop. -/
structure Cluster where
  fill    : Int := 0
  step    : Nat := 0
  target  : Nat := 0
  stopAt  : Nat := 0
  tlb     : List TlbEntry := []
  deriving DecidableEq, Repr

/-! ### Fabric, launches, device -/

/-- One FXW of a send record not yet covered by an acknowledged flag (08 R177, 16 R330): its bytes sent
under the present incarnation, and whether its status word has landed. -/
structure FxwRec where
  id      : Nat
  off     : Nat
  src     : Nat
  len     : Nat
  fn      : Nat
  task    : Task
  sent    : Nat := 0
  core    : Nat
  dst     : Nat
  members : List (Nat × Mask)
  landed  : Bool := false
  rels    : List (Nat × Nat)
  key     : Nat
  deriving DecidableEq, Repr

/-- One unacknowledged flag: queued once its task is pushed, due when its answer is overdue. -/
structure FlagRec where
  id      : Nat
  off     : Nat
  value   : Word
  count   : Nat
  resends : Nat := 0
  task    : Task
  core    : Nat
  dst     : Nat
  members : List (Nat × Mask)
  queued  : Bool := false
  due     : Option Nat := none
  rels    : List (Nat × Nat)
  key     : Nat
  deriving DecidableEq, Repr

/-- The send record of a port, peer slot and counter (08 R177, 27 R452); `notice` is a failure notice held
for the next flag; `flushed`: the port was disabled since, and the record in memory decides. -/
structure SendRec where
  peer   : Nat
  count  : Nat := 0
  inc    : Nat := 0
  failed : Bool := false
  notice : Bool := false
  fxws   : List FxwRec := []
  flags  : List FlagRec := []
  flushed : Bool := false
  deriving DecidableEq, Repr

/-- A record on its way into an ingest ring, in the order of its ring (27 R460, R461). -/
structure Landing where
  ring   : Nat
  port   : Nat
  status : Nat
  flow   : Nat
  pay    : List Byte
  deriving DecidableEq, Repr

/-- A parked flag (08 R178) with its timer. -/
structure Parked where
  flag : FlagPacket
  port : Nat
  due  : Nat
  deriving DecidableEq, Repr

/-- The live part of an arrival counter (08 R178, 16 R330, R332): the last flag released, and the waiting
ACWAITs as core, slot and target. -/
structure Ctr where
  count    : Nat := 0
  inc      : Nat := 0
  failed   : Bool := false
  released : Bool := false
  last     : Option (Nat × Nat) := none
  waiters  : List (Nat × Nat × Nat) := []
  deriving DecidableEq, Repr

/-- Who sent a remote request: a lane of an operation with its virtual address, a copy (FXRD), or FXATOM with its result group. -/
inductive RemWho where
  | lane (slot op lane va : Nat)
  | copy (id : Nat)
  | atom (slot dst low : Nat) (members : List (Nat × Mask)) (acq : Bool)
  deriving DecidableEq, Repr

/-- A remote read or atomic this device has sent (08 R181, R182): packets received, reissues, when the
next reissue is due, what must be performed before it is sent (`after`: acquires alone), the answer that waits for
the others of its part (04 R92), and packets received that wait for their lines (16 R331). -/
structure RemOut where
  peer    : Nat
  port    : Nat
  req     : RemoteReq
  core    : Nat
  who     : RemWho
  got     : List Nat := []
  tries   : Nat := 0
  due     : Option Nat := none
  task    : Task
  rels    : List (Nat × Nat) := []
  share   : Nat := 0
  after   : List (Nat × Nat) := []
  val     : Option (List Byte) := none
  held    : List (Nat × List Byte) := []
  deriving DecidableEq, Repr

/-- A RINGADV whose release is not complete (16 R327): the ring, the core, the accesses awaited, and the consumer
index before and after it. -/
structure RingAdv where
  ring : Nat
  core : Nat
  rels : List (Nat × Nat)
  old  : Nat
  new  : Nat
  deriving DecidableEq, Repr

/-- A launch the leaves know (22 R385 to R393): the record's virtual and physical address, the record and
the kernel descriptor once read, the towers whose copy is open with its task, the fetcher's attempts, the status it completes with while
its completion is being signalled, and its last close by a push: the clk, the tower, the task pushed, and whether the
pre-emption was counted in the record (R392). -/
structure Launch where
  addr     : Nat
  fn       : Nat
  tenant   : Nat
  pa       : Option Nat := none
  recd     : List Byte := []
  desc     : List Byte := []
  checked  : Bool := false
  opened   : List (Nat × Task) := []
  tries    : Nat := 0
  due      : Nat := 0
  aborted  : Bool := false
  fin      : Option Nat := none
  shut     : Option (Nat × Nat × Task × Bool) := none
  deriving DecidableEq, Repr

/-- What the device sent outside (22 R382, 27 R457). Packets of a burst carry their entropy value (27 R450); one that is alone takes
its port's base. -/
inductive Out where
  | msix (fn vector : Nat)
  | hostRead (fn off : Nat) (bytes : List Byte)
  | regRead (fn off : Nat) (value : Word)
  | abort (fn off : Nat)
  | data (port dst entropy : Nat) (p : DataPacket)
  | flag (port dst : Nat) (p : FlagPacket)
  | ack (port dst : Nat) (p : CtlPacket)
  | shortfall (port dst : Nat) (p : CtlPacket)
  | notice (port dst : Nat) (p : CtlPacket)
  | remote (port dst : Nat) (r : RemoteReq)
  | readReply (port dst tag seq entropy : Nat) (bytes : List Byte)
  | atomReply (port dst tag old : Nat)
  | driver (what arg : Nat)
  | powerOff (die : Nat)
  deriving DecidableEq, Repr

/-- The physical address map, fused values (log 4), and the BAR2 sizes set otherwise than at reset (22 R383; log 15). -/
structure Cfg where
  hbm0     : Nat := 0
  hbm1     : Nat := 0x8000000000
  hbmSize  : Nat := 0x6000000000
  tier0    : Nat := 0x20000000000
  tier1    : Nat := 0x28000000000
  tierSize : Nat := 0x8000000000
  bank0    : Nat := 0x40000000000
  bank1    : Nat := 0x40100000000
  host0    : Nat := 0x80000000000
  hostSize : Nat := 0x80000000000
  keyDigest : Nat := 0
  minVer   : List Nat := [0, 0, 0, 0, 0, 0]
  secret   : Nat := 0
  tenants  : Sparse Nat := []
  bar2     : Sparse Nat := []
  deriving DecidableEq, Repr

/-- What reaches the device from outside other than by a row of the opcode table (log 45): a debugger's answer to a
breakpoint (09 R192), an error that an array's check corrects (0 SRAM, 1 HBM, 2 second
tier) or cannot (09 R186, 30 R479), a parity error of an instruction cache (0) or of a core's or its cluster's translation
cache (1, 2), a failing flash (30 R484), what the host writes to its own memory (05 R115), a read of a BAR0 word (29 R471), a
new size of a BAR2 (22 R383). -/
inductive Input where
  | resume (core slot : Nat)
  | terminate (core slot : Nat)
  | badReg (core slot reg lane : Nat)
  | badPool (core block set reg lane : Nat)
  | badAcc (core slot element : Nat)
  | badScratch (core block line : Nat)
  | badLine (line : Nat)
  | badWeights (core slot : Nat)
  | badL1 (core line : Nat)
  | parity (core array entry : Nat)
  | flashBad (on : Bool)
  | hostMem (addr : Nat) (bytes : List Byte)
  | regRead (fn off : Nat)
  | corrected (array : Nat)
  | bar2 (fn size : Nat)
  deriving DecidableEq, Repr

/-- The partition-change sequence (28 R465, R466). -/
structure PartSeq where
  due    : Nat := 0
  target : Nat := 0
  deriving DecidableEq, Repr

/-- A set- or block-scope instruction that executes once in this step (03 R66): the contributions C(w)
by slot, its address and length, and whether it is a replay (03 R68). -/
structure Firing where
  core    : Nat
  block   : Nat
  slot    : Nat
  members : List (Nat × Mask)
  instr   : Instr
  addr    : Nat
  len     : Nat
  deriving DecidableEq, Repr

/-- The device. `agenda` and `inputs` hold what the outside does and when, in order of arrival; while `auto` is false the
steps the device could take by itself are taken only as the agenda names them (log 1, 2). `mem` is the view of
every byte at its home (04 R85), `hostMem` the host's own copy of host memory (R90); `redo` is what other agents
do to a line that a copy has just released; `scrubAt` is the line the patrol reads next in its pass, `rescrub` those it reads again
(30 R480); `latch` the high words of counters that a read of the low word has latched (29 R471); `acts` the activity counts
not yet booked, by account and kind, since `bookAt` (29 R477); `limDue` when the current limiter next releases (R472); `flashBad`
that the flash cannot be written (30 R484); `blame` is by leaf the tenant of the push whose pre-emption was counted
last (23 R409); `present` names the warps whose first instruction is found to wait in this clk (02 R41) and which have not presented
it yet; `place` is how far the order of the present clk has come (07 R149). -/
structure State where
  agenda   : List (Nat × Instr) := []
  inputs   : List (Nat × Input) := []
  auto     : Bool := true
  cur      : Option (Nat × Nat) := none
  present  : List (Nat × Nat) := []
  place    : Nat := 0
  firing   : Option Firing := none
  waits    : List (Nat × Nat) := []
  jobs     : List RankJob := []
  waitq    : List Waiting := []
  pushes   : List PushReq := []
  busy     : List Nat := []
  free     : Nat := 0
  nextId   : Nat := 1
  out      : List Out := []
  cfg      : Cfg := {}
  now      : Nat := 0
  nsBase   : Nat := 0
  mem      : List Host.Cell := []
  poison   : Sparse Unit := []
  hostMem  : List Host.Cell := []
  l2       : Sparse L2Line := []
  redo     : List (Nat × Instr) := []
  owners   : Sparse Owner := []
  bar0     : Sparse Word := []
  clusters : Sparse Cluster := []
  cores    : Sparse Core := []
  walks    : List Walk := []
  reqs     : List PageReq := []
  invals   : List Inval := []
  queues   : Sparse (List Task) := []
  blame    : Sparse Nat := []
  launches : Sparse Launch := []
  copies   : List CopyOp := []
  sends    : Sparse SendRec := []
  ctrs     : Sparse Ctr := []
  parked   : List Parked := []
  remote   : Sparse RemOut := []
  replyCache : List (Nat × Nat × Nat × Nat) := []
  pdcs     : Sparse Nat := []
  rings    : Sparse (Nat × Nat) := []
  advs     : List RingAdv := []
  landq    : List Landing := []
  keys     : Sparse Nat := []
  measure  : List Byte := List.replicate 64 0
  mlog     : List (Nat × Nat × List Byte) := []
  flash    : Sparse (List Byte) := []
  minVer   : List Nat := [0, 0, 0, 0, 0, 0]
  fellBack : Nat := 0
  bootErr  : Option (Nat × Nat) := none
  quote    : Bool := false
  ctxsw    : Option Word := none
  ctxEnd   : Nat := 2
  ctxList  : Nat := 0
  frozen   : List Nat := []
  part     : PartSeq := {}
  wdArmed  : Bool := false
  wdDue    : Nat := 0
  testing  : Option (Nat × Bool) := none
  lastTest : Option Nat := none
  testDue  : Nat := 510000000000
  scrubAt  : Nat := 0
  rescrub  : Sparse Unit := []
  latch    : Sparse Word := []
  acts     : Sparse Nat := []
  bookAt   : Nat := 0
  limDue   : Nat := 0
  flashBad : Bool := false
  fwBusy   : Option (Nat × Nat) := none
  hostq    : List Instr := []
  off      : Option Nat := none
  deriving DecidableEq, Repr

/-- The machine right after reset: every field as INVENTORY.md lists it. -/
def State.reset : State := {}

end Sys2Proof.Machine
end

