-- ==== Sys2Proof/Machine/Ops.lean ====
section
/-!
DEFINITION. Named operations over the state: cores, warps and blocks, the clock, registers, the
landing of fixed-latency results, BAR0, physical memory, and taking a fault and resuming from one.
-/
namespace Sys2Proof.Machine

abbrev Res := Host.Outcome State Fault Refusal

/-! ### Cores, warps, blocks -/

def State.core (s : State) (c : Nat) : Core := smGetD s.cores {} c
def State.setCore (s : State) (c : Nat) (k : Core) : State := { s with cores := smPut s.cores c k }
def State.updCore (s : State) (c : Nat) (f : Core → Core) : State := s.setCore c (f (s.core c))
def State.warp? (s : State) (c w : Nat) : Option Warp := smGet? (s.core c).warps w
def State.setWarp (s : State) (c w : Nat) (x : Warp) : State :=
  s.updCore c fun k => { k with warps := smPut k.warps w x }
def State.updWarp (s : State) (c w : Nat) (f : Warp → Warp) : State :=
  match s.warp? c w with
  | some x => s.setWarp c w (f x)
  | none => s
/-- The agent's block, of index 16: its scratchpad is the top 256 KiB of the core's, which the staging unit and
the agent hold (01 R10, 04 R78; log 38). -/
def agentBlock : Block := { scrSize := 262144, secure := true }
/-- The block of an index; a missing one reads as a block of defaults. -/
def State.block (s : State) (c b : Nat) : Block := smGetD (s.core c).blocks (if b = 16 then agentBlock else {}) b
def State.setBlock (s : State) (c b : Nat) (x : Block) : State :=
  s.updCore c fun k => { k with blocks := smPut k.blocks b x }
def State.updBlock (s : State) (c b : Nat) (f : Block → Block) : State := s.setBlock c b (f (s.block c b))
def State.cluster (s : State) (c : Nat) : Cluster := smGetD s.clusters {} (c / 4)
def State.updCluster (s : State) (cl : Nat) (f : Cluster → Cluster) : State :=
  { s with clusters := smPut s.clusters cl (f (smGetD s.clusters {} cl)) }
def State.fresh (s : State) : Nat × State := (s.nextId, { s with nextId := s.nextId + 1 })
def State.emit (s : State) (o : Out) : State := { s with out := s.out ++ [o] }
/-- A free value (log 3) and the state with the counter advanced. -/
def State.freeVal (s : State) : Nat × State := (Config.freeNat s.free, { s with free := s.free + 1 })
def towerOf (core : Nat) : Nat := core / 256
def stratumOf (core : Nat) : Nat := core / 32 % 8
/-- The slot of a block's warp number. -/
def Block.slotOf (b : Block) (n : Nat) : Option Nat := b.slots[n]?
/-- The partition of a slot (02 R29). -/
def partOf (slot : Nat) : Nat := slot % 8
def State.partn (s : State) (c p : Nat) : Part := ((s.core c).parts[p]?).getD {}
def State.updPart (s : State) (c p : Nat) (f : Part → Part) : State :=
  s.updCore c fun k => { k with parts := setAt k.parts p (f ((k.parts[p]?).getD {})) }

/-! ### Clocks -/

/-- The cluster's clk counter (03 R57): the device's clk with the clocks filled after stops; it stands while the clock is
stopped (29 R476). -/
def State.clk (s : State) (core : Nat) : Nat :=
  let k := s.cluster core
  truncN 64 (((if k.step = 2 then k.stopAt else s.now : Nat) : Int) + k.fill)
/-- The device ns clock at 850 MHz (log 5). -/
def State.ns (s : State) : Nat := (s.nsBase + s.now * 20 / 17) % 2 ^ 64
/-- Clocks of a time in microseconds at 850 MHz. -/
def clkOfUs (us : Nat) : Nat := us * 850

/-- Is the cluster's clock stopped (29 R476)? -/
def clockStopped (s : State) (core : Nat) : Bool := (s.cluster core).step == 2

/-! ### BAR0 -/

def towerReg (t : Nat) : Nat := 0x02000000 + t * 0x01000000
def fabReg (t : Nat) : Nat := 0x00400000 + t * 0x00200000
def nodeReg (t n w : Nat) : Nat := towerReg t + 64 * n + 4 * w
def leafReg (t k w : Nat) : Nat := towerReg t + 0x10000 + 64 * k + 4 * w
def progReg (t j : Nat) : Nat := towerReg t + 0x20000 + 4 * j
def nodeState (t n w : Nat) : Nat := towerReg t + 0x30000 + 32 * n + 4 * w
def leafState (t k w : Nat) : Nat := towerReg t + 0x34000 + 32 * k + 4 * w
def flowReg (t e w : Nat) : Nat := towerReg t + 0x40000 + 16 * e + 4 * w
def treeStatus (t : Nat) : Nat := towerReg t + 0xC0000
def portReg (p w : Nat) : Nat := fabReg (p / 6) + 0x100 * (p % 6) + 4 * w
def portCtr (p off : Nat) : Nat := fabReg (p / 6) + 0x100 * (p % 6) + off
def timeReg (w : Nat) : Nat := fabReg 0 + 0x1000 + 4 * w
def ctrReg (c w : Nat) : Nat := fabReg (c / 8192) + 0x10000 + 16 * (c % 8192) + 4 * w
def winReg (i w : Nat) : Nat := fabReg 0 + 0x30000 + 32 * i + 4 * w
def ringReg (r w : Nat) : Nat := fabReg (r / 128) + 0x31000 + 32 * (r % 128) + 4 * w
def keyReg (k w : Nat) : Nat := fabReg (k / 512) + 0x32000 + 64 * (k % 512) + 4 * w
def peerReg (i w : Nat) : Nat := fabReg 0 + 0x40000 + 32 * i + 4 * w
def flowMapReg (t i w : Nat) : Nat := fabReg t + 0x60000 + 8 * i + 4 * w
def ctxReg (f w : Nat) : Nat := 0x01000000 + 64 * f + 4 * w
def worldReg (t w : Nat) : Nat := 0x01003000 + 0x100 * t + 4 * w
def regionReg (t r w : Nat) : Nat := 0x01003800 + 0x200 * t + 32 * r + 4 * w
def mapReg (t : Nat) : Nat := 0x01005000 + 0x40 * t
def partReq (w : Nat) : Nat := 0x01005100 + 4 * w
def partState : Nat := 0x01005120
def thermReg (t w : Nat) : Nat := 0x01005200 + 0x20 * t + 4 * w
def powerReg (w : Nat) : Nat := 0x01006000 + 4 * w
def opPoint (c w : Nat) : Nat := 0x01006800 + 16 * c + 4 * w
def stallReg (c w : Nat) : Nat := 0x01007000 + 8 * c + 4 * w
def energyReg (n : Nat) : Nat := 0x01008000 + 8 * n
def relReg (off : Nat) : Nat := 0x01010000 + off
def fenceReg (t s : Nat) : Nat := relReg (0x40 + 0x20 * t + 4 * s)
def testCtl : Nat := relReg 0x200
def fwReg (w : Nat) : Nat := 0x01011000 + 4 * w
def ashapeReg (c : Nat) : Nat := 0x01012000 + 4 * c
def ctxswReg (w : Nat) : Nat := 0x00100000 + 4 * w
def quoteReg (w : Nat) : Nat := 0x01004000 + 4 * w
/-- Bytes of the submission windows kept for virtual functions, above the physical function's BAR0. -/
def winBase (fn : Nat) : Nat := if fn = 0 then 0 else 0x04000000 + 0x10000 * (fn - 0x40)

/-- The reset value of a BAR0 word: the values the register tables state; zero elsewhere. -/
def bar0Reset (off : Nat) : Word :=
  if off = mapReg 0 ∨ off = mapReg 1 then 0x0000041E
  else if off = thermReg 0 0 ∨ off = thermReg 1 0 then 0x001F001C
  else if off = thermReg 0 1 ∨ off = thermReg 1 1 then 0x00010101
  else if off = powerReg 0 then 3600
  else if opPoint 0 0 ≤ off ∧ off < opPoint 128 0 ∧ (off % 16 = 0 ∨ off % 16 = 4) then 0x03520352
  else if off = timeReg 0 then 100
  else if off = timeReg 1 then 1000
  else if off = testCtl then 0x80000258
  else if (fabReg 0 ≤ off ∧ off < fabReg 0 + 0x600 ∧ off % 0x100 = 0)
       ∨ (fabReg 1 ≤ off ∧ off < fabReg 1 + 0x600 ∧ off % 0x100 = 0) then 4793
  else if (ringReg 0 0 ≤ off ∧ off < ringReg 127 8 ∧ off % 32 = 0)
       ∨ (ringReg 128 0 ≤ off ∧ off < ringReg 255 8 ∧ off % 32 = 0) then 16
  else 0

/-- A BAR0 word as held. -/
def State.reg (s : State) (off : Nat) : Word := smGetD s.bar0 (bar0Reset off) off
def State.setReg (s : State) (off : Nat) (v : Word) : State :=
  { s with bar0 := smSetD s.bar0 (bar0Reset off) off v }
def State.regN (s : State) (off : Nat) : Nat := (s.reg off).toNat
/-- Add to a 32-bit counter, modulo 2^32. -/
def State.bump (s : State) (off n : Nat) : State := s.setReg off (BitVec.ofNat 32 (s.regN off + n))
/-- A 64-bit register, low word first. -/
def State.reg64 (s : State) (off : Nat) : Nat := pairNat (s.reg off) (s.reg (off + 4))
def State.setReg64 (s : State) (off v : Nat) : State :=
  (s.setReg off (BitVec.ofNat 32 v)).setReg (off + 4) (BitVec.ofNat 32 (v / 2 ^ 32))
def State.bump64 (s : State) (off n : Nat) : State := s.setReg64 off ((s.reg64 off + n) % 2 ^ 64)
/-- Replace bits hi down to lo of a word. -/
def putFld (x : Word) (hi lo v : Nat) : Word :=
  let m := (2 ^ (hi + 1 - lo) - 1) * 2 ^ lo
  (x &&& ~~~(BitVec.ofNat 32 m)) ||| BitVec.ofNat 32 (v * 2 ^ lo % 2 ^ (hi + 1))

/-- Time passes: clk in which no partition of a cluster with a resident warp that is not suspended issued count as stalls
(29 R474), unless its clock is stopped (R476); clusters that issued in this clk are named in `busy`. -/
def State.tick (s : State) (t : Nat) : State :=
  if t ≤ s.now then s
  else
    let cls := ((s.cores.filter fun e => e.1 < 512 && !clockStopped s e.1 && e.2.warps.any fun w => w.2.stopped.isNone).map (·.1 / 4)).eraseDups
    let s := cls.foldl (fun s c => s.bump (stallReg c 1) (t - s.now - if s.busy.contains c then 1 else 0)) s
    { s with now := t, busy := [], present := [], place := 0 }

/-- An activity of a kind counts for an account: 0 housekeeping, 1 unattributed, 2 + n tenant n (29 R477). The kinds are: 0
instructions, 1 tile tasks, 2 copy segments, 3 packets, 4 pre-emptions, 5 staging, 6 context switches, 7 scrubbing, 8 tests, 9
clk of leakage and idle logic, 10 ballast; 15 holds the pJ below a whole microjoule. -/
def State.act (s : State) (acct kind n : Nat) : State :=
  { s with acts := smSetD s.acts 0 (16 * acct + kind) (smGetD s.acts 0 (16 * acct + kind) + n) }

/-- The cadence in use (07 R157): the largest of the requested one, the thermal floor of the tower's count
(28 R464) and the current limiter's raise; 16 while the tower is tripped (29 R472). -/
def State.thermFloor (s : State) (t : Nat) : Nat :=
  let w := s.reg (thermReg t 1)
  match fld (s.reg (mapReg t)) 10 8 with
  | 4 => fld w 20 16
  | 3 => fld w 12 8
  | _ => fld w 4 0
def State.effCadence (s : State) (core : Nat) : Nat :=
  if (s.reg (powerReg 2)).getLsbD (1 + towerOf core) then 16
  else
    let k := s.core core
    min 16 (max (max k.cadReq.toNat (s.thermFloor (towerOf core))) k.limiter)

/-! ### The physical address map (04 R76, R84, R87; log 4) -/

def State.roles (s : State) (t : Nat) : Nat := fld (s.reg (mapReg t)) 5 0
/-- Compute strata of a tower. -/
def State.computeStrata (s : State) (t : Nat) : Nat := popcount 6 (s.roles t)
def State.memStrata (s : State) (t : Nat) : Nat := 6 - s.computeStrata t
/-- A core of a compute-role stratum (01 R9, R11). -/
def State.isCompute (s : State) (c : Nat) : Bool :=
  c < 512 && stratumOf c < 6 && (s.roles (towerOf c) >>> stratumOf c) % 2 == 1
/-- A fenced core (30 R482). -/
def State.fenced (s : State) (c : Nat) : Bool :=
  (s.reg (fenceReg (towerOf c) (stratumOf c))).getLsbD (c % 32)

/-- The kind of memory behind a physical address. -/
def State.kind (s : State) (a : Nat) : MemKind :=
  let g := s.cfg
  let inR (b z : Nat) : Bool := decide (b ≤ a) && decide (a < b + z)
  if inR g.hbm0 g.hbmSize then .hbm 0 else if inR g.hbm1 g.hbmSize then .hbm 1
  else if inR g.tier0 g.tierSize then .tier 0 else if inR g.tier1 g.tierSize then .tier 1
  else if inR g.bank0 (s.memStrata 0 * 16 * 0x800000) then .bank 0
  else if inR g.bank1 (s.memStrata 1 * 16 * 0x800000) then .bank 1
  else if inR g.host0 g.hostSize then .host else .unmapped

def MemKind.isBank : MemKind → Bool
  | .bank _ => true
  | _ => false

/-- The tower that owns an address; host memory is homed in tower 0 (04 R84). -/
def MemKind.tower : MemKind → Nat
  | .hbm t | .tier t | .bank t => t
  | _ => 0

/-- Bits [22:7] xor [38:23] xor [51:39] of the address (04 R84). -/
def homeHash (a : Nat) : Nat := (nfld a 22 7 ^^^ nfld a 38 23) ^^^ nfld a 51 39
/-- The L2 tile that is an address's home, as tower and tile (04 R84). -/
def State.homeTile (s : State) (a : Nat) : Nat × Nat :=
  let t := (s.kind a).tower
  (t, homeHash a % (16 * s.computeStrata t))
/-- The tile and bank of an offset in bank memory (04 R87). -/
def State.bankOf (s : State) (t x : Nat) : Nat × Nat :=
  let m := s.memStrata t * 16
  (x / 128 % m, x / 128 / m % 16)

/-! ### Physical memory: what an unlisted byte reads as is zero (log 6; bank memory: 28 R467) -/

def memDefault : Byte := 0#8
def Memory.wf (m : List Host.Cell) : Bool := smWf memDefault m
def State.byte (s : State) (a : Nat) : Byte := smGetD s.mem memDefault a
def State.setByte (s : State) (a : Nat) (b : Byte) : State := { s with mem := smSetD s.mem memDefault a b }
def readBytes (s : State) : Nat → Nat → List Byte
  | _, 0 => []
  | a, n + 1 => s.byte a :: readBytes s (a + 1) n
def writeBytes : State → Nat → List Byte → State
  | s, _, [] => s
  | s, a, b :: bs => writeBytes (s.setByte a b) (a + 1) bs
def State.memNat (s : State) (a n : Nat) : Nat := ofBytes (readBytes s a n)
def State.setMemNat (s : State) (a n v : Nat) : State := writeBytes s a (toBytes n v)
def lineOf (a : Nat) : Nat := a / 128
def State.poisoned (s : State) (a : Nat) : Bool := (smGet? s.poison (lineOf a)).isSome
def State.markPoison (s : State) (line : Nat) : State :=
  if (smGet? s.poison line).isSome then s
  else ({ s with poison := smPut s.poison line () }).bump64 (relReg 0x18) 1
/-- A line written whole is no longer poisoned (30 R479). -/
def State.clearPoison (s : State) (line : Nat) : State := { s with poison := smDel s.poison line }

/-! ### The L2 tiles and the host's copy of its memory (04 R77, R84, R85, R90) -/

/-- Bytes accepted by the host link (R90). -/
def hostPut : State → Nat → List Byte → State
  | s, _, [] => s
  | s, a, b :: bs => hostPut { s with hostMem := smSetD s.hostMem memDefault a b } (a + 1) bs
/-- Bytes forwarded from a home to the memory behind it: for host memory that is the host's own copy. -/
def State.toMemory (s : State) (a : Nat) (bs : List Byte) : State := if s.kind a = .host then hostPut s a bs else s

/-- The tile that is a line's home and its set there: 8 MiB in 16 ways of 128 bytes are 4,096 sets; which one is
not stated (log 39). -/
def State.l2Set (s : State) (line : Nat) : (Nat × Nat) × Nat :=
  let h := s.homeTile (128 * line)
  (h, line / max 1 (16 * s.computeStrata h.1) % 4096)

/-- A dirty home copy is written to memory; the line stays. -/
def State.l2Clean (s : State) (line : Nat) : State :=
  match smGet? s.l2 line with
  | some x => if x.dirty then { (s.toMemory (128 * line) (readBytes s (128 * line) 128)) with l2 := smPut s.l2 line { x with dirty := false } } else s
  | none => s
def State.l2Drop (s : State) (line : Nat) : State := let t := s.l2Clean line; { t with l2 := smDel t.l2 line }

/-- Does p leave its set before q: the lower eviction priority, then the less recently used (R77)? -/
def l2Worse (p q : Nat × L2Line) : Bool := p.2.prio < q.2.prio || (p.2.prio == q.2.prio && p.2.used < q.2.used)

/-- Room for one more line in its set of 16. -/
def State.l2Room (s : State) (line : Nat) : State :=
  let l := s.l2.filter fun e => s.l2Set e.1 == s.l2Set line
  if l.length < 16 then s
  else match l.foldl (fun (a : Option (Nat × L2Line)) p => match a with
      | none => some p
      | some q => if l2Worse p q then some p else a) none with
    | some e => s.l2Drop e.1
    | none => s

/-- A line passes through its home (R85): it is held there unless its page allocates it nowhere, at the priority
given where it enters. Lines of bank memory have no L2 home. -/
def State.l2Use (s : State) (a : Nat) (alloc prio : Nat) (dirty : Bool) : State :=
  match s.kind a with
  | .bank _ | .unmapped => s
  | _ =>
    let line := lineOf a
    match smGet? s.l2 line with
    | some x => { s with l2 := smPut s.l2 line { x with dirty := x.dirty || dirty, used := s.now } }
    | none => if alloc = 2 then s
      else let t := s.l2Room line
           { t with l2 := smPut t.l2 line { dirty := dirty, prio := prio, used := s.now } }

/-- Bytes of one line written at their home: with write-through, or no allocation, they go on to memory (R77). -/
def State.homePut (s : State) (a : Nat) (bs : List Byte) (at' : Attr) : State :=
  let thru := at'.wt || at'.alloc == 2
  let s := writeBytes s a bs
  let s := if thru then s.toMemory a bs else s
  let s := s.l2Use a at'.alloc at'.prio (!thru)
  if a % 128 = 0 ∧ bs.length = 128 then s.clearPoison (lineOf a) else s

/-- Bytes cut at the boundaries of lines. -/
def lineCuts : Nat → Nat → List Byte → List (Nat × List Byte)
  | 0, _, _ => []
  | k + 1, a, bs =>
    let n := 128 - a % 128
    if bs.isEmpty then [] else (a, bs.take n) :: lineCuts k (a + n) (bs.drop n)

/-- Bytes written at their homes under a page's attributes. -/
def State.homeStore (s : State) (a : Nat) (bs : List Byte) (at' : Attr) : State :=
  (lineCuts (bs.length / 128 + 2) a bs).foldl (fun s p => s.homePut p.1 p.2 at') s
/-- Bytes the device itself writes at a physical address: they go through to memory (log 39). -/
def State.homeWrite (s : State) (a : Nat) (bs : List Byte) : State := s.homeStore a bs { wt := true }

/-- The dirty lines of host memory are written to the host: a release of system scope (R90, 05 R95). -/
def State.hostRelease (s : State) : State :=
  (s.l2.filter fun e => e.2.dirty && s.kind (128 * e.1) == .host).foldl (fun s e => s.l2Clean e.1) s

/-! ### Registers -/

def Block.setOf (b : Block) (num : Nat) : Option (Nat × SetRec) :=
  let rec go : Nat → List (Option SetRec) → Option (Nat × SetRec)
    | _, [] => none
    | i, some r :: xs => if r.mask.getLsbD num then some (i, r) else go (i + 1) xs
    | i, none :: xs => go (i + 1) xs
  go 0 b.sets
/-- The warps of a set, ascending. -/
def SetRec.members (r : SetRec) : List Nat := maskLanes r.mask
def Block.quota (b : Block) (r : Role) : Nat :=
  match r with
  | .plain => b.qPlain
  | .copy => b.qCopy
  | .matrix => b.qMatrix
  | .vector => b.qVector
/-- Private registers of a warp (02 R32); the agent holds 64 (02 R29). -/
def privRegs (b : Block) (w : Warp) : Nat := if w.agent then 64 else 32 * b.quota w.role

/-- The read-only values (03 R57). -/
def readOnly (s : State) (core : Nat) (b : Block) (w : Warp) (r lane : Nat) : Nat :=
  let g (l : List Nat) (i : Nat) : Nat := (l[i]?).getD 0
  match r with
  | 1608 => lane
  | 1609 => lane / 4
  | 1610 => w.num
  | 1611 => match b.setOf w.num with | some (i, _) => i | none => 0xFFFFFFFF
  | 1612 => b.x
  | 1613 => b.y
  | 1614 => b.z
  | 1615 => g b.bdim 0
  | 1616 => g b.bdim 1
  | 1617 => g b.bdim 2
  | 1618 => g b.grid 0
  | 1619 => g b.grid 1
  | 1620 => g b.grid 2
  | 1621 => core
  | 1622 => stratumOf core
  | 1623 => towerOf core
  | 1624 => s.clk core
  | 1625 => w.clkHi.toNat
  | 1626 => b.fn
  | _ => 0

/-- A register as it stands for a lane of a warp (03 R50). A temporary reads zero in a lane that no instruction of
the run has written, where the manual gives no value (02 R33; log 40). -/
def readReg (s : State) (core : Nat) (b : Block) (w : Warp) (r lane : Nat) : Word :=
  if r < 512 then smGetD w.v 0 (32 * r + lane)
  else if r < 1536 then
    match b.setOf w.num with
    | some (_, t) => smGetD t.pool 0 (32 * (r - 512) + lane)
    | none => 0
  else if r < 1600 then smGetD w.s 0 (r - 1536)
  else if r < 1608 then smGetD w.tmp 0 (32 * (r - 1600) + lane)
  else BitVec.ofNat 32 (readOnly s core b w r lane)

/-- Predicate p of a lane; p7 reads true (03 R58). -/
def readPred (w : Warp) (p lane : Nat) : Bool := if p ≥ 7 then true else inMask (smGetD w.p 0 p) lane

/-- Write a register or flag of a warp; a register written is free of an uncorrected error. A private register beyond the quota is discarded (03 R53), as is
a write to p7 (R58) and to a read-only value. -/
def Warp.apply (b : Block) (w : Warp) : Wr → Warp
  | .lane r l v =>
    if r < 512 then (if r < privRegs b w then { w with v := smSetD w.v 0 (32 * r + l) v, bad := w.bad.erase (r, l) } else w)
    else if r < 1536 then w
    else if r < 1600 then { w with s := smSetD w.s 0 (r - 1536) v, bad := w.bad.erase (r, 0) }
    else if r < 1608 then { w with tmp := smSetD w.tmp 0 (32 * (r - 1600) + l) v, bad := w.bad.erase (r, l) } else w
  | .scal r v => if 1536 ≤ r ∧ r < 1600 then { w with s := smSetD w.s 0 (r - 1536) v, bad := w.bad.erase (r, 0) } else w
  | .pred p l x =>
    if p ≥ 7 then w
    else
      let m := smGetD w.p 0 p
      { w with p := smSetD w.p 0 p (if x then m ||| laneBit l else m &&& ~~~(laneBit l)) }
  | .flags f => { w with xflags := w.xflags ||| f }

def Warp.applyAll (b : Block) (w : Warp) (l : List Wr) : Warp := l.foldl (Warp.apply b) w

/-- Apply the results of a warp that are due (02 R35). -/
def Warp.land (b : Block) (now : Nat) (w : Warp) : Warp :=
  { w.applyAll b ((w.pend.filter fun p => p.due ≤ now).flatMap (·.writes)) with
    pend := w.pend.filter fun p => now < p.due }

/-- One block-level write taking effect. -/
def applyBWr (core bi : Nat) (s : State) : BWr → State
  | .nf k v _ => s.updBlock core bi fun b => { b with nf := smSetD b.nf 0 k v }
  | .user k v _ => s.updBlock core bi fun b => if k = 0 then { b with user0 := v } else { b with user1 := v }
  | .pool t r l v =>
    s.updBlock core bi fun b =>
      match (b.sets[t]?).getD none with
      | some q => if r < q.size then { b with sets := setAt b.sets t (some { q with pool := smSetD q.pool 0 (32 * r + l) v, bad := q.bad.erase (r, l) }) } else b
      | none => b
  | .xflags sl due v => s.updWarp core sl fun w => if w.block = bi then { w.land (s.block core bi) (due - 1) with xflags := v } else w
  | .xstat sl v => s.updWarp core sl fun w => if w.block = bi then { w with xstat := v } else w
  | .ashape v => if v = 0 then s else s.updCore core fun k => { k with ashape := v }

/-- The time of a block-level write before which others of the same clk apply: by warp (17 R345). -/
def bwrBefore (x y : Nat × BWr) : Bool :=
  let wn : BWr → Nat := fun | .nf _ _ n => n | .user _ _ n => n | _ => 0
  x.1 < y.1 || (x.1 == y.1 && wn x.2 < wn y.2)

/-- Apply the block-level writes that are due, earliest first. -/
def landBlock (s : State) (core bi : Nat) : State :=
  let due := (s.block core bi).bpend.filter fun p => p.1 ≤ s.now
  if due.isEmpty then s
  else
    let s := s.updBlock core bi fun b => { b with bpend := b.bpend.filter fun p => s.now < p.1 }
    due.foldl (fun s p => applyBWr core bi s p.2) s

/-- Queue a block-level write in order of time and warp. -/
def State.addBpend (s : State) (core bi due : Nat) (x : BWr) : State :=
  s.updBlock core bi fun b => { b with bpend := insertBefore (fun y => bwrBefore (due, x) y) (due, x) b.bpend }

/-- Land what is due in a warp and in its block. -/
def landWarp (s : State) (core slot : Nat) : State :=
  match s.warp? core slot with
  | none => s
  | some w =>
    let s := landBlock s core w.block
    s.updWarp core slot (fun w => w.land (s.block core w.block) s.now)

/-- Add a fixed-latency result, kept in order of arrival. -/
def Warp.addPend (w : Warp) (due : Nat) (l : List Wr) : Warp :=
  if l.isEmpty then w else { w with pend := insertBefore (fun p => due < p.due) ⟨due, l⟩ w.pend }

/-- The last clk at which a fixed-latency result of the warp lands; `d` if none is on its way. -/
def Warp.lastPend (w : Warp) (d : Nat) : Nat := w.pend.foldl (fun m p => max m p.due) d

/-! ### Taking a fault (09 R183 to R188, 03 R70, R71) -/

/-- Warps resident on a core that belong to a block, as slot and warp. -/
def blockWarps (s : State) (core bi : Nat) : List (Nat × Warp) :=
  (s.core core).warps.filter fun p => p.2.block == bi && !p.2.agent

/-! ### Paths (02 R21 to R26) -/

def Warp.pcOf (w : Warp) (l : Nat) : Nat := smGetD w.pcs 0 l
/-- Lanes that wait keep an address in their own counter. -/
def Warp.park (w : Warp) (m : Mask) (f : Nat → Nat) : Warp :=
  { w with pcs := (maskLanes m).foldl (fun t l => smSetD t 0 l (f l)) w.pcs }
/-- Lanes become the current path, at their own counters. -/
def Warp.take (w : Warp) (m : Mask) : Warp :=
  { w with path := m, pc := match lowLane m with | some l => w.pcOf l | none => w.pc
           pcs := (maskLanes m).foldl smDel w.pcs }

/-- One step of R23 or R25 for the top entry, reached at its rpc or with an empty path. -/
def stackStep (w : Warp) (t : StackEnt) (rest : List StackEnt) : Warp :=
  let pop : Warp := { w with stack := rest, path := t.restore, pc := t.rpc }
  if t.group then
    match lowLane t.pending with
    | some l =>
      let g := maskOf fun k => inMask t.pending k && w.pcOf k == w.pcOf l
      { w with stack := { t with pending := t.pending &&& ~~~g, phase := true } :: rest }.take g
    | none => if t.fall ≠ 0 then { w with stack := { t with fall := 0, phase := true } :: rest }.take t.fall else pop
  else if t.phase then pop
  else { w with stack := { t with phase := true } :: rest }.take t.pending

/-- The next lane of serial mode, or the end of serial mode (02 R26). -/
def serialStep (w : Warp) (z : Serial) : Warp :=
  match lowLane z.todo with
  | some l => { w with serial := some { z with todo := z.todo &&& ~~~(laneBit l) } }.take (laneBit l)
  | none => { w with serial := none, path := z.former &&& ~~~w.exited, pc := z.stop }

/-- R23 and R26 applied while the path stands at a reconvergence point or is empty; at most one step for
each lane and each entry. The top of the stack is the head of the list. -/
def settleFuel : Nat → Warp → Warp
  | 0, w => w
  | n + 1, w =>
    match w.serial with
    | some z =>
      if w.path = 0 ∨ w.pc = z.stop then settleFuel n (serialStep w z) else w
    | none =>
      match w.stack with
      | [] => w
      | t :: rest => if w.path = 0 ∨ w.pc = t.rpc then settleFuel n (stackStep w t rest) else w

def settle (w : Warp) : Warp := settleFuel 640 w

/-! ### Fault records -/

/-- The fault record of a warp (09 R187). Flag [4] marks a member that stops inside a run without a fault of its own, as in
09 R194; the record of a fault inside a run in 26 R444's program has it clear (log 47). -/
def mkRecord (s : State) (core slot code sub flags : Nat) (lanes : Mask) (trap : Nat)
    (instr : Nat) (addrs : List (Nat × Nat)) : FaultRec :=
  let w := (s.warp? core slot).getD { block := 0, num := 0, role := .plain, agent := false, pc := 0, path := 0 }
  let b := s.block core w.block
  { code := code, sub := sub, warp := w.num
    flags := flags ||| (if w.inRun && code == 0 then 16 else 0)
    set := match b.setOf w.num with | some (i, _) => i | none => 0xFF
    pos := w.pos, instr := instr
    runStart := if w.inRun then w.runStart else w.pc
    lanes := lanes, trap := trap, tempsW := (if w.inRun then w.tmpW else 0), time := s.clk core
    addrs := addrs, temps := w.tmp, reported := false, resolved := code == 0
    walks := let l := s.walks.filter fun x => x.who == .warp core slot
             if l.any (·.failed) then [] else l.map (·.id) }

/-- Release the partition a warp holds. -/
def releasePart (s : State) (core slot : Nat) : State :=
  if (s.partn core (partOf slot)).holder = some slot then
    s.updPart core (partOf slot) fun p => { p with holder := none }
  else s

/-- Stop a warp with a record, unless it is stopped already. Its fixed-latency results go on to land; the record
holds the temporaries as they then stand (09 R189). A warp whose trailer has issued keeps its partition until it
has committed (03 R70). -/
def stopWarp (s : State) (core slot : Nat) (r : FaultRec) : State :=
  match s.warp? core slot with
  | none => s
  | some w =>
    if w.stopped.isSome then s
    else
      let b := s.block core w.block
      let s := { s.setWarp core slot
          { w with stopped := some { r with temps := (w.applyAll b (w.pend.flatMap (·.writes))).tmp }, halt := none } with
        walks := s.walks.filter fun x => !(x.failed && x.who == .warp core slot) }
      if w.trailer.isSome then s else releasePart s core slot

/-- The record of a stopped member whose trailer has committed: it stands between runs (R70). -/
def FaultRec.atBoundary (r : FaultRec) (pc : Nat) : FaultRec :=
  { r with instr := pc, runStart := pc, pos := 0, flags := r.flags &&& 0xFFEF, tempsW := 0, temps := [] }

/-- The slots that stop with a warp: its set (03 R70), or every warp of the block (R71). -/
def stopsWith (s : State) (core bi num : Nat) (wholeBlock : Bool) : List Nat :=
  let b := s.block core bi
  let keep (n : Nat) : Bool :=
    wholeBlock || (match b.setOf num with | some (_, r) => r.mask.getLsbD n | none => false)
  ((blockWarps s core bi).filter fun p => p.2.num != num && keep p.2.num).map (·.1)

/-- The record of a member stopped by another's fault, found at a clk (09 R187, 03 R70). -/
def memberRecord (s : State) (core slot t : Nat) (group : List Nat) : FaultRec :=
  { mkRecord { s with now := t } core slot 0 0 2 0 0 ((s.warp? core slot).elim 0 (·.pc)) [] with group := group }

/-- A warp shares the fate of those that stop in a clk: it stops at the end of it, or it has stopped (R70, R71). -/
def Warp.haltWith (w : Warp) (now : Nat) (group : List Nat) : Warp :=
  match w.stopped, w.halt with
  | some r, _ => { w with stopped := some { r with group := (r.group ++ group).eraseDups } }
  | none, some (t, g) => { w with halt := some (t, (g ++ group).eraseDups) }
  | none, none => { w with halt := some (now, group) }

/-- Take a fault: the warp stops with its record, and the members of its set, or the block's warps for
a block-scope instruction, stop with code 0 and flag [1]. A member that still issues in this clk does so, and
stops at the end of it (R71). A fault of poisoned data is counted (30 R483). -/
def takeFault (s : State) (core slot : Nat) (r : FaultRec) (wholeBlock : Bool) : State :=
  match s.warp? core slot with
  | none => s
  | some w =>
    let others := stopsWith s core w.block w.num wholeBlock
    let group := (slot :: others ++ (w.halt.map (·.2)).getD []).eraseDups
    let s := stopWarp s core slot { r with group := group }
    let s := others.foldl (fun s o => s.updWarp core o fun w => w.haltWith s.now group) s
    { if r.code = 0x17 then s.bump64 (relReg 0x20) 1 else s with waits := [] }

/-- At the end of a clk the warps that were to stop in it do (R70). -/
def stopHalted (s : State) : State :=
  s.cores.foldl (fun s e => e.2.warps.foldl (fun s w => match w.2.halt with
    | some (t, g) => if t < s.now then stopWarp s e.1 w.1 (memberRecord s e.1 w.1 t g) else s
    | none => s) s) s

/-- The deferred fault of a warp between runs that received poisoned data (09 R186). -/
def poisonFault (s : State) (core slot : Nat) : State :=
  match s.warp? core slot with
  | some w => match w.poison with
    | some (a, l) =>
      if w.inRun || w.trailer.isSome || w.stopped.isSome then s
      else takeFault (s.setWarp core slot { w with poison := none }) core slot
        (mkRecord s core slot 0x17 0 4 (maskOf fun k => l.any fun p => p.1 == k) 0 a l) false
    | none => s
  | none => s

/-- Can a translation fault no longer be resolved: a walk error, an address beyond 52 bits, or no request
that may still succeed (09 R184, R190)? -/
def FaultRec.hopeless (r : FaultRec) : Bool := r.sub == 3 || r.addrs.any (fun p => decide (2 ^ 52 ≤ p.2)) || r.walks.isEmpty

/-- Are all records of the warps that stopped together resolved (03 R70, 09 R188)? -/
def allResolved (s : State) (core : Nat) (slots : List Nat) : Bool :=
  slots.all fun o => match s.warp? core o with
    | some w => match w.stopped with | some r => r.resolved | none => true
    | none => true

/-- The slots whose records decide together: those that stopped together (03 R70, R71). -/
def fateOf (s : State) (core slot : Nat) : List Nat :=
  match s.warp? core slot with
  | some w => match w.stopped with | some r => r.group | none => [slot]
  | none => []

/-- Resume one stopped warp (09 R188): temporaries restored; a translation fault replays its lanes, a
breakpoint continues after BKPT, a stopped member continues where it stood. It issues once the fixed-latency
results of its earlier instructions have landed (R189). -/
def resumeWarp (s : State) (core slot : Nat) : State :=
  s.updWarp core slot fun w =>
    match w.stopped with
    | none => { w with halt := none }
    | some r =>
      let w := { w with stopped := none, halt := none, tmp := r.temps, tmpW := r.tempsW
                        next := max (max w.next (s.now + 1)) (max w.resAt (w.lastPend 0)) }
      if r.code = 0x0A then (if r.contrib.isEmpty then { w with xl := [] }  -- a fetch: done anew
        else { w with replay := some (r.lanes, r.contrib), arrived := none, xl := [] })
      else if r.code = 0x16 then settle { w with pc := w.pc + 8, pos := w.pos + 1, inRun := true,
                                                 runStart := if w.inRun then w.runStart else r.runStart }
      else w

/-- Mark a warp's record resolved and resume every warp whose fate it shares once all are (R70). -/
def resolveWarp (s : State) (core slot : Nat) : State :=
  let s := s.updWarp core slot fun w => { w with stopped := w.stopped.map fun r => { r with resolved := true } }
  let slots := fateOf s core slot
  let s := if allResolved s core slots then slots.foldl (fun s o => resumeWarp s core o) s else s
  { s with waits := [] }

/-- Has the core no agent warp of its own, so that the agent's duties are done natively (log 11)? -/
def nativeAgent (s : State) (core : Nat) : Bool := (s.warp? core 63).isNone

end Sys2Proof.Machine
end

