-- ==== Sys2Proof/Machine/Operands.lean ====
section
/-!
DEFINITION. The operand forms of every instruction: which registers it reads and writes (03 R50 to R56),
the checks of R51 and R52, the values of its sources (11 R217 to R221, 12 R229), and the delivery of
results to the members of a scope (03 R54, R66).
-/
namespace Sys2Proof.Machine

/-- A register operand: n registers from reg, where reg is a multiple of align; scal: it must name
scalars; status: it must name a writable v or s register (16 R319). -/
structure RegUse where
  reg    : Nat
  n      : Nat := 1
  align  : Nat := 1
  scal   : Bool := false
  status : Bool := false
  deriving DecidableEq, Repr

def isel (w : Z1) : Nat := match w.ext with | .opnd _ i _ _ => i.toNat | _ => 0
def isO (w : Z1) : Bool := match w.ext with | .opnd _ _ _ _ => true | _ => false
def isI (w : Z1) : Bool := match w.ext with | .imm _ => true | _ => false
/-- The immediate stands for b (or, for MOV, a). -/
def immB (w : Z1) : Bool := isI w || (isO w && isel w = 1)
def immC (w : Z1) : Bool := isO w && isel w = 2
def cReg (w : Z1) : Nat := match w.ext with | .opnd _ _ c _ => c.toNat | _ => 0

/-- An operand of n words of a 64-bit type is an even pair (03 R52). -/
def useN (r n : Nat) : RegUse := { reg := r, n := n, align := if n = 2 then 2 else 1 }
def words (t : Ty) : Nat := if t.is64 then 2 else 1
def useScal (r : Nat) : RegUse := { reg := r, scal := true }
def useScalPair (r : Nat) : RegUse := { reg := r, n := 2, align := 2, scal := true }
def useScalBlock (r n : Nat) : RegUse := { reg := r, n := n, align := 2, scal := true }

/-- Words per lane of a load or store (15 R301). -/
def accWords (w : Z1) : Nat := words w.ty * 2 ^ fld w.mod 1 0
/-- Bytes per lane of a load or store. -/
def accBytes (w : Z1) : Nat := w.ty.width / 8 * 2 ^ fld w.mod 1 0

def memUses (w : Z1) (glob : Bool) : List RegUse :=
  match w.ext with
  | .mem m =>
    (if m.baseP then [if glob then useScalPair m.base.toNat else useScal m.base.toNat] else [])
    ++ (if m.idxP then [useN m.index.toNat 1] else [])
  | _ => []

/-- Does an operation reach global memory through its descriptor (15 R298)? -/
def globalMem : Op → Bool
  | .ld | .st | .atom | .bankop | .pref | .cctl => true
  | _ => false

/-- The source registers of an operation. -/
def srcsOf (o : Op) (w : Z1) : List RegUse :=
  let n := words w.ty
  let a := w.a.toNat
  let b := w.b.toNat
  let two (na nb : Nat) : List RegUse := useN a na :: (if immB w then [] else [useN b nb])
  let three (na nb nc : Nat) : List RegUse := two na nb ++ (if immC w then [] else [useN (cReg w) nc])
  match o with
  | .iadd | .isub | .imul | .imulh | .idiv | .irem | .imin | .imax | .iaddc | .icmp | .sel | .and | .or
  | .xor | .andn => two n n
  | .shl | .shr | .sar | .rot | .lea => two n 1
  | .imad => three n n n
  | .fshf | .prmt | .idot4 | .ffma | .fdot2 => three 1 1 1
  | .bfx => three n 1 1
  | .bfi => three n n 1
  | .iabs | .ineg | .not | .clz | .ffs | .popc | .brev => [useN a n]
  | .mov => if immB w then [] else [useN a n]
  | .v2p => [useN a 1]
  | .ipack => two 1 1 ++ (if isO w && !immC w && (w.ty == .i8 || w.ty == .n8) then [useN (cReg w) 1] else [])
  | .fadd | .fsub | .fmul | .fmin | .fmax | .fcmp | .fdiv | .fscale => two 1 1
  | .fclass | .frcp | .frsq | .fsqrt | .fexp2 | .flog2 | .fsinp | .fcosp | .ftanh | .frnd | .f2i | .f2n
  | .n2f => [useN a 1]
  | .i2f => [useN a (if fld w.mod 4 2 = 2 ∨ fld w.mod 4 2 = 3 then 2 else 1)]
  | .f2f => if w.ty == .h2 || w.ty == .bh2 then [useN a 1, useN b 1] else [useN a 1]
  | .fmaxi => let k := if w.ty == .f32 then 2 else 1; [useN a k, useN b k]
  | .qswap | .qbcast | .matchLanes => [useN a n]
  | .shfl => useN a n :: ((if immB w then [] else [useN b 1]) ++ (if isO w && !immC w then [useN (cReg w) 1] else []))
  | .vote => if fld w.mod 6 6 = 1 then [useScal b] else []
  | .wred | .wscan =>
    useN a (if fld w.mod 3 0 = 6 ∧ w.ty = .f32 then 2 else n)
      :: (if fld w.mod 4 4 = 1 ∧ !immB w then [useN b 1] else [])
  | .elect => (if fld w.mod 6 5 = 2 then [useN a 1] else [])
      ++ (if fld w.mod 3 3 = 1 ∧ !immB w then [useN b 1] else [])
  | .regqScalar => [useScal a]
  | .ld | .lds | .ldk | .pref | .cctl => memUses w (globalMem o)
  | .st | .sts => memUses w (globalMem o) ++ [{ reg := a, n := accWords w, align := accWords w }]
  | .atom | .atoms => memUses w (globalMem o) ++ [useN a n] ++ (if fld w.mod 2 0 = 7 then [useN b n] else [])
  | .bankop => memUses w true ++ [useN a (if fld w.mod 2 0 = 3 then 2 else 1)]
      ++ (if fld w.mod 2 0 = 4 then [useN b 1] else [])
  | .cpy => [useN a (if fld w.mod 2 2 = 1 then 1 else 2), useN b (if fld w.mod 3 3 = 1 then 1 else 2)]
  | .layset => [useScalBlock a 10]
  | .ringadv => [useScal a, useScalPair b]
  | .fxw | .fxflag | .fxrd | .fxatom => [useScalBlock a 7]
  | .acwait => [useScal a, useScal b]
  | .acread => [useScal a]
  | .wload => [useScalPair a]
  | .mxmul | .atbl => if a = 0 then [] else [useScal a]
  | .nfset => if isI w then [] else [useN a 1]
  | .enq => [useScalPair a, useScal b]
  | .rand => [useN a 2] ++ (if isI w then [] else [useN b 1]) ++ [useScalPair (1536 + 2 * fld w.mod 4 0)]
  | .syswr => [useN a 1]
  | .tlbinv => (if fld w.mod 1 0 ≥ 2 then [useScalPair a] else []) ++ (if fld w.mod 1 0 ≥ 1 then [useScal b] else [])
  | .xret => [useScal a]
  | .ctxsave => [useScal a, useScalPair b]
  | .ctxload => [useScalPair a]
  | .ret => [useScalPair a]
  | .loop => if a = 0 then [] else [useScal a]
  | .pause => if isI w then [] else [useScal a]
  | .brx => [useN a 1]
  | _ => []

/-- The destination registers of an operation. -/
def dstsOf (o : Op) (w : Z1) : List RegUse :=
  let n := words w.ty
  let d := w.d.toNat
  match o with
  | .iadd | .isub | .imul | .imulh | .imad | .idiv | .irem | .imin | .imax | .iabs | .ineg | .iaddc
  | .sel | .mov | .lea | .and | .or | .xor | .not | .andn | .shl | .shr | .sar | .rot | .bfx | .bfi
  | .brev | .f2i | .qswap | .qbcast | .shfl => [useN d n]
  | .fshf | .clz | .ffs | .popc | .prmt | .p2v | .idot4 | .ipack | .fadd | .fsub | .fmul | .ffma | .fmin
  | .fmax | .fclass | .frcp | .frsq | .fsqrt | .fdiv | .fexp2 | .flog2 | .fsinp | .fcosp | .ftanh
  | .fscale | .frnd | .i2f | .f2f | .f2n | .n2f | .fdot2 | .matchLanes | .mxstat | .sysrd => [useN d 1]
  | .fmaxi => [useN d (if w.ty == .f32 then 2 else 1)]
  | .wred | .wscan => [useN d (if fld w.mod 3 0 = 6 ∧ w.ty = .f32 then 2 else n)]
  | .vote => if fld w.mod 5 3 ≥ 3 then [useN d 1] else []
  | .elect => if fld w.mod 4 4 = 1 then [useN d 1] else []
  | .ld | .lds | .ldk => [{ reg := d, n := accWords w, align := accWords w }]
  | .atom | .atoms => if fld w.mod 5 5 = 1 then [useN d n] else []
  | .cpy | .tcpy | .fxw | .fxflag | .fxrd => [{ reg := d, status := true }]
  | .fxatom => [{ reg := d, n := 4, align := 4, status := true }]
  | .rfillGet | .rtake => [useScal d]
  | .acwait | .acread => [useScalPair d]
  | .rand => [{ reg := d, n := 4, align := 4 }]
  | .call => [useScalPair d]
  | _ => []

/-- The registers a use names. -/
def RegUse.regs (u : RegUse) : List Nat := (List.range u.n).map (u.reg + ·)

/-! ### Narrow-format descriptors and the registers of a drain (06 R123 to R127, 07 R155) -/

def nfS (d : BitVec 16) : Nat := fld d 0 0
def nfE (d : BitVec 16) : Nat := fld d 3 1
def nfM (d : BitVec 16) : Nat := fld d 6 4
def nfBias (d : BitVec 16) : Int := sextN 8 (fld d 15 8)
def nfW (d : BitVec 16) : Nat := nfS d + nfE d + nfM d
/-- Is a descriptor valid (R124)? -/
def nfValid (d : BitVec 16) : Bool := decide (nfE d ≤ 5) && decide (2 ≤ nfW d) && decide (nfW d ≤ 8)
/-- log2 of the smallest step L (R125). -/
def nfL (d : BitVec 16) : Int := if nfE d = 0 then -nfBias d else 1 - nfBias d - nfM d
/-- The container of an element in bits (R127). -/
def nfBox (d : BitVec 16) : Nat := if nfW d ≥ 5 then 8 else if nfW d ≥ 3 then 4 else 2

/-- The container bits cw of an MXDRAIN output (17 R342): with a descriptor that is not valid the smallest one, so that
a range that cannot fit is found first (log 25). -/
def drainBox (b : Block) (x : Z1) : Nat :=
  match fld (cmd1 x.ext) 2 0 with
  | 0 => 32
  | 3 => let d := smGetD b.nf 0 (fld (cmd1 x.ext) 5 3); if nfValid d then nfBox d else 2
  | _ => 16
/-- How many pool registers an MXDRAIN writes, and which. -/
def drainCount (b : Block) (x : Z1) : Nat := ceilDiv (fld (cmd0 x.ext) 13 8 + 1) (32 / drainBox b x)
def drainRegs (b : Block) (x : Z1) : List Nat := (List.range (drainCount b x)).map (x.d.toNat + ·)

/-- One register operand is legal for a warp (03 R51, R52). -/
def regOk (b : Block) (w : Warp) (dst : Bool) (u : RegUse) : Bool :=
  u.reg % u.align == 0
  && (!u.scal || (decide (1536 ≤ u.reg) && decide (u.reg + u.n ≤ 1600)))
  && (!u.status || decide (u.reg < 512) || decide (512 ≤ u.reg ∧ u.reg < 1600))
  && u.regs.all fun r =>
    if r < 512 then decide (r < privRegs b w)
    else if r < 1536 then (match b.setOf w.num with | some (_, t) => decide (r - 512 < t.size) | none => false)
    else if r < 1600 then true
    else if r < 1608 then dst || w.tmpW.getLsbD (r - 1600)
    else !dst && decide (r ≤ 1626)

/-- A set-pool register as a destination (03 R51). -/
def poolDst (l : List RegUse) : Bool := l.any fun u => decide (512 ≤ u.reg) && decide (u.reg < 1536)

/-- Does a read of the registers cross to another member's partition (03 R56)? -/
def poolFar (b : Block) (w : Warp) (l : List RegUse) : Bool :=
  match b.setOf w.num with
  | none => false
  | some (_, t) =>
    let ms := t.members
    let me := ms.findIdx (· == w.num)
    l.any fun u => u.regs.any fun r =>
      decide (512 ≤ r) && decide (r < 1536) && (r - 512) % ms.length != me

/-- What a meaning works in: the issuing or leading warp as it stands, its block, the lanes of E or
E_once to execute (`e0` those of the first execution, where this is a replay), and the members with
their contributions (03 R66). -/
structure Ctx where
  core    : Nat
  slot    : Nat
  bi      : Nat
  w       : Warp
  b       : Block
  scope   : Scope
  e       : Mask
  e0      : Mask
  members : List (Nat × Mask)
  addr    : Nat
  len     : Nat

/-- What a meaning answers: the state with its effect; a fault over lanes with their addresses; or that
it waits, with what waiting records. -/
inductive Act where
  | done (s : State)
  | fault (code sub : Nat) (lanes : Mask) (trap : Nat) (addrs : List (Nat × Nat)) (s : State)
  | wait (s : State)

/-- A register of the leader for a lane, as a number. -/
def Ctx.reg (c : Ctx) (s : State) (r l : Nat) : Nat := (readReg s c.core c.b c.w r l).toNat
/-- n words from a register, low first, as a number. -/
def Ctx.regN (c : Ctx) (s : State) (r n l : Nat) : Nat :=
  if n = 2 then c.reg s r l + 2 ^ 32 * c.reg s (r + 1) l else c.reg s r l
/-- The lowest lane of E, of the first execution where this one is a replay (03 R54, 09 R188). -/
def Ctx.low (c : Ctx) : Nat := (lowLane c.e0).getD 0
/-- A scalar operand: the same for every lane. -/
def Ctx.scal (c : Ctx) (s : State) (r : Nat) : Nat := c.reg s r c.low
def Ctx.scalPair (c : Ctx) (s : State) (r : Nat) : Nat := c.regN s r 2 c.low

/-- The lanes of E that read a register with an uncorrected error (09 R186). -/
def Ctx.badLanes (c : Ctx) (l : List RegUse) : Mask :=
  let pool := match c.b.setOf c.w.num with | some (_, t) => t.bad | none => []
  if c.w.bad.isEmpty && pool.isEmpty then 0
  else
    let hit (k r : Nat) : Bool :=
      if 512 ≤ r ∧ r < 1536 then pool.contains (r - 512, k)
      else c.w.bad.contains (r, if 1536 ≤ r ∧ r < 1600 then 0 else k)
    maskOf fun k => inMask c.e k && (l.flatMap RegUse.regs).any (hit k)

/-- The immediate as a source of n words: zero-extended, or sign-extended by ext (11 R218, R220). -/
def immNat (w : Z1) (n : Nat) : Nat :=
  match w.ext with
  | .imm i => i.toNat
  | .opnd sx _ _ i => if n = 2 ∧ sx then truncN 64 (sextN 32 i.toNat) else i.toNat
  | _ => 0

def Ctx.srcA (c : Ctx) (s : State) (w : Z1) (n l : Nat) : Nat := c.regN s w.a.toNat n l
def Ctx.srcB (c : Ctx) (s : State) (w : Z1) (n l : Nat) : Nat :=
  if immB w then immNat w n else c.regN s w.b.toNat n l
def Ctx.srcC (c : Ctx) (s : State) (w : Z1) (n l : Nat) : Nat :=
  if immC w then immNat w n else c.regN s (cReg w) n l

/-- rd of 12 R229. -/
def rdT (t : Ty) (x : Nat) : Int := if t.signed then sextN t.width x else ((x % 2 ^ t.width : Nat) : Int)

/-- wr of 12 R229: the words of a result, extended as 11 R217 states. -/
def wrT (t : Ty) (z : Int) : List Word :=
  if t.is64 then halves (truncN 64 z)
  else if t.signed then [BitVec.ofInt 32 (sextN t.width (truncN t.width z))]
  else [BitVec.ofNat 32 (truncN t.width z)]

def loT (t : Ty) : Int := if t.signed then -(2 ^ (t.width - 1) : Nat) else 0
def hiT (t : Ty) : Int := if t.signed then ((2 ^ (t.width - 1) - 1 : Nat) : Int) else ((2 ^ t.width - 1 : Nat) : Int)

/-- The writes of words to registers d, d + 1, ... for one lane. -/
def laneWrs (d l : Nat) : List Word → List Wr
  | [] => []
  | x :: xs => .lane d l x :: laneWrs (d + 1) l xs
def scalWrs (d : Nat) : List Word → List Wr
  | [] => []
  | x :: xs => .scal d x :: scalWrs (d + 1) xs

/-- The writes of a result to one member's lanes (03 R54, R66): every lane its own value, or a scalar the
value of the lowest lane of E. -/
def destWrs (c : Ctx) (d : Nat) (f : Nat → List Word) (m : Mask) : List Wr :=
  if 1536 ≤ d ∧ d < 1600 then scalWrs d (f c.low) else (maskLanes m).flatMap fun l => laneWrs d l (f l)

/-- Predicate writes to one member's lanes. -/
def predWrs (p : Nat) (f : Nat → Bool) (m : Mask) : List Wr :=
  if p ≥ 7 then [] else (maskLanes m).map fun l => .pred p l (f l)

/-- A fixed-latency result outside the warps' own registers arrives at a clk: the trailers of the members' runs, those
of members without lanes among them, wait for it (02 R35). -/
def Ctx.arriveAt (c : Ctx) (s : State) (due : Nat) : State :=
  c.members.foldl (fun s p => s.updWarp c.core p.1 fun w => { w with resAt := max w.resAt due }) s

/-- Deliver a fixed-latency result due at a clk: writes for each member with lanes, and pool writes 2 clk
later (03 R56). -/
def Ctx.deliver (c : Ctx) (s : State) (due : Nat) (wrs : Mask → List Wr) (pool : List (Nat × Nat × Word))
    (flags : BitVec 5) : State :=
  let s := c.members.foldl (fun s p =>
    if p.2 = 0 then s
    else s.updWarp c.core p.1 fun w =>
      w.addPend due (wrs p.2 ++ if flags = 0 then [] else [.flags flags])) s
  match c.b.setOf c.w.num with
  | some (i, _) =>
    if pool.isEmpty then s
    else c.arriveAt (pool.foldl (fun s x => s.addBpend c.core c.bi (due + 2) (.pool i x.1 x.2.1 x.2.2)) s) (due + 2)
  | none => s

/-- Pool writes of words to v(512 + r), v(512 + r + 1), ... of a lane. -/
def poolWrs (r l : Nat) : List Word → List (Nat × Nat × Word)
  | [] => []
  | x :: xs => (r, l, x) :: poolWrs (r + 1) l xs

/-- Deliver a register result d := f(lane) and predicate results with fixed latency L. With E empty nothing
is written (03 R67). -/
def Ctx.result (c : Ctx) (s : State) (lat : Nat) (d : Option Nat) (f : Nat → List Word)
    (preds : List (Nat × (Nat → Bool))) (flags : BitVec 5) : State :=
  if c.e = 0 then s
  else
    let due := s.now + lat
    let isPool := match d with | some d => decide (512 ≤ d) && decide (d < 1536) | none => false
    let wrs (m : Mask) : List Wr :=
      (match d with | some d => if isPool then [] else destWrs c d f m | none => [])
      ++ preds.flatMap fun p => predWrs p.1 p.2 m
    let pool := match d with
      | some d => if isPool then (maskLanes c.e).flatMap fun l => poolWrs (d - 512) l (f l) else []
      | none => []
    c.deliver s due wrs pool flags

end Sys2Proof.Machine
end

