-- ==== Sys2Proof/Machine/Translate.lean ====
section
/-!
DEFINITION. Two-stage translation (25 R425 to R434): the walk, the caches, worlds and secure memory
(R436 to R438), page requests, and the WALK and PAGE_REPLY steps.
-/
namespace Sys2Proof.Machine

/-! ### Worlds and secure memory (25 R436 to R438) -/

/-- The address lies in an enabled secure region of the tower that owns it (R437). -/
def State.secureMem (s : State) (a : Nat) : Bool :=
  let t := (s.kind a).tower
  match s.kind a with
  | .hbm _ | .tier _ | .bank _ =>
    (List.range 16).any fun r =>
      (s.reg (regionReg t r 0)).getLsbD 31 &&
      decide (fld (s.reg (regionReg t r 2)) 31 16 * 2 ^ 16 + fld (s.reg (regionReg t r 3)) 15 0 * 2 ^ 32 ≤ a) &&
      decide (a < fld (s.reg (regionReg t r 4)) 31 16 * 2 ^ 16 + fld (s.reg (regionReg t r 5)) 15 0 * 2 ^ 32 + 2 ^ 16)
      && decide (fld (s.reg (regionReg t r 2)) 31 16 * 2 ^ 16 + fld (s.reg (regionReg t r 3)) 15 0 * 2 ^ 32
        ≤ fld (s.reg (regionReg t r 4)) 31 16 * 2 ^ 16 + fld (s.reg (regionReg t r 5)) 15 0 * 2 ^ 32)
  | _ => false

/-- Is the core (R436 words 0 to 5) secure? -/
def State.coreSecure (s : State) (c : Nat) : Bool :=
  (s.reg (worldReg (towerOf c) (stratumOf c))).getLsbD (c % 32)
/-- Is the copy engine of a core secure (words 6 to 11)? -/
def State.copySecure (s : State) (c : Nat) : Bool :=
  (s.reg (worldReg (towerOf c) (6 + stratumOf c))).getLsbD (c % 32)
/-- Is a global port secure (word 15)? -/
def State.portSecure (s : State) (p : Nat) : Bool := (s.reg (worldReg (p / 6) 15)).getLsbD (p % 6)
/-- Is a function secure (words 16 to 18 of tower 0)? -/
def State.fnSecure (s : State) (f : Nat) : Bool :=
  if f = 0 then (s.reg (worldReg 0 16)).getLsbD 0
  else (s.reg (worldReg 0 (17 + (f - 0x40) / 32))).getLsbD (f % 32)

/-- The outcome of R438 for an access of a world; no fabric page is secure memory. -/
def State.worldOk (s : State) (secure : Bool) (pa : Nat) (at' : Attr) : Bool :=
  let m := !at'.fabric && s.secureMem pa
  if secure then at'.secure == m else !at'.secure && !m

/-- Access kinds: 0 read, 1 write, 2 execute, 3 atomic (25 R433), and 4 for BANKOP, which reads and writes
(15 R313). -/
def permits (a : Attr) (kind : Nat) : Bool :=
  match kind with
  | 0 => a.read
  | 1 => a.write
  | 2 => a.exec
  | _ => a.read && a.write

def writes (kind : Nat) : Bool := kind == 1 || kind == 3 || kind == 4

/-- A known translation with its checks in the order of 09 R185 items 8 and 9: a plain store or BANKOP to
fabric-mapped memory is fabric_store. -/
def State.judge (s : State) (secure : Bool) (kind pa : Nat) (a : Attr) : Xlate :=
  if a.fabric && (kind == 1 || kind == 4) then .bad 0x18 0
  else if !s.worldOk secure pa a then .bad 0x0C 0
  else if !permits a kind then .bad 0x0B 0 else .ok pa a

/-! ### The caches (25 R432) -/

/-- A combined translation that maps an address. -/
def TlbEntry.covers (e : TlbEntry) (fn va : Nat) : Bool :=
  e.leaf.isNone && e.fn == fn && decide (e.va ≤ va) && decide (va < e.va + e.size)

/-- A hit; a clear dirty bit is a miss for a write (25 R430). -/
def tlbFind (l : List TlbEntry) (fn va kind : Nat) : Option TlbEntry :=
  l.find? fun e => e.covers fn va && (e.attr.dirty || !writes kind)

def tlbAdd (n : Nat) (l : List TlbEntry) (e : TlbEntry) : List TlbEntry :=
  (e :: l.filter fun x => !(x.fn == e.fn && x.va == e.va && x.leaf.isSome == e.leaf.isSome)).take n

/-- The core cache, then the cluster cache. -/
def State.tlbLookup (s : State) (core fn va kind : Nat) : Option TlbEntry :=
  match tlbFind (s.core core).tlb fn va kind with
  | some e => some e
  | none => tlbFind (s.cluster core).tlb fn va kind

def State.tlbFill (s : State) (core : Nat) (e : TlbEntry) : State :=
  (s.updCore core fun k => { k with tlb := tlbAdd 64 k.tlb e }).updCluster (core / 4)
    fun c => { c with tlb := tlbAdd 4096 c.tlb e }

/-! ### Walks (25 R426 to R431) -/

/-- The outcome of a stage: the leaf entry with its address and level, or a sub-kind (2 stage-2, 3 walk
error, 1 stage-1) with the level and the guest-physical address that missed. -/
inductive Stage where
  | leaf (e : Nat) (at' : Nat) (lvl : Nat)
  | stop (sub lvl gpa : Nat)
  deriving DecidableEq, Repr

def lvlIndex (stage1 : Bool) (x lvl : Nat) : Nat :=
  if lvl = 1 then (if stage1 then nfld x 51 42 else nfld x 47 42)
  else if lvl = 2 then nfld x 41 29 else nfld x 28 16

def entBit (e i : Nat) : Bool := (e >>> i) % 2 == 1
def entAddr (e : Nat) : Nat := nfld e 47 16 * 2 ^ 16

/-- A configured peer id (27 R451). -/
def State.peerOn (s : State) (p : Nat) : Bool := p < 4096 && (s.reg (peerReg p 0)).getLsbD 31

/-- The checks of R427 on a valid entry. -/
def entryOk (s : State) (stage1 : Bool) (lvl e : Nat) : Bool :=
  nfld e 61 60 == 0 &&
  if !entBit e 1 then decide (lvl < 3) && nfld e 59 48 == 0
  else
    decide (lvl ≥ 2) && nfld e 8 7 != 3 && (lvl != 2 || nfld e 28 16 == 0) &&
    (if stage1 then nfld e 59 48 == 0 && !entBit e 15 && !entBit e 14
     else if entBit e 15 then s.peerOn (nfld e 59 48) else nfld e 59 48 == 0)

/-- Tables lie in HBM, second tier or host memory, are not poisoned, and a non-secure access does not read
one in secure memory (25 R430, R438). -/
def tableOk (s : State) (secure : Bool) (a : Nat) : Bool :=
  (match s.kind a with | .hbm _ | .tier _ | .host => true | _ => false) && !s.poisoned a
  && (secure || !s.secureMem a)

/-- The stage-2 walk of a guest-physical address over the levels left. -/
def stage2 (s : State) (secure : Bool) (g : Nat) : Nat → List Nat → Stage
  | _, [] => .stop 3 3 g
  | tbl, lvl :: rest =>
    let a := tbl + 8 * lvlIndex false g lvl
    if !tableOk s secure a then .stop 3 lvl g
    else
      let e := s.memNat a 8
      if !entBit e 0 then .stop 2 lvl g
      else if !entryOk s false lvl e then .stop 3 lvl g
      else if entBit e 1 then .leaf e a lvl
      else stage2 s secure g (entAddr e) rest

def leafSize (lvl : Nat) : Nat := if lvl = 2 then 2 ^ 29 else 2 ^ 16

def State.root1 (s : State) (f : Nat) : Nat := fld (s.reg (ctxReg f 2)) 31 16 * 2 ^ 16 + fld (s.reg (ctxReg f 3)) 15 0 * 2 ^ 32
def State.root2 (s : State) (f : Nat) : Nat := fld (s.reg (ctxReg f 4)) 31 16 * 2 ^ 16 + fld (s.reg (ctxReg f 5)) 15 0 * 2 ^ 32

def runStage2 (s : State) (secure : Bool) (f g : Nat) : Stage := stage2 s secure g (s.root2 f) [1, 2, 3]

/-- The stage-2 translation of a guest-physical address that a walk of a core uses: from the cluster cache (R432), where a
write misses on a clear dirty bit (R430), else by a walk of its own. -/
def stage2Of (s : State) (core : Nat) (secure : Bool) (f g kind : Nat) : Stage :=
  let hit (e : TlbEntry) : Bool := e.fn == f && decide (e.gpa ≤ g) && decide (g < e.gpa + e.gsize) &&
    e.leaf.any fun x => entBit x.1 63 || !writes kind
  match (s.cluster core).tlb.find? hit with
  | some e => match e.leaf with
    | some (x, a) => .leaf x a (if e.gsize = 2 ^ 29 then 2 else 3)
    | none => runStage2 s secure f g
  | none => runStage2 s secure f g

/-- The physical address a stage-2 leaf gives a guest-physical address. -/
def leafPa (e lvl g : Nat) : Nat := entAddr e + g % leafSize lvl

/-- The stage-1 walk: each table read goes through stage 2. -/
def stage1 (s : State) (core : Nat) (secure : Bool) (f va : Nat) : Nat → List Nat → Stage
  | _, [] => .stop 3 3 0
  | tbl, lvl :: rest =>
    let g := tbl + 8 * lvlIndex true va lvl
    match stage2Of s core secure f g 0 with
    | .stop sub l gp => .stop sub l gp
    | .leaf e2 _ l2 =>
      let a := leafPa e2 l2 g
      if entBit e2 15 || !tableOk s secure a then .stop 3 lvl 0
      else
        let e := s.memNat a 8
        if !entBit e 0 then .stop 1 lvl 0
        else if !entryOk s true lvl e then .stop 3 lvl 0
        else if entBit e 1 then .leaf e a lvl
        else stage1 s core secure f va (entAddr e) rest

/-- The guest-physical addresses of the entries that a stage-1 walk reads, each read with access kind 0. -/
def tableReads (s : State) (core : Nat) (secure : Bool) (f va : Nat) : Nat → List Nat → List (Nat × Nat)
  | _, [] => []
  | tbl, lvl :: rest =>
    let g := tbl + 8 * lvlIndex true va lvl
    (g, 0) :: (match stage2Of s core secure f g 0 with
      | .leaf e2 _ l2 => let e := s.memNat (leafPa e2 l2 g) 8
        if entBit e 1 then [] else tableReads s core secure f va (entAddr e) rest
      | .stop _ _ _ => [])

/-- The stage-2 translations that a completed walk used enter the cluster cache, as the walk read them (25 R432). -/
def fillStage2 (s : State) (core : Nat) (secure : Bool) (f : Nat) (l : List (Nat × Nat)) : State :=
  l.foldl (fun s q => match stage2Of s core secure f q.1 q.2 with
    | .leaf x a lvl =>
      let g := q.1
      let b := g - g % leafSize lvl
      let e : TlbEntry := { fn := f, va := b, size := 0, gpa := b, gsize := leafSize lvl, pa := entAddr x, attr := {}, leaf := some (x, a) }
      s.updCluster (core / 4) fun c => { c with tlb := tlbAdd 4096 c.tlb e }
    | .stop _ _ _ => s) s

/-- The combined attributes of R428. -/
def combine (e1 e2 : Nat) (dirty : Bool) : Attr :=
  { read := entBit e1 2 && entBit e2 2, write := entBit e1 3 && entBit e2 3, exec := entBit e1 4 && entBit e2 4
    share := max (nfld e1 6 5) (nfld e2 6 5), alloc := max (nfld e1 8 7) (nfld e2 8 7)
    wt := entBit e1 9 || entBit e2 9, compr := entBit e1 10 && entBit e2 10
    prio := min (nfld e1 12 11) (nfld e2 12 11), det := entBit e1 13 || entBit e2 13
    secure := entBit e2 14, fabric := entBit e2 15
    peer := if entBit e2 15 then nfld e2 59 48 else 0, dirty := dirty }

/-- A finished walk: a translation, a fault without a request, or a miss that asks for a page. -/
inductive WalkRes where
  | ok (e : TlbEntry)
  | bad (code sub : Nat)
  | miss (sub lvl gpa : Nat)
  deriving DecidableEq, Repr

/-- Set accessed, and dirty for a write, in an entry where clear (25 R429, R430). -/
def setBits (s : State) (a kind : Nat) : State :=
  let e := s.memNat a 8
  let e' := e ||| 2 ^ 62 ||| (if writes kind then 2 ^ 63 else 0)
  if e = e' then s else s.homeWrite a (toBytes 8 e')

/-- Does a stage-2 leaf's frame begin in a tower's bank memory and reach beyond it (28 R468)? -/
def beyondBank (s : State) (e lvl : Nat) : Bool :=
  (s.kind (entAddr e)).isBank && s.kind (entAddr e) != s.kind (entAddr e + leafSize lvl - 1)

/-- The whole walk of R429 for a function, an address and an access kind. -/
def walkFull (s : State) (core : Nat) (secure : Bool) (f va kind : Nat) : WalkRes × State :=
  if va / 2 ^ 52 ≠ 0 then (.bad 0x0A 1, s)
  else match stage1 s core secure f va (s.root1 f) [1, 2, 3] with
    | .stop 3 _ _ => (.bad 0x0A 3, s)
    | .stop sub l g => (.miss sub l g, s)
    | .leaf e1 a1 l1 =>
      let g := leafPa e1 l1 va
      match stage2Of s core secure f g kind with
      | .stop 3 _ _ => (.bad 0x0A 3, s)
      | .stop sub l gp => (.miss sub l gp, s)
      | .leaf e2 a2 l2 =>
        let pa := leafPa e2 l2 g
        if !entBit e2 15 && (s.kind pa == .unmapped || beyondBank s e2 l2) then (.bad 0x0A 3, s)
        else
          let d := writes kind || (entBit e1 63 && entBit e2 63)
          let at' := combine e1 e2 d
          match s.judge secure kind pa at' with
          | .bad c sub => (.bad c sub, s)
          | .ok _ _ =>
            let s := fillStage2 (setBits (setBits s a1 kind) a2 kind) core secure f (tableReads s core secure f va (s.root1 f) [1, 2, 3] ++ [(g, kind)])
            let z := min (leafSize l1) (leafSize l2)
            (.ok { fn := f, va := va - va % z, size := z, gpa := g - g % leafSize l2, gsize := leafSize l2
                   pa := pa - va % z, attr := at' }, s)

/-! ### Page requests (25 R433, R434) -/

/-- Raise an MSI-X vector of a function. -/
def State.msix (s : State) (fn v : Nat) : State := s.emit (.msix fn v)

def reqRoom (s : State) (f : Nat) : Bool :=
  decide ((s.regN (ctxReg f 8) + 2 ^ 32 - s.regN (ctxReg f 9)) % 2 ^ 32 < 256)
  && decide ((s.reqs.filter fun r => r.fn == f && r.tag.isSome).length < 256)

/-- Write one request into the function's queue: the entry, then producer as a release, then the vector. -/
def writeReq (s : State) (r : PageReq) : State :=
  let p := s.regN (ctxReg r.fn 8)
  let tag := p % 256 + 256 * (p / 256 % 256)
  let qb := fld (s.reg (ctxReg r.fn 6)) 31 13 * 2 ^ 13 + fld (s.reg (ctxReg r.fn 7)) 15 0 * 2 ^ 32
  let ent := toBytes 2 tag ++ toBytes 1 r.fn ++ toBytes 1 (r.sub + 4 * r.kind) ++ toBytes 1 r.level
    ++ toBytes 3 0 ++ toBytes 8 r.va ++ toBytes 8 (if r.sub = 2 then r.gpa else 0) ++ toBytes 8 0
  let s := s.homeWrite (qb + 32 * (p % 256)) ent
  let s := s.bump (ctxReg r.fn 8) 1
  let s := { s with reqs := s.reqs.map fun x => if x == r then { r with tag := some tag } else x }
  s.msix 0 (fld (s.reg (ctxReg r.fn 10)) 10 0)

/-- Put a request of a walk into its function's queue, or attach it to one outstanding for the same page
and sub-kind; with no room it waits inside the device. -/
def pageRequest (s : State) (f va gpa sub kind lvl walk : Nat) : State :=
  let page (r : PageReq) : Nat := if sub = 2 then r.gpa / 2 ^ 16 else r.va / 2 ^ 16
  let mine := if sub = 2 then gpa / 2 ^ 16 else va / 2 ^ 16
  if s.reqs.any fun r => r.fn == f && r.sub == sub && page r == mine then
    { s with reqs := s.reqs.map fun r =>
        if r.fn == f && r.sub == sub && page r == mine then { r with walks := r.walks ++ [walk] } else r }
  else
    let r : PageReq := { tag := none, fn := f, va := va, gpa := gpa, sub := sub, kind := min kind 3, level := lvl, walks := [walk] }
    let s := { s with reqs := s.reqs ++ [r] }
    if reqRoom s f then writeReq s r else s

/-- Requests of a function that wait for room enter the queue while there is some. -/
def drainReqs (s : State) (f : Nat) : State :=
  (s.reqs.filter fun r => r.fn == f && r.tag.isNone).foldl (fun s r => if reqRoom s f then writeReq s r else s) s

/-! ### A warp's and an engine's translations -/

def pageOf (va : Nat) : Nat := va / 2 ^ 16

/-- Is the access of a block's warp secure (25 R438)? -/
def State.blockSecure (s : State) (core : Nat) (b : Block) : Bool := b.secure && s.coreSecure core

/-- What is known of a warp's access: from its finished walks, else from the caches. -/
def warpXlate (s : State) (core : Nat) (b : Block) (w : Warp) (va kind : Nat) : Option Xlate :=
  if va / 2 ^ 52 ≠ 0 then some (.bad 0x0A 1)
  else
    match w.xl.find? fun x => x.1 == pageOf va && x.2.1 == kind with
    | some (_, _, .ok pa a) => some (.ok (pa + va % 2 ^ 16) a)
    | some (_, _, r) => some r
    | none => (s.tlbLookup core b.fn va kind).map fun e =>
        s.judge (s.blockSecure core b) kind (e.pa + (va - e.va)) e.attr

/-- Begin the walks a warp's access still needs, one for each page (25 R432). -/
def startWalk (s : State) (core slot : Nat) (b : Block) (kind : Nat) (vas : List Nat) : State :=
  let pages := (vas.map pageOf).eraseDups
  pages.foldl (fun s p =>
    if s.walks.any fun x => !x.failed && x.who == .warp core slot && pageOf x.va == p && x.kind == kind then s
    else
      let (id, s) := s.fresh
      { s with walks := s.walks ++ [{ id := id, core := core, fn := b.fn
                                      va := ((vas.find? fun v => pageOf v == p).getD 0), kind := kind
                                      secure := s.blockSecure core b, who := .warp core slot, parked := false }] }) s

/-- The answer an engine gets. -/
inductive EngX where
  | ok (pa : Nat) (a : Attr)
  | wait
  | bad (code : Nat)
  deriving DecidableEq, Repr

/-- An engine's translation through the same machinery: a resolvable miss asks for the page, and the
engine waits without suspending any warp (08 R162, 25 R431). With `keep` a request that has failed goes on
failing for its page, so that all accesses of one operation to that page fail together. -/
def engXlateK (keep : Bool) (s : State) (core fn : Nat) (secure : Bool) (id va kind : Nat) : EngX × State :=
  if va / 2 ^ 52 ≠ 0 then (.bad 0x0A, s)
  else
    match s.walks.find? fun x => x.who == .engine id && pageOf x.va == pageOf va && x.kind == kind with
    | some x =>
      if !x.failed then (.wait, s)
      else if keep then (.bad 0x0A, s)
      else (.bad 0x0A, { s with walks := s.walks.filter fun y => y.id != x.id })
    | none =>
      match s.tlbLookup core fn va kind with
      | some e => match s.judge secure kind (e.pa + (va - e.va)) e.attr with
        | .ok pa a => (.ok pa a, s)
        | .bad c _ => (.bad c, s)
      | none => match walkFull s core secure fn va kind with
        | (.ok e, s) => (.ok (e.pa + (va - e.va)) e.attr, s.tlbFill core e)
        | (.bad c _, s) => (.bad c, s)
        | (.miss sub l g, s) =>
          let (wid, s) := s.fresh
          let s := { s with walks := s.walks ++ [{ id := wid, core := core, fn := fn, va := va, kind := kind
                                                   secure := secure, who := .engine id, parked := true }] }
          (.wait, pageRequest s fn va g sub kind l wid)

def engXlate : State → Nat → Nat → Bool → Nat → Nat → Nat → EngX × State := engXlateK false

/-- Forget the failed requests of an engine's operation. -/
def dropFailed (s : State) (id : Nat) : State :=
  { s with walks := s.walks.filter fun x => !(x.failed && x.who == .engine id) }

/-- The lines of n bytes at an address. -/
def linesOf (a n : Nat) : List Nat := (List.range (n / 128 + 2)).map (lineOf a + ·) |>.filter fun l => decide (l ≤ lineOf (a + n - 1))

/-- n bytes of one page that an engine other than the copy engine reads: denied on a fabric page (04 R91) and where a line
is poisoned; while a copy owns a line they wait (04 R86). -/
def engPage (s : State) (core fn : Nat) (secure : Bool) (id va n : Nat) : (EngX × List Byte) × State :=
  match engXlate s core fn secure id va 0 with
  | (.ok pa a, s) =>
    if a.fabric then ((.bad 0x0B, []), s)
    else if (linesOf pa n).any fun l => (smGet? s.owners l).any fun w => w.copy.isSome then ((.wait, []), s)
    else if (linesOf pa n).any fun l => s.poisoned (128 * l) then ((.bad 0x17, []), s)
    else ((.ok pa a, readBytes s pa n), s)
  | (r, s) => ((r, []), s)

/-- Bytes of an engine read: each 64 KiB page translated in turn. -/
def engRead (s : State) (core fn : Nat) (secure : Bool) (id va n : Nat) : (EngX × List Byte) × State :=
  let m := min n (2 ^ 16 - va % 2 ^ 16)
  match engPage s core fn secure id va m with
  | ((.ok pa a, bs), s) =>
    if m = n then ((.ok pa a, bs), s)
    else match engPage s core fn secure id (va + m) (n - m) with
      | ((.ok _ _, cs), s) => ((.ok pa a, bs ++ cs), s)
      | ((r, _), s) => ((r, []), s)
  | r => r

/-- A record of a stopped warp no longer waits for a walk; with none left and the agent native, the warp
resumes (09 R188). -/
def wakeRecord (s : State) (core slot walk : Nat) : State :=
  match s.warp? core slot with
  | some w => match w.stopped with
    | some r =>
      if r.walks.contains walk then
        let r := { r with walks := r.walks.filter (· != walk) }
        let s := s.setWarp core slot { w with stopped := some r }
        if r.walks.isEmpty && r.code == 0x0A && r.sub != 3 && r.addrs.all (fun p => decide (p.2 < 2 ^ 52)) then
          if nativeAgent s core then resolveWarp s core slot else { s with waits := [] }
        else s
      else s
    | none => s
  | none => s

/-- Do two walks that have still to be made share one: those of one cluster cache for one page of one function (25 R432,
R444)? They do where their access kind and world agree too, on which a walk's outcome depends. -/
def sharesWalk (x y : Walk) : Bool :=
  !y.parked && y.core / 4 == x.core / 4 && y.fn == x.fn && pageOf y.va == pageOf x.va && y.kind == x.kind && y.secure == x.secure

/-- The walks made as one with a walk, which is made for the first of them. -/
def sharers (s : State) (x : Walk) : List Walk := s.walks.filter (sharesWalk x)
/-- The walks of a tower that a walker makes: 64 in the order of arrival (25 R432). -/
def walkersOf (s : State) (t : Nat) : List Walk :=
  (s.walks.filter fun x => !x.parked && towerOf x.core % 2 == t && (sharers s x).head? == some x).take 64

/-- What a waiter of a walk learns. -/
def noteWalk (s : State) (x : Walk) (r : Xlate) : State :=
  match x.who with
  | .warp c sl => s.updWarp c sl fun w => { w with xl := (pageOf x.va, x.kind, r) :: w.xl.filter fun y => !(y.1 == pageOf x.va && y.2.1 == x.kind) }
  | .engine _ => s
/-- A waiter whose walk has ended. -/
def wakeWalk (s : State) (x : Walk) : State := match x.who with | .warp c sl => wakeRecord s c sl x.id | .engine _ => s

/-- WALK (25 R429): a walk in progress completes, asks for a page, or finds a fault, for all that share it. -/
def walkStep (s : State) (x : Walk) : State :=
  let g := sharers s x
  let ends (s : State) (r : Xlate) : State :=
    let s := { s with walks := s.walks.filter fun y => !g.any fun z => z.id == y.id, waits := [] }
    g.foldl (fun s y => wakeWalk (noteWalk s y r) y) s
  match walkFull s x.core x.secure x.fn x.va x.kind with
  | (.ok e, s) => ends (g.foldl (fun s y => s.tlbFill y.core e) s) (.ok (e.pa + (pageOf x.va * 2 ^ 16 - e.va)) e.attr)
  | (.bad c sub, s) => ends s (.bad c sub)
  | (.miss sub l a, s) =>
    let s := { s with walks := s.walks.map fun y => if g.any (fun z => z.id == y.id) then { y with parked := true } else y, waits := [] }
    g.foldl (fun s y => noteWalk (pageRequest s y.fn x.va a sub y.kind l y.id) y (.bad 0x0A sub)) s

/-- A walker makes the walk of a number, or the one that it shares. -/
def execWalk (id : Nat) (s : State) : Res :=
  match (s.walks.find? fun x => x.id == id && !x.parked).bind fun x => (sharers s x).head? with
  | some x => if (walkersOf s (towerOf x.core % 2)).contains x then .next (walkStep s x) else .next s
  | none => .next s

def isEngine : Walker → Bool
  | .engine _ => true
  | _ => false

/-- A reply written (25 R434): one to an outstanding request lets its waiters walk again or makes their
faults unresolvable, also that of a warp that has still to stop (09 R190); any other reply is counted as stray. -/
def pageReply (s : State) (val : DWord) : State :=
  let v := val.toNat
  let res := nfld v 25 24
  let f := nfld v 22 16
  let tag := nfld v 15 0
  match s.reqs.find? fun r => r.fn == f && r.tag == some tag with
  | none => s.bump (ctxReg f 11) 1
  | some r =>
    if res = 0 ∨ res = 3 then s.bump (ctxReg f 11) 1
    else
      let s := { s with reqs := s.reqs.filter (· != r), waits := [] }
      let s := drainReqs s f
      if res = 1 then
        let ws := s.walks.map fun y => if r.walks.contains y.id then { y with parked := false } else y
        { s with walks := ws.filter (fun y => !(r.walks.contains y.id && isEngine y.who)) }
      else
        let mine := s.walks.filter fun y => r.walks.contains y.id
        let ws := s.walks.map fun y => if r.walks.contains y.id then { y with failed := true, parked := true } else y
        let stands (y : Walk) : Bool := match y.who with
          | .warp c sl => (s.warp? c sl).any fun w => w.stopped.isNone
          | .engine _ => true
        let s := { s with walks := ws.filter fun y => !r.walks.contains y.id || stands y }
        mine.foldl (fun s y => match y.who with
          | .warp c sl => s.updWarp c sl fun w => { w with stopped := w.stopped.map fun q => if q.walks.contains y.id then { q with walks := [] } else q }
          | .engine _ => s) s

/-- TRANSLATION_CONSUMER_WRITE (25 R433): the consumer word of a context, and the requests that waited
for room. -/
def execTranslationConsumerWrite (fn : Nat) (val : Word) (s : State) : Res :=
  .next (drainReqs { s.setReg (ctxReg fn 9) val with waits := [] } fn)

end Sys2Proof.Machine
end

