-- ==== Sys2Proof/Machine/Cache.lean ====
section
/-!
DEFINITION. The L1, homes, banks and ownership (04 R82 to R88), releases and acquires (05 R101), and the
performing of outstanding accesses: the operations behind RESULT_LAND and STORE_PERFORM.
-/
namespace Sys2Proof.Machine

/-! ### The L1 (04 R82, R83) -/

def l1Get (s : State) (core line : Nat) : Option Line := smGet? (s.core core).l1 line
def l1Put (s : State) (core line : Nat) (x : Line) : State :=
  s.updCore core fun k => { k with l1 := smPut k.l1 line x }
def l1Del (s : State) (core line : Nat) : State :=
  s.updCore core fun k => { k with l1 := smDel k.l1 line }

/-- Byte i of a line's data. -/
def lineByte (d : BitVec 1024) (i : Nat) : Byte := BitVec.ofNat 8 (d.toNat >>> (8 * i))
def lineSet (d : BitVec 1024) (i : Nat) (b : Byte) : BitVec 1024 :=
  let old := (d.toNat >>> (8 * i)) % 256
  BitVec.ofNat 1024 (d.toNat + (b.toNat * 2 ^ (8 * i)) - old * 2 ^ (8 * i))
def bit128 (i : Nat) : BitVec 128 := 1#128 <<< i
def idx128 : List Nat := List.range 128

def ownedBy (s : State) (line : Nat) : Option Owner := smGet? s.owners line
/-- Does a copy other than `me` own the line, so that an access to it waits at the home (04 R86)? -/
def lineHeld (s : State) (me : Option Nat) (line : Nat) : Bool :=
  (ownedBy s line).any fun w => w.copy.isSome && w.copy != me
/-- Does a copy own a line of a range of bytes? -/
def rangeHeld (s : State) (me : Option Nat) (a n : Nat) : Bool :=
  !s.owners.isEmpty && (List.range (n / 128 + 2)).any fun i => decide (lineOf a + i ≤ lineOf (a + n - 1)) && lineHeld s me (lineOf a + i)
def addWaiter (s : State) (line : Nat) (x : HomeWait) : State :=
  match ownedBy s line with
  | some w => { s with owners := smPut s.owners line { w with waiters := w.waiters ++ [x] } }
  | none => s
/-- Bytes the device itself writes at an address: each line's wait at its home for a copy that owns it. -/
def devWrite (s : State) (a : Nat) (bs : List Byte) : State :=
  (lineCuts (bs.length / 128 + 2) a bs).foldl (fun s p =>
    if lineHeld s none (lineOf p.1) then addWaiter s (lineOf p.1) (.put p.1 p.2) else s.homeWrite p.1 p.2) s
/-- Do bytes a core has written back still wait at a home (04 R86)? -/
def wbWaits (s : State) (core : Nat) : Bool :=
  s.owners.any fun e => e.2.waiters.any fun x => match x with | .write c _ => c == core | _ => false

/-- Dirty bytes arrive at their home (04 R82). -/
def wbArrive (s : State) (line : Nat) (x : Line) : State :=
  let s := idx128.foldl (fun s i => if x.dirty.getLsbD i then s.setByte (128 * line + i) (lineByte x.data i) else s) s
  let s := s.l2Use (128 * line) 0 x.prio true
  if x.dirty = BitVec.allOnes 128 then s.clearPoison line else s

/-- Write a line's dirty bytes to its home, where they wait for a copy that owns the line (04 R82, R86). -/
def wbBytes (s : State) (core line : Nat) (x : Line) : State :=
  if x.dirty = 0 then s
  else if lineHeld s none line then addWaiter s line (.write core x) else wbArrive s line x

/-- The bytes at a home as their own core sees them: what it has written back, and what waits there (05 R98). -/
def ownByte (s : State) (core a : Nat) : Byte :=
  let mine := ((ownedBy s (lineOf a)).elim [] (·.waiters)).filterMap fun x => match x with
    | .write c x => if c = core ∧ x.dirty.getLsbD (a % 128) then some (lineByte x.data (a % 128)) else none
    | _ => none
  mine.getLast?.getD (s.byte a)
def homeBytes (s : State) (core a n : Nat) : List Byte :=
  if s.owners.isEmpty then readBytes s a n else (List.range n).map fun i => ownByte s core (a + i)

/-- Write back one line of an L1; it stays, clean. -/
def wbLine (s : State) (core line : Nat) : State :=
  match l1Get s core line with
  | none => s
  | some x => l1Put (wbBytes s core line x) core line { x with dirty := 0 }

/-- Write every dirty byte of a core's L1 home (04 R83, the release). -/
def l1WriteBack (s : State) (core : Nat) : State :=
  (s.core core).l1.foldl (fun s p => if p.2.dirty = 0 then s else wbLine s core p.1) s

/-- Self-invalidate a core's L1: clean lines discarded, a dirty line keeps its dirty bytes (04 R83). -/
def l1Invalidate (s : State) (core : Nat) : State :=
  s.updCore core fun k =>
    { k with l1 := (k.l1.filter fun p => p.2.dirty != 0).map fun p => (p.1, { p.2 with valid := p.2.dirty }) }

/-- Room for one more line: the lowest priority, least recently used line leaves (04 R77, R82). The manual gives
the L1 no associativity; its 2,048 lines are taken as one set (log 39). -/
def l1Room (s : State) (core : Nat) : State :=
  let l := (s.core core).l1
  if l.length < 2048 then s
  else
    let worst := l.foldl (fun (a : Option (Nat × Line)) p => match a with
      | none => some p
      | some q => if p.2.prio < q.2.prio || (p.2.prio == q.2.prio && p.2.used < q.2.used) then some p else a) none
    match worst with
    | some (n, x) => l1Del (wbBytes s core n x) core n
    | none => s

def emptyLine (prio now : Nat) : Line := { valid := 0, dirty := 0, data := 0, prio := prio, used := now }

/-- Fill a line whole from its home; a line that is there keeps its dirty bytes, and its other bytes are those of
the home, so that no access sees part of a store (15 R302). What a load does that misses beside dirty bytes is the
model's choice (log 39). -/
def l1Fill (s : State) (core line prio : Nat) : State :=
  let s := s.l2Use (128 * line) 0 prio false
  let s := if (l1Get s core line).isNone then l1Room s core else s
  let x := (l1Get s core line).getD (emptyLine prio s.now)
  let d := idx128.foldl (fun d i => if x.dirty.getLsbD i then d else lineSet d i (ownByte s core (128 * line + i))) x.data
  l1Put s core line { x with valid := BitVec.allOnes 128, data := d, used := s.now }

/-- A use of a line (04 R77). -/
def l1Touch (s : State) (core line : Nat) : State :=
  match l1Get s core line with
  | some x => l1Put s core line { x with used := s.now }
  | none => s

/-- Are n bytes at an address valid in a core's L1? -/
def l1Hit (s : State) (core a n : Nat) : Bool :=
  match l1Get s core (lineOf a) with
  | some x => (List.range n).all fun i => x.valid.getLsbD (a % 128 + i)
  | none => false

def l1Read (s : State) (core a n : Nat) : List Byte :=
  match l1Get s core (lineOf a) with
  | some x => (List.range n).map fun i => lineByte x.data (a % 128 + i)
  | none => []

/-- Bytes put into a line: dirty, or only refreshing a resident line. -/
def l1Write (s : State) (core a : Nat) (bs : List Byte) (dirty : Bool) (prio : Nat) : State :=
  let line := lineOf a
  let x? := l1Get s core line
  if !dirty && x?.isNone then s
  else
    let s := if x?.isNone then l1Room s core else s
    let x := x?.getD (emptyLine prio s.now)
    let y := (bs.zipIdx (a % 128)).foldl (fun (y : Line) p =>
      { y with data := lineSet y.data p.2 p.1, valid := y.valid ||| bit128 p.2
               dirty := if dirty then y.dirty ||| bit128 p.2 else y.dirty &&& ~~~(bit128 p.2) }) { x with used := s.now }
    l1Put s core line y

/-! ### Where accesses are performed (04 R82, R85, R87, R94; 15 R306) -/

/-- May the L1 hold lines of this page (04 R76, R77)? -/
def l1Allowed (s : State) (pa : Nat) (a : Attr) : Bool :=
  a.alloc == 0 && (match s.kind pa with | .hbm _ | .tier _ | .bank _ => true | _ => false)

/-- The attributes under which an access enters the caches: .ev lowers the priority (15 R306). -/
def Attr.entering (a : Attr) (ev : Bool) : Attr := if ev then { a with prio := 0 } else a

/-- Is a load served from the L1: its page allocates there and its bytes are valid (04 R77, 15 R308)? -/
def l1Serves (s : State) (core pa n : Nat) (a : Attr) (home : Bool) : Bool := !home && l1Allowed s pa a && l1Hit s core pa n

/-- A load of n bytes: the bytes, none where the line's data is poisoned, and the state. `home`: performed
at the home or bank (an acquire of device scope or wider, 04 R83), after the core's dirty bytes of the line. -/
def loadBytes (s : State) (core pa n : Nat) (a : Attr) (home ev : Bool) : Option (List Byte) × State :=
  let a := a.entering ev
  if l1Serves s core pa n a home then (some (l1Read s core pa n), l1Touch s core (lineOf pa))
  else
    let fill := !home && l1Allowed s pa a
    let s := if fill then s else wbLine s core (lineOf pa)
    if s.poisoned pa then (none, s)
    else if fill then
      let s := l1Fill s core (lineOf pa) a.prio
      (some (l1Read s core pa n), s)
    else (some (homeBytes s core pa n), s.l2Use pa a.alloc a.prio false)

/-- Does a store go on to its home or bank (04 R82)? -/
def storeAtHome (s : State) (pa : Nat) (a : Attr) : Bool := (s.kind pa).isBank || !l1Allowed s pa a || a.wt

/-- A store of bytes. -/
def storeBytes (s : State) (core pa : Nat) (bs : List Byte) (a : Attr) (ev : Bool) : State :=
  let a := a.entering ev
  if storeAtHome s pa a then (l1Write s core pa bs false 0).homePut pa bs a
  else l1Write s core pa bs true a.prio

/-- Does this access reach the home, where a copy's ownership holds it back (04 R86)? -/
def reachesHome (s : State) (core pa n : Nat) (a : Attr) (load home : Bool) : Bool :=
  if load then !l1Serves s core pa n a home else storeAtHome s pa a

/-- A core's bytes of a line that wait at the home, or stand dirty in its L1, arrive there: what is ordered before the
copy that owns the line does not wait for it (05 R110). -/
def flushLine (s : State) (core line : Nat) : State :=
  let mine (h : HomeWait) : Bool := match h with | .write c _ => c == core | _ => false
  let s := match ownedBy s line with
    | some w => w.waiters.foldl (fun s h => match h with
        | .write c x => if c = core then wbArrive s line x else s
        | _ => s) { s with owners := smPut s.owners line { w with waiters := w.waiters.filter fun h => !mine h } }
    | none => s
  match l1Get s core line with
  | some x => if x.dirty = 0 then s else l1Put (wbArrive s line x) core line { x with dirty := 0 }
  | none => s

/-- The issuing core's L1 keeps no stale byte of a line a copy wrote (04 R86). -/
def dropStale (s : State) (core line : Nat) : State :=
  match l1Get s core line with
  | some x => if x.dirty = 0 then l1Del s core line else l1Put s core line { x with valid := x.dirty }
  | none => s

/-- Before an atomic at a home: the core's dirty bytes of the line go home and its copy is dropped
(15 R311, R314). -/
def dropLine (s : State) (core line : Nat) : State := l1Del (wbLine s core line) core line

/-- The side of a release of a scope: device or wider writes back the core's L1 (05 R101); system scope takes the
dirty lines of host memory on to the host (04 R90). -/
def releaseL1 (s : State) (core share : Nat) : State :=
  let s := if share ≥ 1 then l1WriteBack s core else s
  if share = 3 then s.hostRelease else s
/-- The side of an acquire of a scope. -/
def acquireL1 (s : State) (core share : Nat) : State := if share ≥ 1 then l1Invalidate s core else s

/-! ### Outstanding operations -/

def MemOp.isMem (o : MemOp) : Bool := o.kind != .value

/-- Does an operation act for a warp: it is a member with lanes (03 R66)? -/
def MemOp.serves (o : MemOp) (slot : Nat) : Bool := o.members.any fun m => m.1 == slot && m.2 != 0

/-- The outstanding operations that act for a warp, whichever member leads them. -/
def warpOps (s : State) (core slot : Nat) : List MemOp :=
  (s.core core).warps.flatMap fun e => e.2.ops.filter fun o => o.serves slot

/-- Is an access of a warp's operation with this number held back by an acquire of the warp that is not yet
complete (05 R101, R113)? -/
def acqPending (s : State) (core slot id : Nat) : Bool :=
  ((s.core core).warps.any fun e => e.2.ops.any fun p => p.acq && decide (p.id < id) && p.members.any fun m => m.1 == slot)
  || s.remote.any fun e => e.2.core == core && decide (e.1 < id) && (match e.2.who with
      | .atom sl _ _ _ acq => acq && sl == slot
      | _ => false)

/-- Has a warp an earlier memory access that is not performed: a lane to perform, a reply to come, a lane to be
replayed, or an FXATOM (log 53)? -/
def memPending (s : State) (core slot id : Nat) : Bool :=
  ((warpOps s core slot).any fun p => p.isMem && decide (p.id < id))
  || s.remote.any fun e => e.2.core == core && decide (e.1 < id) && (match e.2.who with
      | .atom sl _ _ _ _ => sl == slot
      | _ => false)

def overlaps (a n b m : Nat) : Bool := decide (a < b + m) && decide (b < a + n)

/-- Does an operation hold back this access: an earlier operation of a member on the same location, an
acquire not yet complete that covers a member, anything earlier of a member where this is a release, whose
write-back may still wait at a home (05 R97, R101, R107), or an earlier lane of the same store or atomic? -/
def heldBack (s : State) (core slot : Nat) (o : MemOp) (x : LaneAcc) : Bool :=
  let ms := slot :: (o.members.filter fun m => inMask m.2 x.lane).map (·.1)
  (o.members.any fun m => acqPending s core m.1 o.id)
  || (o.rel && (o.members.any fun m => memPending s core m.1 o.id))
  || (((o.rel && decide (1 ≤ o.share)) || o.kind == .cctl 3) && o.relDone && wbWaits s core)
  || (ms.any fun m => (warpOps s core m).any fun p => p.isMem && decide (p.id < o.id) && !x.attr.fabric && p.space == o.space &&
        p.accs.any fun y => !y.attr.fabric && overlaps y.addr p.size x.addr o.size)
  || (o.kind != .load && o.accs.any fun y => decide (y.lane < x.lane) && overlaps y.addr o.size x.addr o.size)

/-- Is a lane held back? Lanes that load one location receive one value: each waits for the others (05 R97). -/
def laneHeld (s : State) (core slot : Nat) (o : MemOp) (x : LaneAcc) : Bool :=
  heldBack s core slot o x || (o.kind == .load && o.accs.any fun y => y.lane != x.lane && y.addr == x.addr && heldBack s core slot o y)

/-- Have the accesses of warps below a bound all been performed, and their acquires completed (05 R101, R110)? -/
def drained (s : State) (core : Nat) (rels : List (Nat × Nat)) : Bool :=
  rels.all fun r => !memPending s core r.1 r.2 && !acqPending s core r.1 r.2

/-- The bounds an engine-issue release records for the issuing warps. -/
def relBounds (s : State) (members : List (Nat × Mask)) : List (Nat × Nat) := members.map fun p => (p.1, s.nextId)

/-- The orderings of a warp that are ready complete, oldest first (15 R315): once the earlier accesses are performed
the L1 is written back, and once nothing of it waits at a home it is invalidated. -/
def settleFences : Nat → State → Nat → Nat → State
  | 0, s, _, _ => s
  | n + 1, s, core, slot => match s.warp? core slot with
    | none => s
    | some w => match w.fences with
      | [] => s
      | f :: r =>
        if f.waits && memPending s core slot f.upTo then s
        else
          let s := if f.wb && !f.begun then releaseL1 s core f.scope else s
          if f.wb && decide (1 ≤ f.scope) && wbWaits s core then
            s.updWarp core slot fun w => { w with fences := { f with begun := true } :: r }
          else
            let s := s.updWarp core slot fun w => { w with fences := r }
            settleFences n (if f.inv then acquireL1 s core f.scope else s) core slot
def settleFence (s : State) (core slot : Nat) : State :=
  settleFences (((s.warp? core slot).map (·.fences.length)).getD 0) s core slot

/-- The consumer indexes of rings whose release is complete become visible, in order (16 R327, 08 R175): the accesses
are performed, the L1 is written back, and nothing of it waits at a home. -/
def settleAdvs (s : State) : State :=
  s.advs.foldl (fun s a =>
    if !drained s a.core a.rels || (s.advs.find? fun b => b.ring == a.ring) != some a then s
    else
      let s := releaseL1 s a.core 1
      if wbWaits s a.core then s
      else
        let ctl := fld (s.reg (ringReg a.ring 4)) 31 6 * 2 ^ 6 + fld (s.reg (ringReg a.ring 5)) 15 0 * 2 ^ 32
        { devWrite s (ctl + 8) (toBytes 8 a.new) with advs := s.advs.erase a, waits := [] }) s
/-- The consumer index of a ring as its port sees it. -/
def ringSeen (s : State) (ring : Nat) : Nat :=
  match s.advs.find? fun a => a.ring == ring with
  | some a => a.old
  | none => (smGetD s.rings (0, 0) ring).2

/-- The orderings of a core that waited for something now done. -/
def settleCore (s : State) (core : Nat) : State :=
  settleAdvs ((s.core core).warps.foldl (fun s e => if e.2.fences.isEmpty then s else settleFence s core e.1) s)

/-- Which counter of 02 R38 an operation moves. -/
inductive Cnt where
  | loads | stores | copies | tiles
  deriving DecidableEq, Repr

def Warp.cnt (w : Warp) : Cnt → Nat
  | .loads => w.loads
  | .stores => w.stores
  | .copies => w.copies
  | .tiles => w.tiles

def Warp.addCnt (w : Warp) (c : Cnt) (up : Bool) : Warp :=
  let f (n : Nat) : Nat := if up then n + 1 else n - 1
  match c with
  | .loads => { w with loads := f w.loads }
  | .stores => { w with stores := f w.stores }
  | .copies => { w with copies := f w.copies }
  | .tiles => { w with tiles := f w.tiles }

/-- Move a counter in every member with lanes. -/
def moveCnt (s : State) (core : Nat) (members : List (Nat × Mask)) (c : Cnt) (up : Bool) : State :=
  members.foldl (fun s p => if p.2 = 0 then s else s.updWarp core p.1 fun w => w.addCnt c up) s

/-- Registers with a variable-latency value on its way, each with the operation that fills it: at issue, and when
it has landed (02 R36, R37). What an instruction of a run fills stays out of reach to the end of the run (13 R264,
18 R365). -/
def Warp.expect (w : Warp) (id : Nat) (regs : List Nat) : Warp :=
  { w with outst := w.outst ++ regs.map (fun r => (r, id)), fills := w.fills ++ regs }
/-- Is the register still to be filled? -/
def Warp.awaits (w : Warp) (r : Nat) : Bool := w.outst.any fun p => p.1 == r
def Warp.arrive (w : Warp) (id : Nat) (regs : List Nat) : Warp :=
  let o := w.outst.filter fun p => !(p.2 == id && regs.contains p.1)
  { w with outst := o, held := w.held.filter fun r => !regs.contains r || o.any fun p => p.1 == r }

def expectAll (s : State) (core : Nat) (members : List (Nat × Mask)) (id : Nat) (regs : List Nat) : State :=
  members.foldl (fun s p => if p.2 = 0 then s else s.updWarp core p.1 fun w => w.expect id regs) s
def arriveAll (s : State) (core : Nat) (members : List (Nat × Mask)) (id : Nat) (regs : List Nat) : State :=
  members.foldl (fun s p => if p.2 = 0 then s else s.updWarp core p.1 fun w => w.arrive id regs) s

def dstRegs (d : Option Nat) (n : Nat) : List Nat :=
  match d with
  | some d => (List.range n).map (d + ·)
  | none => []

/-- Write the words of an operation's result for one lane to the members (03 R54, R66). A register that a warp no
longer awaits from it takes nothing: REGQ took it away (03 R53), or its run has ended (02 R33). A pool register is
reached through the member whose lane it is, which stays until it has its value. What lands in a saved block is held,
and written at restore (09 R195). -/
def landLane (s : State) (core : Nat) (members : List (Nat × Mask)) (id d low lane : Nat) (ws : List Word) : State :=
  if 512 ≤ d ∧ d < 1536 then
    match members.find? fun p => inMask p.2 lane with
    | none => s
    | some p => match s.warp? core p.1 with
      | some w => match (s.block core w.block).setOf w.num with
        | some (i, _) => (poolWrs (d - 512) lane ws).foldl (fun s x =>
            if 2 ^ 20 ≤ core then s.addBpend core w.block s.now (.pool i x.1 x.2.1 x.2.2)
            else applyBWr core w.block s (.pool i x.1 x.2.1 x.2.2)) s
        | none => s
      | none => s
  else
    members.foldl (fun s p =>
      s.updWarp core p.1 fun w =>
        let b := s.block core w.block
        let take (l : List Wr) : Warp := if 2 ^ 20 ≤ core then w.addPend s.now l else w.applyAll b l
        if !w.outst.contains (d, id) then w
        else if 1536 ≤ d ∧ d < 1600 then (if lane = low ∧ p.2 ≠ 0 then take (scalWrs d ws) else w)
        else if inMask p.2 lane then take (laneWrs d lane ws) else w) s

/-- The words a load of a type delivers from its bytes (11 R217, 15 R301). -/
def loadWords (t : Ty) (n : Nat) (bs : List Byte) : List Word :=
  if n < 4 then wrT t (rdT t (ofBytes bs))
  else (List.range (n / 4)).map fun k => BitVec.ofNat 32 (ofBytes ((bs.drop (4 * k)).take 4))

def wordsBytes (ws : List Word) : List Byte := ws.flatMap fun x => toBytes 4 x.toNat

/-- The lanes of an operation that are still to be performed, to be answered or to be replayed. -/
def openLanes (s : State) (o : MemOp) : Mask :=
  o.accs.foldl (fun m x => m ||| laneBit x.lane)
    (o.remote.foldl (fun m t => match smGet? s.remote t with
      | some r => (match r.who with | .lane _ _ l _ => m ||| laneBit l | _ => m)
      | none => m) o.todo)

/-- The members whose own lanes of an operation are done: their counter falls and their registers have arrived (15
R304). A scalar arrives with the lowest lane of E. -/
def closeMembers (s : State) (core slot : Nat) (o : MemOp) : State :=
  let left := openLanes s o
  let scal := o.dst.any fun d => decide (1536 ≤ d) && decide (d < 1600)
  let m := o.members.filter fun p => o.opens.contains p.1 && p.2 != 0 && (p.2 &&& left) == 0 && !(scal && inMask left o.low)
  if m.isEmpty then s
  else
    let s := s.updWarp core slot fun w => { w with ops := w.ops.map fun p => if p.id = o.id then { p with opens := p.opens.filter fun n => !m.any (·.1 == n) } else p }
    arriveAll { moveCnt s core m (if o.isLoad then .loads else .stores) false with waits := [] } core m o.id (dstRegs o.dst o.nreg)

/-- An operation has finished: it leaves the list; an acquire invalidates the L1. -/
def completeOp (s : State) (core slot : Nat) (o : MemOp) : State :=
  let s := closeMembers s core slot o
  let s := s.updWarp core slot fun w => { w with ops := w.ops.filter fun p => p.id != o.id }
  let s := if o.acq then acquireL1 s core o.share else s
  settleCore { s with waits := [] } core

/-- A new outstanding operation of the leader: its registers are expected and its counter rises in every
member with lanes (02 R36, R38). -/
def pushOp (c : Ctx) (s : State) (o : MemOp) : State :=
  let (id, s) := s.fresh
  let o := { o with id := id, members := c.members, low := c.low, e := c.e, iaddr := c.addr
                    opens := (c.members.filter fun p => p.2 != 0).map (·.1) }
  let s := s.updWarp c.core c.slot fun w => { w with ops := w.ops ++ [o] }
  let s := moveCnt s c.core c.members (if o.isLoad then .loads else .stores) true
  expectAll s c.core c.members id (dstRegs o.dst o.nreg)

/-- An operation with nothing set. -/
def op0 (k : OpKind) : MemOp :=
  { id := 0, kind := k, space := .none, ty := .b32, size := 4, dst := none, nreg := 0, members := [], accs := []
    acq := false, rel := false, share := 0, iaddr := 0, flags := 0, isLoad := true, remote := []
    relDone := false, low := 0, e := 0 }

/-- A variable-latency result whose value is known at issue: it lands later (02 R36). -/
def valueOp (c : Ctx) (s : State) (d n : Nat) (f : Nat → List Word) (flags : BitVec 5) : State :=
  if c.e = 0 then s
  else pushOp c s { op0 .value with
    dst := some d, nreg := n, flags := flags
    accs := (maskLanes c.e).map fun l => { lane := l, addr := 0, attr := {}, a := f l, b := [] } }

def putOp (s : State) (core slot : Nat) (o : MemOp) : State :=
  s.updWarp core slot fun w => { w with ops := w.ops.map fun p => if p.id == o.id then o else p }

/-- A warp that received poisoned data takes the deferred fault at its next run boundary (09 R186). Of a set- or block-scope
load each member that received it has its own (log 49). -/
def notePoison (s : State) (core : Nat) (o : MemOp) (lane va : Nat) : State :=
  o.members.foldl (fun s p =>
    if !inMask p.2 lane then s
    else s.updWarp core p.1 fun w => { w with poison := match w.poison with
      | some (a, l) => if a = o.iaddr then some (a, l ++ [(lane, va)]) else some (a, l)
      | none => some (o.iaddr, [(lane, va)]) }) s

end Sys2Proof.Machine
end

