-- ==== Sys2Proof/Machine/Issue.lean ====
section
/-!
DEFINITION. Fetching and issuing an instruction: the fetch (11 R212 to R214), the checks in the order of
09 R185, the waits of 02 R40, the arrival at a rendezvous (03 R63, R64), the execution of a meaning, and
the advance of the warps that issued it.
-/
namespace Sys2Proof.Machine

/-! ### Masks (02 R21) -/

/-- The effective execution mask (02 R21, 03 R58). -/
def guardMask (w : Warp) (p : Nat) (neg : Bool) : Mask :=
  let m := if p ≥ 7 then fullMask else smGetD w.p 0 p
  if neg then ~~~m else m
def execMask (w : Warp) (x : Z1) : Mask := w.path &&& guardMask w x.guardP.toNat x.guardNeg

/-! ### Fetch (11 R212 to R214) -/

inductive Fetched where
  | block (x : BitVec 256) (pa : Nat)
  | bad (code sub : Nat)
  | miss
  deriving DecidableEq, Repr

/-- The 32-byte block that holds an address, from the instruction cache or from memory; none is fetched from a fabric page
(log 51). -/
def fetchBlock (s : State) (core : Nat) (b : Block) (w : Warp) (addr : Nat) : Fetched :=
  match warpXlate s core b w addr 2 with
  | none => .miss
  | some (.bad c sub) => .bad c sub
  | some (.ok pa a) =>
    if a.fabric then .bad 0x0B 0
    else match smGet? (s.core core).icache (pa / 32) with
      | some x => .block x (pa / 32)
      | none => .block (BitVec.ofNat 256 (s.memNat (32 * (pa / 32)) 32)) (pa / 32)

/-- The bytes of a block from an address on. -/
def blockBytes (x : BitVec 256) (addr : Nat) : List Byte := toBytes (32 - addr % 32) (x.toNat >>> (8 * (addr % 32)))

/-- The core word at an address, if it can be read without a walk. -/
def peekWord (s : State) (core : Nat) (b : Block) (w : Warp) (addr : Nat) : Option Nat :=
  if addr % 4 ≠ 0 ∨ addr % 32 + 8 > 32 then none
  else match fetchBlock s core b w addr with
    | .block x _ => some ((x.toNat >>> (8 * (addr % 32))) % 2 ^ 64)
    | _ => none

/-- The length of an instruction by the low bits of its core word (11 R225). -/
def wordLen (word : Nat) : Nat := if word % 4 = 1 then 12 else if word % 4 = 2 then 16 else 8

def opcodeOf (core : Nat) : Nat := nfld core 19 12

/-- A fault found at issue: precise, before any effect. One of a block-scope instruction stops the block (03 R71). -/
def issueFault (s : State) (core slot code sub : Nat) (lanes : Mask) (trap instr : Nat)
    (addrs : List (Nat × Nat)) (wholeBlock : Bool := false) : State :=
  takeFault s core slot (mkRecord s core slot code sub 0 lanes trap instr addrs) wholeBlock

/-- A warp that cannot issue yet: it is not tried again before something changes, or before its own next
clk, and a run it would have begun does not hold the partition (02 R40). -/
def stall (s : State) (core slot : Nat) : State :=
  match s.warp? core slot with
  | some w =>
    let s := if w.next > s.now || s.waits.contains (core, slot) then s else { s with waits := (core, slot) :: s.waits }
    if w.inRun then
      (if (s.block core w.block).saving.isSome then stopWarp s core slot { mkRecord s core slot 0 0 2 0 0 w.pc [] with group := [slot] } else s)
    else releasePart s core slot
  | none => s

inductive Issue where
  | run (i : Instr) (s : State)
  | stop (s : State)

/-- Fetch the instruction a warp issues next: the instruction, or the state in which its fetch or its
encoding faulted or waits (11 R225). A warp that continues after the trailer at an address (02 R45) reads its length
there first, by its low bits whatever it is (log 41). -/
def fetchIssue (s : State) (core slot : Nat) : Issue :=
  match s.warp? core slot with
  | none => .stop s
  | some w =>
    let b := s.block core w.block
    let a := w.pc
    let lanesAt := (maskLanes w.path).map fun l => (l, a)
    if a % 4 ≠ 0 ∨ a % 32 + 8 > 32 then .stop (issueFault s core slot 0x08 0 w.path 0 a lanesAt)
    else match fetchBlock s core b w a with
      | .miss => .stop (stall (startWalk s core slot b 2 [a]) core slot)
      | .bad c sub => .stop (issueFault s core slot c sub w.path 0 a lanesAt)
      | .block x k =>
        let s := s.updCore core fun c => { c with icache := smPut c.icache k x }
        let bs := blockBytes x a
        let word := ofBytes (bs.take 8)
        let n := wordLen word
        let e := w.path &&& guardMask w (nfld word 10 8) (nfld word 11 11 = 1)
        let blk := decide (nfld word 3 2 = 3)
        if a % 32 + n > 32 then .stop (issueFault s core slot 0x08 0 w.path 0 a lanesAt blk)
        else if w.skip then .stop { s.updWarp core slot (fun w => settle { w with pc := a + n, skip := false }) with waits := [] }
        else if w.xfer.isSome ∧ opcodeOf word ≠ 2 then
          let s := s.updWarp core slot fun w => { w with pc := w.last, pos := w.pos - 1 }
          .stop (issueFault s core slot 0x14 0 w.path 0 w.last [])
        else if w.pos ≥ 24 ∧ opcodeOf word ≠ 2 then .stop (issueFault s core slot 0x06 0 e 0 a [] blk)
        else match decodeBytes bs with
          | .ok i _ => .run i s
          | .illegalOpcode => .stop (issueFault s core slot 0x01 0 e 0 a [] blk)
          | _ => .stop (issueFault s core slot 0x02 0 e 0 a [] blk)

/-! ### The checks at issue (09 R185 items 2 to 6) -/

/-- Control transfers (02 R39, 14 R288). -/
def isXfer : Op → Bool
  | .bra | .brx | .call | .ret | .exit | .loop | .lbrk => true
  | _ => false

/-- The instruction groups open to a warp (02 R31). -/
def roleOk (b : Block) (r : Role) (o : Op) : Bool :=
  if !b.role then !(0xB0 ≤ o.code && o.code ≤ 0xB7)
  else
    match o with
    | .cpy | .tcpy | .layset | .fxw | .fxflag => r == .copy
    | .fxrd | .fxatom | .acwait | .acread => r != .matrix
    | .mxrsv | .mxrel | .wload | .mxmul | .mxdrain | .atbl | .nfset => r == .matrix
    | _ => true

/-- The number of a system register. -/
def sysNum (x : Z1) : Nat := fld (immOf x.ext) 11 0

/-- Privilege (17 R347, R348; 15 R317). -/
def privOk (agent : Bool) (o : Op) (x : Z1) : Bool :=
  match o with
  | .enq | .tlbinv | .xret | .ctxsave | .ctxload => agent
  | .cctl => agent || fld x.mod 2 0 != 5
  | .sysrd => agent || decide (sysNum x < 0x100)
  | .syswr => sysNum x == 0 || sysNum x == 1 || sysNum x == 0x30 || sysNum x == 0x31 || (agent && sysNum x == 0x40)
  | _ => true

/-- The names of a RUNEND in order (11 R224). -/
def runendNames (x : Z1) : List Nat :=
  ([x.d.toNat, x.a.toNat, x.b.toNat, fld (immOf x.ext) 10 0, fld (immOf x.ext) 21 11]).take (fld x.mod 2 0)

/-- Every register operand is legal (03 R51, R52; 02 R37; 17 R341). -/
def regsOk (b : Block) (w : Warp) (o : Op) (x : Z1) : Bool :=
  (srcsOf o x).all (regOk b w false) && (dstsOf o x).all (regOk b w true)
  && (o != .runend || (runendNames x).all fun r => decide (r < 1600) && regOk b w true { reg := r })
  && (o != .mxdrain || (decide (512 ≤ x.d.toNat) && decide (x.d.toNat < 1536)))

def regsNamed (b : Block) (o : Op) (x : Z1) : List Nat :=
  (if o == .mxdrain then drainRegs b x else []) ++ (srcsOf o x ++ dstsOf o x).flatMap RegUse.regs

/-- The first fault of items 2 to 6 of R185, if any; a BAR names a slot of the block (14 R284). `next` is the core word after the instruction, where
it can be read. -/
def issueCheck (b : Block) (w : Warp) (next : Option Nat) (o : Op) (x : Z1) : Option Nat :=
  if w.pos ≥ 24 ∧ o ≠ .runend then some 0x06
  else if !o.legal x || (o == .bar && decide (b.barCount ≤ fld x.mod 3 0)) then some 0x02
  else if !o.scopes.contains x.scope || (x.scope != .set && poolDst (dstsOf o x)) then some 0x04
  else if isXfer o && (match next with | some n => opcodeOf n != 2 | none => false) then some 0x14
  else if x.scope == .set && (b.setOf w.num).isNone then some 0x0E
  else if !roleOk b w.role o then some 0x05
  else if !privOk w.agent o x then some 0x10
  else if !regsOk b w o x then some 0x03
  else if (regsNamed b o x).any w.fills.contains then some 0x07
  else none

/-! ### The waits at issue (02 R37, R38, R40; 15 R315) -/

/-- The counter an instruction raises (02 R38). -/
def cntOf (o : Op) (x : Z1) : Option Cnt :=
  match o with
  | .ld | .lds | .ldk | .frcp | .frsq | .fsqrt | .fdiv | .fexp2 | .flog2 | .fsinp | .fcosp | .ftanh
  | .acwait | .acread => some .loads
  | .st | .sts | .bankop | .cctl | .enq | .tlbinv | .ctxsave | .ctxload => some .stores
  | .atom | .atoms => some (if fld x.mod 5 5 = 1 then .loads else .stores)
  | .cpy | .tcpy | .fxw | .fxflag | .fxrd | .fxatom => some .copies
  | .wload | .mxmul | .mxdrain | .atbl | .mxrel => some .tiles
  | _ => none

/-- Does a pending fence hold the instruction? -/
def fenced (o : Op) : Bool :=
  (0x70 ≤ o.code && o.code ≤ 0x7A) || o == .cpy || o == .tcpy || (0xA0 ≤ o.code && o.code ≤ 0xA5)
  || o == .wload || o == .mxmul || o == .enq || o == .tlbinv || o == .ctxsave || o == .ctxload

/-- Would the instruction raise a counter of a warp above 63 (02 R38)? -/
def cntFull (w : Warp) (o : Op) (x : Z1) : Bool := (cntOf o x).any fun c => decide (w.cnt c ≥ 63)

/-- Does the instruction act though no lane is in E, on counters too: CCTL.wbl1 and .icinv (15 R317)? -/
def actsEmpty (o : Op) (x : Z1) : Bool := o == .cctl && (fld x.mod 2 0 == 3 || fld x.mod 2 0 == 5)

/-- Is the instruction executed once for several warps? -/
def joint (x : Z1) : Bool := x.scope == .set || x.scope == .block

/-- The waits before an instruction issues: a held register, a full counter, an ordering not complete. The counters
that a set- or block-scope instruction raises are looked at when its latch fires. -/
def mustWait (b : Block) (w : Warp) (o : Op) (x : Z1) (e : Mask) : Bool :=
  (regsNamed b o x).any w.held.contains
  || (!joint x && (e != 0 || actsEmpty o x) && cntFull w o x)
  || (!w.fences.isEmpty && fenced o)

/-- Does the firing of an instruction wait: some member whose counter it raises is full? A tile task raises every
member's (07 R150), another instruction those of the members with lanes (15 R304). -/
def firingWaits (s : State) (core : Nat) (members : List (Nat × Mask)) (o : Op) (x : Z1) : Bool :=
  let tile := cntOf o x == some Cnt.tiles
  members.any (fun p => p.2 != 0) && members.any fun p => (tile || p.2 != 0) && ((s.warp? core p.1).any fun w => cntFull w o x)

/-! ### Rendezvous latches (03 R63, R64) -/

/-- The members of a latch, as warp numbers: a set's, or every warp of the block. -/
def latchMembers (b : Block) (key : Nat) : List Nat :=
  if key ≥ 8 then List.range b.nwarps
  else match (b.sets[key]?).getD none with
    | some r => r.members
    | none => []

def Warp.gone (w : Warp) : Bool := w.exited ||| w.absent == fullMask

/-- Count an arrival at a latch that is free or open on its instance. -/
def countArrival (s : State) (core bi slot : Nat) : State :=
  match s.warp? core slot with
  | none => s
  | some w => match w.arrived with
    | none => s
    | some r =>
      let inst := (r.addr, smGetD w.insts 0 r.addr)
      let l := smGetD (s.block core bi).latches {} r.key
      if l.openOn = none ∨ l.openOn = some inst then
        let l : Latch := { openOn := some inst
                           arrivals := insertBefore (fun p => w.num < p.1) (w.num, r.lanes) l.arrivals }
        (s.updBlock core bi fun b => { b with latches := smPut b.latches r.key l }).setWarp core slot
          { w with arrived := some { r with counted := true } }
      else s

/-- A warp arrives at a set- or block-scope instruction. -/
def arrive (s : State) (core slot key : Nat) (lanes : Mask) (addr len : Nat) (i : Instr) : State :=
  match s.warp? core slot with
  | none => s
  | some w =>
    let w := { w with insts := smSetD w.insts 0 addr (smGetD w.insts 0 addr + 1)
                      arrived := some { key := key, lanes := lanes, addr := addr, len := len, instr := i, counted := false } }
    countArrival { s.setWarp core slot w with waits := [] } core w.block slot

/-- A latch becomes free: the waiting warps are considered in ascending warp order (R64). -/
def freeLatch (s : State) (core bi key : Nat) : State :=
  let b := s.block core bi
  let s := s.setBlock core bi { b with latches := smPut b.latches key {} }
  (latchMembers b key).foldl (fun s n => match b.slotOf n with
    | some sl => match s.warp? core sl with
      | some w => if w.block = bi ∧ w.arrived.any (fun r => r.key = key && !r.counted) then countArrival s core bi sl else s
      | none => s
    | none => s) s

/-- Has every member of an open latch arrived (R63)? A warp whose lanes have all exited counts (R64). -/
def latchFull (s : State) (core bi key : Nat) : Bool :=
  let b := s.block core bi
  let l := smGetD b.latches {} key
  l.openOn.isSome && (latchMembers b key).all fun n =>
    l.arrivals.any (·.1 = n) || (match b.slotOf n with
      | some sl => match s.warp? core sl with
        | some w => w.block != bi || w.gone
        | none => true
      | none => true)

/-- A task that has never been pushed: one restored from a save may wait for room again (09 R195). -/
def notPushed (s : State) (x : Task) : Bool :=
  match x.body with
  | .tile t => t.fresh
  | .seg id _ hi => (s.copies.find? fun c => c.id == id).any fun c => decide (c.pushed < hi)
  | _ => true

/-- Does a warp wait because a task its last instruction formed waits to be pushed (23 R403, 07 R150, 08 R167)? The engine
holds a TCPY, whose warp goes on. -/
def formHeld (s : State) (core slot : Nat) : Bool :=
  s.waitq.any fun w => w.fin == .formed && notPushed s w.task && (match w.task.body with
    | .tile t => t.core == core && t.members.any fun p => p.1 == slot
    | .seg id _ _ => (s.copies.find? fun c => c.id == id).any fun c => c.core == core && (match c.kind with | .cpy .. => true | _ => false)
        && c.members.any fun p => p.1 == slot
    | _ => false)

/-- No run holds the partition; a warp that waits with the first instruction of its run holds none (02 R40). -/
def partIdle (s : State) (core p : Nat) : Bool :=
  match (s.partn core p).holder with
  | none => true
  | some sl => formHeld s core sl && (match s.warp? core sl with
    | some w => decide (w.pos ≤ 1) && w.trailer.isNone
    | none => true)

/-- Warps that stand inside a run on a partition: several after a block-scope instruction has fired, or one that has
resumed (02 R34). -/
def openRuns (s : State) (core p : Nat) : List (Nat × Warp) :=
  (s.core core).warps.filter fun e => partOf e.1 == p && e.2.inRun && e.2.stopped.isNone

/-- May the latch fire now: full, no arrived warp stopped or being saved, and each one's partition free of open runs or
its own. -/
def latchReady (s : State) (core bi key : Nat) : Bool :=
  let b := s.block core bi
  latchFull s core bi key && b.saving.isNone &&
  (smGetD b.latches {} key).arrivals.all fun p => match b.slotOf p.1 with
    | some sl => match s.warp? core sl with
      | some w => w.stopped.isNone &&
          ((partIdle s core (partOf sl) && (openRuns s core (partOf sl)).all fun e => e.1 == sl || formHeld s core e.1)
            || (s.partn core (partOf sl)).holder == some sl)
      | none => true
    | none => true

/-! ### Issue -/

/-- The temporaries an instruction writes (02 R33). -/
def tmpBits (o : Op) (x : Z1) : BitVec 8 :=
  ((dstsOf o x).flatMap RegUse.regs).foldl (fun m r =>
    if 1600 ≤ r ∧ r < 1608 then m ||| (1#8 <<< (r - 1600)) else m) 0

/-- A warp has issued: it moves past the instruction in its run (02 R33, R34). -/
def Warp.advance (w : Warp) (now addr len gap : Nat) (tmp : BitVec 8) : Warp :=
  let w := { w with
    pc := addr + len, last := addr, pos := if w.inRun then w.pos + 1 else 1
    runStart := if w.inRun then w.runStart else addr, inRun := true
    tmpW := (if w.inRun then w.tmpW else 0) ||| tmp
    next := now + gap + 1, arrived := none, replay := none, xl := [] }
  if w.xfer.isSome || w.trailer.isSome then w else settle w

/-- The partition of an issuing warp: held by it, and the one it last issued (02 R42). -/
def holdPart (s : State) (core slot : Nat) : State :=
  s.updPart core (partOf slot) fun x => { x with holder := some slot, last := slot }

/-- Advance every warp that took part. -/
def advanceAll (s : State) (members : List (Nat × Mask)) (core addr len gap : Nat) (tmp : BitVec 8) : State :=
  let s := members.foldl (fun s p => match s.warp? core p.1 with
    | none => s
    | some _ =>
      let s := holdPart s core p.1
      s.updWarp core p.1 fun w => w.advance s.now addr len gap (if p.2 = 0 then 0 else tmp)) s
  { s with waits := [], cur := none, firing := none, busy := if s.busy.contains (core / 4) then s.busy else core / 4 :: s.busy }

/-- Latch the high half of the clock for an instruction that reads %clk.lo (03 R57); with no lane in E it reads
nothing, and the model latches nothing (R67; log 40). -/
def latchClk (s : State) (core slot : Nat) (o : Op) (x : Z1) (e : Mask) : State :=
  if e ≠ 0 ∧ ((srcsOf o x).flatMap RegUse.regs).contains 1624 then
    s.updWarp core slot fun w => { w with clkHi := BitVec.ofNat 32 (s.clk core / 2 ^ 32) }
  else s

/-- The context of an execution by a leader. -/
def mkCtx (s : State) (core slot : Nat) (x : Z1) (e e0 : Mask) (members : List (Nat × Mask)) (addr len : Nat) : Ctx :=
  let w := (s.warp? core slot).getD { block := 0, num := 0, role := .plain, agent := false, pc := 0, path := 0 }
  { core := core, slot := slot, bi := w.block, w := w, b := s.block core w.block, scope := x.scope
    e := e, e0 := e0, members := members, addr := addr, len := len }

/-- A meaning, or the precise fault where a source has an uncorrected error (09 R186), after run_hazard and before what the
meaning itself finds (log 50). -/
def guarded (o : Op) (x : Z1) (body : Ctx → State → Act) (c : Ctx) (s : State) : Act :=
  let bad := c.badLanes (srcsOf o x)
  if bad ≠ 0 then .fault 0x17 0 bad 0 [] s else body c s

/-- Execute a meaning, then advance the warps, fault or wait. `all` are the warps that took part, `contrib`
what a replay needs. -/
def perform (s : State) (o : Op) (x : Z1) (body : Ctx → State → Act) (c : Ctx) (all : List (Nat × Mask))
    (key : Option Nat) : State :=
  let free (s : State) : State := match key with | some k => freeLatch s c.core c.bi k | none => s
  match guarded o x body c s with
  | .done s => free (advanceAll s all c.core c.addr c.len x.gap.toNat (tmpBits o x))
  | .wait s =>
    let s := { s with cur := none, firing := none }
    match key with
    | some k => { s with waits := (c.core, 1000 + 16 * c.bi + k) :: s.waits }
    | none => stall s c.core c.slot
  | .fault code sub lanes trap addrs s =>
    let flags := if x.scope == .set || x.scope == .block then 1 else 0
    let r := { mkRecord s c.core c.slot code sub flags lanes trap c.addr addrs with contrib := all }
    free { takeFault s c.core c.slot r (x.scope == .block) with cur := none, firing := none }

/-- The union of contributions: E_once (03 R66). -/
def unionMask (l : List (Nat × Mask)) : Mask := l.foldl (fun m p => m ||| p.2) 0
/-- The leader: the lowest-numbered member with lanes; the first where none has any. -/
def leaderOf (l : List (Nat × Mask)) : Nat :=
  match l.find? (fun p => p.2 ≠ 0) with
  | some p => p.1
  | none => match l with | p :: _ => p.1 | [] => 0

/-- A set- or block-scope instruction executes once (03 R66), unless a counter it raises is full. -/
def fireIssue (o : Op) (x : Z1) (body : Ctx → State → Act) (s : State) (f : Firing) : State :=
  let lead := leaderOf f.members
  let e := unionMask f.members
  if firingWaits s f.core f.members o x then
    { s with cur := none, firing := none, waits := (f.core, 1000 + 16 * f.block + f.slot) :: s.waits }
  else
    let s := latchClk (landWarp s f.core lead) f.core lead o x e
    perform s o x body (mkCtx s f.core lead x e e f.members f.addr f.len) f.members (some f.slot)

/-- May the warps that take part in a replay go on: each one's partition is free or its own? -/
def partsFree (s : State) (core : Nat) (l : List (Nat × Mask)) : Bool :=
  l.all fun p => partIdle s core (partOf p.1) || (s.partn core (partOf p.1)).holder == some p.1

/-- One warp issues: a replay, a check that faults, a wait, an arrival, or the execution. -/
def warpIssue (o : Op) (x : Z1) (i : Instr) (body : Ctx → State → Act) (core slot : Nat) (s : State) : State :=
  let s := landWarp s core slot
  match s.warp? core slot with
  | none => s
  | some w =>
    let b := s.block core w.block
    let len := 8 + 4 * x.ext.lenCode
    match w.replay with
    | some (lanes, contrib) =>
      let mem := contrib.map fun p => (p.1, p.2 &&& lanes)
      if !partsFree s core contrib then stall { s with cur := none } core slot
      else
        let s := latchClk s core slot o x lanes
        perform s o x body (mkCtx s core slot x lanes (unionMask contrib) mem w.pc len) contrib none
    | none =>
      let e := execMask w x
      match issueCheck b w (if isXfer o then peekWord s core b w (w.pc + len) else none) o x with
      | some code => { issueFault s core slot code 0 e 0 w.pc [] (x.scope == .block) with cur := none }
      | none =>
        if mustWait b w o x e then stall { s with cur := none } core slot
        else if joint x then
          let key := if x.scope == .block then 8 else (b.setOf w.num).elim 8 (·.1)
          let s := arrive { s with cur := none } core slot key e w.pc len i
          stall s core slot
        else
          let s := latchClk s core slot o x e
          perform s o x body (mkCtx s core slot x e e [(slot, e)] w.pc len) [(slot, e)] none

/-- The issue of a Z1 instruction, shared by every meaning of one. -/
def issue (o : Op) (x : Z1) (body : Ctx → State → Act) (s : State) : Res :=
  match s.firing with
  | some f => .next (fireIssue o x body s f)
  | none =>
    match s.cur with
    | none => .fault .noWarp
    | some (core, slot) =>
      match s.warp? core slot with
      | none => .fault .noWarp
      | some _ => .next (warpIssue o x (Instr.ofOp o x) body core slot s)

end Sys2Proof.Machine
end

