-- ==== Sys2Proof/Machine/Control.lean ====
section
/-!
DEFINITION. The control instructions (14 R287 to R296), barriers (R284, R285), REGQ (03 R72, R73), and what
a control transfer does when its trailer commits (02 R22 to R26, R45 to R47).
-/
namespace Sys2Proof.Machine

/-! ### Addresses -/

/-- An address moved by a signed distance, modulo 2^64 (14 R289, R290). -/
def addDisp (a : Nat) (d : Int) : Nat := truncN 64 ((a : Int) + d)
def disp4 (w : Word) : Int := 4 * sextN 32 w.toNat

/-- Change the issuing warp. -/
def onWarp (f : Ctx → State → Warp → Warp) (c : Ctx) (s : State) : Act :=
  .done (s.updWarp c.core c.slot (f c s))

/-! ### Runs and transfers -/

def bodyNop (_ : Ctx) (s : State) : Act := .done s

/-- RUNEND issues; its commit is a step of its own (02 R35). -/
def bodyRunend (x : Z1) : Ctx → State → Act := onWarp fun c s w =>
  { w with trailer := some { addr := c.addr, len := c.len, issued := s.now, gap := x.gap.toNat
                             giveWay := x.giveWay, names := runendNames x } }

def setXfer (t : Xfer) (c : Ctx) (s : State) : Act := onWarp (fun _ _ w => { w with xfer := some t }) c s

def bodyBra (x : Z1) (c : Ctx) (s : State) : Act :=
  setXfer (.bra c.e (fld x.mod 0 0 = 1) (addDisp c.addr (disp4 (cmd0 x.ext))) (addDisp c.addr (disp4 (cmd1 x.ext)))) c s

def bodyBrx (x : Z1) (c : Ctx) (s : State) : Act :=
  let targets := (maskLanes c.e).map fun l => (l, addDisp c.addr (sextN 32 (c.srcA s x 1 l)))
  setXfer (.brx c.e (fld x.mod 0 0 = 1) targets (addDisp c.addr (disp4 (immOf x.ext)))) c s

def bodyCall (x : Z1) (c : Ctx) (s : State) : Act :=
  setXfer (.call x.d.toNat (addDisp c.addr (disp4 (immOf x.ext)))) c s

def bodyRet (x : Z1) (c : Ctx) (s : State) : Act := setXfer (.ret (c.scalPair s x.a.toNat)) c s

def bodyExit (_ : Z1) (c : Ctx) (s : State) : Act := setXfer (.exit c.e) c s

/-- LOOP reads its count at issue (14 R293). -/
def bodyLoop (x : Z1) (c : Ctx) (s : State) : Act :=
  let n := if x.a = 0 then (cmd1 x.ext).toNat else c.scal s x.a.toNat
  if n ≥ 1 ∧ c.w.loops.length ≥ 4 then .fault 0x0F 0 c.e 0 [] s
  else setXfer (.loop n (addDisp c.addr (disp4 (cmd0 x.ext)))) c s

def bodyLbrk (c : Ctx) (s : State) : Act :=
  match c.w.loops with
  | [] => .fault 0x0F 0 c.e 0 [] s
  | l :: _ => if c.w.stack.length > l.depth then .fault 0x14 0 c.e 0 [] s else setXfer .lbrk c s

/-- WAIT issues once every counter is at or below its limit (14 R294). -/
def bodyWait (x : Z1) (c : Ctx) (s : State) : Act :=
  let i := immOf x.ext
  if c.w.loads ≤ fld i 5 0 ∧ c.w.stores ≤ fld i 13 8 ∧ c.w.copies ≤ fld i 21 16 ∧ c.w.tiles ≤ fld i 29 24
  then .done s else .wait s

/-- PAUSE (14 R295): the last one of the run with lanes sets the interval. -/
def bodyPause (x : Z1) (c : Ctx) (s : State) : Act :=
  if c.e = 0 then .done s
  else
    let n := match x.ext with | .imm i => fld i 15 0 | _ => c.scal s x.a.toNat % 2 ^ 16
    onWarp (fun _ _ w => { w with runPause := some n }) c s

def bodyTrap (x : Z1) (c : Ctx) (s : State) : Act :=
  if c.e = 0 then .done s else .fault 0x15 0 c.e (fld (immOf x.ext) 15 0) [] s

def bodyBkpt (c : Ctx) (s : State) : Act :=
  if c.e = 0 then .done s else .fault 0x16 0 c.e 0 [] s

def execNop (w : Z1) (s : State) : Res := issue .nop w bodyNop s
def execRunend (w : Z1) (s : State) : Res := issue .runend w (bodyRunend w) s
def execBra (w : Z1) (s : State) : Res := issue .bra w (bodyBra w) s
def execBrx (w : Z1) (s : State) : Res := issue .brx w (bodyBrx w) s
def execCall (w : Z1) (s : State) : Res := issue .call w (bodyCall w) s
def execRet (w : Z1) (s : State) : Res := issue .ret w (bodyRet w) s
def execExit (w : Z1) (s : State) : Res := issue .exit w (bodyExit w) s
def execLoop (w : Z1) (s : State) : Res := issue .loop w (bodyLoop w) s
def execLbrk (w : Z1) (s : State) : Res := issue .lbrk w bodyLbrk s
def execWait (w : Z1) (s : State) : Res := issue .wait w (bodyWait w) s
def execPause (w : Z1) (s : State) : Res := issue .pause w (bodyPause w) s
def execTrap (w : Z1) (s : State) : Res := issue .trap w (bodyTrap w) s
def execBkpt (w : Z1) (s : State) : Res := issue .bkpt w bodyBkpt s

/-! ### The effect of a transfer at its commit -/

/-- A branch of the lanes of `e`, each to its own target, that is not uniform (02 R22, R25, R26). `multi`
marks BRX, whose groups run in turn. -/
def branch (w : Warp) (e : Mask) (target : Nat → Nat) (rpc fall : Nat) (multi : Bool) : Warp :=
  match lowLane e with
  | none => { w with pc := fall }
  | some l0 =>
    let t0 := target l0
    let same := (maskLanes e).all fun l => target l == t0
    let stay := w.path &&& ~~~e
    if stay = 0 ∧ same then { w with pc := t0 }
    else if w.stack.length ≥ 16 then
      let w1 := (w.park e target).park stay fun _ => fall
      let z : Serial := { stop := match w.stack with | t :: _ => t.rpc | [] => rpc, todo := w.path, former := w.path }
      serialStep { w1 with serial := some z, path := 0, xstat := w.xstat ||| 2 } z
    else if multi then
      let g := maskOf fun l => inMask e l && target l == t0
      let w1 := (w.park (e &&& ~~~g) target).park stay fun _ => fall
      { w1 with stack := { rpc := rpc, restore := w.path, pending := e &&& ~~~g, phase := false
                           group := true, fall := stay } :: w.stack, path := g, pc := t0 }
    else
      { w.park e target with stack := { rpc := rpc, restore := w.path, pending := e, phase := false
                                        group := false, fall := 0 } :: w.stack, path := stay, pc := fall }

/-- Lanes end (02 R47, R23). -/
def Warp.exitLanes (w : Warp) (e : Mask) : Warp :=
  { w with exited := w.exited ||| e, path := w.path &&& ~~~e
           pcs := (maskLanes e).foldl smDel w.pcs
           stack := w.stack.map fun t => { t with restore := t.restore &&& ~~~e, pending := t.pending &&& ~~~e
                                                  fall := t.fall &&& ~~~e }
           serial := w.serial.map fun z => { z with todo := z.todo &&& ~~~e, former := z.former &&& ~~~e } }

/-- The path continues after the trailer at an address: at `fall` where that is the one that commits, which stands at
`own`, else past what the next fetch finds there (02 R45, R46). -/
def Warp.goAfter (w : Warp) (own fall le : Nat) : Warp :=
  if le = own then { w with pc := fall } else { w with pc := le, skip := true }

/-- What a control transfer does when its trailer, at `own`, commits; `fall` is the address after it. -/
def applyXfer (b : Block) (w : Warp) (own fall : Nat) : Option Xfer → Warp
  | none => { w with pc := fall }
  | some (.bra e uni target rpc) =>
    if uni then { w with pc := if e = 0 then fall else target } else branch w e (fun _ => target) rpc fall false
  | some (.brx e uni targets rpc) =>
    let t (l : Nat) : Nat := ((targets.find? fun p => p.1 == l).map (·.2)).getD fall
    if uni then { w with pc := match lowLane e with | some l => t l | none => fall }
    else branch w e t rpc fall true
  | some (.call sd target) => { w.applyAll b (scalWrs sd (halves fall)) with pc := target }
  | some (.ret target) => { w with pc := target }
  | some (.exit e) => { w.exitLanes e with pc := fall }
  | some (.loop n le) =>
    if n ≥ 1 then { w with loops := { ls := fall, le := le, lc := n, depth := w.stack.length } :: w.loops, pc := fall }
    else w.goAfter own fall le
  | some .lbrk => match w.loops with
    | l :: rest => ({ w with loops := rest }).goAfter own fall l.le
    | [] => { w with pc := fall }

def isLbrk : Option Xfer → Bool
  | some .lbrk => true
  | _ => false

/-- The loop-end step of a trailer (02 R45, R46): none where the stack is too deep, which is
control_placement. -/
def loopEnd (w : Warp) (x : Option Xfer) (addr fall : Nat) : Option Warp :=
  match w.loops with
  | [] => some w
  | l :: rest =>
    if isLbrk x ∨ l.le ≠ addr then some w
    else if w.stack.length > l.depth then none
    else if w.path = 0 ∨ w.skip ∨ w.pc ≠ fall then some w
    else if l.lc > 1 then some { w with loops := { l with lc := l.lc - 1 } :: rest, pc := l.ls }
    else some { w with loops := rest }

/-! ### Barriers (14 R285) -/

/-- Warps of a block all of whose lanes have exited, or that have retired. -/
def goneWarps (s : State) (core bi : Nat) : List Nat :=
  let b := s.block core bi
  (List.range b.nwarps).filter fun n => match b.slotOf n with
    | some sl => match s.warp? core sl with
      | some w => w.block != bi || w.gone
      | none => true
    | none => true

/-- Is the open generation of a barrier complete? -/
def barFull (s : State) (core bi : Nat) (b : Block) (x : Bar) : Bool :=
  match x.n with
  | none => false
  | some n =>
    if n = 0 then decide (b.nwarps ≤ ((List.range b.nwarps).filter fun k =>
      x.counted.contains k || (goneWarps s core bi).contains k).length)
    else decide (min n b.nwarps ≤ x.counted.length)

/-- Let a complete generation's warps resume and open the next, in which waiting warps count first. -/
def barSettle (s : State) (core bi id : Nat) : State :=
  let b := s.block core bi
  let x := smGetD b.bars {} id
  if barFull s core bi b x then
    let y : Bar := { n := x.waiting.head?.map (·.2), counted := x.waiting.map (·.1), waiting := [] }
    let s := s.setBlock core bi { b with bars := smPut b.bars id y }
    let s := x.counted.foldl (fun s n => match b.slotOf n with
      | some sl => s.updWarp core sl fun w => { w with bar := w.bar.map fun q => (q.1, true) }
      | none => s) s
    { s with waits := [] }
  else s

/-- The barriers of a block after a warp's lanes have exited. -/
def barSettleAll (s : State) (core bi : Nat) : State :=
  (s.block core bi).bars.foldl (fun s p => barSettle s core bi p.1) s

/-- Have the warp's earlier memory accesses been performed (05 R101, R109), those that another member leads among
them? -/
def opsDone (s : State) (core slot : Nat) : Bool := !memPending s core slot s.nextId

def bodyBar (x : Z1) (c : Ctx) (s : State) : Act :=
  let id := fld x.mod 3 0
  let pass (s : State) : Act := .done (s.updWarp c.core c.slot fun w => { w with bar := none })
  match c.w.bar with
  | some (_, true) => pass s
  | some (_, false) => .wait s
  | none =>
    if !opsDone s c.core c.slot then .wait s
    else
      let y := smGetD c.b.bars {} id
      let n := fld (immOf x.ext) 5 0
      let y := if y.counted.contains c.w.num then { y with waiting := y.waiting ++ [(c.w.num, n)] }
        else { y with n := some (y.n.getD n), counted := y.counted ++ [c.w.num] }
      let s := s.updBlock c.core c.bi fun b => { b with bars := smPut b.bars id y }
      let s := s.updWarp c.core c.slot fun w => { w with bar := some (id, false) }
      let s := barSettle { s with waits := [] } c.core c.bi id
      match s.warp? c.core c.slot with
      | some w => if w.bar = some (id, true) then pass s else .wait s
      | none => .wait s

def execBar (w : Z1) (s : State) : Res := issue .bar w (bodyBar w) s

/-! ### Register quotas (02 R29, R32; 03 R55, R73) -/

/-- The share of a pool of P registers kept by member j of k (03 R55). -/
def poolShare (p j k : Nat) : Nat := ceilDiv (p - j) k

/-- Pool registers of a block on a partition, given the slots of its warps. -/
def poolNeed (b : Block) (slots : List Nat) (p : Nat) : Nat :=
  (b.sets.filterMap id).foldl (fun a r =>
    (r.members.zipIdx).foldl (fun a m => match slots[m.1]? with
      | some sl => if partOf sl = p then a + poolShare r.size m.2 r.members.length else a
      | none => a) a) 0

/-- Registers of a partition that kernels may use (02 R29). -/
def partTotal (p : Nat) : Nat := if p = 7 then 960 else 1024

/-- Registers in use on a partition: quotas of resident warps and pools of resident blocks. -/
def partUsed (s : State) (core p : Nat) : Nat :=
  let k := s.core core
  (k.warps.filter fun e => partOf e.1 == p && !e.2.agent).foldl
      (fun a e => a + 32 * (smGetD k.blocks {} e.2.block).quota e.2.role) 0
    + k.blocks.foldl (fun a e => a + poolNeed e.2 e.2.slots p) 0
    + (k.claim.bind fun c => c.need[p]?).getD 0
def partFree (s : State) (core p : Nat) : Nat := partTotal p - partUsed s core p

/-- A warp loses its private registers from n up; it awaits no result for them any more, and one that still lands is
discarded (03 R53). -/
def Warp.loseRegs (w : Warp) (n : Nat) : Warp :=
  let keep (r : Nat) : Bool := r < n || 512 ≤ r
  { w with v := w.v.filter fun e => e.1 / 32 < n, outst := w.outst.filter fun p => keep p.1
           held := w.held.filter keep, fills := w.fills.filter keep, bad := w.bad.filter fun p => keep p.1 }

def newQuota (x : Nat) : Role → Nat
  | .copy => nfld x 4 0
  | .matrix => nfld x 9 5
  | .vector => nfld x 14 10
  | .plain => 0

/-- REGQ (03 R73). -/
def regq (value : Nat) (d : Nat) (c : Ctx) (s : State) : Act :=
  if c.e = 0 then .done s
  else
    let b := c.b
    let n (r : Role) : Nat := (b.roles.filter (· == r)).length
    let roles := [Role.copy, .matrix, .vector]
    let q := newQuota value
    if !b.role || nfld value 31 15 != 0 || roles.any (fun r => q r == 0 || decide (q r > 16))
       || (roles.map fun r => n r * q r).sum != (roles.map fun r => n r * b.quota r).sum
    then .fault 0x19 0 c.e 0 [] s
    else
      let mine := blockWarps s c.core c.bi
      let ok := (List.range 8).all fun p =>
        let ws := mine.filter fun e => partOf e.1 == p
        let new := (ws.map fun e => 32 * q e.2.role).sum
        let old := (ws.map fun e => 32 * b.quota e.2.role).sum
        decide (new ≤ old + partFree s c.core p)
      let s := if !ok then s
        else
          let s := s.updBlock c.core c.bi fun b => { b with qCopy := q .copy, qMatrix := q .matrix, qVector := q .vector }
          mine.foldl (fun s e =>
            if q e.2.role < b.quota e.2.role then s.updWarp c.core e.1 fun w => w.loseRegs (32 * q e.2.role) else s) s
      .done (c.result s 8 none (fun _ => []) [(d, fun _ => ok)] 0)

def execRegqImm (w : Z1) (s : State) : Res :=
  issue .regqImm w (fun c s => regq (immOf w.ext).toNat (fld w.mod 2 0) c s) s
def execRegqScalar (w : Z1) (s : State) : Res :=
  issue .regqScalar w (fun c s => regq (c.scal s w.a.toNat) (fld w.mod 2 0) c s) s

end Sys2Proof.Machine
end

