-- ==== Sys2Proof/Machine/Flags.lean ====
section
/-!
DEFINITION. Flags: the bits of xflags and xstat (03 R60, R61), the carry of IADDC (12 R237), and the
conditions of ICMP (12 R238).
-/
namespace Sys2Proof.Machine

/-- xflags bits (03 R60). -/
def fInvalid : BitVec 5 := 1
def fDivzero : BitVec 5 := 2
def fOverflow : BitVec 5 := 4
def fUnderflow : BitVec 5 := 8
def fInexact : BitVec 5 := 16

/-- xstat bits (03 R61). -/
def xMaskx : BitVec 2 := 1
def xSerial : BitVec 2 := 2

/-- Set xstat.maskx in every member that contributed lanes (03 R61). -/
def Ctx.maskx (c : Ctx) (s : State) (on : Bool) : State :=
  if on then
    c.members.foldl (fun s p => if p.2 = 0 then s else s.updWarp c.core p.1 fun w => { w with xstat := w.xstat ||| xMaskx }) s
  else s

/-- The unsigned carry out of bit 31 (12 R237). -/
def carryOut (a b cin : Nat) : Bool := decide (a % 2 ^ 32 + b % 2 ^ 32 + cin ≥ 2 ^ 32)

/-- A condition code of ICMP (12 R238). -/
def icond (code : Nat) (x y : Int) : Bool :=
  match code with
  | 0 => x == y
  | 1 => x != y
  | 2 => decide (x < y)
  | 3 => decide (x ≤ y)
  | 4 => decide (x > y)
  | _ => decide (x ≥ y)

end Sys2Proof.Machine
end

