-- ==== Sys2Proof/Machine/Int.lean ====
section
/-!
DEFINITION. Integer, address and logic instructions (12 R228 to R252).
-/
namespace Sys2Proof.Machine

/-! ### The functions of one lane -/

def satIf (on : Bool) (t : Ty) (z : Int) : Int := if on then satI z (loT t) (hiT t) else z

/-- Quotient and remainder (12 R235). -/
def divT (t : Ty) (x y : Int) : Int × Int :=
  if y = 0 then (if t.signed then -1 else hiT t, x)
  else if t.signed ∧ x = loT t ∧ y = -1 then (loT t, 0)
  else (Int.tdiv x y, x - Int.tdiv x y * y)

/-- Shifts over w bits by a 32-bit count (12 R243). -/
def shlN (w x s : Nat) : Nat := if s ≥ w then 0 else x * 2 ^ s % 2 ^ w
def shrN (w x s : Nat) : Nat := if s ≥ w then 0 else x / 2 ^ s
def sarN (w x s : Nat) : Nat :=
  if s ≥ w then (if sextN w x < 0 then 2 ^ w - 1 else 0) else truncN w (sextN w x / (2 ^ s : Nat))
def rotN (w x s : Nat) : Nat := (x * 2 ^ (s % w) % 2 ^ w) ||| (x / 2 ^ (w - s % w))

/-- FSHF (12 R244). -/
def fshfN (left : Bool) (a b s : Nat) : Nat :=
  let x := a * 2 ^ 32 + b
  let s := min s 32
  if left then x * 2 ^ s / 2 ^ 32 % 2 ^ 32 else x / 2 ^ s % 2 ^ 32

/-- BFX (12 R245). -/
def bfxT (t : Ty) (a pos len : Nat) : Int :=
  if pos ≥ t.width ∨ len = 0 then 0
  else
    let n := min len (t.width - pos)
    let f := a / 2 ^ pos % 2 ^ n
    if t.signed then sextN n f else (f : Int)

/-- BFI over w bits (12 R246). -/
def bfiN (w a b c : Nat) : Nat :=
  let pos := nfld c 7 0
  let len := nfld c 15 8
  if pos ≥ w ∨ len = 0 then b
  else
    let n := min len (w - pos)
    let m := (2 ^ n - 1) * 2 ^ pos
    (b &&& (2 ^ w - 1 - m)) ||| (a * 2 ^ pos % 2 ^ w &&& m)

def clzN (w x : Nat) : Nat := if x = 0 then w else w - 1 - log2N x
def ffsN (w x : Nat) : Nat := if x = 0 then w else ((List.range w).find? fun i => (x >>> i) % 2 == 1).getD w
def brevN (w x : Nat) : Nat := (List.range w).foldl (fun a i => a + (x >>> i) % 2 * 2 ^ (w - 1 - i)) 0

/-- One byte operation of PRMT (12 R248). -/
def prmtByte (op x : Nat) : Nat :=
  match op with
  | 0 => x
  | 1 => 0
  | 2 => 0xFF
  | 3 => if x ≥ 128 then 0xFF else 0
  | 4 => if x % 2 = 1 then 0xFF else 0
  | 5 => brevN 8 x
  | 6 => x % 16 * 16 + x / 16
  | _ => 255 - x

def prmtN (a b c : Nat) : Nat :=
  (List.range 4).foldl (fun d i =>
    let k := nfld c (8 * i + 2) (8 * i)
    let x := if k < 4 then nfld a (8 * k + 7) (8 * k) else nfld b (8 * (k - 4) + 7) (8 * (k - 4))
    d + prmtByte (nfld c (8 * i + 5) (8 * i + 3)) x * 2 ^ (8 * i)) 0

/-- IDOT4 before its saturation (12 R251). -/
def idot4 (sa sb : Bool) (a b : Nat) (acc : Int) : Int :=
  let byte (sg : Bool) (x j : Nat) : Int :=
    let y := nfld x (8 * j + 7) (8 * j)
    if sg then sextN 8 y else (y : Int)
  (List.range 4).foldl (fun z j => z + byte sa a j * byte sb b j) acc

/-- IPACK (12 R252). -/
def ipack (t : Ty) (uns : Bool) (a b c : Nat) : Nat :=
  let rd (x : Nat) : Int := if uns then (x : Int) else sextN 32 x
  let p (x : Nat) : Nat := truncN t.width (satI (rd x) (loT t) (hiT t))
  if t.width = 16 then p a + 2 ^ 16 * p b else p a + 2 ^ 8 * p b + 2 ^ 16 * (c % 2 ^ 16)

/-! ### Shared shapes -/

/-- The fixed latency of a result: the class of R226, with 2 clk for a far pool source (11 R227). -/
def latOf (c : Ctx) (o : Op) (x : Z1) : Nat :=
  match o.lat x.ty with
  | .fixed n => n + if poolFar c.b c.w (srcsOf o x) then 2 else 0
  | _ => 0

/-- One value of the instruction's type per lane. -/
def typed (o : Op) (x : Z1) (f : Ctx → State → Nat → Int) (c : Ctx) (s : State) : Act :=
  .done (c.result s (latOf c o x) (some x.d.toNat) (fun l => wrT x.ty (f c s l)) [] 0)

/-- One 32-bit value per lane. -/
def plain (o : Op) (x : Z1) (f : Ctx → State → Nat → Nat) (c : Ctx) (s : State) : Act :=
  .done (c.result s (latOf c o x) (some x.d.toNat) (fun l => [BitVec.ofNat 32 (f c s l)]) [] 0)

/-- One predicate per lane. -/
def preds (o : Op) (x : Z1) (l : Ctx → State → List (Nat × (Nat → Bool))) (c : Ctx) (s : State) : Act :=
  .done (c.result s (latOf c o x) none (fun _ => []) (l c s) 0)

/-- A two-source typed operation. -/
def typed2 (o : Op) (x : Z1) (f : Int → Int → Int) : Ctx → State → Act :=
  let n := words x.ty
  typed o x fun c s l => f (rdT x.ty (c.srcA s x n l)) (rdT x.ty (c.srcB s x n l))

/-- A one-source typed operation. -/
def typed1 (o : Op) (x : Z1) (f : Int → Int) : Ctx → State → Act :=
  typed o x fun c s l => f (rdT x.ty (c.srcA s x (words x.ty) l))

/-- A bit operation over the type's width. -/
def bits2 (o : Op) (x : Z1) (f : Nat → Nat → Nat) : Ctx → State → Act :=
  let n := words x.ty
  typed o x fun c s l => (f (c.srcA s x n l) (c.srcB s x n l) : Nat)

/-- A shift: the count is one 32-bit value. -/
def shift (o : Op) (x : Z1) (f : Nat → Nat → Nat → Nat) : Ctx → State → Act :=
  typed o x fun c s l => (f x.ty.width (c.srcA s x (words x.ty) l) (c.srcB s x 1 l) : Nat)

/-- A count over the type's element. -/
def count (o : Op) (x : Z1) (f : Nat → Nat → Nat) : Ctx → State → Act :=
  plain o x fun c s l => f x.ty.width (c.srcA s x (words x.ty) l % 2 ^ x.ty.width)

/-! ### The meanings -/

def sat0 (x : Z1) : Bool := fld x.mod 0 0 = 1

def execIadd (w : Z1) (s : State) : Res := issue .iadd w (typed2 .iadd w fun a b => satIf (sat0 w) w.ty (a + b)) s
def execIsub (w : Z1) (s : State) : Res := issue .isub w (typed2 .isub w fun a b => satIf (sat0 w) w.ty (a - b)) s
def execImul (w : Z1) (s : State) : Res := issue .imul w (typed2 .imul w fun a b => a * b) s
def execImulh (w : Z1) (s : State) : Res :=
  issue .imulh w (typed2 .imulh w fun a b => a * b / (2 ^ w.ty.width : Nat)) s
def execImad (w : Z1) (s : State) : Res :=
  issue .imad w (typed .imad w fun c s l =>
    let n := words w.ty
    rdT w.ty (c.srcA s w n l) * rdT w.ty (c.srcB s w n l) + rdT w.ty (c.srcC s w n l)) s
def execIdiv (w : Z1) (s : State) : Res := issue .idiv w (typed2 .idiv w fun a b => (divT w.ty a b).1) s
def execIrem (w : Z1) (s : State) : Res := issue .irem w (typed2 .irem w fun a b => (divT w.ty a b).2) s
def execImin (w : Z1) (s : State) : Res := issue .imin w (typed2 .imin w fun a b => min a b) s
def execImax (w : Z1) (s : State) : Res := issue .imax w (typed2 .imax w fun a b => max a b) s
def execIabs (w : Z1) (s : State) : Res :=
  issue .iabs w (typed1 .iabs w fun a => satIf (sat0 w) w.ty (if a < 0 then -a else a)) s
def execIneg (w : Z1) (s : State) : Res := issue .ineg w (typed1 .ineg w fun a => satIf (sat0 w) w.ty (-a)) s

def bodyIaddc (x : Z1) (c : Ctx) (s : State) : Act :=
  let cin (l : Nat) : Nat := if fld x.mod 6 6 = 1 ∧ readPred c.w (fld x.mod 5 3) l then 1 else 0
  .done (c.result s (latOf c .iaddc x) (some x.d.toNat)
    (fun l => [BitVec.ofNat 32 (c.srcA s x 1 l + c.srcB s x 1 l + cin l)])
    [(fld x.mod 2 0, fun l => carryOut (c.srcA s x 1 l) (c.srcB s x 1 l) (cin l))] 0)
def execIaddc (w : Z1) (s : State) : Res := issue .iaddc w (bodyIaddc w) s

def bodyIcmp (x : Z1) : Ctx → State → Act :=
  let n := words x.ty
  preds .icmp x fun c s => [(fld x.mod 2 0, fun l =>
    icond (fld x.mod 6 3) (rdT x.ty (c.srcA s x n l)) (rdT x.ty (c.srcB s x n l)))]
def execIcmp (w : Z1) (s : State) : Res := issue .icmp w (bodyIcmp w) s

def bodySel (x : Z1) : Ctx → State → Act :=
  let n := words x.ty
  typed .sel x fun c s l =>
    if readPred c.w (fld x.mod 2 0) l != decide (fld x.mod 3 3 = 1) then (c.srcA s x n l : Int) else (c.srcB s x n l : Int)
def execSel (w : Z1) (s : State) : Res := issue .sel w (bodySel w) s

/-- MOV: the immediate stands for its one source. -/
def bodyMov (x : Z1) : Ctx → State → Act :=
  let n := words x.ty
  typed .mov x fun c s l => ((if immB x then immNat x n else c.srcA s x n l : Nat) : Int)
def execMov (w : Z1) (s : State) : Res := issue .mov w (bodyMov w) s

def bodyLea (x : Z1) : Ctx → State → Act :=
  let k := fld x.mod 2 0
  let i (b : Nat) : Int := if fld x.mod 3 3 = 1 then sextN 32 b else (b : Int)
  typed .lea x fun c s l => (c.srcA s x (words x.ty) l : Int) + i (c.srcB s x 1 l) * (2 ^ k : Nat)
def execLea (w : Z1) (s : State) : Res := issue .lea w (bodyLea w) s

def execAnd (w : Z1) (s : State) : Res := issue .and w (bits2 .and w fun a b => a &&& b) s
def execOr (w : Z1) (s : State) : Res := issue .or w (bits2 .or w fun a b => a ||| b) s
def execXor (w : Z1) (s : State) : Res := issue .xor w (bits2 .xor w fun a b => a ^^^ b) s
def execAndn (w : Z1) (s : State) : Res :=
  issue .andn w (bits2 .andn w fun a b => a &&& (2 ^ w.ty.width - 1 - b)) s
def execNot (w : Z1) (s : State) : Res := issue .not w (typed1 .not w fun a => (2 ^ w.ty.width - 1 : Nat) - a) s
def execShl (w : Z1) (s : State) : Res := issue .shl w (shift .shl w shlN) s
def execShr (w : Z1) (s : State) : Res := issue .shr w (shift .shr w shrN) s
def execSar (w : Z1) (s : State) : Res := issue .sar w (shift .sar w sarN) s
def execRot (w : Z1) (s : State) : Res := issue .rot w (shift .rot w rotN) s
def execFshf (w : Z1) (s : State) : Res :=
  issue .fshf w (plain .fshf w fun c s l => fshfN (sat0 w) (c.srcA s w 1 l) (c.srcB s w 1 l) (c.srcC s w 1 l)) s
def execBfx (w : Z1) (s : State) : Res :=
  issue .bfx w (typed .bfx w fun c s l =>
    bfxT w.ty (c.srcA s w (words w.ty) l) (c.srcB s w 1 l % 256) (c.srcC s w 1 l % 256)) s
def execBfi (w : Z1) (s : State) : Res :=
  issue .bfi w (typed .bfi w fun c s l =>
    (bfiN w.ty.width (c.srcA s w (words w.ty) l) (c.srcB s w (words w.ty) l) (c.srcC s w 1 l) : Nat)) s
def execClz (w : Z1) (s : State) : Res := issue .clz w (count .clz w clzN) s
def execFfs (w : Z1) (s : State) : Res := issue .ffs w (count .ffs w ffsN) s
def execPopc (w : Z1) (s : State) : Res := issue .popc w (count .popc w popcount) s
def execBrev (w : Z1) (s : State) : Res :=
  issue .brev w (typed .brev w fun c s l =>
    (brevN w.ty.width (c.srcA s w (words w.ty) l % 2 ^ w.ty.width) : Nat)) s
def execPrmt (w : Z1) (s : State) : Res :=
  issue .prmt w (plain .prmt w fun c s l => prmtN (c.srcA s w 1 l) (c.srcB s w 1 l) (c.srcC s w 1 l)) s

/-- PSET: a and b hold predicate references (12 R249). -/
def predRef (c : Ctx) (f : BitVec 11) (l : Nat) : Bool := readPred c.w (fld f 2 0) l != decide (fld f 3 3 = 1)
def bodyPset (x : Z1) : Ctx → State → Act :=
  preds .pset x fun c _ => [(fld x.mod 2 0, fun l =>
    x.mod.getLsbD (3 + 2 * (predRef c x.a l).toNat + (predRef c x.b l).toNat))]
def execPset (w : Z1) (s : State) : Res := issue .pset w (bodyPset w) s

def execP2v (w : Z1) (s : State) : Res :=
  issue .p2v w (plain .p2v w fun c _ l =>
    (List.range 8).foldl (fun a k => a + (readPred c.w k l).toNat * 2 ^ k) 0) s
def bodyV2p (x : Z1) : Ctx → State → Act :=
  preds .v2p x fun c s => ((List.range 7).filter fun k => x.mod.getLsbD k).map fun k =>
    (k, fun l => (c.srcA s x 1 l >>> k) % 2 == 1)
def execV2p (w : Z1) (s : State) : Res := issue .v2p w (bodyV2p w) s

def execIdot4 (w : Z1) (s : State) : Res :=
  issue .idot4 w (typed .idot4 w fun c s l =>
    satIf (fld w.mod 2 2 = 1) w.ty
      (idot4 (fld w.mod 0 0 = 1) (fld w.mod 1 1 = 1) (c.srcA s w 1 l) (c.srcB s w 1 l) (rdT w.ty (c.srcC s w 1 l)))) s
def execIpack (w : Z1) (s : State) : Res :=
  issue .ipack w (plain .ipack w fun c s l =>
    ipack w.ty (sat0 w) (c.srcA s w 1 l) (c.srcB s w 1 l) (if isO w ∧ w.ty.width = 8 then c.srcC s w 1 l else 0)) s

end Sys2Proof.Machine
end

