-- ==== Sys2Proof/Machine/Fp.lean ====
section
/-!
DEFINITION. Floating-point numbers and exact arithmetic (06 R116 to R120, R123 to R129, R137): values as
exact dyadic numbers, one rounding, flags, narrow formats and ordered keys.
-/
namespace Sys2Proof.Machine

/-- A binary format: exponent bits and fraction bits (06 R116). -/
structure FFmt where
  eb : Nat
  mb : Nat
  deriving DecidableEq, Repr

def fmt32 : FFmt := ⟨8, 23⟩
def fmt16 : FFmt := ⟨5, 10⟩
def fmtBf : FFmt := ⟨8, 7⟩
/-- The element format of a floating type. -/
def fmtOf : Ty → FFmt
  | .f16 | .h2 => fmt16
  | .bf16 | .bh2 => fmtBf
  | _ => fmt32

def FFmt.bias (f : FFmt) : Nat := 2 ^ (f.eb - 1) - 1
def FFmt.width (f : FFmt) : Nat := 1 + f.eb + f.mb
def FFmt.infBits (f : FFmt) : Nat := (2 ^ f.eb - 1) * 2 ^ f.mb
def FFmt.nanBits (f : FFmt) : Nat := f.infBits + 2 ^ (f.mb - 1)
/-- Exponent of the smallest step: the smallest subnormal is 2 to this. -/
def FFmt.qmin (f : FFmt) : Int := 1 - (f.bias : Int) - f.mb
def FFmt.signBit (f : FFmt) : Nat := 2 ^ (f.eb + f.mb)

/-- A value: a NaN (signalling?), an infinity, or a signed m x 2^e. -/
inductive FV where
  | nan (sig : Bool)
  | inf (neg : Bool)
  | fin (neg : Bool) (m : Nat) (e : Int)
  deriving DecidableEq, Repr

def decodeF (f : FFmt) (x : Nat) : FV :=
  let neg := (x >>> (f.eb + f.mb)) % 2 == 1
  let ex := (x >>> f.mb) % 2 ^ f.eb
  let fr := x % 2 ^ f.mb
  if ex = 2 ^ f.eb - 1 then (if fr = 0 then .inf neg else .nan (fr < 2 ^ (f.mb - 1)))
  else if ex = 0 then .fin neg fr f.qmin
  else .fin neg (2 ^ f.mb + fr) (f.qmin + (ex - 1))

def FV.isNan : FV → Bool
  | .nan _ => true
  | _ => false
def FV.isSig : FV → Bool
  | .nan g => g
  | _ => false
def FV.isInf : FV → Bool
  | .inf _ => true
  | _ => false
def FV.neg : FV → Bool
  | .nan _ => false
  | .inf n => n
  | .fin n _ _ => n
def FV.isZero : FV → Bool
  | .fin _ m _ => m == 0
  | _ => false
/-- The sign inverted. -/
def FV.flip : FV → FV
  | .nan g => .nan g
  | .inf n => .inf !n
  | .fin n m e => .fin (!n) m e

/-! ### One rounding (06 R117, R118, R120) -/

/-- Rounding modes rn, rz, ru, rd as codes 0 to 3. Does a magnitude with odd floor `odd` and remainder
`r` of `2 * half` round up? -/
def roundsUp (mode : Nat) (neg odd : Bool) (r half : Nat) : Bool :=
  match mode with
  | 0 => r > half || (r == half && odd)
  | 1 => false
  | 2 => r != 0 && !neg
  | _ => r != 0 && neg

/-- m x 2^e as a multiple n of 2^q, rounded; and whether it is inexact. -/
def roundAt (mode : Nat) (neg : Bool) (m : Nat) (e q : Int) : Nat × Bool :=
  if q ≤ e then (m * 2 ^ (e - q).toNat, false)
  else
    let sh := min (q - e).toNat (log2N m + 3)
    let n := m / 2 ^ sh
    let r := m % 2 ^ sh
    (if roundsUp mode neg (n % 2 == 1) r (2 ^ (sh - 1)) then n + 1 else n, r != 0)

/-- The bits of an infinite or largest result on overflow (06 R118). -/
def ovfBits (f : FFmt) (mode : Nat) (neg : Bool) : Nat :=
  let sg := if neg then f.signBit else 0
  let toInf := match mode with | 0 => true | 1 => false | 2 => !neg | _ => neg
  sg + if toInf then f.infBits else f.infBits - 1

/-- Round the nonzero exact value m x 2^e: bits and flags. -/
def roundNZ (f : FFmt) (mode : Nat) (neg : Bool) (m : Nat) (e : Int) : Nat × BitVec 5 :=
  let top := (log2N m : Int) + e
  let qu := top - f.mb
  let q := max qu f.qmin
  let (n, inex) := roundAt mode neg m e q
  let sg := if neg then f.signBit else 0
  let emax : Int := f.bias
  if (log2N n : Int) + q > emax then (ovfBits f mode neg, fOverflow ||| fInexact)
  else
    let (n2, _) := roundAt mode neg m e qu
    let tiny := (log2N n2 : Int) + qu < f.qmin + f.mb
    (sg + (q - f.qmin).toNat * 2 ^ f.mb + n,
     (if inex then fInexact else 0) ||| (if inex && tiny then fUnderflow else 0))

/-- Round an exact finite value; a zero keeps the sign given. -/
def roundF (f : FFmt) (mode : Nat) (neg : Bool) (m : Nat) (e : Int) : Nat × BitVec 5 :=
  if m = 0 then (if neg then f.signBit else 0, 0) else roundNZ f mode neg m e

def nanRes (f : FFmt) (inv : Bool) : Nat × BitVec 5 := (f.nanBits, if inv then fInvalid else 0)
def infRes (f : FFmt) (neg : Bool) : Nat × BitVec 5 := ((if neg then f.signBit else 0) + f.infBits, 0)

/-- Round a value that is no arithmetic result of its own: infinities and NaNs pass (R119). -/
def roundV (f : FFmt) (mode : Nat) : FV → Nat × BitVec 5
  | .nan g => nanRes f g
  | .inf n => infRes f n
  | .fin n m e => roundF f mode n m e

/-! ### Products and sums -/

/-- The exact product; none where it is 0 x infinity. A NaN operand gives a NaN. -/
def mulV (a b : FV) : Option FV :=
  match a, b with
  | .nan g, .nan h => some (.nan (g || h))
  | .nan g, _ => some (.nan g)
  | _, .nan g => some (.nan g)
  | .inf n, .inf k => some (.inf (n != k))
  | .inf n, .fin k m _ => if m = 0 then none else some (.inf (n != k))
  | .fin k m _, .inf n => if m = 0 then none else some (.inf (n != k))
  | .fin n m e, .fin k p q => some (.fin (n != k) (m * p) (e + q))

/-- The least exponent among finite terms. -/
def minExp (l : List FV) : Int :=
  let es := l.filterMap fun | .fin _ _ e => some e | _ => none
  match es with
  | [] => 0
  | e :: r => r.foldl min e

/-- The exact sum of finite terms in units of 2^e. -/
def sumInt (e : Int) (l : List FV) : Int :=
  l.foldl (fun a v => match v with
    | .fin n m k => let z : Int := (m * 2 ^ (k - e).toNat : Nat); if n then a - z else a + z
    | _ => a) 0

/-- The sum of terms, formed exactly and rounded once (R117, R119): the sign of a zero sum, NaNs, and
infinities of opposite sign, which are invalid beside a quiet NaN too (13 R272; log 23). -/
def sumF (f : FFmt) (mode : Nat) (l : List FV) : Nat × BitVec 5 :=
  let inv := l.any FV.isSig || (l.any (fun v => v.isInf && v.neg) && l.any fun v => v.isInf && !v.neg)
  if inv || l.any FV.isNan then nanRes f inv
  else if l.any FV.isInf then infRes f (l.any fun v => v.isInf && v.neg)
  else
    let e := minExp l
    let z := sumInt e l
    if z = 0 then
      let neg := if l.isEmpty then false else if l.all FV.neg then true else if l.all fun v => !v.neg then false else mode == 3
      (if neg then f.signBit else 0, 0)
    else roundNZ f mode (z < 0) z.natAbs e

def addF (f : FFmt) (mode a b : Nat) : Nat × BitVec 5 := sumF f mode [decodeF f a, decodeF f b]
def subF (f : FFmt) (mode a b : Nat) : Nat × BitVec 5 := sumF f mode [decodeF f a, (decodeF f b).flip]
def mulF (f : FFmt) (mode a b : Nat) : Nat × BitVec 5 :=
  match mulV (decodeF f a) (decodeF f b) with
  | none => nanRes f true
  | some v => roundV f mode v
/-- One fused multiply-add (13 R258). -/
def fmaF (f : FFmt) (mode a b c : Nat) : Nat × BitVec 5 :=
  match mulV (decodeF f a) (decodeF f b) with
  | none => nanRes f true
  | some v => sumF f mode [v, decodeF f c]

/-! ### Order (13 R259, R262; 06 R137) -/

/-- Is a below b, for numbers; -0 equals +0. -/
def ltV (a b : FV) : Bool :=
  match a, b with
  | .nan _, _ | _, .nan _ => false
  | .inf n, .inf k => n && !k
  | .inf n, _ => n
  | _, .inf k => !k
  | .fin n m e, .fin k p q =>
    let x := min e q
    let z (g : Bool) (m : Nat) (e : Int) : Int := let y : Int := (m * 2 ^ (e - x).toNat : Nat); if g then -y else y
    decide (z n m e < z k p q)

/-- FMIN or FMAX of bit patterns: the operand returned unchanged (R259). -/
def minmaxF (f : FFmt) (isMax : Bool) (a b : Nat) : Nat × BitVec 5 :=
  let x := decodeF f a
  let y := decodeF f b
  let fl := if x.isSig || y.isSig then fInvalid else 0
  let bits :=
    if x.isNan && y.isNan then f.nanBits
    else if x.isNan then b
    else if y.isNan then a
    else
      let less := ltV x y || (!ltV y x && x.neg && !y.neg)
      if less != isMax then a else b
  (bits, fl)

/-- The relation of two values: 0 less, 1 equal, 2 greater, 3 unordered (13 R262). -/
def relF (x y : FV) : Nat :=
  if x.isNan || y.isNan then 3 else if ltV x y then 0 else if ltV y x then 2 else 1

/-- The ordered key (06 R137). -/
def keyF (f : FFmt) (h : Nat) : Nat :=
  let n := f.width
  if (decodeF f h).isNan then 2 ^ n - 1
  else if h < 2 ^ (n - 1) then h + 2 ^ (n - 1) else 2 ^ n - 1 - h

/-- FCLASS (13 R263). -/
def classF (f : FFmt) (x : Nat) : Nat :=
  match decodeF f x with
  | .nan g => if g then 2 ^ 8 else 2 ^ 9
  | .inf n => if n then 1 else 2 ^ 7
  | .fin n m _ =>
    if m = 0 then (if n then 2 ^ 3 else 2 ^ 4)
    else if m < 2 ^ f.mb then (if n then 2 ^ 2 else 2 ^ 5)
    else (if n then 2 else 2 ^ 6)

/-! ### Integers -/

/-- The nearest integer to a finite value under a mode, and whether it differs. -/
def toIntF (mode : Nat) (neg : Bool) (m : Nat) (e : Int) : Int × Bool :=
  if m = 0 then (0, false)
  else
    let (n, inex) := roundAt mode neg m e 0
    (if neg then -(n : Int) else n, inex)

/-- F2I (13 R266). -/
def f2i (t : Ty) (mode : Nat) (x : FV) : Int × BitVec 5 :=
  match x with
  | .nan _ => (0, fInvalid)
  | .inf n => (if n then loT t else hiT t, fInvalid)
  | .fin n m e =>
    let (y, inex) := toIntF mode n m e
    if y < loT t ∨ y > hiT t then (satI y (loT t) (hiT t), fInvalid) else (y, if inex then fInexact else 0)

/-- FRND (13 R261). -/
def frndF (f : FFmt) (mode : Nat) (flag : Bool) (a : Nat) : Nat × BitVec 5 :=
  match decodeF f a with
  | .nan g => nanRes f g
  | .inf n => infRes f n
  | .fin n m e =>
    let (y, inex) := toIntF mode n m e
    ((roundF f mode n y.natAbs 0).1, if flag && inex then fInexact else 0)

/-! ### Narrow formats (06 R123 to R129) -/

/-- The magnitude of a code in steps of L. -/
def nfSteps (d : BitVec 16) (code : Nat) : Nat :=
  let m := code % 2 ^ nfM d
  if nfE d = 0 then m
  else
    let e := (code >>> nfM d) % 2 ^ nfE d
    if e = 0 then m else (2 ^ nfM d + m) * 2 ^ (e - 1)
def nfNeg (d : BitVec 16) (code : Nat) : Bool := nfS d == 1 && (code >>> (nfW d - 1)) % 2 == 1
/-- The value of a code in units of L, signed. -/
def nfInt (d : BitVec 16) (code : Nat) : Int :=
  if nfNeg d code then -(nfSteps d code : Int) else nfSteps d code
/-- The value of a code (R125); a zero is +0. -/
def nfValue (d : BitVec 16) (code : Nat) : FV :=
  let n := nfSteps d code
  .fin (n != 0 && nfNeg d code) n (nfL d)

/-- The code of the magnitude nearest m x 2^e, unbounded above, ties to an even code; and inexactness. -/
def nfRound (d : BitVec 16) (m : Nat) (e : Int) : Nat × Bool :=
  if m = 0 then (0, false)
  else
    let qmin := nfL d
    let q := if nfE d = 0 then qmin else max ((log2N m : Int) + e - nfM d) qmin
    let base := if nfE d = 0 then 0 else (q - qmin).toNat * 2 ^ nfM d
    if q ≤ e then (base + m * 2 ^ (e - q).toNat, false)
    else
      let sh := min (q - e).toNat (log2N m + 3)
      let c := base + m / 2 ^ sh
      let r := m % 2 ^ sh
      let half := 2 ^ (sh - 1)
      (if r > half ∨ (r = half ∧ c % 2 = 1) then c + 1 else c, r != 0)

/-- Conversion into a narrow format (R128). -/
def toNarrow (d : BitVec 16) (x : FV) : Nat × BitVec 5 :=
  let largest := 2 ^ (nfE d + nfM d) - 1
  let sgn (neg : Bool) (c : Nat) : Nat := if neg ∧ c ≠ 0 then c + 2 ^ (nfW d - 1) else c
  let sat := fOverflow ||| fInexact
  match x with
  | .nan _ => (0, fInvalid)
  | .inf neg => if neg ∧ nfS d = 0 then (0, sat) else (sgn neg largest, sat)
  | .fin neg m e =>
    let (c, inex) := nfRound d m e
    if neg ∧ nfS d = 0 ∧ c ≠ 0 then (0, sat)
    else if c > largest then (sgn neg largest, sat)
    else (sgn neg c, (if inex then fInexact else 0) |||
      (if inex && (c == 0 || (nfE d != 0 && decide (c < 2 ^ nfM d))) then fUnderflow else 0))

end Sys2Proof.Machine
end

