-- ==== Sys2Proof/Machine/Special.lean ====
section
/-!
DEFINITION. The special functions (06 R121, R122): each result is the exact mathematical one rounded once.
Rational and square-root results carry a sticky bit; the others are enclosed between two fixed-point
numbers, at growing precision, until both ends round alike.
-/
namespace Sys2Proof.Machine

/-! ### Roots and quotients -/

/-- The integer square root by bits, from bit k down. -/
def isqrtGo (n : Nat) : Nat → Nat → Nat
  | 0, r => if (r + 1) * (r + 1) ≤ n then r + 1 else r
  | k + 1, r => let t := r + 2 ^ (k + 1); isqrtGo n k (if t * t ≤ n then t else r)
def isqrt (n : Nat) : Nat := isqrtGo n (log2N n / 2 + 1) 0

/-- Round a nonzero magnitude known by its floor v and whether something is left: v + (0 or a fraction). -/
def roundSticky (f : FFmt) (mode : Nat) (neg : Bool) (v : Nat) (rest : Bool) (e : Int) : Nat × BitVec 5 :=
  roundNZ f mode neg (2 * v + if rest then 1 else 0) (e - 1)

/-- a / b of nonzero magnitudes, times 2^e. -/
def divMag (f : FFmt) (mode : Nat) (neg : Bool) (a b : Nat) (e : Int) : Nat × BitVec 5 :=
  let k := 64 + log2N b
  let n := a * 2 ^ k
  roundSticky f mode neg (n / b) (n % b != 0) (e - k)

/-- The square root of the ratio a / b, times 2^(e/2) for even e. -/
def sqrtMag (f : FFmt) (mode : Nat) (a b : Nat) (e : Int) : Nat × BitVec 5 :=
  let k := 2 * (80 + log2N b)
  let n := a * 2 ^ k
  let v := isqrt (n / b)
  roundSticky f mode false v (v * v * b != n) (e / 2 - k / 2)

def divF (f : FFmt) (mode : Nat) (x y : FV) : Nat × BitVec 5 :=
  let neg := x.neg != y.neg
  match x, y with
  | .nan g, .nan h => nanRes f (g || h)
  | .nan g, _ | _, .nan g => nanRes f g
  | .inf _, .inf _ => nanRes f true
  | .inf _, .fin _ _ _ => infRes f neg
  | .fin _ _ _, .inf _ => roundF f mode neg 0 0
  | .fin _ m e, .fin _ p q =>
    if p = 0 then (if m = 0 then nanRes f true else ((infRes f neg).1, fDivzero))
    else if m = 0 then roundF f mode neg 0 0 else divMag f mode neg m p (e - q)

def rcpF (f : FFmt) (mode : Nat) (x : FV) : Nat × BitVec 5 := divF f mode (.fin false 1 0) x

/-- m x 2^e with e made even. -/
def evenExp (m : Nat) (e : Int) : Nat × Int := if e % 2 = 0 then (m, e) else (2 * m, e - 1)

def sqrtF (f : FFmt) (mode : Nat) (x : FV) : Nat × BitVec 5 :=
  match x with
  | .nan g => nanRes f g
  | .inf n => if n then nanRes f true else infRes f false
  | .fin n m e =>
    if m = 0 then roundF f mode n 0 0 else if n then nanRes f true
    else let (m, e) := evenExp m e; sqrtMag f mode m 1 e

def rsqF (f : FFmt) (mode : Nat) (x : FV) : Nat × BitVec 5 :=
  match x with
  | .nan g => nanRes f g
  | .inf n => if n then nanRes f true else roundF f mode false 0 0
  | .fin n m e =>
    if m = 0 then ((infRes f n).1, fDivzero) else if n then nanRes f true
    else let (m, e) := evenExp m e; sqrtMag f mode 1 m (-e)

/-! ### Fixed-point numbers with an error bound -/

/-- A number v / 2^F with a bound on the error, in units of 2^-F. -/
structure Ball where
  v   : Int
  err : Nat
  deriving DecidableEq, Repr

def Ball.add (a b : Ball) : Ball := ⟨a.v + b.v, a.err + b.err⟩
def Ball.sub (a b : Ball) : Ball := ⟨a.v - b.v, a.err + b.err⟩
def Ball.mul (F : Nat) (a b : Ball) : Ball :=
  ⟨a.v * b.v / (2 ^ F : Nat), (a.err * b.v.natAbs + b.err * a.v.natAbs + a.err * b.err) / 2 ^ F + 2⟩
def Ball.divN (a : Ball) (n : Nat) : Ball := ⟨a.v / (n : Int), a.err / n + 2⟩
def Ball.mulN (a : Ball) (n : Nat) : Ball := ⟨a.v * (n : Int), a.err * n⟩
/-- A quotient by a ball away from zero. -/
def Ball.div (F : Nat) (a b : Ball) : Ball :=
  let d := b.v.natAbs - b.err
  let q := a.v * (2 ^ F : Nat) / b.v
  ⟨q, (a.err * 2 ^ F + (q.natAbs + 1) * b.err) / d + 2⟩
/-- An exact dyadic m x 2^e, floored where it does not fit. -/
def ballOf (F : Nat) (neg : Bool) (m : Nat) (e : Int) : Ball :=
  let x : Int := if neg then -(m : Int) else m
  let k := e + F
  if 0 ≤ k then ⟨x * (2 ^ k.toNat : Nat), 0⟩ else ⟨x / (2 ^ (min (-k).toNat (log2N m + 2)) : Nat), 1⟩

/-- Sum of a series: each term is made from the last by `next k term`. -/
def seriesGo (next : Nat → Ball → Ball) : Nat → Nat → Ball → Ball → Ball
  | 0, _, _, acc => acc
  | n + 1, k, t, acc => let t' := next k t; seriesGo next n (k + 1) t' (acc.add t')
def series (next : Nat → Ball → Ball) (n : Nat) (t0 : Ball) : Ball :=
  let s := seriesGo next n 0 t0 t0
  ⟨s.v, s.err + 2⟩

/-- exp(t) for |t| up to 1. -/
def expB (F : Nat) (t : Ball) : Ball :=
  series (fun k x => (x.mul F t).divN (k + 1)) (F / 4 + 20) ⟨(2 ^ F : Nat), 0⟩

/-- The odd series of z: z + z^3/3 + z^5/5 + ..., or alternating. -/
def oddGo (F : Nat) (alt : Bool) (zz : Ball) : Nat → Nat → Ball → Ball → Ball
  | 0, _, _, acc => acc
  | n + 1, k, p, acc =>
    let p' := p.mul F zz
    let t := p'.divN (2 * k + 3)
    oddGo F alt zz n (k + 1) p' (if alt && k % 2 == 0 then acc.sub t else acc.add t)
def oddSeries (F : Nat) (alt : Bool) (z : Ball) (n : Nat) : Ball :=
  let s := oddGo F alt (z.mul F z) n 0 z z
  ⟨s.v, s.err + 2⟩

def recipB (F n : Nat) : Ball := ⟨((2 ^ F / n : Nat) : Int), 1⟩
/-- ln 2 = 2 artanh(1/3). -/
def ln2B (F : Nat) : Ball := (oddSeries F false (recipB F 3) (F / 3 + 5)).mulN 2
/-- pi = 16 arctan(1/5) - 4 arctan(1/239). -/
def piB (F : Nat) : Ball :=
  ((oddSeries F true (recipB F 5) (F / 4 + 5)).mulN 16).sub ((oddSeries F true (recipB F 239) (F / 15 + 5)).mulN 4)
/-- ln m for m from 1 to 2, as a ball of m. -/
def lnB (F : Nat) (m : Ball) : Ball :=
  let one : Ball := ⟨(2 ^ F : Nat), 0⟩
  (oddSeries F false ((m.sub one).div F (m.add one)) (F / 3 + 5)).mulN 2
/-- sin t for |t| up to 1.6. -/
def sinB (F : Nat) (t : Ball) : Ball :=
  let tt := t.mul F t
  series (fun k x => let y := (x.mul F tt).divN ((2 * k + 2) * (2 * k + 3)); ⟨-y.v, y.err⟩) (F / 8 + 15) t
/-- sinh t and cosh t for |t| up to 1. -/
def sinhB (F : Nat) (t : Ball) : Ball :=
  let tt := t.mul F t
  series (fun k x => (x.mul F tt).divN ((2 * k + 2) * (2 * k + 3))) (F / 8 + 15) t
def coshB (F : Nat) (t : Ball) : Ball :=
  let tt := t.mul F t
  series (fun k x => (x.mul F tt).divN ((2 * k + 1) * (2 * k + 2))) (F / 8 + 15) ⟨(2 ^ F : Nat), 0⟩
/-- Square n times. -/
def squareN (F : Nat) : Nat → Ball → Ball
  | 0, b => b
  | n + 1, b => squareN F n (b.mul F b)

/-! ### Rounding an enclosed value -/

/-- Round a value strictly between lo and hi, in units of 2^e, if both ends give one result. -/
def roundOpen (f : FFmt) (mode : Nat) (neg : Bool) (lo hi : Nat) (e : Int) : Option (Nat × BitVec 5) :=
  if hi ≤ lo then none
  else
    let a := roundNZ f mode neg (2 * lo + 1) (e - 1)
    let b := roundNZ f mode neg (2 * hi - 1) (e - 1)
    if lo ≠ 0 ∧ a = b then some a else none

/-- Round a positive value inside a ball, times 2^k, that is known to lie below `cap`. -/
def roundBall (f : FFmt) (mode : Nat) (neg : Bool) (F : Nat) (b : Ball) (k : Int) (cap : Option Nat) :
    Option (Nat × BitVec 5) :=
  let lo := (b.v - b.err - 1).toNat
  let hi := (b.v + b.err + 1).toNat
  let hi := match cap with | some c => min hi c | none => hi
  roundOpen f mode neg lo hi (k - F)

/-- The first precision that decides; the last one is beyond what any operand needs. -/
def firstPrec (g : Nat → Option (Nat × BitVec 5)) : Nat × BitVec 5 :=
  ([256, 384, 640, 1024].findSome? g).getD (0, 0)

/-! ### The functions -/

/-- FEXP2: 2^n 2^r with n = floor x. -/
def exp2F (f : FFmt) (mode : Nat) (x : FV) : Nat × BitVec 5 :=
  match x with
  | .nan g => nanRes f g
  | .inf n => if n then roundF f mode false 0 0 else infRes f false
  | .fin neg m e =>
    if m = 0 then roundF f mode false 1 0
    else if 0 ≤ e then
      let n : Int := (m * 2 ^ e.toNat : Nat)
      roundNZ f mode false 1 (if neg then -n else n)
    else
      let d : Nat := 2 ^ (-e).toNat
      let z : Int := if neg then -(m : Int) else m
      let n := z / (d : Int)
      let r := (z % (d : Int)).toNat
      if r = 0 then roundNZ f mode false 1 n
      else firstPrec fun F => roundBall f mode false F (expB F ((ballOf F false r e).mul F (ln2B F))) n none

/-- FLOG2: the exponent plus ln m / ln 2 for m from 1 to 2. -/
def log2F (f : FFmt) (mode : Nat) (x : FV) : Nat × BitVec 5 :=
  match x with
  | .nan g => nanRes f g
  | .inf n => if n then nanRes f true else infRes f false
  | .fin neg m e =>
    if m = 0 then ((infRes f true).1, fDivzero)
    else if neg then nanRes f true
    else
      let k := log2N m
      let n : Int := e + k
      if m = 2 ^ k then roundF f mode (n < 0) n.natAbs 0
      else firstPrec fun F =>
        let l := (lnB F (ballOf F false m (-(k : Int)))).div F (ln2B F)
        let y : Ball := ⟨n * (2 ^ F : Nat) + l.v, l.err⟩
        roundBall f mode (y.v < 0) F ⟨y.v.natAbs, y.err⟩ 0 none

/-- sin(pi r) for r = m 2^e with 0 < r < 1, not 1/2, where the result is below 1. -/
def sinPiMag (f : FFmt) (mode : Nat) (neg : Bool) (m : Nat) (e : Int) : Nat × BitVec 5 :=
  let d : Nat := 2 ^ (-e).toNat
  let m := if 2 * m > d then d - m else m
  firstPrec fun F => roundBall f mode neg F (sinB F ((ballOf F false m e).mul F (piB F))) 0 (some (2 ^ F))

/-- The fraction and whole part of |x| = m 2^e for negative e. -/
def splitFrac (m : Nat) (e : Int) : Nat × Nat := let d := 2 ^ (-e).toNat; (m / d, m % d)

/-- FSINP: sin(pi x). -/
def sinpF (f : FFmt) (mode : Nat) (x : FV) : Nat × BitVec 5 :=
  match x with
  | .nan g => nanRes f g
  | .inf _ => nanRes f true
  | .fin neg m e =>
    if m = 0 ∨ 0 ≤ e then roundF f mode neg 0 0
    else
      let (n, r) := splitFrac m e
      let sg := neg != (n % 2 == 1)
      if r = 0 then roundF f mode neg 0 0
      else if 2 * r = 2 ^ (-e).toNat then roundF f mode sg 1 0
      else sinPiMag f mode sg r e

/-- FCOSP: cos(pi x) = sin(pi (1/2 - r)) with the sign of the quadrant. -/
def cospF (f : FFmt) (mode : Nat) (x : FV) : Nat × BitVec 5 :=
  match x with
  | .nan g => nanRes f g
  | .inf _ => nanRes f true
  | .fin _ m e =>
    if m = 0 then roundF f mode false 1 0
    else if 0 ≤ e then roundF f mode (e == 0 && m % 2 == 1) 1 0
    else
      let (n, r) := splitFrac m e
      let d := 2 ^ (-e).toNat
      if r = 0 then roundF f mode (n % 2 == 1) 1 0
      else if 2 * r = d then roundF f mode false 0 0
      else
        let sg := (n % 2 == 1) != decide (2 * r > d)
        let k := if 2 * r > d then 2 * r - d else d - 2 * r
        sinPiMag f mode sg k (e - 1)

/-- FTANH. -/
def tanhF (f : FFmt) (mode : Nat) (x : FV) : Nat × BitVec 5 :=
  match x with
  | .nan g => nanRes f g
  | .inf n => roundF f mode n 1 0
  | .fin neg m e =>
    if m = 0 then roundF f mode neg 0 0
    else
      let top : Int := (log2N m : Int) + e
      if top ≥ 6 then firstPrec fun F => roundOpen f mode neg (2 ^ F - 2 ^ (F - 160)) (2 ^ F) (-(F : Int))
      else if top ≥ 0 then
        firstPrec fun F =>
          let u := squareN F 8 (expB F (ballOf F true m (e - 7)))
          let one : Ball := ⟨(2 ^ F : Nat), 0⟩
          roundBall f mode neg F ((one.sub u).div F (one.add u)) 0 (some (2 ^ F))
      else
        firstPrec fun F =>
          let t := ballOf F false m e
          roundBall f mode neg F ((sinhB F t).div F (coshB F t)) 0 (if t.err = 0 then some t.v.toNat else none)

end Sys2Proof.Machine
end

