-- ==== Sys2Proof/Machine/Float.lean ====
section
/-!
DEFINITION. Floating-point and conversion instructions (13 R253 to R272).
-/
namespace Sys2Proof.Machine

/-! ### The functions of one lane -/

/-- FSCALE (13 R260). -/
def scaleF (f : FFmt) (mode a : Nat) (n : Int) : Nat × BitVec 5 :=
  match decodeF f a with
  | .nan g => nanRes f g
  | .inf k => infRes f k
  | .fin k m e => roundF f mode k m (e + n)

/-- FCMP (13 R262). -/
def fcmpF (f : FFmt) (mask a b : Nat) : Bool × BitVec 5 :=
  let x := decodeF f a
  let y := decodeF f b
  let bit (i : Nat) : Bool := (mask >>> i) % 2 == 1
  let quietInv := (x.isNan || y.isNan) && !bit 3 && (bit 0 != bit 2)
  (bit (relF x y), if x.isSig || y.isSig || quietInv then fInvalid else 0)

/-- The input format of a conversion (13 R255). -/
def inFmt (code : Nat) : FFmt := match code with | 0 => fmt32 | 1 => fmt16 | _ => fmtBf
/-- The integer input type of I2F (13 R255). -/
def inTy (code : Nat) : Ty :=
  match code with
  | 0 => .i32 | 1 => .n32 | 2 => .i64 | 3 => .n64 | 4 => .i16 | 5 => .n16 | 6 => .i8 | _ => .n8

/-- The two elements of h2 and bh2, or the one of the other types (06 R116). -/
def isPacked (t : Ty) : Bool := t == .h2 || t == .bh2
def elem (t : Ty) (x i : Nat) : Nat := if isPacked t then x / 2 ^ (16 * i) % 2 ^ 16 else x % 2 ^ (fmtOf t).width
def perElem (t : Ty) (f : Nat → Nat × BitVec 5) : Nat × BitVec 5 :=
  if isPacked t then
    let a := f 0
    let b := f 1
    (a.1 + 2 ^ 16 * b.1, a.2 ||| b.2)
  else f 0

/-- FDOT2: products and sum exact, one rounding into f32 (13 R272). -/
def fdot2 (t : Ty) (mode a b c : Nat) : Nat × BitVec 5 :=
  let v (x i : Nat) : FV := decodeF (fmtOf t) (elem t x i)
  match mulV (v a 0) (v b 0), mulV (v a 1) (v b 1) with
  | some p, some q => sumF fmt32 mode [p, q, decodeF fmt32 c]
  | _, _ => nanRes fmt32 true

/-- Is candidate b kept over a (13 R271)? -/
def beats (f : FFmt) (bv bi av ai : Nat) : Bool :=
  keyF f bv > keyF f av || (keyF f bv == keyF f av && bi < ai)

/-! ### Shared shapes -/

/-- The lane that supplies the sources: its own, or at warp scope the lowest lane of E (13 R253). -/
def srcLane (c : Ctx) (l : Nat) : Nat := if c.scope = .warp then c.low else l
/-- The lanes that compute. -/
def computing (c : Ctx) : List Nat := if c.scope = .warp then [c.low] else maskLanes c.e

/-- The flags of the lanes that compute, together. -/
def flagsOf (c : Ctx) (f : Nat → BitVec 5) : BitVec 5 := (computing c).foldl (fun a l => a ||| f l) 0

/-- A value and flags per lane, computed once for each lane. -/
def laneTable {α : Type} (c : Ctx) (f : Nat → α) : List (Nat × α) := (computing c).map fun l => (l, f l)
/-- The value of a lane, from the table where it stands there. -/
def tableAt {α : Type} (f : Nat → α) (t : List (Nat × α)) (l : Nat) : α :=
  match t.find? fun p => p.1 == l with
  | some p => p.2
  | none => f l

/-- A fixed-latency floating result. -/
def fpWords (o : Op) (x : Z1) (f : Ctx → State → Nat → List Word × BitVec 5) (c : Ctx) (s : State) : Act :=
  if c.e = 0 then .done s
  else
    let t := laneTable c (f c s)
    .done (c.result s (latOf c o x) (some x.d.toNat) (fun l => (tableAt (f c s) t (srcLane c l)).1) []
      (t.foldl (fun a p => a ||| p.2.2) 0))

def one (r : Nat × BitVec 5) : List Word × BitVec 5 := ([BitVec.ofNat 32 r.1], r.2)

/-- One value per element from up to three sources. -/
def fp (o : Op) (x : Z1) (f : Nat → Nat → Nat → Nat × BitVec 5) : Ctx → State → Act :=
  fpWords o x fun c s l =>
    let a := c.srcA s x 1 l
    let b := c.srcB s x 1 l
    let d := c.srcC s x 1 l
    one (perElem x.ty fun i => f (elem x.ty a i) (elem x.ty b i) (elem x.ty d i))

def modeOf (x : Z1) : Nat := fld x.mod 1 0

/-- The special-function unit of the partition is busy (13 R265): the instruction issues when it frees. One that
executes once for several warps uses its leader's unit (log 18). -/
def sfuBusy (c : Ctx) (s : State) : Bool := decide (s.now < (s.partn c.core (partOf c.slot)).sfuFree)

/-- Special functions: the value is fixed at issue and lands later. -/
def sfu (x : Z1) (f : FFmt → Nat → FV → FV → Nat × BitVec 5) (c : Ctx) (s : State) : Act :=
  let p := partOf c.slot
  let busy := (s.partn c.core p).sfuFree
  if sfuBusy c s then
    .wait (if c.scope = .set ∨ c.scope = .block then s else s.updWarp c.core c.slot fun w => { w with next := busy })
  else if c.e = 0 then .done s
  else
      let n := if c.scope = .warp then 1 else popcount 32 c.e.toNat
      let s := s.updPart c.core p fun q => { q with sfuFree := s.now + ceilDiv n 16 }
      let g (l : Nat) : Nat × BitVec 5 :=
        f (fmtOf x.ty) (modeOf x) (decodeF (fmtOf x.ty) (elem x.ty (c.srcA s x 1 l) 0))
          (decodeF (fmtOf x.ty) (elem x.ty (c.srcB s x 1 l) 0))
      let t := laneTable c g
      .done (valueOp c s x.d.toNat 1 (fun l => [BitVec.ofNat 32 (tableAt g t (srcLane c l)).1])
        (t.foldl (fun a q => a ||| q.2.2) 0))

/-! ### The meanings -/

def execFadd (w : Z1) (s : State) : Res := issue .fadd w (fp .fadd w fun a b _ => addF (fmtOf w.ty) (modeOf w) a b) s
def execFsub (w : Z1) (s : State) : Res := issue .fsub w (fp .fsub w fun a b _ => subF (fmtOf w.ty) (modeOf w) a b) s
def execFmul (w : Z1) (s : State) : Res := issue .fmul w (fp .fmul w fun a b _ => mulF (fmtOf w.ty) (modeOf w) a b) s
def execFfma (w : Z1) (s : State) : Res := issue .ffma w (fp .ffma w fun a b c => fmaF (fmtOf w.ty) (modeOf w) a b c) s
def execFmin (w : Z1) (s : State) : Res := issue .fmin w (fp .fmin w fun a b _ => minmaxF (fmtOf w.ty) false a b) s
def execFmax (w : Z1) (s : State) : Res := issue .fmax w (fp .fmax w fun a b _ => minmaxF (fmtOf w.ty) true a b) s

def bodyFcmp (x : Z1) (c : Ctx) (s : State) : Act :=
  if c.e = 0 then .done s
  else
    let f := fmtOf x.ty
    let g (l : Nat) : Bool × BitVec 5 := fcmpF f (fld x.mod 6 3) (elem x.ty (c.srcA s x 1 l) 0) (elem x.ty (c.srcB s x 1 l) 0)
    let t := laneTable c g
    .done (c.result s (latOf c .fcmp x) none (fun _ => [])
      [(fld x.mod 2 0, fun l => (tableAt g t (srcLane c l)).1)] (t.foldl (fun a p => a ||| p.2.2) 0))
def execFcmp (w : Z1) (s : State) : Res := issue .fcmp w (bodyFcmp w) s

def execFclass (w : Z1) (s : State) : Res := issue .fclass w (fp .fclass w fun a _ _ => (classF (fmtOf w.ty) a, 0)) s
def execFrcp (w : Z1) (s : State) : Res := issue .frcp w (sfu w fun f m a _ => rcpF f m a) s
def execFrsq (w : Z1) (s : State) : Res := issue .frsq w (sfu w fun f m a _ => rsqF f m a) s
def execFsqrt (w : Z1) (s : State) : Res := issue .fsqrt w (sfu w fun f m a _ => sqrtF f m a) s
def execFdiv (w : Z1) (s : State) : Res := issue .fdiv w (sfu w divF) s
def execFexp2 (w : Z1) (s : State) : Res := issue .fexp2 w (sfu w fun f m a _ => exp2F f m a) s
def execFlog2 (w : Z1) (s : State) : Res := issue .flog2 w (sfu w fun f m a _ => log2F f m a) s
def execFsinp (w : Z1) (s : State) : Res := issue .fsinp w (sfu w fun f m a _ => sinpF f m a) s
def execFcosp (w : Z1) (s : State) : Res := issue .fcosp w (sfu w fun f m a _ => cospF f m a) s
def execFtanh (w : Z1) (s : State) : Res := issue .ftanh w (sfu w fun f m a _ => tanhF f m a) s

/-- FSCALE reads one 32-bit exponent for every element. -/
def bodyFscale (x : Z1) : Ctx → State → Act :=
  fpWords .fscale x fun c s l =>
    let a := c.srcA s x 1 l
    let n := sextN 32 (c.srcB s x 1 l)
    one (perElem x.ty fun i => scaleF (fmtOf x.ty) (modeOf x) (elem x.ty a i) n)
def execFscale (w : Z1) (s : State) : Res := issue .fscale w (bodyFscale w) s

def execFrnd (w : Z1) (s : State) : Res :=
  issue .frnd w (fp .frnd w fun a _ _ => frndF (fmtOf w.ty) (modeOf w) (fld w.mod 2 2 = 1) a) s

def bodyF2i (x : Z1) : Ctx → State → Act :=
  fpWords .f2i x fun c s l =>
    let f := inFmt (fld x.mod 3 2)
    let r := f2i x.ty (modeOf x) (decodeF f (c.srcA s x 1 l % 2 ^ f.width))
    (wrT x.ty r.1, r.2)
def execF2i (w : Z1) (s : State) : Res := issue .f2i w (bodyF2i w) s

def bodyI2f (x : Z1) : Ctx → State → Act :=
  fpWords .i2f x fun c s l =>
    let t := inTy (fld x.mod 4 2)
    let z := rdT t (c.srcA s x (words t) l)
    one (roundF (fmtOf x.ty) (modeOf x) (z < 0) z.natAbs 0)
def execI2f (w : Z1) (s : State) : Res := issue .i2f w (bodyI2f w) s

def bodyF2f (x : Z1) : Ctx → State → Act :=
  fpWords .f2f x fun c s l =>
    let f := inFmt (fld x.mod 3 2)
    let cv (y : Nat) : Nat × BitVec 5 := roundV (fmtOf x.ty) (modeOf x) (decodeF f (y % 2 ^ f.width))
    one (perElem x.ty fun i => cv (if i = 0 then c.srcA s x 1 l else c.srcB s x 1 l))
def execF2f (w : Z1) (s : State) : Res := issue .f2f w (bodyF2f w) s

/-- The descriptor a conversion names, checked even when E is empty (06 R124). -/
def withNf (x : Z1) (k : BitVec 16 → Ctx → State → Act) (c : Ctx) (s : State) : Act :=
  let d := smGetD c.b.nf 0 (fld x.mod 6 4)
  if nfValid d then k d c s else .fault 0x13 0 c.e 0 [] s

def bodyF2n (x : Z1) : Ctx → State → Act :=
  withNf x fun d => fpWords .f2n x fun c s l =>
    let f := inFmt (fld x.mod 3 2)
    one (toNarrow d (decodeF f (c.srcA s x 1 l % 2 ^ f.width)))
def execF2n (w : Z1) (s : State) : Res := issue .f2n w (bodyF2n w) s

def bodyN2f (x : Z1) : Ctx → State → Act :=
  withNf x fun d => fpWords .n2f x fun c s l =>
    one (roundV (fmtOf x.ty) (modeOf x) (nfValue d (c.srcA s x 1 l % 2 ^ nfW d)))
def execN2f (w : Z1) (s : State) : Res := issue .n2f w (bodyN2f w) s

/-- FMAXI delivers the winner's bits unchanged (13 R271). -/
def bodyFmaxi (x : Z1) : Ctx → State → Act :=
  fpWords .fmaxi x fun c s l =>
    let k := if x.ty = .f32 then 2 else 1
    let a := c.srcA s x k l
    let b := c.srcB s x k l
    let w := if x.ty = .f32 then 32 else 16
    let r := if beats (fmtOf x.ty) (b % 2 ^ w) (b / 2 ^ w) (a % 2 ^ w) (a / 2 ^ w) then b else a
    ((halves r).take k, 0)
def execFmaxi (w : Z1) (s : State) : Res := issue .fmaxi w (bodyFmaxi w) s

def bodyFdot2 (x : Z1) : Ctx → State → Act :=
  fpWords .fdot2 x fun c s l =>
    one (fdot2 x.ty (modeOf x) (c.srcA s x 1 l) (c.srcB s x 1 l) (c.srcC s x 1 l))
def execFdot2 (w : Z1) (s : State) : Res := issue .fdot2 w (bodyFdot2 w) s

end Sys2Proof.Machine
end

