-- ==== Sys2Proof/Machine/Tree.lean ====
section
/-!
DEFINITION. The scheduling tree (23 R397 to R419): queues, ranks and placement, pre-emption, push and pop
programs, the rank instructions, offers and retries, and the descriptors' checks.
-/
namespace Sys2Proof.Machine

/-! ### Queues -/

/-- The key of a queue: a node, or a leaf, of a tower. -/
def queueKey (t : Nat) (leaf : Bool) (k : Nat) : Nat := 2048 * t + (if leaf then 1024 + k else k)
def State.queue (s : State) (t : Nat) (leaf : Bool) (k : Nat) : List Task := smGetD s.queues [] (queueKey t leaf k)
def State.setQueue (s : State) (t : Nat) (leaf : Bool) (k : Nat) (q : List Task) : State :=
  { s with queues := smSetD s.queues [] (queueKey t leaf k) q, waits := [] }

/-- A word of a node's or leaf's descriptor. -/
def descReg (t : Nat) (leaf : Bool) (k w : Nat) : Nat := if leaf then leafReg t k w else nodeReg t k w
def stateReg (t : Nat) (leaf : Bool) (k w : Nat) : Nat := if leaf then leafState t k w else nodeState t k w

/-- Leaf numbers (R398). -/
def matrixLeaf (core : Nat) : Nat := 8 + 2 * (core % 256)
def copyLeaf (core : Nat) : Nat := 9 + 2 * (core % 256)
def egressLeaf (port : Nat) : Nat := 1 + port % 6
def isEgress (k : Nat) : Bool := decide (1 ≤ k) && decide (k ≤ 6)
/-- The core of a matrix or copy leaf. -/
def leafCore (t k : Nat) : Nat := 256 * t + (k - 8) / 2
def leafCap (k : Nat) : Nat :=
  if k = 0 then 64 else if isEgress k then 256 else if k = 7 then 0 else if k % 2 = 0 then 32 else 64

/-- Tasks the leaf's engine runs; they stay in the leaf until it finishes with them (R405). -/
def leafRun (s : State) (t k : Nat) : List Task :=
  if k = 0 then s.launches.filterMap fun p => (p.2.opened.find? fun o => o.1 == t).map (·.2)
  else if k < 8 then []
  else
    let c := s.core (leafCore t k)
    if k % 2 = 0 then c.arrRun.toList ++ c.drnRun.toList else c.segs.map (·.task)

/-- Entries held (R417, R418). -/
def heldCount (s : State) (t : Nat) (leaf : Bool) (k : Nat) : Nat :=
  (s.queue t leaf k).length + if leaf then (leafRun s t k).length else 0

/-- Free entries of a base die's pool (R397). -/
def poolFree (s : State) (t : Nat) : Nat :=
  65536 - (s.queues.filter fun p => p.1 / 1024 == 2 * t).foldl (fun a p => a + p.2.length) 0

def descLimit (s : State) (t : Nat) (leaf : Bool) (k : Nat) : Nat :=
  if leaf then fld (s.reg (leafReg t k 0)) 8 0 else fld (s.reg (nodeReg t k 1)) 16 0

def descOn (s : State) (t : Nat) (leaf : Bool) (k : Nat) : Bool := (s.reg (descReg t leaf k 0)).getLsbD 31

/-- Room for one more entry (R403). -/
def treeRoom (s : State) (t : Nat) (leaf : Bool) (k : Nat) : Bool :=
  decide (heldCount s t leaf k < descLimit s t leaf k) && (leaf || decide (0 < poolFree s t))

/-- The retry interval in clk (R417). -/
def retryClk (s : State) (t : Nat) (leaf : Bool) (k : Nat) : Nat :=
  16 * max 1 (fld (s.reg (descReg t leaf k 4)) 15 0)

/-! ### Ranks and placement (R402, 07 R152) -/

/-- Rank a precedes rank b. -/
def precedes (a b : Nat) : Bool :=
  let d := (b + 65536 - a) % 65536
  decide (1 ≤ d) && decide (d ≤ 32767)

/-- Tile tasks of one core and slot. -/
def sameSlot (a b : Task) : Bool :=
  match a.body, b.body with
  | .tile x, .tile y => x.core == y.core && x.slot == y.slot
  | _, _ => false

/-- The index after the last entry that p selects; 0 if there is none. -/
def afterLast (p : Task → Bool) (q : List Task) : Nat :=
  q.zipIdx.foldl (fun a e => if p e.1 then e.2 + 1 else a) 0

/-- Place a task: ahead of the first entry its rank precedes, but never past an earlier task of its slot. -/
def placeIn (q : List Task) (x : Task) : List Task :=
  let i := max (q.findIdx fun y => precedes x.rank y.rank) (afterLast (sameSlot x) q)
  q.take i ++ [x] ++ q.drop i

/-- Return a segment to the queue ahead of every entry of its own rank (R409). -/
def returnIn (q : List Task) (x : Task) : List Task :=
  let i := q.findIdx fun y => precedes x.rank y.rank || x.rank == y.rank
  q.take i ++ [x] ++ q.drop i

/-! ### Launch records under pre-emption (22 R391, R393) -/

def State.launch? (s : State) (id : Nat) : Option Launch := smGet? s.launches id
def State.updLaunch (s : State) (id : Nat) (f : Launch → Launch) : State :=
  match s.launch? id with
  | some l => { s with launches := smPut s.launches id (f l) }
  | none => s

/-- Change an n-byte field of a record at its home. -/
def recUpd (s : State) (pa n : Nat) (f : Nat → Nat) : State := s.homeWrite pa (toBytes n (f (s.memNat pa n)))

/-- Add 2^63 to a ticket: sets or clears closed. -/
def ticketFlip (s : State) (pa : Nat) : State := recUpd s (pa + 128) 8 fun v => (v + 2 ^ 63) % 2 ^ 64

/-- Close a tower's copy of a launch: its open bit is cleared, and with the last one the ticket closes,
with status 2 and one more pre-emption. The copy returns to its queue at its own rank. `by'` is the task whose push
closes it. -/
def closeLaunch (s : State) (t id : Nat) (by' : Option Task := none) : State :=
  match s.launch? id with
  | none => s
  | some l => match l.opened.find? (fun o => o.1 == t), l.pa with
    | some (_, x), some pa =>
      let s := s.updLaunch id fun l => { l with opened := l.opened.filter fun o => o.1 != t }
      let s := recUpd s (pa + 160) 4 fun v => v &&& (3 - 2 ^ t)
      let last := s.memNat (pa + 160) 4 == 0
      let s := s.updLaunch id fun l => { l with shut := by'.map fun y => (s.now, t, y, last) }
      let s := if last then recUpd (recUpd (ticketFlip s pa) (pa + 152) 4 fun _ => 2) (pa + 156) 4 fun v => (v + 1) % 2 ^ 32 else s
      s.setQueue t true 0 (placeIn (s.queue t true 0) x)
    | _, _ => s

/-! ### Pre-emption at a leaf (R409, R410) -/

/-- Does a push of rank r reach the margin against a running task of rank q? -/
def qualifies (m r q : Nat) : Bool :=
  let d := (q + 65536 - r) % 65536
  decide (m ≤ d) && decide (d ≤ 32767)

/-- The task of a list that every other one precedes. -/
def worstRank (l : List Task) : Option Task :=
  l.foldl (fun a x => match a with
    | none => some x
    | some y => if precedes y.rank x.rank then some x else some y) none

/-- A leaf counts a pre-emption and records the tenant of its push, whose account takes what it causes (29 R477). -/
def preempted (s : State) (t k tenant : Nat) : State :=
  ({ s.bump (leafReg t k 6) 1 with blame := smPut s.blame (queueKey t true k) tenant }).act (2 + tenant) 4 1

/-- A push pre-empts the worst-ranked open launch of its leaf that its rank precedes by the margin (22 R391). -/
def closeVictim (s : State) (t : Nat) (x : Task) : State :=
  let m := fld (s.reg (leafReg t 0 1)) 15 0
  if m = 0 then s
  else match worstRank ((leafRun s t 0).filter fun y => qualifies m x.rank y.rank) with
    | some v => match v.body with
      | .launch id => preempted (closeLaunch s t id (some x)) t 0 x.tenant
      | _ => s
    | none => s

/-- A push that stands at the head may pre-empt a running task. -/
def leafPreempt (s : State) (t k : Nat) (x : Task) : State :=
  let m := fld (s.reg (leafReg t k 1)) 15 0
  let run := (leafRun s t k).filter fun y => qualifies m x.rank y.rank
  if m = 0 ∨ isEgress k ∨ (s.queue t true k).head?.map (·.id) ≠ some x.id then s
  else if k = 0 then closeVictim s t x
  else
    let c := leafCore t k
    let core := s.core c
    if k % 2 = 0 then
      match core.arrRun with
      | some v => if core.victim.isNone && qualifies m x.rank v.rank then s.setCore c { core with victim := some (x.tenant, s.now) } else s
      | none => s
    else if core.segs.any (·.stop) then s
    else match worstRank (run.filter (·.staged)) with
      | some v => s.setCore c { core with segs := core.segs.map fun g =>
          if g.task.id = v.id then { g with stop := true, by' := some x.tenant } else g }
      | none => s

/-! ### Push, release and pop (R403 to R405) -/

/-- An entry of a node or leaf was freed: the pushes that wait for room are tried again, and the offers
into it. -/
def freed (s : State) (t : Nat) (leaf : Bool) (k : Nat) : State :=
  { s with waits := [], waitq := s.waitq.map fun w =>
      let offer := match w.fin with | .offer _ => true | _ => false
      if w.tower = t ∧ w.leaf = leaf ∧ (w.target = k ∨ !leaf) ∧ (w.retry.isNone || (offer && w.target == k))
      then { w with retry := some s.now } else w }

def place (s : State) (t : Nat) (leaf : Bool) (k : Nat) (x : Task) : State :=
  let s := s.setQueue t leaf k (placeIn (s.queue t leaf k) x)
  if leaf then leafPreempt s t k x else s

/-- The status word of an ENQ or window push, a device-scope release; the counter that waited falls (17
R355); a window counts a push that is taken, and one that ends with no status (22 R384). -/
def settleEnq (s : State) (code : Nat) (status : Option Nat) (who : Option (Nat × Nat)) (window : Option Nat) : State :=
  let s := match window with
    | some f => if code = 1 then s.bump (winBase f + 0x10) 1 else s
    | none => s
  let s := match status with
    | some pa => devWrite s pa (toBytes 4 code)
    | none => match window with
      | some f => s.bump (winBase f + 0x0C) 1
      | none => s
  match who with
  | some (c, sl) => { moveCnt s c [(sl, fullMask)] .stores false with waits := [] }
  | none => s

/-- A launch that no queue accepted is forgotten. -/
def dropLaunch (s : State) (x : Task) : State :=
  match x.body with
  | .launch id => { s with launches := smDel s.launches id }
  | _ => s

/-- The pop program of a node or leaf for a departing task (R405). -/
def popJob (s : State) (t : Nat) (leaf : Bool) (k : Nat) (x : Task) : State :=
  let d := s.reg (descReg t leaf k 2)
  if d.getLsbD 15 then
    { s with jobs := s.jobs ++ [{ tower := t, leaf := leaf, target := k, pc := fld d 11 0, left := 32
                                  nowNs := s.ns, nowClk := s.now % 2 ^ 32, task := x, fin := .pop }] }
  else s

/-- A task leaves a node for its child. -/
def leaveNode (s : State) (t n : Nat) (x : Task) : State :=
  let s := s.setQueue t false n ((s.queue t false n).filter fun y => y.id != x.id)
  freed (popJob s t false n x) t false n

/-- The entry point of a formed task of a class (R399). -/
def entryOf (s : State) (t k cls : Nat) : Bool × Nat :=
  let m := s.reg (leafReg t k (8 + cls % 8))
  if m.getLsbD 31 then (false, fld m 8 0) else (true, k)

/-- A segment was placed: the next one of its copy waits to be pushed (08 R167), with the user words the block has by
then (17 R350). -/
def nextSeg (s : State) (x : Task) : State :=
  match x.body with
  | .seg id _ hi => match s.copies.find? fun c => c.id == id with
    | none => s
    | some c =>
      let s := { s with copies := s.copies.map fun d => if d.id = id then { d with pushed := hi } else d, waits := [] }
      if c.bytes ≤ hi then s
      else
        let n := min c.bytes (hi + c.segMax)
        let (tid, s) := s.fresh
        let (leaf, k) := entryOf s (towerOf c.core) (copyLeaf c.core) c.task.cls
        let b := s.block c.core c.block
        let t := { c.task with id := tid, length := n - hi, user0 := b.user0.toNat, user1 := b.user1.toNat, body := .seg id hi n }
        { s with waitq := s.waitq ++ [{ tower := towerOf c.core, leaf := leaf, target := k, fin := .formed, retry := some s.now
                                        task := t }] }
  | _ => s

/-! ### What a push of a tile task does (07 R132, R143, R148, R150) -/

def State.mslot (s : State) (core i : Nat) : MSlot := ((s.core core).slots[i]?).getD {}
def State.updMslot (s : State) (core i : Nat) (f : MSlot → MSlot) : State :=
  s.updCore core fun k => { k with slots := setAt k.slots i (f ((k.slots[i]?).getD {})) }

/-- The members with every lane, for counters and marks that move in each of them (R150). -/
def wholly (m : List (Nat × Mask)) : List (Nat × Mask) := m.map fun p => (p.1, fullMask)

/-- The pool registers a drain fills (R155). -/
def tileRegs : TileKind → List Nat
  | .drain d0 m _ _ _ out nf _ =>
    let cw := if out = 0 then 32 else if out = 3 then nfBox nf else 16
    (List.range (ceilDiv m (32 / cw))).map (512 + d0 + ·)
  | _ => []

/-- The slot after a push: WLOAD's context, MXREL's releasing, the projected W. -/
def slotPushed (q : MSlot) : TileKind → MSlot
  | .wload w => { q with ctx := some w }
  | .release => { q with state := 2 }
  | .mxmul w _ _ _ _ act _ => { q with projW := some (nfL act + nfL w.nf) }
  | .drain _ _ _ _ _ _ _ z => if z then { q with projW := none } else q
  | .atbl .. => q

/-- A task is pushed: a tile task's counters rise in every member, and what it does to its slot is done, once. -/
def taskPushed (s : State) (x : Task) : Task × State :=
  match x.body with
  | .tile t =>
    if !t.fresh then (x, s)
    else
      let s := moveCnt (s.updMslot t.core t.slot fun q => slotPushed q t.kind) t.core (wholly t.members) .tiles true
      ({ x with body := .tile { t with fresh := false } }, expectAll s t.core (wholly t.members) x.id (tileRegs t.kind))
  | _ => (x, s)

/-- What follows a push that was given a rank. -/
def pushDone (s : State) (t : Nat) (leaf : Bool) (k : Nat) (x : Task) (r : Nat) (fin : JobEnd) : State :=
  match fin with
  | .pop => s
  | .formed => let (y, s) := taskPushed s x; nextSeg (place s t leaf k { y with rank := r }) x
  | .enq st who win => settleEnq (place s t leaf k { x with rank := r }) 1 st who win
  | .offer n => place (leaveNode s t n x) t leaf k { x with rank := r }

/-- What follows a push that was not taken: `full` where the target has no room, else refused. -/
def pushFailed (s : State) (t : Nat) (leaf : Bool) (k : Nat) (x : Task) (full : Bool) (fin : JobEnd) : State :=
  let wait (r : Option Nat) : State :=
    { s with waitq := s.waitq ++ [{ tower := t, leaf := leaf, target := k, task := x, fin := fin, retry := r }] }
  match fin with
  | .pop => s
  | .enq st who win => settleEnq (dropLaunch s x) (if full then 3 else 2) st who win
  | .formed => wait (if full then none else some (s.now + retryClk s t leaf k))
  | .offer _ => wait (some (s.now + retryClk s t leaf k))

/-- Push a task to a node or leaf. One program runs at a time (R406): a push that finds one running is
taken up after it. A disabled node still takes what is offered into it; a disabled leaf takes nothing (R404). -/
def startPush (s : State) (t : Nat) (leaf : Bool) (k : Nat) (x : Task) (fin : JobEnd) : State :=
  let offered := match fin with | .offer _ => true | _ => false
  let d := s.reg (descReg t leaf k 2)
  if !s.jobs.isEmpty then
    { s with waitq := s.waitq ++ [{ tower := t, leaf := leaf, target := k, task := x, fin := fin, retry := some s.now }] }
  else if !((offered && !leaf) || descOn s t leaf k) || !treeRoom s t leaf k then pushFailed s t leaf k x true fin
  else if d.getLsbD 31 then
    { s with jobs := [{ tower := t, leaf := leaf, target := k, pc := fld d 27 16, left := 32
                        nowNs := s.ns, nowClk := s.now % 2 ^ 32, task := x, fin := fin }] }
  else pushDone s t leaf k x (x.rank % 65536) fin

/-- Has the entry point of a formed task room for it, so that a push can begin (R403)? -/
def entryRoom (s : State) (t k cls : Nat) : Bool :=
  let (leaf, n) := entryOf s t k cls
  descOn s t leaf n && treeRoom s t leaf n

/-- A formed task enters at the node its leaf maps for its class, or at the leaf (R399). -/
def pushFormed (s : State) (t k : Nat) (x : Task) : State :=
  let (leaf, n) := entryOf s t k x.cls
  startPush s t leaf n x .formed

/-- The engine takes a leaf's head: its pop program runs (R405). -/
def takeHead (s : State) (t k : Nat) : Option (Task × State) :=
  match s.queue t true k with
  | [] => none
  | x :: q => some (x, popJob (s.setQueue t true k q) t true k x)

/-- Discard the tasks that p selects, wherever they wait (07 R153, 08 R168, 22 R391). -/
def dropTasks (s : State) (p : Task → Bool) : State :=
  { s with waits := [], queues := s.queues.filterMap (fun e =>
      let q := e.2.filter fun x => !p x
      if q.isEmpty then none else some (e.1, q))
           waitq := (s.waitq.filter fun w => !p w.task).map fun w => if w.retry.isNone then { w with retry := some s.now } else w }

/-- The rank context in a formed task (R400). -/
def formTask (s : State) (core : Nat) (b : Block) (kind length origin : Nat) (body : Body) : Task × State :=
  let (id, s) := s.fresh
  ({ id := id, kind := kind, cls := b.cls, tenant := b.tenant, flow := b.flow, length := length, deadline := b.deadline
     user0 := b.user0.toNat, user1 := b.user1.toNat, origin := origin, fn := b.fn
     secure := s.blockSecure core b, body := body
     staged := match body with
       | .tile t => (match t.kind with | .wload _ => false | _ => true)
       | .packet _ => true
       | _ => false }, s)

/-! ### Rank programs (R411 to R415) -/

/-- A field of a task (R400). -/
def taskField (x : Task) (f : Nat) : Nat :=
  match f with
  | 0 => x.kind
  | 1 => x.cls % 256
  | 2 => x.tenant % 4096
  | 3 => x.flow
  | 4 => x.length
  | 5 => x.stCount
  | 6 => x.deadline % 2 ^ 32
  | 7 => x.deadline / 2 ^ 32
  | 8 => x.user0 % 2 ^ 32
  | 9 => x.user0 / 2 ^ 32
  | 10 => x.user1 % 2 ^ 32
  | 11 => x.user1 / 2 ^ 32
  | 12 => x.origin % 512 + 2 ^ 16 * (x.fn % 128)
  | 13 => x.rank
  | _ => 0

def RankJob.q' (j : RankJob) (r : BitVec 4) : Word := smGetD j.q 0 r.toNat
def RankJob.setQ (j : RankJob) (r : BitVec 4) (v : Word) : RankJob := { j with q := smSetD j.q 0 r.toNat v }

/-- Flows of the job's node; a leaf has none. -/
def flowCount (s : State) (j : RankJob) : Nat := if j.leaf then 0 else fld (s.reg (nodeReg j.tower j.target 3)) 24 16
def flowAt (s : State) (j : RankJob) (i w : Nat) : Nat :=
  flowReg j.tower (fld (s.reg (nodeReg j.tower j.target 3)) 14 0 + i) w

/-- A job's stores take effect (R411). -/
def commitJob (s : State) (j : RankJob) : State :=
  let s := j.stn.foldl (fun s p => s.setReg (stateReg j.tower j.leaf j.target p.1) p.2) s
  j.stf.foldl (fun s p => s.setReg p.1 p.2) s

/-- The running program ends: with a rank, or refused. -/
def finishJob (s : State) (j : RankJob) (r : Option Nat) : State :=
  let s := { s with jobs := s.jobs.drop 1 }
  match r, j.fin with
  | _, .pop => commitJob s j
  | some r, fin => pushDone (commitJob s j) j.tower j.leaf j.target j.task r fin
  | none, fin => pushFailed s j.tower j.leaf j.target j.task false fin

/-- A program that reaches a word that is no instruction, or its end without an EMIT: possible only where
its descriptor was disabled and its words rewritten. The rank is open (log 12). -/
def jobRunaway (s : State) (j : RankJob) : State :=
  let (v, s) := s.freeVal
  finishJob s { j with stn := [], stf := [] } (some (v % 65536))

/-- The instruction the running program executes next. -/
def jobInstr (s : State) (j : RankJob) : Option Instr :=
  if j.left = 0 ∨ 4096 ≤ j.pc then none else decodeRank (s.regN (progReg j.tower j.pc))

/-- Run a rank instruction on the job in progress, which moves to its next word. -/
def onJob (f : RankJob → State → RankJob) (s : State) : Res :=
  match s.jobs with
  | [] => .fault .noRankJob
  | j :: js => .next { s with jobs := { f j s with pc := j.pc + 1, left := j.left - 1 } :: js }

def rank2 (d a b : Reg4) (f : Word → Word → Word) (s : State) : Res :=
  onJob (fun j _ => j.setQ d (f (j.q' a) (j.q' b))) s

def lessW (sg : Bool) (x y : Word) : Bool := if sg then x.slt y else x.ult y

def execRankLdt (d : Reg4) (f : BitVec 4) (s : State) : Res :=
  onJob (fun j _ => j.setQ d (BitVec.ofNat 32 (taskField j.task f.toNat))) s
def execRankLdn (d : Reg4) (w : BitVec 3) (s : State) : Res :=
  onJob (fun j s => j.setQ d (match smGet? j.stn w.toNat with
    | some v => v
    | none => s.reg (stateReg j.tower j.leaf j.target w.toNat))) s
def execRankLdf (d a : Reg4) (w : BitVec 2) (s : State) : Res :=
  onJob (fun j s =>
    let i := fld (j.q' a) 7 0
    j.setQ d (if i < flowCount s j then
      match smGet? j.stf (flowAt s j i w.toNat) with
      | some v => v
      | none => s.reg (flowAt s j i w.toNat)
    else 0)) s
def execRankStn (a : Reg4) (w : BitVec 3) (s : State) : Res :=
  onJob (fun j _ => { j with stn := smPut j.stn w.toNat (j.q' a) }) s
def execRankStf (a b : Reg4) (w : BitVec 2) (s : State) : Res :=
  onJob (fun j s =>
    let i := fld (j.q' a) 7 0
    if i < flowCount s j then { j with stf := smPut j.stf (flowAt s j i w.toNat) (j.q' b) } else j) s
def execRankAdd (d a b : Reg4) (s : State) : Res := rank2 d a b (· + ·) s
def execRankAddi (d a : Reg4) (i : BitVec 15) (s : State) : Res :=
  onJob (fun j _ => j.setQ d (j.q' a + BitVec.ofInt 32 (sextN 15 i.toNat))) s
def execRankSub (d a b : Reg4) (s : State) : Res := rank2 d a b (· - ·) s
def execRankMul (d a b : Reg4) (s : State) : Res := rank2 d a b (· * ·) s
def execRankShl (d a : Reg4) (n : BitVec 5) (s : State) : Res := onJob (fun j _ => j.setQ d (j.q' a <<< n.toNat)) s
def execRankShr (d a : Reg4) (n : BitVec 5) (s : State) : Res := onJob (fun j _ => j.setQ d (j.q' a >>> n.toNat)) s
def execRankMin (d a b : Reg4) (sg : Bool) (s : State) : Res := rank2 d a b (fun x y => if lessW sg y x then y else x) s
def execRankMax (d a b : Reg4) (sg : Bool) (s : State) : Res := rank2 d a b (fun x y => if lessW sg x y then y else x) s
def execRankAnd (d a b : Reg4) (s : State) : Res := rank2 d a b (· &&& ·) s
def execRankOr (d a b : Reg4) (s : State) : Res := rank2 d a b (· ||| ·) s
def execRankCmplt (d a b : Reg4) (sg : Bool) (s : State) : Res :=
  rank2 d a b (fun x y => if lessW sg x y then 1 else 0) s
def execRankSel (d a b c : Reg4) (s : State) : Res :=
  onJob (fun j _ => j.setQ d (if j.q' c ≠ 0 then j.q' a else j.q' b)) s
def execRankNow (d : Reg4) (sel : BitVec 2) (s : State) : Res :=
  onJob (fun j _ => j.setQ d (BitVec.ofNat 32 (if sel = 0 then j.nowNs else if sel = 1 then j.nowNs / 2 ^ 32 else j.nowClk))) s
def execRankEmit (a : Reg4) (s : State) : Res :=
  match s.jobs with
  | [] => .fault .noRankJob
  | j :: _ => .next (finishJob s j (some (fld (j.q' a) 15 0)))
def execRankRefuse (a : Reg4) (s : State) : Res :=
  match s.jobs with
  | [] => .fault .noRankJob
  | j :: js =>
    if j.q' a ≠ 0 then .next (finishJob s j none)
    else .next { s with jobs := { j with pc := j.pc + 1, left := j.left - 1 } :: js }

/-! ### Offers and retries (R403, R404) -/

/-- The head of a node that is not already offered. -/
def offerReady (s : State) (t n : Nat) : Option Task :=
  match s.queue t false n with
  | [] => none
  | x :: _ => if s.waitq.any fun w => w.tower == t && w.fin == .offer n && w.task.id == x.id then none else some x

/-- NODE_OFFER. -/
def execNodeOffer (tower node : Nat) (s : State) : Res :=
  match offerReady s tower node with
  | none => .next s
  | some x =>
    let d := s.reg (nodeReg tower node 0)
    .next (startPush s tower (d.getLsbD 10) (fld d 9 0) x (.offer node))

/-! ### Descriptors (R414, R416 to R419) -/

/-- The words of a program up to its first EMIT; none where it is rejected (R414). -/
def progLenFrom (s : State) (t : Nat) (leaf : Bool) : Nat → Nat → Nat → Option Nat
  | 0, _, _ => none
  | n + 1, pc, k =>
    if 4096 ≤ pc then none
    else match decodeRank (s.regN (progReg t pc)) with
      | none => none
      | some (.rankEmit _) => some (k + 1)
      | some (.rankLdf _ _ _) | some (.rankStf _ _ _) => if leaf then none else progLenFrom s t leaf n (pc + 1) (k + 1)
      | some _ => progLenFrom s t leaf n (pc + 1) (k + 1)
def progLen (s : State) (t : Nat) (leaf : Bool) (start : Nat) : Option Nat := progLenFrom s t leaf 32 start 0

/-- The starts of the programs a descriptor names. -/
def progStarts (d : Word) : List Nat :=
  (if d.getLsbD 31 then [fld d 27 16] else []) ++ (if d.getLsbD 15 then [fld d 11 0] else [])

/-- The leaf a chain of child fields ends at, within the nodes left. -/
def chainLeaf (s : State) (t : Nat) : Nat → Nat → Option Nat
  | 0, _ => none
  | fuel + 1, n =>
    let d := s.reg (nodeReg t n 0)
    if d.getLsbD 10 then some (fld d 9 0) else if fld d 9 0 < 512 then chainLeaf s t fuel (fld d 9 0) else none

/-- Does every child along the chain exist? -/
def chainExists (s : State) (t : Nat) : Nat → Nat → Bool
  | 0, _ => true
  | fuel + 1, n =>
    let d := s.reg (nodeReg t n 0)
    let c := fld d 9 0
    if d.getLsbD 10 then decide (c ≤ 391) && c != 7 else decide (c < 512) && chainExists s t fuel c

/-- Error codes are those of the tree status; 0 where the descriptor passes. -/
def nodeCheck (s : State) (t n : Nat) : Nat :=
  let f := fld (s.reg (nodeReg t n 3)) 24 16
  let base := fld (s.reg (nodeReg t n 3)) 14 0
  let lim := fld (s.reg (nodeReg t n 1)) 16 0
  if !chainExists s t 8 n then 1
  else if (chainLeaf s t 8 n).isNone then 2
  else if (progStarts (s.reg (nodeReg t n 2))).any (fun p => (progLen s t false p).isNone) then 3
  else if lim = 0 ∨ 65536 < lim then 4
  else if 256 < f ∨ 32768 < base + f ∨ (List.range 512).any (fun m =>
    m != n && descOn s t false m &&
      (let g := fld (s.reg (nodeReg t m 3)) 24 16
       let gb := fld (s.reg (nodeReg t m 3)) 14 0
       decide (0 < f) && decide (0 < g) && decide (base < gb + g) && decide (gb < base + f))) then 5
  else 0

def leafCheck (s : State) (t k : Nat) : Nat :=
  let w := fld (s.reg (leafReg t k 0)) 19 16
  let lim := fld (s.reg (leafReg t k 0)) 8 0
  if k = 7 then 1
  else if 8 ≤ k ∧ (!s.isCompute (leafCore t k) || s.fenced (leafCore t k)) then 8
  else if k ≠ 0 ∧ (List.range 8).any (fun c =>
    let m := s.reg (leafReg t k (8 + c))
    m.getLsbD 31 && !(descOn s t false (fld m 8 0) && chainLeaf s t 8 (fld m 8 0) == some k)) then 1
  else if (progStarts (s.reg (leafReg t k 2))).any (fun p => (progLen s t true p).isNone) then 3
  else if lim = 0 ∨ leafCap k < lim ∨ (if k = 0 then w = 0 ∨ 8 < w else w ≠ 0) then 4
  else 0

def treeErr (s : State) (t code : Nat) (leaf : Bool) (k : Nat) : State :=
  s.setReg (treeStatus t) (BitVec.ofNat 32 (code + (if leaf then 256 else 0) + 2 ^ 16 * k))

/-- The writable bits of a descriptor word other than en. -/
def descMask (leaf : Bool) (k w : Nat) : Word :=
  match w with
  | 0 => if !leaf then 0x000007FF else if isEgress k then 0x000F01FF else 0x1F0F01FF
  | 1 => if leaf then 0x0000FFFF else 0x0001FFFF
  | 2 => 0x8FFF8FFF
  | 3 => if leaf then 0 else 0x01FF7FFF
  | 4 => 0x0000FFFF
  | _ => if leaf && decide (8 ≤ w) && k != 0 then 0x800001FF else 0

/-- A write of word w of a node's or leaf's descriptor (R419). The words of the reserved leaf 7 hold what is written, and its
enable fails with error 1: the model's choice (log 7). -/
def writeDesc (s : State) (t : Nat) (leaf : Bool) (k w : Nat) (v : Word) : State :=
  let off := descReg t leaf k w
  let m := descMask leaf k w
  let old := s.reg off
  let change := decide ((v &&& m) ≠ (old &&& m))
  let en := descOn s t leaf k
  if en then
    let s := if change then treeErr s t 6 leaf k else s
    if w = 0 ∧ !v.getLsbD 31 then s.setReg off (old &&& 0x7FFFFFFF) else s
  else
    let s := s.setReg off ((old &&& ~~~m) ||| (v &&& m))
    if w = 0 ∧ v.getLsbD 31 then
      let e := if leaf then leafCheck s t k else nodeCheck s t k
      if e = 0 then freed (s.setReg off (s.reg off ||| 0x80000000)) t leaf k else treeErr s t e leaf k
    else s

/-- NODE_ENABLE: a write of word 0 of a node. -/
def execNodeEnable (tower node : Nat) (val : Word) (s : State) : Res :=
  if tower < 2 ∧ node < 512 then .next (writeDesc s tower false node 0 val) else .next s

/-- LEAF_ENABLE: a write of word 0 of a leaf. -/
def execLeafEnable (tower leaf : Nat) (val : Word) (s : State) : Res :=
  if tower < 2 ∧ leaf ≤ 391 then .next (writeDesc s tower true leaf 0 val) else .next s

/-- Is a program store word named by an enabled descriptor (R419)? -/
def progInUse (s : State) (t j : Nat) : Option (Bool × Nat) :=
  let uses (leaf : Bool) (k : Nat) : Bool :=
    descOn s t leaf k && (progStarts (s.reg (descReg t leaf k 2))).any fun p =>
      decide (p ≤ j) && decide (j < p + (progLen s t leaf p).getD 0)
  match (List.range 512).find? (uses false) with
  | some n => some (false, n)
  | none => ((List.range 392).find? (uses true)).map fun k => (true, k)

/-- The enabled owner of a flow store entry. -/
def flowOwner (s : State) (t e : Nat) : Option Nat :=
  (List.range 512).find? fun n =>
    descOn s t false n &&
      (let d := s.reg (nodeReg t n 3)
       decide (fld d 14 0 ≤ e) && decide (e < fld d 14 0 + fld d 24 16))

/-- The closing of a disabled leaf (28 R466, 30 R482): new pushes are not taken. -/
def disableLeaf (s : State) (t k : Nat) : State := s.setReg (leafReg t k 0) (s.reg (leafReg t k 0) &&& 0x7FFFFFFF)

end Sys2Proof.Machine
end

