-- ==== Sys2Proof/Machine/Mem.lean ====
section
/-!
DEFINITION. The memory instructions (15 R298 to R318): addresses, checks and translation at issue, the
requests for fabric pages, and the performing of accesses by RESULT_LAND and STORE_PERFORM.
-/
namespace Sys2Proof.Machine

/-! ### Addresses (11 R221, 04 R75) -/

def memAddr (x : Z1) (glob : Bool) (c : Ctx) (s : State) (l : Nat) : Nat :=
  match x.ext with
  | .mem m =>
    let base := if m.baseP then (if glob then c.regN s m.base.toNat 2 l else c.reg s m.base.toNat l) else 0
    let idx : Int := if m.idxP then sextN 32 (c.reg s m.index.toNat l) * (2 ^ m.scale.toNat : Nat) else 0
    truncN (if glob then 64 else 32) ((base : Int) + idx + sextN 32 m.off.toNat)
  | _ => 0

/-- The lanes of E with their addresses. -/
def laneAddrs (x : Z1) (glob : Bool) (c : Ctx) (s : State) : List (Nat × Nat) :=
  (maskLanes c.e).map fun l => (l, memAddr x glob c s l)

def lanesOf {α : Type} (l : List (Nat × α)) : Mask := l.foldl (fun m p => m ||| laneBit p.1) 0

/-! ### Orderings with no access (R304, 05 R107) and fences (R315) -/

/-- Put an ordering on every member and let it complete at once where it can. -/
def fenceAll (c : Ctx) (s : State) (f : FenceRec) : State :=
  let s := c.members.foldl (fun s p => s.updWarp c.core p.1 fun w => { w with fences := w.fences ++ [{ f with upTo := s.nextId }] }) s
  c.members.foldl (fun s p => settleFence s c.core p.1) s

/-- A release awaits the earlier accesses and writes back; an acquire invalidates (05 R101). -/
def ordering (acq rel : Bool) (scope : Nat) : FenceRec := { waits := rel, wb := rel, inv := acq, scope := scope, upTo := 0 }

/-- The ordering of an access instruction with E empty, at system scope (05 R100). -/
def orderOnly (acq rel : Bool) (c : Ctx) (s : State) : State :=
  if acq || rel then fenceAll c s (ordering acq rel 3) else s

/-- FENCE of any kind awaits the earlier loads, stores and atomics; of device scope or wider it writes the L1 back
and self-invalidates it (15 R315, 04 R83). The total order of .sc is that of the steps (05 R104). -/
def execFence (w : Z1) (s : State) : Res :=
  issue .fence w (fun c s => .done (fenceAll c s { waits := true, wb := true, inv := true, scope := fld w.mod 3 2, upTo := 0 })) s

/-! ### Remote requests (04 R91, 08 R181, R182, 15 R318; 27 R457) -/

def State.homePort (s : State) (peer : Nat) : Nat := fld (s.reg (peerReg peer 0)) 19 16
/-- The bytes the peer's window holds (27 R451). -/
def peerLimit (s : State) (peer : Nat) : Nat := s.regN (peerReg peer 1) * 2 ^ 16
def tLostClk (s : State) : Nat := clkOfUs (s.regN (timeReg 0))

/-- Send a request through the home port's egress leaf. -/
def sendRemote (s : State) (core : Nat) (b : Block) (peer : Nat) (req : RemoteReq) (who : RemWho)
    (rels after : List (Nat × Nat)) (share length : Nat) : Nat × State :=
  let port := s.homePort peer
  let (tag, s) := s.fresh
  let (t, s) := formTask s core b 3 length 0x1FF (.packet (if req.len = 0 then .atomReq tag else .readReq tag))
  let r : RemOut := { peer := peer, port := port, req := { req with tag := tag }, core := core, who := who
                      task := t, rels := rels, share := share, after := after }
  (tag, pushFormed { s with remote := smPut s.remote tag r } (port / 6) (egressLeaf port) t)

/-! ### Issue -/

/-- Lanes with a known outcome; none while a translation is still being found. -/
def xlateLanes (s : State) (c : Ctx) (kind : Nat) : List (Nat × Nat) → Option (List (Nat × Nat × Xlate))
  | [] => some []
  | (l, a) :: r => match warpXlate s c.core c.b c.w a kind, xlateLanes s c kind r with
    | some x, some t => some ((l, a, x) :: t)
    | _, _ => none

/-- The recorded fault of 09 R185: the first code met by any lane, its sub-kind, its lanes. -/
def firstFault (l : List (Nat × Nat × Xlate)) : Option (Nat × Nat × List (Nat × Nat)) :=
  let of (code : Nat) := l.filterMap fun p => match p.2.2 with
    | .bad k sub => if k = code then some (p.1, p.2.1, sub) else none
    | _ => none
  let pick (code : Nat) (d : Option (Nat × Nat × List (Nat × Nat))) :=
    match of code with
    | [] => d
    | q :: r => some (code, if (q :: r).any fun z => z.2.2 == 3 then 3 else q.2.2, (q :: r).map fun z => (z.1, z.2.1))
  pick 0x18 (pick 0x0C (pick 0x0B (pick 0x0A none)))

def goodLanes (l : List (Nat × Nat × Xlate)) : List (Nat × Nat × Attr) :=
  l.filterMap fun p => match p.2.2 with
    | .ok pa a => some (p.1, pa, a)
    | _ => none

/-- A read that is a secure_violation gives zero to its lane as well as faulting (04 R93, 25 R438). -/
def zeroSecure (s : State) (c : Ctx) (id : Nat) (l : List (Nat × Nat × Xlate)) (d n : Nat) : State :=
  l.foldl (fun s p => match p.2.2 with
    | .bad 0x0C _ => landLane s c.core c.members id d c.low p.1 (List.replicate n 0)
    | _ => s) s

/-- Access made by a lane: address, attributes, operands A and B. -/
def laneAcc (p : Nat × Nat × Attr) (va : Nat) (a b : Nat → List Word) : LaneAcc :=
  { lane := p.1, va := va, addr := p.2.1, attr := p.2.2, a := a p.1, b := b p.1 }

/-- The requests of the lanes on fabric pages, whose tags the operation waits for: one packet and one tag for each
lane, a form the manual does not give, though those of one page complete or fail as one part (04 R92; log 40). A release
is sent once the earlier accesses are performed, and each of them after the warps' earlier acquires (05 R113). -/
def remoteLanes (c : Ctx) (s : State) (o : MemOp) (id : Nat) (accs : List LaneAcc) : State :=
  let mine := c.members.map fun p => (p.1, id)
  let rels := if o.rel then mine else []
  accs.foldl (fun s x =>
    let (op, ty) := match o.kind with | .atom k _ => (BitVec.ofNat 3 k, o.ty) | _ => (0#3, Ty.b32)
    let len := if o.kind = .load then o.size else 0
    let req : RemoteReq := { src := c.core, tag := 0, off := x.addr, len := len, op := op, ty := ty
                             a := ofBytes (wordsBytes x.a), b := ofBytes (wordsBytes x.b) }
    let (tag, s) := sendRemote s c.core c.b x.attr.peer req (.lane c.slot id x.lane x.va) rels mine (if o.rel then o.share else 0)
      (if len = 0 then o.size else 0)
    s.updWarp c.core c.slot fun w => { w with ops := w.ops.map fun p => if p.id = id then { p with remote := p.remote ++ [tag] } else p }) s

/-- The operation of which this execution replays lanes (05 R112). -/
def replayed (c : Ctx) : Option MemOp := c.w.ops.find? fun p => p.todo != 0 && p.iaddr == c.addr

/-- An operation of the lanes with a good translation, `bad` being those that fault: a new one, or, at a replay, the
lanes that join the one in progress, whose scope widens to that of all its pages (05 R100, R112). -/
def putLanes (c : Ctx) (s : State) (o : MemOp) (accs : List LaneAcc) (share : Nat) (bad : Mask) : State :=
  let here := accs.filter fun x => !x.attr.fabric
  let (id, s) := match replayed c with
    | some p =>
      (p.id, putOp s c.core c.slot { p with accs := p.accs ++ here, todo := bad, share := max p.share share
                                            relDone := p.relDone && decide (share ≤ p.share) })
    | none => (s.nextId, pushOp c s { o with accs := here, share := share, todo := bad })
  match o.kind with
  | .cctl _ => s
  | _ => remoteLanes c s { o with share := share } id (accs.filter fun x => x.attr.fabric)

/-- The lanes of a plain load or atomic whose translation is known are performed while walks for the others go on, and the
warp waits to attempt the rest (25 R432, 26 R444; log 47). -/
def earlyLanes (o : MemOp) (kind : Nat) (addrs : List (Nat × Nat)) (a b : Nat → List Word) (more : Attr → Nat → Bool)
    (c : Ctx) (s : State) : State :=
  let good := (addrs.filterMap fun p => match warpXlate s c.core c.b c.w p.2 kind with
    | some (.ok pa at') => if more at' pa then none else some (p, (p.1, pa, at'))
    | _ => none)
  if (kind != 0 && kind != 3) || o.acq || o.rel || o.kind == .cctl 0 || !o.isLoad || c.scope == .set || c.scope == .block || !c.w.inRun || good.isEmpty then s
  else
    let bad := maskOf fun l => inMask c.e l && !good.any fun q => q.1.1 == l
    let s := putLanes c s o (good.map fun q => laneAcc q.2 q.1.2 a b) (good.foldl (fun m q => max m q.2.2.2.share) 0) bad
    s.updWarp c.core c.slot fun w => { w with replay := some (bad, [(c.slot, c.e0)]) }

/-- Issue an operation over the lanes with a good translation, then take the fault of the others. `more`
gives a further fault a lane's memory makes. -/
def memIssue (o : MemOp) (kind : Nat) (addrs : List (Nat × Nat)) (a b : Nat → List Word)
    (more : Attr → Nat → Bool) (c : Ctx) (s : State) : Act :=
  match addrs.filter fun p => p.2 % o.size != 0 with
  | p :: r => .fault 0x09 0 (lanesOf (p :: r)) 0 (p :: r) s
  | [] => match xlateLanes s c kind addrs with
    | none => .wait (startWalk (earlyLanes o kind addrs a b more c s) c.core c.slot c.b kind
        ((addrs.filter fun p => (warpXlate s c.core c.b c.w p.2 kind).isNone).map (·.2)))
    | some l =>
      let l := l.map fun p => match p.2.2 with
        | .ok pa at' => if more at' pa then (p.1, p.2.1, Xlate.bad 0x0B 0) else p
        | _ => p
      match firstFault l with
      | some (0x18, sub, q) => .fault 0x18 sub (lanesOf q) 0 q s
      | f =>
        let good := goodLanes l
        let share := good.foldl (fun (m : Nat) (p : Nat × Nat × Attr) => max m p.2.2.share) 0
        let va (n : Nat) : Nat := ((addrs.find? fun p => p.1 == n).map (·.2)).getD 0
        let bad := lanesOf (l.filter fun p => !good.any fun q => q.1 == p.1)
        let id := ((replayed c).map (·.id)).getD s.nextId
        let s := putLanes c s o (good.map fun p => laneAcc p (va p.1) a b) share bad
        match f with
        | none => .done s
        | some (code, sub, q) =>
          let s := match o.dst with | some d => zeroSecure s c id l d o.nreg | none => s
          .fault code sub (lanesOf q) 0 q s

/-- Does a lane read a scratchpad line with an uncorrected error: a load, or an atomic with a result (15 R303)? -/
def scrBadLane (o : MemOp) (b : Block) (a : Nat) : Bool := o.isLoad && (smGet? b.scrBad (a / 128)).isSome

/-- Issue an operation on scratchpad (R299). A lane that reads poison performs nothing and takes a precise fault,
and the other lanes complete (R303, 09 R186). -/
def scrIssue (o : MemOp) (addrs : List (Nat × Nat)) (a b : Nat → List Word) (c : Ctx) (s : State) : Act :=
  match addrs.filter fun p => p.2 % o.size != 0 with
  | p :: r => .fault 0x09 0 (lanesOf (p :: r)) 0 (p :: r) s
  | [] => match addrs.filter fun p => decide (c.b.scrSize < p.2 + o.size) with
    | p :: r => .fault 0x0D 0 (lanesOf (p :: r)) 0 ((p :: r).map fun q => (q.1, max q.2 c.b.scrSize)) s
    | [] =>
      let bad := addrs.filter fun p => scrBadLane o c.b p.2
      let good := addrs.filter fun p => !scrBadLane o c.b p.2
      let s := pushOp c s { o with accs := good.map (fun p => laneAcc (p.1, p.2, {}) p.2 a b), todo := lanesOf bad }
      if bad.isEmpty then .done s else .fault 0x17 0 (lanesOf bad) 0 bad s

/-- Words of a data register of a lane. -/
def dataWords (c : Ctx) (s : State) (r n l : Nat) : List Word := (List.range n).map fun k => BitVec.ofNat 32 (c.reg s (r + k) l)

def noWords (_ : Nat) : List Word := []
def noMore (_ : Attr) (_ : Nat) : Bool := false

def loadOp (x : Z1) (sp : Space) : MemOp :=
  { op0 .load with space := sp, ty := x.ty, size := accBytes x, dst := some x.d.toNat, nreg := accWords x
                   acq := sp != .const && fld x.mod 2 2 = 1, ev := sp == .glob && fld x.mod 3 3 = 1 }
def storeOp (x : Z1) (sp : Space) : MemOp :=
  { op0 .store with space := sp, ty := x.ty, size := accBytes x, isLoad := false
                    rel := fld x.mod 2 2 = 1, ev := sp == .glob && fld x.mod 3 3 = 1 }

def bodyLd (x : Z1) (c : Ctx) (s : State) : Act :=
  let o := loadOp x .glob
  if c.e = 0 then .done (orderOnly o.acq false c s)
  else memIssue o 0 (laneAddrs x true c s) noWords noWords noMore c s
def bodySt (x : Z1) (c : Ctx) (s : State) : Act :=
  let o := storeOp x .glob
  if c.e = 0 then .done (orderOnly false o.rel c s)
  else memIssue o 1 (laneAddrs x true c s) (dataWords c s x.a.toNat (accWords x)) noWords noMore c s
def bodyLds (x : Z1) (c : Ctx) (s : State) : Act :=
  let o := loadOp x .scr
  if c.e = 0 then .done (orderOnly o.acq false c s) else scrIssue o (laneAddrs x false c s) noWords noWords c s
def bodySts (x : Z1) (c : Ctx) (s : State) : Act :=
  let o := storeOp x .scr
  if c.e = 0 then .done (orderOnly false o.rel c s)
  else scrIssue o (laneAddrs x false c s) (dataWords c s x.a.toNat (accWords x)) noWords c s

/-- LDK reads the constant area through the launch's mapping; beyond its size is permission (04 R81). The
record holds global addresses, of the first byte beyond the size for such a lane (09 R187). A constant area on a fabric page is refused as 0x0B
(log 51). -/
def bodyLdk (x : Z1) (c : Ctx) (s : State) : Act :=
  let o := loadOp x .const
  let offs := laneAddrs x false c s
  let va (n : Nat) : Nat := (c.b.constAddr + n) % 2 ^ 64
  if c.e = 0 then .done s
  else match offs.filter fun p => p.2 % o.size != 0 with
    | p :: r => .fault 0x09 0 (lanesOf (p :: r)) 0 ((p :: r).map fun q => (q.1, va q.2)) s
    | [] =>
      let inside := offs.filter fun p => decide (p.2 + o.size ≤ c.b.constSize)
      let vas := inside.map fun p => (p.1, va p.2)
      match xlateLanes s c 0 vas with
      | none => .wait (startWalk (earlyLanes o 0 vas noWords noWords (fun a _ => a.fabric) c s) c.core c.slot c.b 0
          ((vas.filter fun p => (warpXlate s c.core c.b c.w p.2 0).isNone).map (·.2)))
      | some l =>
        let l := offs.map fun p => match l.find? fun q => q.1 == p.1 with
          | some (_, _, .ok pa a) => (p.1, va p.2, if a.fabric then Xlate.bad 0x0B 0 else .ok pa a)
          | some (_, _, r) => (p.1, va p.2, r)
          | none => (p.1, va (max p.2 c.b.constSize), .bad 0x0B 0)
        let good := goodLanes l
        let id := ((replayed c).map (·.id)).getD s.nextId
        let bad := lanesOf (l.filter fun p => !good.any fun q => q.1 == p.1)
        let accs := good.map fun p => laneAcc p (((offs.find? fun q => q.1 == p.1).map (fun q => va q.2)).getD 0) noWords noWords
        let s := putLanes c s o accs 0 bad
        match firstFault l with
        | none => .done s
        | some (code, sub, q) => .fault code sub (lanesOf q) 0 q (zeroSecure s c id l x.d.toNat o.nreg)

def atomOp (x : Z1) (sp : Space) : MemOp :=
  let res : Bool := fld x.mod 5 5 = 1
  { op0 (.atom (fld x.mod 2 0) res) with
    space := sp, ty := x.ty, size := x.ty.width / 8, dst := if res then some x.d.toNat else none
    nreg := if res then words x.ty else 0, isLoad := res
    acq := fld x.mod 3 3 = 1, rel := fld x.mod 4 4 = 1 }

/-- Atomics on host memory of allocation none are those of PCI Express (R312). -/
def hostAtomBad (s : State) (op : Nat) (t : Ty) (a : Attr) (pa : Nat) : Bool :=
  !a.fabric && s.kind pa == .host && a.alloc == 2 && !((op == 0 && t != .f32) || op == 6 || op == 7)

def bodyAtom (x : Z1) (glob : Bool) (c : Ctx) (s : State) : Act :=
  let o := atomOp x (if glob then .glob else .scr)
  let n := words x.ty
  let a := dataWords c s x.a.toNat n
  let b := if fld x.mod 2 0 = 7 then dataWords c s x.b.toNat n else noWords
  if c.e = 0 then .done (orderOnly o.acq o.rel c s)
  else if glob then memIssue o 3 (laneAddrs x true c s) a b (hostAtomBad s (fld x.mod 2 0) x.ty) c s
  else scrIssue o (laneAddrs x false c s) a b c s

def bodyBankop (x : Z1) (c : Ctx) (s : State) : Act :=
  let k := fld x.mod 2 0
  let o := { op0 (.bank k) with space := .glob, ty := x.ty, size := if k = 3 then 8 else 4, isLoad := false
                                rel := fld x.mod 3 3 = 1 }
  if c.e = 0 then .done (orderOnly false o.rel c s)
  else memIssue o 4 (laneAddrs x true c s) (dataWords c s x.a.toNat (if k = 3 then 2 else 1))
    (if k = 4 then dataWords c s x.b.toNat 1 else noWords) (fun _ pa => !(s.kind pa).isBank) c s

/-- PREF (R316): a hint; the line enters its L2 home, and with .l1 the L1 where it may. -/
def bodyPref (x : Z1) (c : Ctx) (s : State) : Act :=
  .done ((laneAddrs x true c s).foldl (fun s p => match warpXlate s c.core c.b c.w p.2 0 with
    | some (.ok pa a) =>
      if a.fabric || (s.kind pa).isBank || a.alloc == 2 || s.poisoned pa || lineHeld s none (lineOf pa) then s
      else
        let s := s.l2Use pa a.alloc a.prio false
        if fld x.mod 0 0 = 1 && l1Allowed s pa a then l1Fill s c.core (lineOf pa) a.prio else s
    | _ => s) s)

/-- CCTL (R317). The line operations check as a load does; .wbl1 and .icinv ignore E, and act for the issuing warp
though no lane is in E; at set and block scope they perform nothing where no member has lanes (03 R67). -/
def bodyCctl (x : Z1) (c : Ctx) (s : State) : Act :=
  let k := fld x.mod 2 0
  let o := { op0 (.cctl k) with isLoad := false }
  let c' := { c with members := c.members.map fun p => (p.1, if p.2 = 0 ∧ c.e ≠ 0 then 0 else fullMask) }
  let whole (sp : Space) (n : Nat) : Act :=
    .done (pushOp c' s { o with space := sp, size := n, accs := [{ lane := c.low, addr := 0, attr := {}, a := [], b := [] }] })
  if c.e = 0 ∧ (c.scope = .set ∨ c.scope = .block) then .done s
  else if k = 3 then whole .glob (2 ^ 64)
  else if k = 5 then whole .none 0
  else if c.e = 0 then .done s
  else
    let lines := (laneAddrs x true c s).map fun p => (p.1, p.2 / 128 * 128)
    let whole (t : State) : State :=
      t.updWarp c.core c.slot fun w => { w with ops := w.ops.map fun p => if p.id = s.nextId then { p with size := 128 } else p }
    match memIssue { o with space := .glob, size := 1 } 0 lines noWords noWords noMore c s with
    | .done t => .done (whole t)
    | .fault code sub m tr q t => .fault code sub m tr q (whole t)
    | r => r

def execLd (w : Z1) (s : State) : Res := issue .ld w (bodyLd w) s
def execSt (w : Z1) (s : State) : Res := issue .st w (bodySt w) s
def execLds (w : Z1) (s : State) : Res := issue .lds w (bodyLds w) s
def execSts (w : Z1) (s : State) : Res := issue .sts w (bodySts w) s
def execLdk (w : Z1) (s : State) : Res := issue .ldk w (bodyLdk w) s
def execAtom (w : Z1) (s : State) : Res := issue .atom w (bodyAtom w true) s
def execAtoms (w : Z1) (s : State) : Res := issue .atoms w (bodyAtom w false) s
def execBankop (w : Z1) (s : State) : Res := issue .bankop w (bodyBankop w) s
def execPref (w : Z1) (s : State) : Res := issue .pref w (bodyPref w) s
def execCctl (w : Z1) (s : State) : Res := issue .cctl w (bodyCctl w) s

/-! ### Performing (R309 to R314) -/

/-- The new value of an atomic; none where a .cas fails (R309, R310). -/
def atomNew (op : Nat) (t : Ty) (old a b : Nat) : Option Nat :=
  let x := rdT t old
  let y := rdT t a
  let w := 2 ^ t.width
  match op with
  | 0 => some (if t = .f32 then (addF fmt32 0 old a).1 else truncN t.width (x + y))
  | 1 => some (if t = .f32 then (minmaxF fmt32 false old a).1 else truncN t.width (min x y))
  | 2 => some (if t = .f32 then (minmaxF fmt32 true old a).1 else truncN t.width (max x y))
  | 3 => some (old &&& a)
  | 4 => some (old ||| a)
  | 5 => some (old ^^^ a)
  | 6 => some (a % w)
  | _ => if old = a % w then some (b % w) else none

/-- How a value ranks for .maxi (R313). -/
def maxiKey (t : Ty) (v : Nat) : Int :=
  if t = .f32 then (keyF fmt32 v : Int) else rdT t v

/-- The new bytes of a bank operation as a number of its size (R313). -/
def bankNew (op : Nat) (t : Ty) (old a b : Nat) : Nat :=
  if op < 3 then (atomNew op t old a 0).getD old
  else if op = 3 then
    let ov := maxiKey t (old % 2 ^ 32)
    let av := maxiKey t (a % 2 ^ 32)
    if ov < av ∨ (ov = av ∧ a / 2 ^ 32 < old / 2 ^ 32) then a else old
  else (fmaF fmt32 0 a old b).1

def scrBytes (b : Block) (a n : Nat) : List Byte := (List.range n).map fun i => smGetD b.scr 0 (a + i)
def scrPut (b : Block) (a : Nat) (bs : List Byte) : Block :=
  { b with scr := bs.zipIdx.foldl (fun m p => smSetD m 0 (a + p.2) p.1) b.scr }

/-- Deliver a lane's result. -/
def giveLane (s : State) (core : Nat) (o : MemOp) (lane : Nat) (ws : List Word) : State :=
  match o.dst with
  | some d => landLane s core o.members o.id d o.low lane ws
  | none => s

/-- A read, change and write in global memory at the home or bank, with the core's own copy of the line
written home and dropped first (R311, R314). -/
def rmwGlobal (s : State) (core a n : Nat) (at' : Attr) (f : Nat → Option Nat) : Option Nat × State :=
  let s := dropLine s core (lineOf a)
  if s.poisoned a then (none, s)
  else
    let old := s.memNat a n
    match f old with
    | some v => (some old, s.homePut a (toBytes n v) at')
    | none => (some old, s.l2Use a at'.alloc at'.prio false)

/-- CCTL's effect on one line, or on everything (R317). -/
def cctlDo (s : State) (core k : Nat) (x : LaneAcc) : State :=
  let line := lineOf x.addr
  if k = 3 then (l1WriteBack s core).updCore core fun c => { c with l1 := [] }
  else if k = 5 then { s with cores := s.cores.map fun e => (e.1, { e.2 with icache := [] }) }
  else if x.attr.fabric || (s.kind x.addr).isBank || x.attr.alloc == 2 then s
  else match k with
    | 0 => wbLine s core line
    | 1 => match l1Get s core line with
      | some y => if y.dirty = 0 then l1Del s core line else l1Put s core line { y with valid := y.dirty }
      | none => s
    | 2 => dropLine s core line
    | _ => s.l2Clean line

/-- Bytes of a line of the constant area through the core's constant cache of 128 lines (04 R81), which a launch
keys by its id so that no later launch meets its lines. While a line stays there an LDK returns its old bytes; where
the manual allows the old or the new ones this is the model's choice (log 39). -/
def constRead (s : State) (core launch a n : Nat) (at' : Attr) : List Byte × State :=
  let key := launch * 2 ^ 64 + lineOf a
  let k := (s.core core).kcache
  let x : KLine := match smGet? k key with
    | some x => { x with used := s.now }
    | none => { data := BitVec.ofNat 1024 (s.memNat (128 * lineOf a) 128), used := s.now }
  let s := if (smGet? k key).isSome then s else s.l2Use a at'.alloc at'.prio false
  let oldest := k.foldl (fun (m : Option (Nat × KLine)) e => match m with
    | some q => if e.2.used < q.2.used then some e else m
    | none => some e) none
  let k := if (smGet? k key).isSome || decide (k.length < 128) then k else match oldest with | some e => smDel k e.1 | none => k
  ((List.range n).map fun i => lineByte x.data (a % 128 + i), s.updCore core fun c => { c with kcache := smPut k key x })

/-- Is an operation earlier than the copy that owns a line, whose release orders it before the copy (05 R110)? -/
def olderThan (s : State) (core : Nat) (o : MemOp) (copy : Nat) : Bool :=
  (s.copies.find? fun c => c.id == copy).any fun c => c.core == core &&
    c.rels.any fun r => decide (o.id < r.2) && o.members.any fun m => m.1 == r.1

/-- Does the access reach a line that a later copy already owns? It is then performed at the home (05 R110). -/
def beforeOwner (s : State) (core : Nat) (o : MemOp) (x : LaneAcc) : Bool :=
  (o.space == .glob || o.space == .const) && (ownedBy s (lineOf x.addr)).any fun w => w.copy.any (olderThan s core o)

/-- Perform one lane's access; it leaves the operation's list. A release has written the L1 back first, and waits
while some of it is held at a home. A device-scope .rel store to a page allocated in the L1 itself stays dirty there
until a release or fence carries it home (04 R94, 05 R99; log 39). -/
def performLane (s : State) (core slot : Nat) (o : MemOp) (x : LaneAcc) : State :=
  let bi := ((s.warp? core slot).map (·.block)).getD 0
  let b := s.block core bi
  let flush := o.kind == .cctl 3
  let started := flush || (o.rel && !o.relDone)
  let s := if started then releaseL1 s core (if flush then 1 else o.share) else s
  if started && (flush || decide (1 ≤ o.share)) && wbWaits s core then putOp s core slot { o with relDone := true } else
  let early := beforeOwner s core o x
  let s := if early && o.kind != .load && o.kind != .store then flushLine s core (lineOf x.addr) else s
  let s := putOp s core slot { o with relDone := true, accs := o.accs.filter fun y => y.lane != x.lane }
  let A := ofBytes (wordsBytes x.a)
  let B := ofBytes (wordsBytes x.b)
  match o.kind with
  | .value => giveLane s core o x.lane x.a
  | .cctl k => cctlDo s core k x
  | .load => match o.space with
    | .scr => giveLane s core o x.lane (loadWords o.ty o.size (scrBytes b x.addr o.size))
    | .const =>
      if s.poisoned x.addr then notePoison s core o x.lane x.va
      else
        let (bs, s) := constRead s core b.launch x.addr o.size x.attr
        giveLane s core o x.lane (loadWords o.ty o.size bs)
    | _ => match loadBytes s core x.addr o.size x.attr (o.acq && decide (1 ≤ o.share)) o.ev with
      | (some bs, s) => giveLane s core o x.lane (loadWords o.ty o.size bs)
      | (none, s) => notePoison s core o x.lane x.va
  | .store =>
    let bs := (wordsBytes x.a).take o.size
    if o.space = .scr then s.updBlock core bi fun b => scrPut b x.addr bs
    else storeBytes s core x.addr bs (if early then { x.attr with alloc := max 1 x.attr.alloc } else x.attr) o.ev
  | .atom op _ =>
    if o.space = .scr then
      let old := ofBytes (scrBytes b x.addr o.size)
      let s := match atomNew op o.ty old A B with
        | some v => s.updBlock core bi fun b => scrPut b x.addr (toBytes o.size v)
        | none => s
      giveLane s core o x.lane (wrT o.ty (rdT o.ty old))
    else match rmwGlobal s core x.addr o.size x.attr (fun old => atomNew op o.ty old A B) with
      | (some old, s) => giveLane s core o x.lane (wrT o.ty (rdT o.ty old))
      | (none, s) => notePoison s core o x.lane x.va
  | .bank op => (rmwGlobal s core x.addr o.size x.attr fun old => some (bankNew op o.ty old A B)).2

def findOp (s : State) (core slot id : Nat) : Option MemOp :=
  (s.warp? core slot).bind fun w => w.ops.find? fun p => p.id == id

/-- Do bytes a core has written back wait at a line's home? -/
def ownWaits (s : State) (core line : Nat) : Bool :=
  (ownedBy s line).any fun w => w.waiters.any fun h => match h with | .write c _ => c == core | _ => false

/-- Does the access wait at its home for a copy that owns the line (04 R86)? One that the copy's own release orders
before it does not. -/
def ownerWait (s : State) (core : Nat) (o : MemOp) (x : LaneAcc) : Bool :=
  (o.space == .glob || o.space == .const) && !x.attr.fabric && lineHeld s none (lineOf x.addr) && !beforeOwner s core o x &&
  (match o.kind with
   | .load => reachesHome s core x.addr o.size x.attr true (o.acq && decide (1 ≤ o.share))
   | .store => reachesHome s core x.addr o.size x.attr false false
   | .atom _ _ | .bank _ => true
   | .cctl k => (k == 0 || k == 2) && ((l1Get s core (lineOf x.addr)).any (·.dirty != 0) || ownWaits s core (lineOf x.addr))
   | _ => false)

/-- One lane of an operation is performed, or joins the accesses that wait for the line's owner. -/
def tryLane (s : State) (core slot id lane : Nat) (owned : Bool) : State :=
  match findOp s core slot id with
  | none => s
  | some o => match o.accs.find? fun x => x.lane == lane with
    | none => s
    | some x =>
      if laneHeld s core slot o x then s
      else if owned && ownerWait s core o x then
        match ownedBy s (lineOf x.addr) with
        | some w => if w.waiters.contains (.lane core slot id lane) then s else addWaiter s (lineOf x.addr) (.lane core slot id lane)
        | none => s
      else performLane s core slot o x

/-- The lanes performed together with a set of lanes: for a load, those of the same address (05 R97). -/
def together (o : MemOp) (m : Mask) : Mask :=
  if o.kind = .load then
    o.accs.foldl (fun a x => if o.accs.any fun y => inMask m y.lane && y.addr == x.addr then a ||| laneBit x.lane else a) m
  else m

/-- An operation with nothing left to perform or to receive is finished. -/
def finishIfDone (s : State) (core slot id : Nat) : State :=
  match findOp s core slot id with
  | some o => if o.accs.isEmpty && o.remote.isEmpty && o.todo == 0 then
      (if o.flags = 0 then completeOp s core slot o
       else completeOp (o.members.foldl (fun s p => if p.2 = 0 then s else s.updWarp core p.1 fun w => { w with xflags := w.xflags ||| o.flags }) s) core slot o)
    else closeMembers s core slot o
  | none => s

/-- The lines that lanes of a store, performed together, write whole (30 R479; log 26). -/
def wholeLines (o : MemOp) (m : Mask) : List Nat :=
  if o.kind ≠ .store then []
  else
    let l := o.accs.filter fun x => inMask m x.lane && !x.attr.fabric
    ((l.map fun x => lineOf x.addr).eraseDups).filter fun n =>
      ((l.filter fun x => lineOf x.addr == n).flatMap fun x => (List.range o.size).map (x.addr % 128 + ·)).eraseDups.length == 128

/-- A line written whole is no longer poisoned, a dirty one in the L1 once it goes home. -/
def cleanLine (core slot : Nat) (o : MemOp) (s : State) (n : Nat) : State :=
  if o.space = .scr then s.updBlock core (((s.warp? core slot).map (·.block)).getD 0) fun b => { b with scrBad := smDel b.scrBad n }
  else if (l1Get s core n).any (·.dirty != 0) then s else s.clearPoison n

/-- Perform lanes of an outstanding operation. -/
def performOp (s : State) (core slot id : Nat) (lanes : Mask) : State :=
  match findOp s core slot id with
  | none => s
  | some o =>
    let whole := wholeLines o (together o lanes)
    let s := (maskLanes (together o lanes)).foldl (fun s l => tryLane s core slot id l true) s
    let left := (findOp s core slot id).elim [] (·.accs)
    let s := (whole.filter fun n => !left.any fun x => lineOf x.addr == n).foldl (cleanLine core slot o) s
    o.members.foldl (fun s p => poisonFault s core p.1) (finishIfDone s core slot id)

/-- The lanes of an operation that can be performed now. -/
def readyLanes (s : State) (core slot : Nat) (o : MemOp) : Mask :=
  lanesOf ((o.accs.filter fun x => !laneHeld s core slot o x &&
    !(ownerWait s core o x && (match ownedBy s (lineOf x.addr) with
      | some w => w.waiters.contains (.lane core slot o.id x.lane)
      | none => false))).map fun x => (x.lane, ()))

/-- RESULT_LAND (02 R38): results of a load, an atomic or a special function are written. -/
def execResultLand (core slot op : Nat) (lanes : Mask) (s : State) : Res :=
  match findOp s core slot op with
  | some o => if o.isLoad && decide (core < 512) then .next (performOp s core slot op lanes) else .next s
  | none => .next s

/-- STORE_PERFORM (04 R94): stores, atomics without result, bank and cache operations are performed. -/
def execStorePerform (core slot op : Nat) (lanes : Mask) (s : State) : Res :=
  match findOp s core slot op with
  | some o => if o.isLoad || decide (512 ≤ core) then .next s else .next (performOp s core slot op lanes)
  | none => .next s

/-! ### Ownership (04 R86, 08 R164) -/

/-- A copy asks for a line: it owns it, or waits behind the owner, in the order of arrival (08 R164). -/
def askLine (s : State) (copy line : Nat) : State :=
  match ownedBy s line with
  | none => { s with owners := smPut s.owners line { copy := some copy, queue := [], waiters := [] } }
  | some w => if w.copy = some copy ∨ w.queue.contains copy then s
      else { s with owners := smPut s.owners line { w with queue := w.queue ++ [copy] } }

def ownsLine (s : State) (copy line : Nat) : Bool := (ownedBy s line).any fun w => w.copy == some copy

/-- The next copy owns a line whose waiting accesses have all been performed (08 R164). -/
def grantLine (s : State) (line : Nat) : State :=
  match ownedBy s line with
  | some w =>
    if w.copy.isSome ∨ s.redo.any (·.1 = line) then s
    else match w.queue with
      | [] => { s with owners := smDel s.owners line, waits := [] }
      | n :: r => { s with owners := smPut s.owners line { copy := some n, queue := r, waiters := [] }, waits := [] }
  | none => s

/-- What waited at a home is done: an access of a lane, bytes an L1 wrote back, or, in a step of its own, what
another agent does. -/
def homeGo (line : Nat) (s : State) : HomeWait → State
  | .lane c sl o l => finishIfDone (tryLane s c sl o l false) c sl o
  | .write c x => settleCore (wbArrive s line x) c
  | .put a bs => s.homeWrite a bs
  | .event i => { s with redo := s.redo ++ [(line, i)] }

/-- A copy releases a line: the accesses that waited are performed in order, then the next copy owns it. -/
def releaseLine (s : State) (copy line : Nat) : State :=
  match ownedBy s line with
  | none => s
  | some w =>
    if w.copy ≠ some copy then { s with owners := smPut s.owners line { w with queue := w.queue.filter (· != copy) } }
    else
      let s := { s with waits := [], owners := smPut s.owners line { w with copy := none, waiters := [] } }
      grantLine (w.waiters.foldl (homeGo line) s) line

end Sys2Proof.Machine
end

