-- ==== Sys2Proof/Machine/Matrix.lean ====
section
/-!
DEFINITION. The matrix engine (07 R139 to R160), its instructions (17 R334 to R346), and the start and
the retirement of tile tasks.
-/
namespace Sys2Proof.Machine

/-! ### Slots -/

/-- Does the block hold the slot (R149)? -/
def holdsSlot (s : State) (c : Ctx) (i : Nat) : Bool :=
  let m := s.mslot c.core i
  m.state == 1 && m.owner == c.bi

/-- A fault over E, naming one address for every lane. -/
def addrFault (code a : Nat) (c : Ctx) (s : State) : Act := .fault code 0 c.e 0 ((maskLanes c.e).map fun l => (l, a)) s
def plainFault (code : Nat) (c : Ctx) (s : State) : Act := .fault code 0 c.e 0 [] s

/-- The members of the issuing set, those that take part with no lane among them (R150). -/
def setMembers (s : State) (c : Ctx) : List (Nat × Mask) :=
  match c.b.setOf c.w.num with
  | none => c.members
  | some (_, r) => c.members ++ (r.members.filterMap c.b.slotOf).filterMap fun sl =>
      if c.members.any (fun p => p.1 == sl) || !(s.warp? c.core sl).any (fun w => w.block == c.bi && r.members.contains w.num) then none
      else some (sl, 0)

/-- Does an earlier task of the slot still wait to be pushed? A later one then waits behind it (R152). -/
def slotWaits (s : State) (core slot : Nat) : Bool :=
  s.waitq.any fun w => w.fin == .formed && (match w.task.body with | .tile t => t.core == core && t.slot == slot | _ => false)

/-- Push a tile task for the issuing set; the instruction waits where it finds no room (R150). -/
def pushTile (c : Ctx) (s : State) (slot length : Nat) (k : TileKind) (rel : Bool) : Act :=
  if !entryRoom s (towerOf c.core) (matrixLeaf c.core) c.b.cls || slotWaits s c.core slot then .wait s
  else
    let t : TileTask := { core := c.core, block := c.bi, set := (c.b.setOf c.w.num).elim 8 (·.1), slot := slot, kind := k
                          members := setMembers s c, eOnce := c.e, iaddr := c.addr
                          rels := if rel then relBounds s c.members else [] }
    let (x, s) := formTask s c.core c.b 1 length c.core (.tile t)
    .done (pushFormed s (towerOf c.core) (matrixLeaf c.core) x)

/-! ### Reservations and status -/

def bodyMxrsv (x : Z1) (c : Ctx) (s : State) : Act :=
  let i := fld x.mod 4 3
  if c.e = 0 then .done s
  else
    let m := s.mslot c.core i
    let ok := m.state == 0 || (m.state == 1 && m.owner == c.bi)
    let s := if m.state = 0 then s.updMslot c.core i fun _ => { ({} : MSlot) with state := 1, owner := c.bi } else s
    .done (c.result s 8 none (fun _ => []) [(fld x.mod 2 0, fun _ => ok)] 0)

def bodyMxrel (x : Z1) (c : Ctx) (s : State) : Act :=
  let i := fld x.mod 1 0
  if !holdsSlot s c i then plainFault 0x12 c s
  else if c.e = 0 then .done s
  else pushTile c s i 1 .release false

/-- Tasks of a slot in the core's matrix leaf, the running ones included. -/
def slotTasks (s : State) (core i : Nat) : Nat :=
  ((s.queue (towerOf core) true (matrixLeaf core) ++ leafRun s (towerOf core) (matrixLeaf core)).filter fun x =>
    match x.body with | .tile t => t.core == core && t.slot == i | _ => false).length

/-- accov as it stood before the present clk, and what a clear in this clk leaves of it (R346). -/
def accSeen (m : MSlot) (now : Nat) : Bool := match m.ovAt with | some (t, v) => if t = now then v else m.accov | none => m.accov
def accCleared (m : MSlot) (now : Nat) : Bool := m.ovAt.any fun p => p.1 == now

def bodyMxstat (x : Z1) (c : Ctx) (s : State) : Act :=
  let i := fld x.mod 1 0
  let m := s.mslot c.core i
  let mine := m.state != 0 && m.owner == c.bi
  if c.e = 0 then .done s
  else if fld x.mod 2 2 = 1 ∧ !holdsSlot s c i then plainFault 0x12 c s
  else
    let bit (b : Bool) (k : Nat) : Nat := if b then 2 ^ k else 0
    let v := if !mine then 0
      else truncN 10 (m.tileW.getD 0) * 2 ^ 22 + min 32 (slotTasks s c.core i) * 2 ^ 16 + bit m.tileW.isNone 4
        + bit m.ctx.isSome 3 + bit (m.state == 2) 2 + bit (m.state == 1) 1 + bit (accSeen m s.now) 0
    let s := if fld x.mod 2 2 = 1 then s.updMslot c.core i fun m => { m with accov := accCleared m s.now } else s
    .done (c.result s 8 (some x.d.toNat) (fun _ => [BitVec.ofNat 32 v]) [] 0)

/-- NFSET (R344, R345). -/
def bodyNfset (x : Z1) (c : Ctx) (s : State) : Act :=
  if c.e = 0 then .done s
  else
    let v := match x.ext with | .imm i => i.toNat | _ => c.reg s x.a.toNat c.low
    let due := s.now + latOf c .nfset x
    .done (c.arriveAt (s.addBpend c.core c.bi due (.nf (fld x.mod 2 0) (BitVec.ofNat 16 v &&& 0xFF7F) c.w.num)) due)

def execMxrsv (w : Z1) (s : State) : Res := issue .mxrsv w (bodyMxrsv w) s
def execMxrel (w : Z1) (s : State) : Res := issue .mxrel w (bodyMxrel w) s
def execMxstat (w : Z1) (s : State) : Res := issue .mxstat w (bodyMxstat w) s
def execNfset (w : Z1) (s : State) : Res := issue .nfset w (bodyNfset w) s

/-! ### The pushes -/

/-- The descriptor k of the block as it reads now. -/
def nfAt (s : State) (c : Ctx) (k : Nat) : BitVec 16 := smGetD (s.block c.core c.bi).nf 0 k

/-- May a weight format of reduction length K work with an activation container (R139)? -/
def kAllowed (w : BitVec 16) (actBox k : Nat) : Bool :=
  decide (1 ≤ k) && decide (k ≤ if nfBox w ≤ 4 ∧ actBox ≤ 4 then 256 else 128)

def bodyWload (x : Z1) (c : Ctx) (s : State) : Act :=
  let y := cmd0 x.ext
  let i := fld y 27 26
  let nf := nfAt s c (fld y 25 23)
  let p := fld y 22 16
  let n := fld y 15 8 + 1
  let k := fld y 7 0 + 1
  let len := fld (cmd1 x.ext) 15 0
  let a := c.scalPair s x.a.toNat
  if !holdsSlot s c i then plainFault 0x12 c s
  else if !nfValid nf then plainFault 0x13 c s
  else if c.e = 0 then .done (orderOnly false true c s)
  else if !kAllowed nf 4 k || decide (len < 8) || decide (32896 < len) || decide (128 < p + ceilDiv len 4096) then
    plainFault 0x13 c s
  else if a % 16 ≠ 0 then addrFault 0x09 a c s
  else
    let w : WCtx := { id := s.nextId, page := p, len := len, k := k, n := n, nf := nf, addr := a }
    pushTile c s i (ceilDiv len 64) (.wload w) true

/-- A scratchpad origin with its optional scalar (R340, R343). -/
def originOf (x : Z1) (c : Ctx) (s : State) : Nat :=
  (fld (cmd0 x.ext) 19 0 + if x.a = 0 then 0 else c.scal s x.a.toNat % 2 ^ 20) % 2 ^ 20

/-- Bytes of K elements in containers. -/
def rowBytes (d : BitVec 16) (k : Nat) : Nat := ceilDiv (k * nfBox d) 8

/-- The first byte of a range of scratchpad on a line with an uncorrected error (09 R186). -/
def scrBadAt (b : Block) (a n : Nat) : Option Nat :=
  (List.range (n / 128 + 2)).findSome? fun i =>
    let x := max a (128 * (a / 128 + i))
    if x < a + n ∧ (smGet? b.scrBad (x / 128)).isSome then some x else none

def bodyMxmul (x : Z1) (c : Ctx) (s : State) : Act :=
  let y := cmd1 x.ext
  let i := fld y 24 23
  let z : Bool := fld y 25 25 = 1
  let act := nfAt s c (fld y 22 20)
  let t := fld y 19 0
  let m := fld (cmd0 x.ext) 31 26 + 1
  let row0 := fld (cmd0 x.ext) 25 20
  let o := originOf x c s
  let sl := s.mslot c.core i
  if !holdsSlot s c i then plainFault 0x12 c s
  else if !nfValid act then plainFault 0x13 c s
  else if c.e = 0 then .done (orderOnly false true c s)
  else match sl.ctx with
    | none => plainFault 0x13 c s
    | some w =>
      let wgt := nfL act + nfL w.nf
      if !kAllowed w.nf (nfBox act) w.k || (!z && sl.projW.any (· != wgt)) then plainFault 0x13 c s
      else if o % 16 ≠ 0 ∨ t % 16 ≠ 0 then addrFault 0x09 o c s
      else match (List.range m).find? fun r => decide (c.b.scrSize < o + r * t + rowBytes act w.k) with
        | some r => addrFault 0x0D (max c.b.scrSize (o + r * t)) c s
        | none => match (List.range m).findSome? fun r => scrBadAt c.b (o + r * t) (rowBytes act w.k) with
          | some a => addrFault 0x17 a c s
          | none => if (s.mslot c.core i).badW then addrFault 0x17 o c s else pushTile c s i (m * ceilDiv w.n 64) (.mxmul w o t m row0 act z) true

/-- Does a drain read an accumulator with an uncorrected error (09 R186)? -/
def badTile (q : MSlot) (e : Mask) (m row0 col0 : Nat) : Bool :=
  q.bad.any fun k => decide (row0 ≤ k / 256) && decide (k / 256 < row0 + m) && decide (col0 ≤ k % 256) && decide (k % 256 < col0 + 32)
    && inMask e (k % 256 - col0)

def bodyMxdrain (x : Z1) (c : Ctx) (s : State) : Act :=
  let y := cmd0 x.ext
  let v := cmd1 x.ext
  let i := fld y 1 0
  let m := fld y 13 8 + 1
  let out := fld v 2 0
  let st := fld y 31 27
  let nf := if out = 3 then nfAt s c (fld v 5 3) else 0
  let badNf := out == 3 && !nfValid nf
  let regs := drainCount (s.block c.core c.bi) x
  let d0 := x.d.toNat - 512
  let pool := match c.b.setOf c.w.num with | some (_, r) => r.size | none => 0
  let z : Bool := fld v 6 6 = 1
  if c.e ≠ 0 ∧ pool < d0 + regs then plainFault 0x03 c s
  else if !holdsSlot s c i then plainFault 0x12 c s
  else if badNf || (c.e != 0 && st % 2 == 0 && st != 0) then plainFault 0x13 c s
  else if c.e = 0 then .done s
  else if badTile (s.mslot c.core i) c.e m (fld y 7 2) (32 * fld y 16 14) then plainFault 0x17 c s
  else pushTile c s i m (.drain d0 m (fld y 7 2) (32 * fld y 16 14) st out nf z) false

def bodyAtbl (x : Z1) (c : Ctx) (s : State) : Act :=
  let y := cmd0 x.ext
  let v := cmd1 x.ext
  let i := fld y 21 20
  let part := fld y 23 22
  let o := originOf x c s
  let cnt := if part = 2 then 64 else fld v 15 8 + 1
  let n := if part = 2 then 512 else 4 * cnt
  if !holdsSlot s c i then plainFault 0x12 c s
  else if c.e = 0 then .done s
  else if o % 16 ≠ 0 then addrFault 0x09 o c s
  else if c.b.scrSize < o + n then addrFault 0x0D (max c.b.scrSize o) c s
  else match scrBadAt c.b o n with
    | some a => addrFault 0x17 a c s
    | none => pushTile c s i 1 (.atbl part o (fld v 7 0) cnt (BitVec.ofNat 8 (fld v 7 0))) false

def execWload (w : Z1) (s : State) : Res := issue .wload w (bodyWload w) s
def execMxmul (w : Z1) (s : State) : Res := issue .mxmul w (bodyMxmul w) s
def execMxdrain (w : Z1) (s : State) : Res := issue .mxdrain w (bodyMxdrain w) s
def execAtbl (w : Z1) (s : State) : Res := issue .atbl w (bodyAtbl w) s

/-! ### Weight blocks (R141, R142) -/

/-- The codes of n elements in containers of cw bits (06 R127). -/
def unpack (cw n : Nat) (bs : List Byte) : List Nat :=
  let x := ofBytes bs
  (List.range n).map fun j => (x >>> (j * cw)) % 2 ^ cw

/-- The 64 codes of one group, and the bytes after it. -/
def oneGroup (cw : Nat) (sparse : Bool) (bs : List Byte) : Option (List Nat × List Byte) :=
  if !sparse then
    let n := 8 * cw
    if bs.length < n then none else some (unpack cw 64 (bs.take n), bs.drop n)
  else if bs.length < 8 then none
  else
    let mask := ofBytes (bs.take 8)
    let cnt := popcount 64 mask
    let n := ceilDiv (cnt * cw) 8
    let rest := bs.drop 8
    if rest.length < n then none
    else
      let el := unpack cw cnt (rest.take n)
      some ((List.range 64).map fun j =>
        if (mask >>> j) % 2 = 1 then (el[popcount j (mask % 2 ^ j)]?).getD 0 else 0, rest.drop n)

def groupsFrom (cw : Nat) (mode : Nat → Bool) : Nat → Nat → List Byte → Option (List (List Nat))
  | 0, _, _ => some []
  | n + 1, i, bs => match oneGroup cw (mode i) bs with
    | none => none
    | some (g, rest) => (groupsFrom cw mode n (i + 1) rest).map (g :: ·)

/-- The groups of a block of L bytes in the order of R142; none where it is malformed (R145). A block whose L exceeds
the map and the groups is no case R145 lists: its further bytes are not read, which is the model's choice (log 42). -/
def parseBlock (w : WCtx) (bs : List Byte) : Option (List (List Nat)) :=
  let g := ceilDiv w.k 64
  let map := 8 * ceilDiv (g * w.n) 64
  if bs.length < map then none
  else
    let m := ofBytes (bs.take map)
    groupsFrom (nfBox w.nf) (fun i => (m >>> i) % 2 == 1) (g * w.n) 0 ((bs.drop map).take 32768)

/-- Column n of the block, as steps of the weight format, for the K rows. -/
def column (w : WCtx) (gs : List (List Nat)) (n : Nat) : List Int :=
  ((List.range (ceilDiv w.k 64)).flatMap fun g => (gs[g * w.n + n]?).getD []).take w.k |>.map (nfInt w.nf)

def wbufBase (slot page : Nat) : Nat := (128 * slot + page) * 4096
def wbufRead (s : State) (core slot : Nat) (w : WCtx) : List Byte :=
  (List.range w.len).map fun i => smGetD (s.core core).wbuf 0 (wbufBase slot w.page + i)
def wbufWrite (s : State) (core slot : Nat) (w : WCtx) (bs : List Byte) : State :=
  s.updCore core fun k =>
    { k with wbuf := bs.zipIdx.foldl (fun m p => smSetD m 0 (wbufBase slot w.page + p.2) p.1) k.wbuf
             slots := setAt k.slots slot { (k.slots[slot]?).getD {} with badW := false } }

/-! ### What a task does -/

/-- Row i of the activations, as steps of their format. -/
def actRow (b : Block) (act : BitVec 16) (k a : Nat) : List Int :=
  (unpack (nfBox act) k (scrBytes b a (rowBytes act k))).map (nfInt act)

def dot : List Int → List Int → Int
  | a :: as, b :: bs => a * b + dot as bs
  | _, _ => 0

/-- Add into an accumulator: the sum modulo 2^112, and whether it left the range (06 R131). -/
def accAdd (a : BitVec 112) (x : Int) : BitVec 112 × Bool :=
  let y := a.toInt + x
  (BitVec.ofInt 112 y, decide (y < -(2 ^ 111 : Nat)) || decide ((2 ^ 111 : Nat) ≤ y))

/-- R140, R147. -/
def mulTask (s : State) (t : TileTask) (w : WCtx) (origin stride m row0 : Nat) (act : BitVec 16) (z : Bool) : State :=
  let b := s.block t.core t.block
  let gs := (parseBlock w (wbufRead s t.core t.slot w)).getD []
  let cols := (List.range w.n).map (column w gs)
  s.updMslot t.core t.slot fun q =>
    let old := accSeen q s.now
    let q := if z then { q with tile := [], tileW := none, bad := [] } else q
    let q := { q with tileW := some (q.tileW.getD (nfL act + nfL w.nf)) }
    (List.range m).foldl (fun q i =>
      let row := actRow b act w.k (origin + i * stride)
      cols.zipIdx.foldl (fun q e =>
        let key := 256 * (row0 + i) + e.2
        let (v, o) := accAdd (smGetD q.tile 0 key) (dot row e.1)
        { q with tile := smSetD q.tile 0 key v, accov := q.accov || o, ovAt := if o then some (s.now, old) else q.ovAt }) q) q

/-- The entry of the activation table for an input; none for a NaN (06 R134). -/
def tableIdx (emin : Int) (x : Nat) : Option Nat :=
  let p : FV → Option Nat
    | .fin _ m e =>
      let k := (log2N m : Int) + e
      if m = 0 ∨ k < emin then some 0
      else if emin + 8 ≤ k then some 31
      else
        let f := if log2N m ≥ 2 then m / 2 ^ (log2N m - 2) % 4 else m * 2 ^ (2 - log2N m) % 4
        some (4 * (k - emin).toNat + f)
    | .inf _ => some 31
    | _ => none
  (p (decodeF fmt32 x)).map fun i => (if x ≥ 2 ^ 31 then 32 else 0) + i

/-- Round to nearest with saturation to the largest finite value (stage 5 of 06 R133). -/
def satF (f : FFmt) (x : FV) : Nat × BitVec 5 :=
  let r := roundV f 0 x
  if x.isNan then (f.nanBits, if x.isSig then fInvalid else 0)
  else if r.1 % f.signBit = f.infBits then (r.1 - 1, fOverflow ||| fInexact) else r

/-- One accumulator through the drain chain (06 R133 to R135): the element's bits and the flags. -/
def drainOne (q : MSlot) (st out : Nat) (nf : BitVec 16) (a : Int) (n : Nat) : Nat × BitVec 5 :=
  if st % 2 = 0 then
    let y := satI a (-(2 ^ 31 : Nat)) ((2 ^ 31 - 1 : Nat) : Int)
    (truncN 32 y, if y = a then 0 else fOverflow ||| fInexact)
  else
    let on (k : Nat) : Bool := (st >>> (k - 1)) % 2 == 1
    let w (t : Sparse Word) (d : Word) (i : Nat) : Nat := (smGetD t d i).toNat
    let (x, f1) := if a = 0 then (0, 0) else roundF fmt32 0 (decide (a < 0)) a.natAbs (q.tileW.getD 0)
    let (x, f2) := if on 2 then addF fmt32 0 x (w q.bias 0 n) else (x, 0)
    let (x, f3) := if on 3 then
        match tableIdx q.emin.toInt x with
        | none => (fmt32.nanBits, if (decodeF fmt32 x).isSig then fInvalid else 0)
        | some i => fmaF fmt32 0 (w q.slope 0x3F800000 i) x (w q.icpt 0 i)
      else (x, 0)
    let (x, f4) := if on 4 then mulF fmt32 0 x (w q.scale 0x3F800000 n) else (x, 0)
    let (x, f5) := if !on 5 then (x, 0)
      else if out = 3 then toNarrow nf (decodeF fmt32 x)
      else satF (if out = 0 then fmt32 else if out = 1 then fmt16 else fmtBf) (decodeF fmt32 x)
    (x, f1 ||| f2 ||| f3 ||| f4 ||| f5)

/-- R155, R136, R147. -/
def drainTask (s : State) (id : Nat) (t : TileTask) (d0 m row0 col0 st out : Nat) (nf : BitVec 16) (z : Bool) : State :=
  let q := s.mslot t.core t.slot
  let cw := if out = 0 then 32 else if out = 3 then nfBox nf else 16
  let k := 32 / cw
  let regs := ceilDiv m k
  let el (i l : Nat) : Nat × BitVec 5 :=
    drainOne q st out nf (smGetD q.tile 0 (256 * (row0 + i) + col0 + l)).toInt (col0 + l)
  let lanes := maskLanes t.eOnce
  let words : List (Nat × Nat × Word × BitVec 5) := (List.range regs).flatMap fun r => lanes.map fun l =>
    let es := ((List.range k).filter fun j => decide (r * k + j < m)).map fun j => (j, el (r * k + j) l)
    (r, l, BitVec.ofNat 32 (es.foldl (fun a e => a + e.2.1 * 2 ^ (e.1 * cw)) 0), es.foldl (fun a e => a ||| e.2.2) 0)
  let flags := words.foldl (fun a e => a ||| e.2.2.2) 0
  let s := words.foldl (fun s e => applyBWr t.core t.block s (.pool t.set (d0 + e.1) e.2.1 e.2.2.1)) s
  let s := t.members.foldl (fun s p => if p.2 = 0 then s else s.updWarp t.core p.1 fun w => { w with xflags := w.xflags ||| flags }) s
  let s := if z then s.updMslot t.core t.slot fun q => { q with tile := [], tileW := none, bad := [] } else s
  arriveAll s t.core (wholly t.members) id (tileRegs t.kind)

/-- R151, R343. -/
def tableTask (s : State) (t : TileTask) (part origin c0 cnt : Nat) (emin : BitVec 8) : State :=
  let b := s.block t.core t.block
  let word (a : Nat) : Word := BitVec.ofNat 32 (ofBytes (scrBytes b a 4))
  let one : Word := 0x3F800000
  s.updMslot t.core t.slot fun q =>
    if part = 0 then { q with bias := (List.range cnt).foldl (fun m j => smSetD m 0 (c0 + j) (word (origin + 4 * j))) q.bias }
    else if part = 1 then { q with scale := (List.range cnt).foldl (fun m j => smSetD m one (c0 + j) (word (origin + 4 * j))) q.scale }
    else { q with emin := emin
                  slope := (List.range 64).foldl (fun m i => smSetD m one i (word (origin + 8 * i))) q.slope
                  icpt := (List.range 64).foldl (fun m i => smSetD m 0 i (word (origin + 8 * i + 4))) q.icpt }

def tileEffect (s : State) (id : Nat) (t : TileTask) : State :=
  match t.kind with
  | .wload _ => s
  | .mxmul w o st m r a z => mulTask s t w o st m r a z
  | .drain d m r c st out nf z => drainTask s id t d m r c st out nf z
  | .atbl p o c n e => tableTask s t p o c n e
  | .release => s.updMslot t.core t.slot fun _ => {}

/-! ### The engine (R153, R154) -/

def bodyTile (x : Task) : Option TileTask :=
  match x.body with
  | .tile t => some t
  | _ => none

def isArray (t : TileTask) : Bool := match t.kind with | .mxmul .. => true | _ => false
def isWload (t : TileTask) : Bool := match t.kind with | .wload _ => true | _ => false

/-- The head task that can start now: its unit is free, no task of its slot runs in the other, and what the
firing ordered before it has been performed (R110). -/
def tileStartable (s : State) (core : Nat) : Option (Task × TileTask) :=
  match (s.queue (towerOf core) true (matrixLeaf core)).head? with
  | none => none
  | some x => match bodyTile x with
    | none => none
    | some t =>
      let k := s.core core
      let busy := if isArray t then k.arrRun else k.drnRun
      let other := (k.arrRun.toList ++ k.drnRun.toList).filterMap bodyTile
      if isWload t || busy.isSome || other.any (fun u => u.slot == t.slot) || !drained s core t.rels then none else some (x, t)

/-- TILE_TASK_START. -/
def execTileTaskStart (core : Nat) (s : State) : Res :=
  match tileStartable s core with
  | none => .next s
  | some (_, t) => match takeHead s (towerOf core) (matrixLeaf core) with
    | none => .next s
    | some (x, s) =>
      let s := if t.rels.isEmpty then s else releaseL1 s core 1
      .next (s.updCore core fun k => match t.kind with
        | .mxmul w _ _ _ _ _ _ => { k with arrRun := some x, latched := some (t.slot, w.id) }
        | _ => { k with drnRun := some x })

/-- A tile task ends: its counters fall, its entry frees, and its tenant's account takes it (29 R477). -/
def tileLeaves (s : State) (core : Nat) (x : Task) (t : TileTask) : State :=
  (freed (moveCnt s core (wholly t.members) .tiles false) (towerOf core) true (matrixLeaf core)).act (2 + x.tenant) 1 1

/-- A command that a push pre-empted has reached its boundary: the leaf counts it and its slot loses the
latched weights (R154, 23 R409). One that ends in the clk of the push retires normally (23 R410). -/
def endVictim (s : State) (core slot : Nat) : State :=
  let k := s.core core
  match k.victim with
  | none => s
  | some (ten, t) =>
    if t = s.now then s.setCore core { k with victim := none }
    else
      let k := { k with victim := none, latched := if k.latched.any (fun p => p.1 == slot) then none else k.latched }
      preempted (s.setCore core k) (towerOf core) (matrixLeaf core) ten

/-- TILE_TASK_RETIRE: a running task, or a WLOAD at the head whose block is in its pages. -/
def execTileTaskRetire (core task : Nat) (s : State) : Res :=
  let k := s.core core
  let of (o : Option Task) : Option (Task × TileTask) := o.bind fun x => if x.id = task then (bodyTile x).map (x, ·) else none
  match of k.arrRun, of k.drnRun with
  | some (x, t), _ => .next (tileLeaves (endVictim (tileEffect (s.setCore core { k with arrRun := none }) task t) core t.slot) core x t)
  | none, some (x, t) => .next (tileLeaves (tileEffect (s.setCore core { k with drnRun := none }) task t) core x t)
  | none, none => match (s.queue (towerOf core) true (matrixLeaf core)).head? with
    | some x => match bodyTile x with
      | some t =>
        if x.id = task ∧ isWload t ∧ x.staged then
          match takeHead s (towerOf core) (matrixLeaf core) with
          | some (_, s) => .next (tileLeaves s core x t)
          | none => .next s
        else .next s
      | none => .next s
    | none => .next s

/-! ### Staging a weight block (R144, R145, R407) -/

/-- Pages of two contexts overlap. -/
def pagesMeet (a b : WCtx) : Bool := overlaps a.page (ceilDiv a.len 4096) b.page (ceilDiv b.len 4096)

/-- Does a task queued earlier for the slot still read a page the block is to fill? -/
def pagesRead (s : State) (core : Nat) (x : Task) (t : TileTask) (w : WCtx) : Bool :=
  let q := s.queue (towerOf core) true (matrixLeaf core)
  (((s.core core).arrRun.toList ++ q.takeWhile fun y => y.id != x.id).filterMap bodyTile).any fun u =>
    u.core == core && u.slot == t.slot && (match u.kind with
      | .mxmul v .. => pagesMeet v w
      | .wload v => pagesMeet v w
      | _ => false)

/-- The sub-kind of a block's translation fault: that of its first page that does not translate (09 R187). -/
def blockSub (s : State) (core : Nat) (x : Task) (w : WCtx) : Nat :=
  ((List.range (ceilDiv (w.addr % 2 ^ 16 + w.len) (2 ^ 16))).findSome? fun i =>
    match (walkFull s core x.secure x.fn (if i = 0 then w.addr else (pageOf w.addr + i) * 2 ^ 16) 0).1 with
    | .miss sub _ _ => some sub
    | .bad 0x0A sub => some sub
    | _ => none).getD 0

/-- An engine fault: the issuing set stops with a record that names the WLOAD, and the slot's later tasks
are discarded wherever they wait (R145); tasks are numbered in the order of their issue. -/
def engineFault (s : State) (core : Nat) (x : Task) (t : TileTask) (code sub : Nat) : State :=
  let lead := leaderOf t.members
  let s := takeFault s core lead (mkRecord s core lead code sub 8 0 0 t.iaddr []) false
  freed (dropTasks s fun y => sameSlot y x && decide (x.id ≤ y.id)) (towerOf core) true (matrixLeaf core)

/-- The staging unit brings a WLOAD's block into its pages. -/
def stageWload (s : State) (core : Nat) (x : Task) (t : TileTask) (w : WCtx) : State :=
  let mark (s : State) : State :=
    s.setQueue (towerOf core) true (matrixLeaf core)
      ((s.queue (towerOf core) true (matrixLeaf core)).map fun y => if y.id = x.id then { y with staged := true } else y)
  let lead := leaderOf t.members
  let stopped := (s.warp? core lead).any (·.stopped.isSome)
  if pagesRead s core x t w || !drained s core t.rels then s
  else
    let s := releaseL1 s core 1
    match engRead s core x.fn x.secure x.id w.addr w.len with
    | ((.wait, _), s) => s
    | ((.bad code, _), s') => if stopped then s else engineFault s' core x t code (if code = 0x0A then blockSub s core x w else 0)
    | ((.ok _ _, bs), s') => match parseBlock w bs with
      | none => if stopped then s else engineFault s' core x t 0x13 0
      | some _ => mark (wbufWrite s' core t.slot w bs)

/-! ### Array shape and cadence (R156, R157) -/

/-- ASHAPE_HOST_WRITE. -/
def execAshapeHostWrite (core : Nat) (val : Word) (s : State) : Res :=
  if fld val 3 0 = 0 ∨ !s.isCompute core then .next s
  else .next (s.updCore core fun k => { k with ashape := BitVec.ofNat 4 (fld val 3 0) })

/-- CADENCE_WRITE by power firmware. -/
def execCadenceWrite (core : Nat) (val : Word) (s : State) : Res :=
  let n := fld val 4 0
  if n = 0 ∨ 16 < n ∨ 512 ≤ core then .next s
  else .next (s.updCore core fun k => { k with cadReq := BitVec.ofNat 5 n })

end Sys2Proof.Machine
end

