-- ==== Sys2Proof/Machine/Copy.lean ====
section
/-!
DEFINITION. Copies (08 R161 to R168, 16 R322 to R324) and the copy engine's steps, layout records, stage
rings (08 R169 to R171, 16 R325, R326), and RINGADV (08 R175, 16 R327).
-/
namespace Sys2Proof.Machine

/-! ### Layout records -/

/-- The coordinate of element e of an extent list, dimension 0 fastest. -/
def coordOf : List Nat → Nat → List Nat
  | [], _ => []
  | n :: r, e => e % max n 1 :: coordOf r (e / max n 1)

def addDims : List Nat → List Int → Int
  | c :: cs, k :: ks => c * k + addDims cs ks
  | _, _ => 0

/-- addr(X, c) of R165. -/
def Lay.addr (x : Lay) (c : List Nat) : Nat := truncN (if x.scratch then 32 else 64) ((x.base : Int) + addDims c x.stride)
def Lay.count (x : Lay) : Nat := x.ext.foldl (· * ·) 1
/-- Every element address is a multiple of the element size. -/
def Lay.aligned (x : Lay) : Bool :=
  x.base % max x.size 1 == 0 && (x.ext.zip x.stride).all fun p => p.1 ≤ 1 || p.2 % (x.size : Int) == 0
/-- Every element lies within n bytes of scratchpad. -/
def Lay.inside (x : Lay) (n : Nat) : Bool :=
  let d (f : Int → Int) : Int := ((x.ext.zip x.stride).map fun p => f (((p.1 : Int) - 1) * p.2)).sum
  decide (0 ≤ (x.base : Int) + d (min 0)) && decide ((x.base : Int) + d (max 0) + x.size ≤ n)

/-- The address of the first element, in coordinate order, that p selects. -/
def Lay.firstAt (x : Lay) (p : Nat → Bool) : Option Nat :=
  ((List.range x.count).find? fun e => p (x.addr (coordOf x.ext e))).map fun e => x.addr (coordOf x.ext e)

def layOf (b : Block) (k : Nat) : Lay := smGetD b.lays {} k

/-- LAYSET (R323). -/
def bodyLayset (x : Z1) (c : Ctx) (s : State) : Act :=
  let w := cmd0 x.ext
  let a := x.a.toNat
  let rank := fld w 8 7 + 1
  let scr : Bool := fld w 3 3 = 1
  if c.e = 0 then .done s
  else
    let ext := (List.range 4).map fun k => if k < rank then c.scal s (a + 2 + k) % 2 ^ 25 else 1
    let stride := (List.range 4).map fun k => if k < rank then sextN 32 (c.scal s (a + 6 + k)) else 0
    if ext.any fun e => e == 0 || decide (2 ^ 24 < e) then plainFault 0x13 c s
    else
      let base := if scr then c.scal s a else c.scalPair s a
      let lay : Lay := { written := true, scratch := scr, size := 2 ^ fld w 6 4, rank := rank, ext := ext, stride := stride
                         base := truncN (if scr then 32 else 64) ((base : Int) + sextN 32 (cmd1 x.ext).toNat) }
      .done (s.updBlock c.core c.bi fun b => { b with lays := smPut b.lays (fld w 2 0) lay })

def execLayset (w : Z1) (s : State) : Res := issue .layset w (bodyLayset w) s

/-! ### The elements of a copy -/

/-- Where an element comes from: an address, zeros where an index is out of range, or a failure. -/
inductive Src where
  | addr (scr : Bool) (a : Nat)
  | zeros
  | bad (code : Nat)
  deriving DecidableEq, Repr

def CopyKind.size : CopyKind → Nat
  | .cpy n _ _ _ => n
  | .tcpy d _ _ => d.size
  | .fxrd _ _ _ _ => 1

/-- The destination of element e, as scratchpad or global address. -/
def CopyKind.dstOf : CopyKind → Nat → Bool × Nat
  | .cpy _ dScr _ ps, e => (dScr, ((ps[e]?).map (·.1)).getD 0)
  | .tcpy d _ _, e => (d.scratch, d.addr (coordOf d.ext e))
  | .fxrd dst _ _ _, e => (false, dst + e)

def State.copy? (s : State) (id : Nat) : Option CopyOp := s.copies.find? fun c => c.id == id
def State.updCopy (s : State) (id : Nat) (f : CopyOp → CopyOp) : State :=
  { s with copies := s.copies.map fun c => if c.id = id then f c else c }

/-- What an engine finds at an address: local bytes with their physical address and poison, bytes of a
peer, a wait, or a failure. -/
inductive Got where
  | bytes (bs : List Byte) (poison : Bool)
  | remote (peer off : Nat)
  | wait
  | bad (code : Nat)
  deriving DecidableEq, Repr

def rkey (peer off : Nat) : Nat := peer * 2 ^ 64 + off

/-- Does the access belong to the secure world of the copy engine (25 R438)? -/
def copyWorld (s : State) (c : CopyOp) : Bool := s.copySecure c.core

/-- Does a source line wait for the copy that owns it (05 R110)? For a copy issued earlier it does; what a later copy
owns is read as it stands (05 R111), or two copies that read each other's destinations would never end (log 43). -/
def sourceHeld (s : State) (c : CopyOp) (a n : Nat) : Bool :=
  !s.owners.isEmpty && (List.range (n / 128 + 2)).any fun i => decide (lineOf a + i ≤ lineOf (a + n - 1)) &&
    (ownedBy s (lineOf a + i)).any fun w => w.copy.any fun k => decide (k < c.id)

/-- Read n bytes of a source; a fabric page reaches no further than its peer's window (R161). -/
def copyRead (s : State) (c : CopyOp) (scr : Bool) (a n : Nat) : Got × State :=
  if scr then
    let b := s.block c.core c.block
    (.bytes (scrBytes b a n) (smGet? b.scrBad (a / 128)).isSome, s)
  else match engXlateK true s c.core c.task.fn (copyWorld s c) c.id a 0 with
    | (.ok pa at', s) =>
      if at'.fabric then
        let l := (List.range n).map fun i => smGet? c.rbuf (rkey at'.peer (pa + i))
        if peerLimit s at'.peer < pa + n then (.bad 0x11, s)
        else if l.any Option.isNone then (.remote at'.peer pa, s)
        else if l.any (· == some none) then (.bad 0x17, s)
        else (.bytes (l.map fun o => (o.bind id).getD 0) false, s)
      else if sourceHeld s c pa n then (.wait, s)
      else (.bytes (homeBytes s c.core pa n) (s.poisoned pa), s)
    | (.wait, s) => (.wait, s)
    | (.bad k, s) => (.bad k, s)

/-- One element with its source resolved: index, destination, source and what was read there. -/
structure Elem where
  idx  : Nat
  scr  : Bool
  dst  : Nat
  oob  : Bool
  got  : Got
  len  : Nat
  deriving DecidableEq, Repr

/-- Resolve the source of element e (R163, R166). -/
def resolveElem (s : State) (c : CopyOp) (e : Nat) : Elem × State :=
  let (dScr, d) := c.kind.dstOf e
  let mk (oob : Bool) (g : Got) (n : Nat) : Elem := { idx := e, scr := dScr, dst := d, oob := oob, got := g, len := n }
  match c.kind with
  | .cpy n _ sScr ps =>
    let (g, s) := copyRead s c sScr (((ps[e]?).map (·.2)).getD 0) n
    (mk false g n, s)
  | .tcpy dl sl none =>
    let (g, s) := copyRead s c sl.scratch (sl.addr (coordOf dl.ext e)) dl.size
    (mk false g dl.size, s)
  | .tcpy dl ul (some gl) =>
    let co := coordOf dl.ext e
    match copyRead s c gl.scratch (gl.addr (co.drop 1)) gl.size with
    | (.bytes bs false, s) =>
      let j := ofBytes bs
      if (ul.ext[1]?).getD 1 ≤ j then (mk true (.bytes (List.replicate dl.size 0) false) dl.size, s)
      else
        let (g, s) := copyRead s c ul.scratch (ul.addr (co.take 1 ++ [j] ++ co.drop 2)) dl.size
        (mk false g dl.size, s)
    | (.bytes _ true, s) => (mk false (.bad 0x17) dl.size, s)
    | (.remote p o, s) => (mk false (.remote p o) gl.size, s)
    | (g, s) => (mk false g dl.size, s)
  | .fxrd _ _ _ _ => (mk false (.bad 0x0B) 1, s)

def resolveAll (c : CopyOp) : State → List Nat → List Elem × State
  | s, [] => ([], s)
  | s, e :: r =>
    let (x, s) := resolveElem s c e
    let (xs, s) := resolveAll c s r
    (x :: xs, s)

/-- The destination of an element once translated. -/
inductive Dst where
  | scr (a : Nat)
  | glob (pa : Nat) (at' : Attr)
  | wait
  | bad (code : Nat)
  deriving DecidableEq, Repr

def dstAll (c : CopyOp) : State → List (Bool × Nat) → List Dst × State
  | s, [] => ([], s)
  | s, (true, a) :: r =>
    let (xs, s) := dstAll c s r
    (.scr a :: xs, s)
  | s, (false, a) :: r =>
    let (x, s) := engXlateK true s c.core c.task.fn (copyWorld s c) c.id a 1
    let (xs, s) := dstAll c s r
    ((match x with | .ok pa a => .glob pa a | .wait => .wait | .bad k => .bad k) :: xs, s)

/-- The elements of the destination bytes from lo to hi. -/
def elemsOf (c : CopyOp) (lo hi : Nat) : List Nat :=
  let n := max 1 c.kind.size
  (List.range ((hi - lo) / n)).map (lo / n + ·)

/-- The lines of a list of destinations that a copy has neither got nor asked for. -/
def newLines (s : State) (copy : Nat) (l : List Dst) : List Nat :=
  (l.filterMap fun d => match d with | .glob pa _ => some (lineOf pa) | _ => none).eraseDups.filter fun n =>
    !(ownedBy s n).any fun w => w.copy == some copy || w.queue.contains copy

/-- Ask for the lines of a list of destinations; what the core's own L1 holds dirty goes home first (R110). -/
def askAll (s : State) (core copy : Nat) (l : List Dst) : State :=
  match newLines s copy l with
  | [] => s
  | n => n.foldl (fun s line => askLine s copy line) (l1WriteBack s core)

def ownsDst (s : State) (copy : Nat) : Dst → Bool
  | .glob pa _ => ownsLine s copy (lineOf pa)
  | _ => true

/-- The elements, or for an FXRD one byte of each line, that a copy has still to write. -/
def restOf (c : CopyOp) : List Nat :=
  match c.kind with
  | .fxrd dst len _ _ => (List.range (len / 128 + 2)).map (fun i => if i = 0 then 0 else min (len - 1) (128 * (dst / 128 + i) - dst)) |>.eraseDups
  | k => (List.range (c.bytes / max 1 k.size)).filter fun e => !c.did.contains e

/-- Ask for the destination lines whose translation is known: at issue, where the manual takes them all, and again
where a page was awaited (R86, R110; log 43). -/
def askLines (s : State) (id : Nat) : State :=
  match s.copy? id with
  | none => s
  | some c =>
    if c.asked then s
    else
      let (ds, s) := dstAll c s ((restOf c).map c.kind.dstOf)
      (askAll s c.core id ds).updCopy id fun c => { c with asked := !ds.any (· == .wait) }

/-- Every copy asks for the lines that have become known. -/
def askKnown (s : State) : State := s.copies.foldl (fun s c => if c.asked then s else askLines s c.id) s

/-- Is any walk of the engine task outstanding? -/
def engineBusy (s : State) (id : Nat) : Bool := s.walks.any fun x => x.who == .engine id && !x.failed

/-! ### Issue of copies -/

/-- A page that maps fabric memory for the function, as far as its walk shows (04 R91, R93). -/
def pageFabric (s : State) (core fn : Nat) (secure : Bool) (va : Nat) : Bool :=
  match s.tlbLookup core fn va 0 with
  | some e => e.attr.fabric
  | none => va / 2 ^ 52 == 0 && (match walkFull s core secure fn va 1 with | (.bad 0x18 _, _) => true | _ => false)

/-- Start a copy: its counter, its status register, its first segment. -/
def startCopy (c : Ctx) (s : State) (k : CopyKind) (dst bytes segMax : Nat) (localSrc : Bool) : State :=
  let (t, s) := formTask s c.core c.b 2 (min bytes segMax) c.core (.seg 0 0 0)
  let (id, s) := s.fresh
  let t := { t with staged := !localSrc, body := .seg id 0 (min bytes segMax) }
  let op : CopyOp := { id := id, core := c.core, block := c.bi, kind := k, dst := dst, members := c.members
                       rels := relBounds s c.members, bytes := bytes, segMax := segMax, task := t, iaddr := c.addr }
  let s := { s with copies := s.copies ++ [op] }
  let s := expectAll (moveCnt s c.core c.members .copies true) c.core c.members id [dst]
  pushFormed (askLines s id) (towerOf c.core) (copyLeaf c.core) t

def bodyCpy (x : Z1) (c : Ctx) (s : State) : Act :=
  let n := 4 * 2 ^ fld x.mod 1 0
  let dScr : Bool := fld x.mod 2 2 = 1
  let sScr : Bool := fld x.mod 3 3 = 1
  let adr (r : BitVec 11) (scr : Bool) (l : Nat) : Nat := c.regN s r.toNat (if scr then 1 else 2) l
  let ps := (maskLanes c.e).map fun l => (l, adr x.a dScr l, adr x.b sScr l)
  let out (scr : Bool) (a : Nat) : Bool := scr && decide (c.b.scrSize < a + n)
  let flt (code : Nat) (l : List (Nat × Nat)) : Act := .fault code 0 (lanesOf l) 0 l s
  let pick (p : Nat → Nat → Option Nat) : List (Nat × Nat) := ps.filterMap fun q => (p q.2.1 q.2.2).map fun a => (q.1, a)
  if c.e = 0 then .done (orderOnly false true c s)
  else match pick (fun d r => if d % n ≠ 0 then some d else if r % n ≠ 0 then some r else none) with
    | q :: l => flt 0x09 (q :: l)
    | [] => match pick (fun d r => if out dScr d then some d else if out sScr r then some r else none) with
      | q :: l => flt 0x0D (q :: l)
      | [] => match pick (fun d _ => if !dScr && pageFabric s c.core c.b.fn (s.copySecure c.core) d then some d else none) with
        | q :: l => flt 0x18 (q :: l)
        | [] => .done (startCopy c s (.cpy n dScr sScr (ps.map (·.2))) x.d.toNat (n * ps.length) 65536 (!sScr))

/-- The record checks of R166 that are format_invalid. -/
def tcpyOk (d s : Lay) (g : Option Lay) : Bool :=
  d.written && s.written && s.size == d.size && d.aligned && s.aligned &&
  match g with
  | none => s.ext == d.ext
  | some g =>
    g.written && (g.size == 4 || g.size == 8) && g.aligned && g.ext.take 3 == d.ext.drop 1 && (g.ext[3]?).getD 1 == 1
    && s.ext.take 1 == d.ext.take 1 && s.ext.drop 2 == d.ext.drop 2

/-- TCPYs of a core with segments still unpushed (R167). -/
def unpushed (s : State) (core : Nat) : Nat :=
  (s.copies.filter fun c => c.core == core && decide (c.pushed < c.bytes) && (match c.kind with | .tcpy .. => true | _ => false)).length

def bodyTcpy (x : Z1) (c : Ctx) (s : State) : Act :=
  let d := layOf c.b (fld x.mod 2 0)
  let u := layOf c.b (fld x.mod 5 3)
  let g := if fld x.mod 6 6 = 1 then some (layOf c.b (fld x.a 2 0)) else none
  let lays := [d, u] ++ g.toList
  if c.e = 0 then .done (orderOnly false true c s)
  else if unpushed s c.core ≥ 16 then .wait s
  else if !tcpyOk d u g then plainFault 0x13 c s
  else match lays.find? fun l => l.scratch && !l.inside c.b.scrSize with
    | some l => addrFault 0x0D (max c.b.scrSize ((l.firstAt fun a => decide (c.b.scrSize < a + l.size)).getD 0)) c s
    | none => match if d.scratch then none else d.firstAt fun a => pageFabric s c.core c.b.fn (s.copySecure c.core) a with
      | some a => addrFault 0x18 a c s
      | none => .done (startCopy c s (.tcpy d u g) x.d.toNat (d.count * d.size) (65536 / d.size * d.size) (!u.scratch))

def execCpy (w : Z1) (s : State) : Res := issue .cpy w (bodyCpy w) s
def execTcpy (w : Z1) (s : State) : Res := issue .tcpy w (bodyTcpy w) s

/-! ### Status words (16 R321) and the end of a copy -/

def statusWord (kind code resends inc : Nat) : Word :=
  BitVec.ofNat 32 (2 ^ 31 + inc * 2 ^ 20 + resends * 2 ^ 16 + code * 2 ^ 8 + kind)

/-- A status word lands in the members' register and the copies counter falls (08 R161); one of poisoned data is counted
(30 R483). -/
def landStatus (s : State) (core id dst : Nat) (members : List (Nat × Mask)) (w : Word) : State :=
  let e := unionMask members
  let low := (lowLane e).getD 0
  let s := (maskLanes e).foldl (fun s l => landLane s core members id dst low l [w]) s
  let s := if fld w 15 8 = 0x17 then s.bump64 (relReg 0x20) 1 else s
  { arriveAll (moveCnt s core members .copies false) core members id [dst] with waits := [] }

/-- Is the block of a copy being saved, or saved: its status word is held (09 R195)? -/
def statusHeld (s : State) (c : CopyOp) : Bool := (s.block c.core c.block).saving.isSome

/-- The lines a copy owns or waits for are released. -/
def releaseAll (s : State) (copy : Nat) : State :=
  (s.owners.filter fun e => e.2.copy == some copy || e.2.queue.contains copy).foldl (fun s e => releaseLine s copy e.1) s

def copyStatus (c : CopyOp) : Word :=
  match c.fail with
  | some (_, code) => statusWord 5 code 0 0
  | none => statusWord (if c.oob then 2 else 1) 0 0 0

/-- A copy whose last segment has retired: the issuing core's L1 holds no stale destination line (04 R86, 05 R110). -/
def endCopy (s : State) (c : CopyOp) : State :=
  let s := c.lines.foldl (fun s n => dropStale s c.core n) (releaseAll s c.id)
  if c.dead then { s with copies := s.copies.filter fun d => d.id != c.id, waits := [] }
  else if statusHeld s c then s.updCopy c.id fun d => { d with held := some (copyStatus c) }
  else landStatus { s with copies := s.copies.filter fun d => d.id != c.id } c.core c.id c.dst c.members (copyStatus c)

/-! ### The copy engine (R167, R168) -/

/-- The chunk of a segment the engine performs next: a segment that is to stop ends at 4 KiB of destination
bytes, and a dead one at its running chunk (R168). -/
def chunkEnd (c : CopyOp) (g : SegRun) : Nat := if g.stop || c.dead then min g.hi (g.lo + 4096) else g.hi

/-- Fetch what a chunk still lacks of remote sources, one request for each run of bytes. -/
def fetchRemote (s : State) (c : CopyOp) (l : List Elem) : State :=
  let needs := l.filterMap fun e => match e.got with | .remote p o => some (p, o, e.len) | _ => none
  let runs := needs.foldl (fun (acc : List (Nat × Nat × Nat)) n => match acc with
    | (p, o, k) :: r => if p = n.1 ∧ n.2.1 = o + k ∧ (o / 4096 = (n.2.1 + n.2.2 - 1) / 4096) then (p, o, k + n.2.2) :: r
        else if acc.contains n then acc else n :: acc
    | [] => [n]) []
  runs.reverse.foldl (fun s n =>
    let req : RemoteReq := { src := c.core, tag := 0, off := n.2.1, len := n.2.2, op := 0, ty := .b32, a := 0, b := 0 }
    let (tag, s) := sendRemote s c.core (s.block c.core c.block) n.1 req (.copy c.id) [] [] 0 0
    s.updCopy c.id fun d => { d with tags := d.tags ++ [tag] }) s

/-- Write an element (R162). -/
def writeElem (core bi : Nat) (s : State) (e : Elem) (d : Dst) : State :=
  match e.got, d with
  | .bytes bs p, .scr a =>
    s.updBlock core bi fun b =>
      let b := scrPut b a bs
      { b with scrBad := if p then smPut b.scrBad (a / 128) () else b.scrBad }
  | .bytes bs p, .glob pa at' =>
    let s := s.homePut pa bs at'
    if p then { s with poison := smPut s.poison (lineOf pa) () } else s
  | _, _ => s

/-- A destination line: its space and number. -/
def CopyOp.lineAt (c : CopyOp) (e : Nat) : Bool × Nat := let d := c.kind.dstOf e; (d.1, d.2 / 128)

/-- A line that is written whole loses an earlier poison. -/
def clearWhole (core bi : Nat) (s : State) (l : List (Elem × Dst)) : State :=
  let bytes := (l.flatMap fun p => (List.range p.1.len).map fun i => (p.1.dst + i) % 128).eraseDups
  if bytes.length < 128 then s
  else match l with
    | (_, .glob pa _) :: _ => s.clearPoison (lineOf pa)
    | (_, .scr a) :: _ => s.updBlock core bi fun b => { b with scrBad := smDel b.scrBad (a / 128) }
    | _ => s

/-- Why an element fails. -/
def elemFault (p : Elem × Dst) : Option Nat :=
  match p.2, p.1.got with
  | .bad k, _ => some k
  | _, .bad k => some k
  | _, _ => none

/-- Is it settled whether an element can be written: its source read, its line owned? -/
def elemReady (s : State) (copy : Nat) (p : Elem × Dst) : Bool :=
  (elemFault p).isSome || (p.2 != .wait && ownsDst s copy p.2 && (match p.1.got with | .bytes _ _ => true | _ => false))

/-- A line of a copy with all its elements, every one settled: written in order where none fails, else left as it is
(R162), and released (04 R86). -/
def doLine (c : CopyOp) (s : State) (l : List (Elem × Dst)) : State :=
  let fails := l.filterMap fun p => (elemFault p).map fun k => (p.1.idx, k)
  let pas := (l.filterMap fun p => match p.2 with | .glob pa _ => some (lineOf pa) | _ => none).eraseDups
  let s := if !fails.isEmpty then s
    else
      let t := l.foldl (fun t p => writeElem c.core c.block t p.1 p.2) (clearWhole c.core c.block s l)
      pas.foldl (fun t n => dropStale t c.core n) t
  let s := s.updCopy c.id fun d =>
    { d with did := d.did ++ l.map (·.1.idx), lines := d.lines ++ pas, oob := d.oob || (fails.isEmpty && l.any fun p => p.1.oob)
             fail := match fails, d.fail with
               | f :: _, some (i, k) => if f.1 < i then some f else some (i, k)
               | f :: _, none => some f
               | [], o => o }
  pas.foldl (fun s n => releaseLine s c.id n) s

/-- Perform what can be performed of the next chunk of a segment, line by line: a line is written whole, with the
elements that stand in other chunks or segments unless these are discarded (R168), so that a failure of one keeps it
unwritten. Says whether the chunk is done. -/
def doChunk (s : State) (c : CopyOp) (g : SegRun) : Bool × State :=
  let es := elemsOf c g.lo (chunkEnd c g)
  let mine := ((es.filter fun e => !c.did.contains e).map c.lineAt).eraseDups
  let rest := if mine.isEmpty then [] else (restOf c).filter fun e => mine.contains (c.lineAt e) && (!c.dead || es.contains e)
  let s := if mine.isEmpty then s else releaseL1 s c.core 1
  let (ds, s) := dstAll c s (rest.map c.kind.dstOf)
  let s := askAll s c.core c.id ds
  let (xs, s) := resolveAll c s rest
  let s := if c.tags.isEmpty then fetchRemote s c xs else s
  let l := xs.zip ds
  let lines := mine.map fun n => l.filter fun p => c.lineAt p.1.idx == n
  let s := lines.foldl (fun s q => if q.all (elemReady s c.id) then doLine c s q else s) s
  let fin := (s.copy? c.id).any fun d => es.all d.did.contains
  (fin, if fin then dropFailed s c.id else s)

/-- Can a running segment move on: staged, and its copy's earlier accesses performed? -/
def segReady (s : State) (core : Nat) (g : SegRun) : Bool :=
  match s.copy? g.copy with
  | none => true
  | some c => g.task.staged && drained s core c.rels && ((s.block core c.block).saving.isNone || g.stop)

/-- Is the task's block being saved? -/
def taskSaving (s : State) (core : Nat) (x : Task) : Bool :=
  match x.body with
  | .seg id _ _ => (s.copy? id).any fun c => (s.block core c.block).saving.isSome
  | _ => false

/-- COPY_SEGMENT_START: the engine takes the head of its leaf; at most four segments run. One taken unstaged keeps it from
taking a later entry (23 R407). -/
def execCopySegmentStart (core : Nat) (s : State) : Res :=
  if (s.core core).segs.length ≥ 4 ∨ (s.core core).segs.any (!·.task.staged) then .next s
  else if ((s.queue (towerOf core) true (copyLeaf core)).head?).any (taskSaving s core) then .next s
  else match takeHead s (towerOf core) (copyLeaf core) with
    | none => .next s
    | some (x, s) => match x.body with
      | .seg c lo hi => .next (s.updCore core fun k => { k with segs := k.segs ++ [{ task := x, copy := c, lo := lo, hi := hi }] })
      | _ => .next s

def dropSeg (s : State) (core seg : Nat) : State :=
  freed (s.updCore core fun k => { k with segs := k.segs.filter fun g => g.task.id != seg }) (towerOf core) true (copyLeaf core)

/-- Count destination bytes as done; the last ones end the copy. -/
def retireBytes (s : State) (id n : Nat) : State :=
  let s := s.updCopy id fun c => { c with retired := c.retired + n }
  match s.copy? id with
  | some c => if c.bytes ≤ c.retired ∨ (c.dead ∧ ((s.core c.core).segs.all fun g => g.copy != id)) then endCopy s c else s
  | none => s

/-- COPY_SEGMENT_RETIRE: a segment that no push stops is performed and finishes. -/
def execCopySegmentRetire (core seg : Nat) (s : State) : Res :=
  match (s.core core).segs.find? fun g => g.task.id == seg && !g.stop with
  | none => .next s
  | some g => match s.copy? g.copy with
    | none => .next (dropSeg s core seg)
    | some c =>
      if !segReady s core g then .next s
      else match doChunk s c g with
        | (false, s) => .next s
        | (true, s) =>
          let s := (dropSeg s core seg).act (2 + g.task.tenant) 2 1
          .next (retireBytes s c.id (g.hi - g.lo))

/-- COPY_SEGMENT_BOUNDARY: a segment that a push or a context save stops performs its chunk and returns to the queue; one
that finishes there retires normally (23 R409, R410). The leaf counts the stop of a push. -/
def execCopySegmentBoundary (core seg : Nat) (s : State) : Res :=
  match (s.core core).segs.find? fun g => g.task.id == seg && g.stop with
  | none => .next s
  | some g => match s.copy? g.copy with
    | none => .next (dropSeg s core seg)
    | some c =>
      if !segReady s core g then .next s
      else
        let m := chunkEnd c g
        match doChunk s c g with
        | (false, s) => .next s
        | (true, s) =>
          let s := (dropSeg s core seg).act (2 + g.task.tenant) 2 1
          if g.hi ≤ m ∨ c.dead then .next (retireBytes s c.id (g.hi - g.lo))
          else
            let t := towerOf core
            let k := copyLeaf core
            let s := retireBytes s c.id (m - g.lo)
            let x := { g.task with body := .seg c.id m g.hi, length := g.hi - m }
            let s := s.setQueue t true k (returnIn (s.queue t true k) x)
            .next (match g.by' with | some ten => preempted s t k ten | none => s)

/-! ### Stage rings -/

def ringNo (x : Z1) : Nat := fld x.mod 5 2

/-- RINIT (R325). -/
def bodyRinit (x : Z1) (c : Ctx) (s : State) : Act :=
  let w0 := cmd0 x.ext
  let w1 := cmd1 x.ext
  let n := fld w1 24 20
  let size := fld w1 16 0
  let base := fld w0 19 0
  if c.e = 0 then .done s
  else if c.b.scrSize < base + n * size then addrFault 0x0D (max c.b.scrSize base) c s
  else
    let old := smGet? c.b.rings (fld w0 23 20)
    let r : Ring := { base := base, size := size, n := n, slots := List.replicate n 0
                      getQ := (old.map (·.getQ)).getD [], takeQ := (old.map (·.takeQ)).getD [] }
    .done { s.updBlock c.core c.bi fun b => { b with rings := smPut b.rings (fld w0 23 20) r } with waits := [] }

/-- The index after i, and whether the phase flips (R170). -/
def ringNext (n i : Nat) : Nat × Bool := if i + 1 < n then (i + 1, false) else (0, true)
def slotWord (r : Ring) (i : Nat) (ph : Bool) : Word :=
  BitVec.ofNat 32 ((if ph then 2 ^ 24 else 0) + i * 2 ^ 20 + (r.base + i * r.size) % 2 ^ 20)

/-- Who asks: a warp, or its set. -/
def ringKey (c : Ctx) : Nat := if c.scope = .set then 100 + (c.b.setOf c.w.num).elim 8 (·.1) else c.w.num

def putRing (s : State) (c : Ctx) (x : Z1) (r : Ring) : State :=
  { s.updBlock c.core c.bi fun b => { b with rings := smPut b.rings (ringNo x) r } with waits := [] }

/-- RFILL.get and RTAKE: wait in the queue of their kind, and claim slot f or t (R170, R326). -/
def ringClaim (get : Bool) (x : Z1) (c : Ctx) (s : State) : Act :=
  if c.e = 0 then .done (orderOnly true false c s)
  else match smGet? (s.block c.core c.bi).rings (ringNo x) with
    | none => plainFault 0x0D c s
    | some r =>
      let k := ringKey c
      let q0 := if get then r.getQ else r.takeQ
      let q := if q0.contains k then q0 else q0 ++ [k]
      let i := if get then r.f else r.t
      let want := if get then 0 else 2
      let fits := (r.slots[i]?).getD 9 == want && drained s c.core ((smGet? r.rel i).getD [])
      if q.head? = some k ∧ fits then
        let (j, flip) := ringNext r.n i
        let w := slotWord r i (if get then r.fPhase else r.tPhase)
        let r := { r with slots := setAt r.slots i (if get then 1 else 3), rel := smDel r.rel i }
        let r := if get then { r with f := j, fPhase := r.fPhase != flip, filling := r.filling ++ [i], getQ := q.drop 1 }
          else { r with t := j, tPhase := r.tPhase != flip, taken := r.taken ++ [i], takeQ := q.drop 1 }
        let s := putRing s c x r
        .done (c.result s 4 (some x.d.toNat) (fun _ => [w]) [] 0)
      else if q = q0 then .wait s
      else .wait (putRing s c x (if get then { r with getQ := q } else { r with takeQ := q }))

/-- RFILL and RTAKE.back hand the oldest slot on at issue (R326). Their release: the slot is claimed again only once
the members' earlier accesses are performed (05 R109). -/
def ringHand (fill : Bool) (x : Z1) (c : Ctx) (s : State) : Act :=
  if c.e = 0 then .done (orderOnly false true c s)
  else match smGet? (s.block c.core c.bi).rings (ringNo x) with
    | none => plainFault 0x0D c s
    | some r =>
      match if fill then r.filling else r.taken with
      | [] => .done (fenceAll c s (ordering false true 0))
      | i :: q =>
        let r := { r with slots := setAt r.slots i (if fill then 2 else 0), rel := smPut r.rel i (relBounds s c.members) }
        .done (putRing s c x (if fill then { r with filling := q } else { r with taken := q }))

/-- RINGADV (R327): the ring judges the index against the one it holds. The port sees the new one once the release is
complete (08 R175). -/
def bodyRingadv (x : Z1) (c : Ctx) (s : State) : Act :=
  let id := c.scal s x.a.toNat % 256
  let c' := c.scalPair s x.b.toNat
  if c.e ≠ 0 ∧ !(c.b.ringBase ≤ id ∧ id < c.b.ringBase + c.b.ringCount) then plainFault 0x0B c s
  else if c.e = 0 then .done (orderOnly false true c s)
  else
    let (p, k) := smGetD s.rings (0, 0) id
    let m := 2 ^ 64
    let ok := decide ((c' + m - k) % m ≤ (p + m - k) % m)
    let s := if ok then
        settleAdvs { s with rings := smPut s.rings id (p, c')
                            advs := s.advs ++ [{ ring := id, core := c.core, rels := relBounds s c.members, old := k, new := c' }] }
      else fenceAll c s (ordering false true 1)
    .done (c.result s 16 none (fun _ => []) [(fld x.mod 2 0, fun _ => ok)] 0)

def execRinit (w : Z1) (s : State) : Res := issue .rinit w (bodyRinit w) s
def execRfillGet (w : Z1) (s : State) : Res := issue .rfillGet w (ringClaim true w) s
def execRfill (w : Z1) (s : State) : Res := issue .rfill w (ringHand true w) s
def execRtake (w : Z1) (s : State) : Res := issue .rtake w (ringClaim false w) s
def execRtakeBack (w : Z1) (s : State) : Res := issue .rtakeBack w (ringHand false w) s
def execRingadv (w : Z1) (s : State) : Res := issue .ringadv w (bodyRingadv w) s

end Sys2Proof.Machine
end

