-- ==== Sys2Proof/Machine/Hash.lean ====
section
/-!
DEFINITION. The hash and the signature check of secure boot (25 R439), SHAKE256 and XMSS verification under the
parameter set XMSS-SHAKE256_20_256, and the decryption of ingest datagrams, AES-256-GCM (27 R458). The manual names them by
their standards (FIPS 202, RFC 8391, NIST SP 800-208; FIPS 197, SP 800-38D), from which they are written (log 9).
-/
namespace Sys2Proof.Machine

/-! ### SHAKE256 -/

/-- Round constants of the permutation Keccak-f[1600]. -/
def keccakRc : List (BitVec 64) :=
  [0x0000000000000001, 0x0000000000008082, 0x800000000000808A, 0x8000000080008000, 0x000000000000808B, 0x0000000080000001,
   0x8000000080008081, 0x8000000000008009, 0x000000000000008A, 0x0000000000000088, 0x0000000080008009, 0x000000008000000A,
   0x000000008000808B, 0x800000000000008B, 0x8000000000008089, 0x8000000000008003, 0x8000000000008002, 0x8000000000000080,
   0x000000000000800A, 0x800000008000000A, 0x8000000080008081, 0x8000000000008080, 0x0000000080000001, 0x8000000080008008]

/-- Rotations by lane, x + 5y. -/
def keccakRot : List Nat :=
  [0, 1, 62, 28, 27, 36, 44, 6, 55, 20, 3, 10, 43, 25, 39, 41, 45, 15, 21, 8, 18, 2, 61, 56, 14]

def lane (a : List (BitVec 64)) (x y : Nat) : BitVec 64 := (a[x % 5 + 5 * (y % 5)]?).getD 0
/-- The 25 lanes of a state by their coordinates. -/
def lanes25 (f : Nat → Nat → BitVec 64) : List (BitVec 64) := (List.range 25).map fun i => f (i % 5) (i / 5)

def keccakRound (a : List (BitVec 64)) (rc : BitVec 64) : List (BitVec 64) :=
  let cs := (List.range 5).map fun x => lane a x 0 ^^^ lane a x 1 ^^^ lane a x 2 ^^^ lane a x 3 ^^^ lane a x 4
  let col (x : Nat) : BitVec 64 := (cs[x % 5]?).getD 0
  let a := lanes25 fun x y => lane a x y ^^^ col (x + 4) ^^^ (col (x + 1)).rotateLeft 1
  let b := lanes25 fun x y => (lane a (x + 3 * y) x).rotateLeft ((keccakRot[(x + 3 * y) % 5 + 5 * x]?).getD 0)
  lanes25 fun x y => lane b x y ^^^ (~~~(lane b (x + 1) y) &&& lane b (x + 2) y) ^^^ if x = 0 ∧ y = 0 then rc else 0

def keccakF (a : List (BitVec 64)) : List (BitVec 64) := keccakRc.foldl keccakRound a

/-- The rate in bytes. -/
def shakeRate : Nat := 136

/-- Take in a block of the rate. -/
def shakeAbsorb (a : List (BitVec 64)) (blk : List Byte) : List (BitVec 64) :=
  keccakF (a.zipIdx.map fun p => p.1 ^^^ BitVec.ofNat 64 (ofBytes ((blk.drop (8 * p.2)).take 8)))

/-- Take in n blocks of a padded message. -/
def shakeAll : Nat → List (BitVec 64) → List Byte → List (BitVec 64)
  | 0, a, _ => a
  | n + 1, a, bs => shakeAll n (shakeAbsorb a (bs.take shakeRate)) (bs.drop shakeRate)

/-- Give n blocks of output. -/
def shakeGive : Nat → List (BitVec 64) → List Byte
  | 0, _ => []
  | n + 1, a => (a.flatMap fun x => toBytes 8 x.toNat).take shakeRate ++ shakeGive n (keccakF a)

/-- SHAKE256 of a message, with an output length in bytes. -/
def shake256 (m : List Byte) (n : Nat) : List Byte :=
  let k := shakeRate - 1 - m.length % shakeRate
  let m := if k = 0 then m ++ [0x9F] else m ++ 0x1F :: List.replicate (k - 1) 0 ++ [0x80]
  (shakeGive (n / shakeRate + 1) (shakeAll (m.length / shakeRate) (List.replicate 25 0) m)).take n

/-! ### XMSS-SHAKE256_20_256 -/

/-- A number as n bytes, the highest first. -/
def beBytes (n v : Nat) : List Byte := (toBytes n v).reverse

/-- The keyed hashes: 0 for F, 1 for H, 2 for H_msg, 3 for PRF. -/
def xmssHash (k : Nat) (key m : List Byte) : List Byte := shake256 (beBytes 32 k ++ key ++ m) 32

/-- A hash address: its type, and its words 4 to 7. -/
def xmssAdrs (ty w4 w5 w6 w7 : Nat) : List Byte :=
  List.replicate 12 0 ++ beBytes 4 ty ++ beBytes 4 w4 ++ beBytes 4 w5 ++ beBytes 4 w6 ++ beBytes 4 w7

def xorBytes (a b : List Byte) : List Byte := (a.zip b).map fun p => p.1 ^^^ p.2

/-- Hash two nodes into one; `adrs` gives the address for each key and mask. -/
def xmssNode (seed : List Byte) (adrs : Nat → List Byte) (l r : List Byte) : List Byte :=
  let prf (i : Nat) : List Byte := xmssHash 3 seed (adrs i)
  xmssHash 1 (prf 0) (xorBytes l (prf 1) ++ xorBytes r (prf 2))

/-- Steps i on of a WOTS+ chain. -/
def wotsChain (seed : List Byte) (ots chain : Nat) : Nat → Nat → List Byte → List Byte
  | 0, _, x => x
  | n + 1, i, x =>
    let prf (k : Nat) : List Byte := xmssHash 3 seed (xmssAdrs 0 ots chain i k)
    wotsChain seed ots chain n (i + 1) (xmssHash 0 (prf 0) (xorBytes x (prf 1)))

/-- The 67 digits of a 32-byte message with its checksum. -/
def wotsDigits (m : List Byte) : List Nat :=
  let nib (l : List Byte) : List Nat := l.flatMap fun b => [b.toNat / 16, b.toNat % 16]
  let d := nib m
  d ++ (nib (beBytes 2 ((d.map (15 - ·)).sum * 16))).take 3

/-- One level of an L-tree: pairs are hashed, an odd node rises. -/
def ltreeLevel (seed : List Byte) (leaf h : Nat) : Nat → List (List Byte) → List (List Byte)
  | i, l :: r :: t => xmssNode seed (xmssAdrs 1 leaf h i) l r :: ltreeLevel seed leaf h (i + 1) t
  | _, l => l

/-- Seven levels bring 67 nodes to one. -/
def ltree (seed : List Byte) (leaf : Nat) : Nat → Nat → List (List Byte) → List Byte
  | 0, _, l => l.head?.getD []
  | n + 1, h, l => ltree seed leaf n (h + 1) (ltreeLevel seed leaf h 0 l)

/-- From a leaf up an authentication path: index and height. -/
def xmssPath (seed : List Byte) : List (List Byte) → Nat → Nat → List Byte → List Byte
  | [], _, _, x => x
  | a :: r, i, h, x =>
    let adrs := xmssAdrs 2 0 h (i / 2)
    xmssPath seed r (i / 2) (h + 1) (if i % 2 = 0 then xmssNode seed adrs x a else xmssNode seed adrs a x)

/-- n parts of 32 bytes. -/
def parts32 : Nat → List Byte → List (List Byte)
  | 0, _ => []
  | n + 1, bs => bs.take 32 :: parts32 n (bs.drop 32)

/-- Verification (RFC 8391, 4.1.10) of a signature of 2,820 bytes on a message under a public key of 68. -/
def xmssVerify (key msg sig : List Byte) : Bool :=
  let root := (key.drop 4).take 32
  let seed := key.drop 36
  let idx := ofBytes (sig.take 4).reverse
  let h := xmssHash 2 ((sig.drop 4).take 32 ++ root ++ beBytes 32 idx) msg
  let ends := ((parts32 67 (sig.drop 36)).zip (wotsDigits h)).zipIdx.map fun p =>
    wotsChain seed idx p.2 (15 - p.1.2) p.1.2 p.1.1
  key.length == 68 && sig.length == 2820 && decide (idx < 2 ^ 20)
    && xmssPath seed (parts32 20 (sig.drop 2180)) idx 0 (ltree seed idx 7 0 ends) == root

/-- Bytes of exactly a length, as a standard fixes it. -/
def fitBytes (n : Nat) (l : List Byte) : List Byte := l.take n ++ List.replicate (n - l.length) 0

/-! ### AES-256-GCM (27 R458; FIPS 197, NIST SP 800-38D) -/

/-- The substitution table of AES. -/
def aesSbox : List Byte :=
  [0x63, 0x7C, 0x77, 0x7B, 0xF2, 0x6B, 0x6F, 0xC5, 0x30, 0x01, 0x67, 0x2B, 0xFE, 0xD7, 0xAB, 0x76] ++
  [0xCA, 0x82, 0xC9, 0x7D, 0xFA, 0x59, 0x47, 0xF0, 0xAD, 0xD4, 0xA2, 0xAF, 0x9C, 0xA4, 0x72, 0xC0] ++
  [0xB7, 0xFD, 0x93, 0x26, 0x36, 0x3F, 0xF7, 0xCC, 0x34, 0xA5, 0xE5, 0xF1, 0x71, 0xD8, 0x31, 0x15] ++
  [0x04, 0xC7, 0x23, 0xC3, 0x18, 0x96, 0x05, 0x9A, 0x07, 0x12, 0x80, 0xE2, 0xEB, 0x27, 0xB2, 0x75] ++
  [0x09, 0x83, 0x2C, 0x1A, 0x1B, 0x6E, 0x5A, 0xA0, 0x52, 0x3B, 0xD6, 0xB3, 0x29, 0xE3, 0x2F, 0x84] ++
  [0x53, 0xD1, 0x00, 0xED, 0x20, 0xFC, 0xB1, 0x5B, 0x6A, 0xCB, 0xBE, 0x39, 0x4A, 0x4C, 0x58, 0xCF] ++
  [0xD0, 0xEF, 0xAA, 0xFB, 0x43, 0x4D, 0x33, 0x85, 0x45, 0xF9, 0x02, 0x7F, 0x50, 0x3C, 0x9F, 0xA8] ++
  [0x51, 0xA3, 0x40, 0x8F, 0x92, 0x9D, 0x38, 0xF5, 0xBC, 0xB6, 0xDA, 0x21, 0x10, 0xFF, 0xF3, 0xD2] ++
  [0xCD, 0x0C, 0x13, 0xEC, 0x5F, 0x97, 0x44, 0x17, 0xC4, 0xA7, 0x7E, 0x3D, 0x64, 0x5D, 0x19, 0x73] ++
  [0x60, 0x81, 0x4F, 0xDC, 0x22, 0x2A, 0x90, 0x88, 0x46, 0xEE, 0xB8, 0x14, 0xDE, 0x5E, 0x0B, 0xDB] ++
  [0xE0, 0x32, 0x3A, 0x0A, 0x49, 0x06, 0x24, 0x5C, 0xC2, 0xD3, 0xAC, 0x62, 0x91, 0x95, 0xE4, 0x79] ++
  [0xE7, 0xC8, 0x37, 0x6D, 0x8D, 0xD5, 0x4E, 0xA9, 0x6C, 0x56, 0xF4, 0xEA, 0x65, 0x7A, 0xAE, 0x08] ++
  [0xBA, 0x78, 0x25, 0x2E, 0x1C, 0xA6, 0xB4, 0xC6, 0xE8, 0xDD, 0x74, 0x1F, 0x4B, 0xBD, 0x8B, 0x8A] ++
  [0x70, 0x3E, 0xB5, 0x66, 0x48, 0x03, 0xF6, 0x0E, 0x61, 0x35, 0x57, 0xB9, 0x86, 0xC1, 0x1D, 0x9E] ++
  [0xE1, 0xF8, 0x98, 0x11, 0x69, 0xD9, 0x8E, 0x94, 0x9B, 0x1E, 0x87, 0xE9, 0xCE, 0x55, 0x28, 0xDF] ++
  [0x8C, 0xA1, 0x89, 0x0D, 0xBF, 0xE6, 0x42, 0x68, 0x41, 0x99, 0x2D, 0x0F, 0xB0, 0x54, 0xBB, 0x16]

def aesSub (b : Byte) : Byte := (aesSbox[b.toNat]?).getD 0
/-- Twice a byte in the field of AES. -/
def aesDouble (b : Byte) : Byte := (b <<< 1) ^^^ if b.getLsbD 7 then 0x1B else 0

/-- The words of the key schedule after those of the key, newest first: word i of 60. -/
def aesExpand : Nat → Nat → Byte → List (List Byte) → List (List Byte)
  | 0, _, _, ws => ws
  | n + 1, i, rc, ws =>
    let t := (ws[0]?).getD []
    let rot := (t.drop 1 ++ t.take 1).map aesSub
    let t' := if i % 8 = 0 then xorBytes rot [rc, 0, 0, 0] else if i % 8 = 4 then t.map aesSub else t
    aesExpand n (i + 1) (if i % 8 = 0 then aesDouble rc else rc) (xorBytes ((ws[7]?).getD []) t' :: ws)

/-- The words of a key of 32 bytes. -/
def aesWords : Nat → List Byte → List (List Byte)
  | 0, _ => []
  | n + 1, bs => bs.take 4 :: aesWords n (bs.drop 4)

/-- The fifteen round keys. -/
def aesKeys (key : List Byte) : List (List Byte) :=
  let w := (aesExpand 52 8 1 (aesWords 8 key).reverse).reverse
  (List.range 15).map fun r => ((w.drop (4 * r)).take 4).flatten

/-- ShiftRows on a block, column by column. -/
def aesShift (b : List Byte) : List Byte := (List.range 16).map fun i => (b[(i + 4 * (i % 4)) % 16]?).getD 0
def aesMixCol : List Byte → List Byte
  | [a, b, c, d] =>
    let t := a ^^^ b ^^^ c ^^^ d
    [a ^^^ t ^^^ aesDouble (a ^^^ b), b ^^^ t ^^^ aesDouble (b ^^^ c), c ^^^ t ^^^ aesDouble (c ^^^ d), d ^^^ t ^^^ aesDouble (d ^^^ a)]
  | l => l
def aesMix (b : List Byte) : List Byte := (aesWords 4 b).flatMap aesMixCol

/-- One block enciphered under round keys. -/
def aesBlock (keys : List (List Byte)) (b : List Byte) : List Byte :=
  let k (r : Nat) : List Byte := (keys[r]?).getD []
  let s := (List.range 13).foldl (fun s r => xorBytes (aesMix (aesShift (s.map aesSub))) (k (r + 1))) (xorBytes b (k 0))
  xorBytes (aesShift (s.map aesSub)) (k 14)

def beNat (l : List Byte) : Nat := ofBytes l.reverse

/-- The product in GHASH's field of 128 bits, the highest bit the lowest power. -/
def gfMul : Nat → Nat → BitVec 128 → BitVec 128 → BitVec 128 → BitVec 128
  | 0, _, _, _, z => z
  | n + 1, i, x, v, z =>
    gfMul n (i + 1) x ((v >>> 1) ^^^ if v.getLsbD 0 then 0xE1000000000000000000000000000000 else 0) (if x.getMsbD i then z ^^^ v else z)

/-- GHASH of whole blocks. -/
def ghash (h : BitVec 128) : Nat → List Byte → BitVec 128 → BitVec 128
  | 0, _, y => y
  | n + 1, bs, y => ghash h n (bs.drop 16) (gfMul 128 0 (y ^^^ BitVec.ofNat 128 (beNat (bs.take 16))) h 0)

/-- The key stream of n blocks from a counter on. -/
def gcmStream (keys : List (List Byte)) (iv : List Byte) : Nat → Nat → List Byte
  | 0, _ => []
  | n + 1, c => aesBlock keys (iv ++ beBytes 4 c) ++ gcmStream keys iv n (c + 1)

def pad16 (l : List Byte) : List Byte := l ++ List.replicate ((16 - l.length % 16) % 16) 0

/-- The tag of a ciphertext with its additional data, under a vector of 96 bits. -/
def gcmTag (keys : List (List Byte)) (iv aad ct : List Byte) : List Byte :=
  let h := BitVec.ofNat 128 (beNat (aesBlock keys (List.replicate 16 0)))
  let m := pad16 aad ++ pad16 ct ++ beBytes 8 (8 * aad.length) ++ beBytes 8 (8 * ct.length)
  xorBytes (beBytes 16 (ghash h (m.length / 16) m 0).toNat) (aesBlock keys (iv ++ beBytes 4 1))

/-- The plaintext of a ciphertext, or nothing where the tag does not verify: as long as the ciphertext. -/
def gcmOpen (key : Nat) (iv aad ct tag : List Byte) : Option (List Byte) :=
  let keys := aesKeys (toBytes 32 key)
  if gcmTag keys iv aad ct = tag then some (xorBytes ct (gcmStream keys iv (ct.length / 16 + 1) 2)) else none

end Sys2Proof.Machine
end

