-- ==== Sys2Proof/Machine/Fabric.lean ====
section
/-!
DEFINITION. The fabric (08 R176 to R182, 16 R328 to R333, 27 R447 to R463): counted writes and flags, remote
reads and atomics, arrival counters, ports and windows, and ingest.
-/
namespace Sys2Proof.Machine

/-! ### Ports, peers and windows -/

def State.portOn (s : State) (p : Nat) : Bool := decide (p < 12) && (s.reg (portReg p 0)).getLsbD 31
def portBump (s : State) (p off : Nat) : State := s.bump64 (portCtr p off) 1

def peerRecords (s : State) (peer : Nat) : Bool := (s.reg (peerReg peer 0)).getLsbD 15

/-- An address in bits [47:16] of two words. -/
def pairAddr (lo hi : Word) : Nat := fld lo 31 16 * 2 ^ 16 + fld hi 15 0 * 2 ^ 32

/-- May a port's access reach this memory, given the secure bit of its window (25 R438)? -/
def portMem (s : State) (port pa : Nat) (bit : Bool) : Bool := s.worldOk (s.portSecure port) pa { secure := bit }

/-- Map n bytes at a received offset through the inbound windows (R453); every 64 KiB of them is judged. -/
def inWindow (s : State) (port off n : Nat) : Option Nat :=
  (List.range 64).findSome? fun i =>
    let w (k : Nat) : Word := s.reg (winReg i k)
    let first := pairAddr (w 2) (w 3)
    let last := pairAddr (w 4) (w 5)
    let pa := pairAddr (w 6) (w 7) + (off - first)
    if (w 0).getLsbD 31 && (w 0).getLsbD 30 == s.portSecure port && decide (first ≤ off) && decide (off + n ≤ last + 2 ^ 16)
      && (List.range (n / 2 ^ 16 + 2)).all (fun k => portMem s port (min (pa + 2 ^ 16 * k) (pa + n - 1)) ((w 0).getLsbD 30)) then some pa else none

/-- A packet was sent: the frame is counted and its delivery context is alive (R448, R456). -/
def sentFrame (s : State) (port peer : Nat) : State :=
  { portBump s port 0x80 with pdcs := smPut s.pdcs (4096 * port + peer) s.now }

/-- A port sends a packet ahead of its leaf; a disabled port sends nothing (R457). -/
def portSend (s : State) (port peer : Nat) (o : Out) : State := if s.portOn port then (sentFrame s port peer).emit o else s

/-- The entropy value of packet n of a burst (R450). -/
def entropy (s : State) (port n : Nat) : Nat :=
  let w := s.reg (portReg port 1)
  (fld w 31 16 + n % (fld w 15 8 + 1)) % 2 ^ 16

/-- May a port's engine reach an address outside any window (25 R438)? -/
def portReach (s : State) (port pa : Nat) : Bool := s.portSecure port || !s.secureMem pa
def portWrite (s : State) (port pa : Nat) (bs : List Byte) : State := if portReach s port pa then s.homeWrite pa bs else s

/-! ### Arrival counters (08 R178, R180; 27 R454) -/

def State.ctr (s : State) (k : Nat) : Ctr := smGetD s.ctrs {} k
def State.setCtr (s : State) (k : Nat) (c : Ctr) : State := { s with ctrs := smPut s.ctrs k c, waits := [] }
def ctrOn (s : State) (k : Nat) : Bool := (s.reg (ctrReg k 0)).getLsbD 31
def reached (count c : Nat) : Bool := decide ((count + 2 ^ 32 - c % 2 ^ 32) % 2 ^ 32 < 2 ^ 31)
def newer (j i : Nat) : Bool := let d := (j + 16 - i) % 16; decide (1 ≤ d) && decide (d ≤ 7)

def flagParked (s : State) (k : Nat) : Bool := s.parked.any fun p => p.flag.counter == k

/-- The pair an ACWAIT or ACREAD delivers (R180). -/
def ctrPair (s : State) (k : Nat) : List Word :=
  let c := s.ctr k
  [BitVec.ofNat 32 c.count, BitVec.ofNat 32 (c.inc % 16 + (if c.failed then 16 else 0) + (if flagParked s k then 32 else 0))]

/-- Does a waiting ACWAIT complete (16 R332)? -/
def ctrMet (c : Ctr) (t : Nat) : Bool := reached c.count t || c.released || c.failed

/-- Complete the waiting ACWAITs that p selects: each receives its pair and acquires, and may then issue (02 R40,
05 R113). -/
def completeWaits (s : State) (k : Nat) (p : Nat → Bool) : State :=
  let c := s.ctr k
  let go := c.waiters.filter fun w => p w.2.2
  if go.isEmpty then s
  else
    let v := ctrPair s k
    let s := s.setCtr k { c with waiters := c.waiters.filter (fun w => !p w.2.2), released := false }
    go.foldl (fun s w => acquireL1 (s.updWarp w.1 w.2.1 fun x => { x with acw := some ((v[0]?).getD 0, (v[1]?).getD 0) }) w.1 2) { s with waits := [] }

/-- ACWAIT_COMPLETE. -/
def execAcwaitComplete (counter : Nat) (s : State) : Res := .next (completeWaits s counter (ctrMet (s.ctr counter)))

/-- Is the counter granted to the block's launch (22 R385)? -/
def ctrGranted (b : Block) (k : Nat) : Bool := decide (b.ctrBase ≤ k) && decide (k < b.ctrBase + b.ctrCount)

/-- ACWAIT waits, in the counter's list of 64, and issues once it has completed (02 R40, 16 R332; log 44). One that completes at
once completes with all that wait. -/
def bodyAcwait (x : Z1) (c : Ctx) (s : State) : Act :=
  let k := c.scal s x.a.toNat % 2 ^ 14
  let t := c.scal s x.b.toNat
  let pass (s : State) (v : List Word) : Act :=
    .done (valueOp c (s.updWarp c.core c.slot fun w => { w with acw := none }) x.d.toNat 2 (fun _ => v) 0)
  if c.e = 0 then .done (orderOnly true false c s)
  else if !ctrGranted c.b k then plainFault 0x0B c s
  else match c.w.acw with
    | some v => pass s [v.1, v.2]
    | none =>
      let r := s.ctr k
      if ctrMet r t then
        let s' := completeWaits s k (ctrMet r)
        pass (acquireL1 (s'.setCtr k { s'.ctr k with released := false }) c.core 2) (ctrPair s k)
      else if r.waiters.any (fun w => w.1 == c.core && w.2.1 == c.slot) || decide (64 ≤ r.waiters.length) then .wait s
      else .wait (s.setCtr k { r with waiters := r.waiters ++ [(c.core, c.slot, t)] })

def bodyAcread (x : Z1) (c : Ctx) (s : State) : Act :=
  let k := c.scal s x.a.toNat % 2 ^ 14
  if c.e = 0 then .done s
  else if !ctrGranted c.b k then plainFault 0x0B c s
  else .done (valueOp c s x.d.toNat 2 (fun _ => ctrPair s k) 0)

def execAcwait (w : Z1) (s : State) : Res := issue .acwait w (bodyAcwait w) s
def execAcread (w : Z1) (s : State) : Res := issue .acread w (bodyAcread w) s

/-- A write of word 0 of a counter's descriptor (R454). -/
def writeCtr0 (s : State) (k : Nat) (v : Word) : State :=
  let off := ctrReg k 0
  let on := ctrOn s k
  if !on then
    let s := s.setReg off (v &&& 0x8000FFFF)
    if v.getLsbD 31 then s.setCtr k { waiters := (s.ctr k).waiters } else s
  else if v.getLsbD 31 then s
  else
    let s := s.setReg off (s.reg off &&& 0x7FFFFFFF)
    let s := { s with parked := s.parked.filter fun p => p.flag.counter != k }
    let s := s.setCtr k { s.ctr k with failed := true }
    completeWaits s k fun _ => true

def execCounterEnable (counter : Nat) (val : Word) (s : State) : Res :=
  if counter < 16384 then .next (writeCtr0 s counter val) else .next s
def execCounterDisable (counter : Nat) (val : Word) (s : State) : Res :=
  if counter < 16384 then .next (writeCtr0 s counter val) else .next s

/-! ### Send records (08 R177, 27 R452) -/

def sendKey (port slot counter : Nat) : Nat := (64 * port + slot) * 16384 + counter
def peerSlot (s : State) (peer : Nat) : Nat := fld (s.reg (peerReg peer 0)) 5 0
def pairKey (s : State) (peer counter : Nat) : Nat := sendKey (s.homePort peer) (peerSlot s peer) counter
def recordsBase (s : State) (port : Nat) : Nat := fld (s.reg (portReg port 12)) 31 12 * 2 ^ 12 + fld (s.reg (portReg port 13)) 15 0 * 2 ^ 32

/-- Has an FXW bytes still to send? -/
def FxwRec.unsent (w : FxwRec) : Bool := decide (w.sent < w.len)

/-- The record of a pair: cached in the port, else as memory holds it, where the port may read it. One that the driver has
changed while the port was disabled is reinitialised: a failed pair's notice and the writes already sent are forgotten (R452,
21 R380). -/
def State.send (s : State) (key peer : Nat) : SendRec :=
  let a := recordsBase s (key / 2 ^ 20) + 16 * (key % 2 ^ 20)
  let get (o n : Nat) : Nat := if portReach s (key / 2 ^ 20) a then s.memNat (a + o) n else 0
  let b := get 4 1
  let m : SendRec := { peer := peer, count := get 0 4, inc := b % 16, failed := b / 16 % 2 == 1 }
  match smGet? s.sends key with
  | none => m
  | some r =>
    if !r.flushed then r
    else if m.count = r.count ∧ m.inc = r.inc ∧ m.failed = r.failed then { r with flushed := false }
    else { m with fxws := r.fxws.filter FxwRec.unsent, flags := r.flags }
def State.setSend (s : State) (key : Nat) (r : SendRec) : State := { s with sends := smPut s.sends key r }
def State.updSend (s : State) (key : Nat) (f : SendRec → SendRec) : State :=
  match smGet? s.sends key with
  | some r => s.setSend key (f r)
  | none => s

/-- Write a port's records back when it is disabled; those with nothing outstanding leave its cache. -/
def flushSends (s : State) (port : Nat) : State :=
  let mine := s.sends.filter fun e => e.1 / 2 ^ 20 == port
  let s := mine.foldl (fun s e =>
    portWrite s port (recordsBase s port + 16 * (e.1 % 2 ^ 20))
      (toBytes 4 e.2.count ++ toBytes 12 (e.2.inc % 16 + if e.2.failed then 16 else 0))) s
  { s with sends := (s.sends.filter fun e => e.1 / 2 ^ 20 != port || !e.2.fxws.isEmpty || !e.2.flags.isEmpty || e.2.notice).map fun e =>
      if e.1 / 2 ^ 20 = port then (e.1, { e.2 with flushed := true }) else e }

/-- A port that is enabled again takes its kept records as memory holds them. -/
def loadSends (s : State) (port : Nat) : State :=
  { s with sends := s.sends.map fun e => if e.1 / 2 ^ 20 = port then (e.1, s.send e.1 e.2.peer) else e }

/-- Push the data packets of an FXW, split at every remote 4,096 bytes (R450, R457). -/
def pushData (s : State) (key : Nat) (f : FxwRec) : State :=
  let port := key / 2 ^ 20
  let cuts := (List.range (f.len / 4096 + 3)).map fun i => if i = 0 then 0 else min f.len (4096 * (f.off / 4096 + i) - f.off)
  (cuts.zip (cuts.drop 1)).foldl (fun s p =>
    if p.2 ≤ p.1 then s
    else
      let (id, s) := s.fresh
      pushFormed s (port / 6) (egressLeaf port)
        { f.task with id := id, length := p.2 - p.1, rank := 0, body := .packet (.data key f.id p.1 (p.2 - p.1)) }) s

/-- Push the flags of a pair whose counted writes have all been sent (16 R330). -/
def pushFlags (s : State) (key : Nat) : State :=
  match smGet? s.sends key with
  | none => s
  | some r =>
    let go := r.flags.filter fun f => !f.queued && r.fxws.all fun w => decide (f.id < w.id) || decide (w.len ≤ w.sent)
    let s := s.updSend key fun r => { r with flags := r.flags.map fun f => if go.any (fun g => g.id == f.id) then { f with queued := true } else f }
    go.foldl (fun s f =>
      let (id, s) := s.fresh
      let port := key / 2 ^ 20
      pushFormed s (port / 6) (egressLeaf port) { f.task with id := id, length := 4, rank := 0, body := .packet (.flag key f.id) }) s

/-- Discard the queued packets of a pair. -/
def dropPackets (s : State) (key : Nat) (p : Pkt → Bool) : State :=
  dropTasks s fun x => match x.body with
    | .packet (.data k f o n) => k == key && p (.data k f o n)
    | .packet (.flag k f) => k == key && p (.flag k f)
    | _ => false

/-- The pair fails: every unacknowledged flag completes with kind 4, the writes already sent are forgotten, and one
notice is sent, or held for the next flag (16 R330). -/
def failPair (s : State) (key : Nat) : State :=
  match smGet? s.sends key with
  | none => s
  | some r =>
    if r.failed then s
    else
      let port := key / 2 ^ 20
      let s := dropPackets s key fun p => match p with | .flag _ _ => true | _ => false
      let s := s.setSend key { r with failed := true, flags := [], notice := r.flags.isEmpty || !s.portOn port, fxws := r.fxws.filter FxwRec.unsent }
      let s := match r.flags with
        | [] => s
        | f :: _ => portSend s port r.peer (.notice port r.peer
            { src := port, counter := key % 16384, key := f.key, inc := r.inc, count := r.count, off := f.off })
      r.flags.foldl (fun s f => landStatus s f.core f.id f.dst f.members (statusWord 4 0 f.resends r.inc)) s

/-! ### Counted writes and flags at issue (16 R328 to R330) -/

/-- The seven scalars of a fabric descriptor. -/
def fxScal (x : Z1) (c : Ctx) (s : State) (k : Nat) : Nat := c.scal s (x.a.toNat + k)
def fxPair (x : Z1) (c : Ctx) (s : State) (k : Nat) : Nat := c.scalPair s (x.a.toNat + k)

/-- The fabric_bounds checks of R328 on a range of n bytes. -/
def fxBad (s : State) (peerW off n : Nat) : Bool :=
  let peer := peerW % 4096
  peerW / 4096 != 0 || !s.peerOn peer || decide (2 ^ 22 < n) || decide (peerLimit s peer < off + n)

/-- A fabric packet's task from the block's rank context (R457). -/
def fxTask (c : Ctx) (s : State) : Task × State := formTask s c.core c.b 3 0 0x1FF (.packet (.readReq 0))

def bodyFxw (x : Z1) (c : Ctx) (s : State) : Act :=
  let off := fxPair x c s 0
  let src := fxPair x c s 2
  let len := fxScal x c s 4
  let pw := fxScal x c s 5
  let kw := fxScal x c s 6
  let peer := pw % 4096
  if c.e = 0 then .done (orderOnly false true c s)
  else if fxBad s pw off len || kw / 2 ^ 14 % 4 != 0 || !peerRecords s peer then plainFault 0x11 c s
  else
    let key := pairKey s peer (kw % 2 ^ 14)
    let port := s.homePort peer
    if (s.sends.filter fun e => e.1 / 2 ^ 20 == port).foldl (fun a e => a + e.2.fxws.length) 0 ≥ 16384 then .wait s
    else
      let (id, s) := s.fresh
      let s := expectAll (moveCnt s c.core c.members .copies true) c.core c.members id [x.d.toNat]
      if len = 0 then .done (landStatus (fenceAll c s (ordering false true 1)) c.core id x.d.toNat c.members (statusWord 1 0 0 0))
      else
        let (t, s) := fxTask c s
        let f : FxwRec := { id := id, key := kw / 2 ^ 16, off := off, src := src, len := len, fn := c.b.fn, task := t, core := c.core
                            dst := x.d.toNat, members := c.members, rels := relBounds s c.members }
        let r := s.send key peer
        let s := s.setSend key { r with peer := peer, count := (r.count + len) % 2 ^ 32, fxws := r.fxws ++ [f] }
        .done (pushData s key f)

def bodyFxflag (x : Z1) (c : Ctx) (s : State) : Act :=
  let off := fxPair x c s 0
  let v := fxScal x c s 4
  let pw := fxScal x c s 5
  let kw := fxScal x c s 6
  let peer := pw % 4096
  if c.e = 0 then .done (orderOnly false true c s)
  else if off % 4 ≠ 0 then addrFault 0x09 off c s
  else if fxBad s pw off 4 || kw / 2 ^ 14 % 4 != 0 || !peerRecords s peer || v == 0xFFFFFFFF then plainFault 0x11 c s
  else
    let key := pairKey s peer (kw % 2 ^ 14)
    let port := s.homePort peer
    let r := { s.send key peer with peer := peer }
    let (id, s) := s.fresh
    let s := expectAll (moveCnt s c.core c.members .copies true) c.core c.members id [x.d.toNat]
    if r.failed then
      let s := fenceAll c (s.setSend key { r with notice := r.notice && !s.portOn port }) (ordering false true 1)
      let s := if r.notice then portSend s port peer (.notice port peer
          { src := port, counter := key % 16384, key := kw / 2 ^ 16, inc := r.inc, count := r.count, off := off }) else s
      .done (landStatus s c.core id x.d.toNat c.members (statusWord 4 0 0 r.inc))
    else
      let (t, s) := fxTask c s
      let f : FlagRec := { id := id, key := kw / 2 ^ 16, off := off, value := BitVec.ofNat 32 v, count := r.count, task := t, core := c.core
                           dst := x.d.toNat, members := c.members, rels := relBounds s c.members }
      .done (pushFlags (s.setSend key { r with flags := r.flags ++ [f] }) key)

def execFxw (w : Z1) (s : State) : Res := issue .fxw w (bodyFxw w) s
def execFxflag (w : Z1) (s : State) : Res := issue .fxflag w (bodyFxflag w) s

/-! ### Remote reads and atomics at issue (16 R331, R333) -/

def bodyFxrd (x : Z1) (c : Ctx) (s : State) : Act :=
  let off := fxPair x c s 0
  let dst := fxPair x c s 2
  let len := fxScal x c s 4
  let pw := fxScal x c s 5
  if c.e = 0 then .done s
  else if fxBad s pw off len then plainFault 0x11 c s
  else
    let (id, s) := s.fresh
    let s := expectAll (moveCnt s c.core c.members .copies true) c.core c.members id [x.d.toNat]
    if len = 0 then .done (landStatus s c.core id x.d.toNat c.members (statusWord 1 0 0 0))
    else
      let (t, s) := fxTask c s
      let op : CopyOp := { id := id, core := c.core, block := c.bi, kind := .fxrd dst len (pw % 4096) off, dst := x.d.toNat
                           members := c.members, rels := [], bytes := len, segMax := len, pushed := len, task := t, iaddr := c.addr }
      let s := askLines { s with copies := s.copies ++ [op] } id
      let req : RemoteReq := { src := c.core, tag := 0, off := off, len := len, op := 0, ty := .b32, a := 0, b := 0 }
      .done (sendRemote s c.core c.b (pw % 4096) req (.copy id) [] (relBounds s c.members) 0 0).2

def bodyFxatom (x : Z1) (c : Ctx) (s : State) : Act :=
  let n := x.ty.width / 8
  let off := fxPair x c s 0
  let pw := fxScal x c s 6
  let acq : Bool := fld x.mod 3 3 = 1
  let rel : Bool := fld x.mod 4 4 = 1
  let val (k : Nat) : Nat := if n = 8 then fxPair x c s k else fxScal x c s k
  if c.e = 0 then .done (orderOnly acq rel c s)
  else if off % n ≠ 0 then addrFault 0x09 off c s
  else if fxBad s pw off n then plainFault 0x11 c s
  else
    let mine := relBounds s c.members
    let s := expectAll (moveCnt s c.core c.members .copies true) c.core c.members s.nextId (dstRegs (some x.d.toNat) 4)
    let req : RemoteReq := { src := c.core, tag := 0, off := off, len := 0, op := BitVec.ofNat 3 (fld x.mod 2 0), ty := x.ty
                             a := val 2, b := val 4 }
    .done (sendRemote s c.core c.b (pw % 4096) req (.atom c.slot x.d.toNat c.low c.members acq) (if rel then mine else []) mine
      (if rel then 2 else 0) n).2

def execFxrd (w : Z1) (s : State) : Res := issue .fxrd w (bodyFxrd w) s
def execFxatom (w : Z1) (s : State) : Res := issue .fxatom w (bodyFxatom w) s

/-! ### Egress (27 R457) -/

def findSend (s : State) (key : Nat) : Option SendRec := smGet? s.sends key

/-- Can the port take the head packet now? -/
def egressReady (s : State) (port : Nat) : Bool :=
  s.portOn port &&
  match (s.queue (port / 6) true (egressLeaf port)).head? with
  | none => false
  | some x => match x.body with
    | .packet (.data key f _ _) => match (findSend s key).bind fun r => r.fxws.find? fun w => w.id == f with
      | some w => drained s w.core w.rels && !engineBusy s w.id
      | none => true
    | .packet (.flag key f) => match (findSend s key).bind fun r => r.flags.find? fun w => w.id == f with
      | some w => drained s w.core w.rels
      | none => true
    | .packet (.readReq t) | .packet (.atomReq t) => match smGet? s.remote t with
      | some r => drained s r.core r.rels && r.after.all fun a => !acqPending s r.core a.1 a.2
      | none => true
    | _ => true

/-- One FXW's bytes go out: at its last byte its status word lands. -/
def sentBytes (s : State) (key id n : Nat) : State :=
  match (findSend s key).bind fun r => r.fxws.find? fun w => w.id == id with
  | none => s
  | some w =>
    let done := decide (w.len ≤ w.sent + n)
    let s := s.updSend key fun r => { r with fxws := r.fxws.map fun v => if v.id = id then { v with sent := v.sent + n, landed := v.landed || done } else v }
    let s := s.updSend key fun r => if r.failed then { r with fxws := r.fxws.filter FxwRec.unsent } else r
    let s := if done && !w.landed then landStatus s w.core w.id w.dst w.members (statusWord 1 0 0 0) else s
    if done then pushFlags s key else s

/-- A source read failed: the FXW ends with the code, its bytes are not sent, and the pair fails (R329). -/
def failSource (s : State) (key id code : Nat) : State :=
  match (findSend s key).bind fun r => r.fxws.find? fun w => w.id == id with
  | none => s
  | some w =>
    let s := dropPackets s key fun p => match p with | .data _ f _ _ => f == id | _ => false
    let s := if w.landed then s else landStatus s w.core w.id w.dst w.members (statusWord 5 code 0 0)
    let s := s.updSend key fun r => { r with fxws := r.fxws.filter fun v => v.id != id }
    failPair s key

/-- EGRESS_PACKET_SEND: the port takes the head packet, reads its payload and sends it. -/
def execEgressPacketSend (port : Nat) (s : State) : Res :=
  if !egressReady s port then .next s
  else
    let take (s : State) : State := match takeHead s (port / 6) (egressLeaf port) with
      | some (x, s) => (freed s (port / 6) true (egressLeaf port)).act (2 + x.tenant) 3 1
      | none => s
    match (s.queue (port / 6) true (egressLeaf port)).head? with
    | none => .next s
    | some x => match x.body with
      | .packet (.data key f o n) => match findSend s key with
        | none => .next (take s)
        | some r => match r.fxws.find? fun w => w.id == f with
          | none => .next (take s)
          | some w =>
            let s := releaseL1 s w.core 1
            match engRead s w.core w.fn (s.portSecure port) w.id (w.src + o) n with
            | ((.wait, _), s) => .next s
            | ((.bad code, _), s) => .next (failSource (take s) key f code)
            | ((.ok _ _, bs), s) =>
              let p : DataPacket := { src := port, counter := key % 16384, key := w.key, inc := r.inc, off := w.off + o, bytes := bs }
              .next (sentBytes ((sentFrame (take s) port r.peer).emit (.data port r.peer (entropy s port ((w.off + o) / 4096 - w.off / 4096)) p)) key f n)
      | .packet (.flag key f) => match findSend s key with
        | none => .next (take s)
        | some r => match r.flags.find? fun w => w.id == f with
          | none => .next (take s)
          | some w =>
            let s := releaseL1 s w.core 1
            if wbWaits s w.core then .next s else
            let s := take s
            let p : FlagPacket := { src := port, counter := key % 16384, key := w.key, inc := r.inc, count := w.count, off := w.off, value := w.value }
            let s := (sentFrame s port r.peer).emit (.flag port r.peer p)
            .next (s.updSend key fun r => { r with flags := r.flags.map fun v =>
              if v.id = f then { v with due := some (s.now + 2 * tLostClk s) } else v })
      | .packet (.readReq t) | .packet (.atomReq t) => match smGet? s.remote t with
        | none => .next (take s)
        | some r =>
          let s := releaseL1 s r.core r.share
          if decide (1 ≤ r.share) && wbWaits s r.core then .next s else
          let s := take s
          let s := (sentFrame s port r.peer).emit (.remote port r.peer r.req)
          .next { s with remote := smPut s.remote t { r with due := some (s.now + tLostClk s) } }
      | _ => .next (take s)

/-! ### Answers to the sender (16 R330) -/

/-- The record a control packet from a peer names. -/
def ctlRecord (s : State) (port : Nat) (p : CtlPacket) : Option (Nat × SendRec) :=
  s.sends.find? fun e => e.1 / 2 ^ 20 == port && e.1 % 16384 == p.counter && e.2.peer == p.src

/-- FLAG_ACK_ARRIVE: this flag and every earlier one of the pair are acknowledged; the writes they cover are
forgotten. -/
def execFlagAckArrive (port : Nat) (p : CtlPacket) (s : State) : Res :=
  if !s.portOn port then .next s
  else
    let s := portBump s port 0x88
    match ctlRecord s port p with
    | none => .next s
    | some (key, r) => match r.flags.find? fun f => f.count == p.count && f.off == p.off with
      | none => .next s
      | some f =>
        if p.inc ≠ r.inc ∨ r.failed then .next s
        else
          let s := dropPackets s key fun q => match q with | .flag _ g => decide (g ≤ f.id) | _ => false
          let s := s.setSend key { r with flags := r.flags.filter (fun g => decide (f.id < g.id)), fxws := r.fxws.filter fun w => decide (f.id < w.id) }
          .next ((r.flags.filter fun g => decide (g.id ≤ f.id)).foldl (fun s g =>
            landStatus s g.core g.id g.dst g.members (statusWord 3 0 g.resends r.inc)) s)

/-- SHORTFALL_ARRIVE, for a flag that is unacknowledged (21 R381): everything since the last acknowledged flag is resent under the next incarnation, or
after two resends the pair fails. -/
def execShortfallArrive (port : Nat) (p : CtlPacket) (s : State) : Res :=
  if !s.portOn port then .next s
  else
    let s := portBump s port 0x88
    match ctlRecord s port p with
    | none => .next s
    | some (key, r) =>
      if p.inc ≠ r.inc ∨ r.failed ∨ !r.flags.any (fun f => f.off == p.off && f.count == p.want) then .next s
      else if r.flags.any fun f => decide (2 ≤ f.resends) then .next (failPair s key)
      else
        let upTo (id : Nat) : Nat := (r.fxws.filter fun w => decide (w.id < id)).foldl (fun a w => a + w.len) 0
        let s := dropPackets s key fun _ => true
        let fx := r.fxws.map fun w => { w with sent := 0 }
        let fl := r.flags.map fun f => { f with resends := f.resends + 1, count := upTo f.id % 2 ^ 32, queued := false, due := none }
        let total := r.fxws.foldl (fun a w => a + w.len) 0
        let s := s.setSend key { r with inc := (r.inc + 1) % 16, count := total % 2 ^ 32, fxws := fx, flags := fl }
        .next (pushFlags (fx.foldl (fun s w => pushData s key w) s) key)

/-- FLAG_RESEND_TIMER: a flag that no answer reached within 2 x T_lost is sent again alone. -/
def execFlagResendTimer (send : Nat) (s : State) : Res :=
  match findSend s send with
  | none => .next s
  | some r =>
    if r.flags.any fun f => f.due.any (· ≤ s.now) then
      .next (pushFlags (s.setSend send { r with flags := r.flags.map fun f => if f.due.any (· ≤ s.now) then { f with queued := false, due := none } else f }) send)
    else .next s

/-! ### The receiving port (08 R178, 27 R453 to R455) -/

/-- Why a packet of a counter is dropped before it touches memory: the port counter it moves, or none. -/
def ctrDrop (s : State) (counter key inc : Nat) : Option (Option Nat) :=
  let c := s.ctr counter
  if !ctrOn s counter || fld (s.reg (ctrReg counter 0)) 15 0 != key then some (some 0x98)
  else if c.failed then some none
  else if inc != c.inc && !newer inc c.inc then some (some 0x90)
  else none

/-- A newer incarnation clears the count and discards the parked flags. -/
def adoptInc (s : State) (counter inc : Nat) : State :=
  let c := s.ctr counter
  if inc = c.inc then s
  else { (s.setCtr counter { c with inc := inc, count := 0, last := none }) with
         parked := s.parked.filter fun p => p.flag.counter != counter }

/-- Release a flag: written, acknowledged, waiters woken. -/
def releaseFlag (s : State) (port pa : Nat) (f : FlagPacket) : State :=
  let s := s.homeWrite pa (toBytes 4 f.value.toNat)
  let c := s.ctr f.counter
  let s := s.setCtr f.counter { c with released := true, last := some (f.count, f.off) }
  portSend s port f.src (.ack port f.src { src := port, counter := f.counter, key := f.key, inc := f.inc, count := f.count, off := f.off })

/-- Does what another agent does to n bytes wait at a home for a copy (05 R110)? Then it joins those that wait; it is
done again from its start once the copy has released the line, in the order in which it reached the home. -/
def waitHeld (s : State) (pa n : Nat) (i : Instr) : Option State :=
  ((List.range (n / 128 + 2)).find? fun k => decide (lineOf pa + k ≤ lineOf (pa + n - 1)) && lineHeld s none (lineOf pa + k)).map
    fun k => addWaiter s (lineOf pa + k) (.event i)

/-- Release every parked flag whose count is reached. -/
def releaseParked (s : State) (counter : Nat) : State :=
  (s.parked.filter fun p => p.flag.counter == counter && reached (s.ctr counter).count p.flag.count).foldl (fun s p =>
    let s := { s with parked := s.parked.filter (· != p) }
    match inWindow s p.port p.flag.off 4 with
    | some pa => (waitHeld s pa 4 (.flagArrive p.port p.flag)).getD (releaseFlag s p.port pa p.flag)
    | none => s) s

/-- An FXW packet that a port has received (R178). -/
def fxwGo (port : Nat) (p : DataPacket) (s : State) : State :=
  match ctrDrop s p.counter p.key p.inc with
  | some (some off) => portBump s port off
  | some none => s
  | none => match inWindow s port p.off p.bytes.length with
    | none => portBump s port 0xA0
    | some pa => match waitHeld s pa p.bytes.length (.fxwPacketArrive port p) with
      | some s => s
      | none =>
        let s := (adoptInc s p.counter p.inc).homeWrite pa p.bytes
        let c := s.ctr p.counter
        releaseParked (s.setCtr p.counter { c with count := (c.count + p.bytes.length) % 2 ^ 32 }) p.counter

/-- A flag that a port has received (R178). -/
def flagGo (port : Nat) (p : FlagPacket) (s : State) : State :=
  match ctrDrop s p.counter p.key p.inc with
  | some (some off) => portBump s port off
  | some none => s
  | none => match inWindow s port p.off 4 with
    | none => portBump s port 0xA0
    | some pa =>
      let s := adoptInc s p.counter p.inc
      let c := s.ctr p.counter
      if c.last = some (p.count, p.off) then
        portSend s port p.src (.ack port p.src { src := port, counter := p.counter, key := p.key, inc := p.inc, count := p.count, off := p.off })
      else if reached c.count p.count then (waitHeld s pa 4 (.flagArrive port p)).getD (releaseFlag s port pa p)
      else if s.parked.any fun q => q.flag == p then s
      else if 4096 ≤ s.parked.length then portBump s port 0xA8
      else { s with waits := [], parked := s.parked ++ [{ flag := p, port := port, due := s.now + tLostClk s }] }

/-- FXW_PACKET_ARRIVE. -/
def execFxwPacketArrive (port : Nat) (p : DataPacket) (s : State) : Res :=
  if !s.portOn port then .next s else .next (fxwGo port p (portBump s port 0x88))

/-- FLAG_ARRIVE. -/
def execFlagArrive (port : Nat) (p : FlagPacket) (s : State) : Res :=
  if !s.portOn port then .next s else .next (flagGo port p (portBump s port 0x88))

/-- PENDING_FLAG_TIMER: shortfalls for the parked flags of a counter whose time has passed. -/
def execPendingFlagTimer (counter : Nat) (s : State) : Res :=
  let due := s.parked.filter fun p => p.flag.counter == counter && decide (p.due ≤ s.now)
  let c := s.ctr counter
  let s := due.foldl (fun s p => portSend s p.port p.flag.src (.shortfall p.port p.flag.src
    { src := p.port, counter := counter, key := p.flag.key, inc := c.inc, count := c.count, off := p.flag.off, want := p.flag.count })) s
  .next { s with parked := s.parked.map fun p => if due.contains p then { p with due := s.now + tLostClk s } else p }

/-- FAILURE_NOTICE_ARRIVE: the counter fails and the failure value is written, also where it has failed before (log 55). -/
def execFailureNoticeArrive (port : Nat) (p : CtlPacket) (s : State) : Res :=
  if !s.portOn port then .next s
  else
    let s := portBump s port 0x88
    if !ctrOn s p.counter || fld (s.reg (ctrReg p.counter 0)) 15 0 != p.key then .next (portBump s port 0x98)
    else
      let s := match inWindow s port p.off 4 with
        | some pa => devWrite s pa (toBytes 4 0xFFFFFFFF)
        | none => portBump s port 0xA0
      let s := { s with parked := s.parked.filter fun q => q.flag.counter != p.counter }
      .next ((s.setCtr p.counter { s.ctr p.counter with failed := true }).emit (.driver 1 p.counter))

/-! ### Remote requests of other devices (05 R114, 08 R181, R182) -/

/-- A remote read is performed at the home, and answered in packets split as R450 states. -/
def remReadGo (port : Nat) (r : RemoteReq) (s : State) : State :=
  match inWindow s port r.off r.len with
  | none => portBump s port 0xA0
  | some pa => match waitHeld s pa r.len (.remoteReadRequest port r) with
    | some s => s
    | none =>
      let n := (r.off + r.len - 1) / 4096 - r.off / 4096 + 1
      ((List.range n).foldl (fun s i =>
        let lo := if i = 0 then 0 else 4096 * (r.off / 4096 + i) - r.off
        let hi := min r.len (4096 * (r.off / 4096 + i + 1) - r.off)
        if (List.range (hi - lo)).any fun k => s.poisoned (pa + lo + k) then s
        else portSend s port r.src (.readReply port r.src r.tag i (entropy s port i) (readBytes s (pa + lo) (hi - lo)))) s)

/-- REMOTE_READ_REQUEST. -/
def execRemoteReadRequest (port : Nat) (r : RemoteReq) (s : State) : Res :=
  if !s.portOn port then .next s else .next (remReadGo port r (portBump s port 0x88))

/-- A remote atomic is applied once; a reissue is answered from the reply cache, which keeps each result for
4 x T_lost. -/
def remAtomicGo (port : Nat) (r : RemoteReq) (s : State) : State :=
  let s := { s with replyCache := s.replyCache.filter fun q => decide (s.now < q.2.2.2) }
  match s.replyCache.find? fun q => q.1 == r.src && q.2.1 == r.tag with
  | some q => portSend s port r.src (.atomReply port r.src r.tag q.2.2.1)
  | none =>
    let n := r.ty.width / 8
    match inWindow s port r.off n with
    | none => portBump s port 0xA0
    | some pa => match waitHeld s pa n (.remoteAtomicRequest port r) with
      | some s => s
      | none =>
        if s.poisoned pa then s
        else
          let old := s.memNat pa n
          let s := match atomNew r.op.toNat r.ty old r.a r.b with
            | some v => s.homeWrite pa (toBytes n v)
            | none => s
          let s := { s with replyCache := s.replyCache ++ [(r.src, r.tag, old, s.now + 4 * tLostClk s)] }
          portSend s port r.src (.atomReply port r.src r.tag old)

/-- REMOTE_ATOMIC_REQUEST. -/
def execRemoteAtomicRequest (port : Nat) (r : RemoteReq) (s : State) : Res :=
  if !s.portOn port then .next s else .next (remAtomicGo port r (portBump s port 0x88))

/-! ### Replies to this device -/

def dropRemote (s : State) (tag : Nat) : State := { s with remote := smDel s.remote tag, waits := [] }

/-- A tag of an operation has been answered. -/
def answered (s : State) (core slot op tag : Nat) : State :=
  let s := s.updWarp core slot fun w => { w with ops := w.ops.map fun p => if p.id = op then { p with remote := p.remote.filter (· != tag) } else p }
  finishIfDone s core slot op

/-- The requests of one part of an operation: those of its lanes on one page of a peer (04 R92). -/
def partTags (s : State) (r : RemOut) : List (Nat × RemOut) :=
  match r.who with
  | .lane slot op _ _ => s.remote.filter fun e => e.2.core == r.core && e.2.peer == r.peer && e.2.req.off / 2 ^ 16 == r.req.off / 2 ^ 16 &&
      (match e.2.who with | .lane sl o _ _ => sl == slot && o == op | _ => false)
  | _ => []

/-- A lane's answer arrives: with the last one of its part every lane of the part completes. -/
def laneAnswer (s : State) (tag slot op : Nat) (r : RemOut) (bs : List Byte) : State :=
  match findOp s r.core slot op with
  | none => dropRemote s tag
  | some o =>
    let s := { s with remote := smPut s.remote tag { r with val := some bs, due := none }, waits := [] }
    let part := partTags s r
    if part.any fun e => e.2.val.isNone then s
    else
      let give (s : State) (e : Nat × RemOut) : State :=
        let v := e.2.val.getD []
        match e.2.who with
        | .lane _ _ l _ => giveLane s r.core o l (if o.kind = .load then loadWords o.ty o.size v else wrT o.ty (rdT o.ty (ofBytes v)))
        | _ => s
      let s := part.foldl (fun s e => give (dropRemote s e.1) e) s
      part.foldl (fun s e => answered s r.core slot op e.1) s

/-- A part fails whole (04 R92, 15 R318): its lanes keep their values and are poisoned, or the driver is told. -/
def laneFail (s : State) (slot op : Nat) (r : RemOut) : State :=
  match findOp s r.core slot op with
  | none => s
  | some o =>
    let part := partTags s r
    let s := part.foldl (fun s e =>
      let s := dropRemote s e.1
      match e.2.who with
      | .lane _ _ l va => if o.dst.isSome then notePoison s r.core o l va else s.emit (.driver 2 e.1)
      | _ => s) s
    part.foldl (fun s e => answered s r.core slot op e.1) s

/-- Bytes of a remote source reach the copy that reads them; `none` where no reply came. -/
def copyBytes (s : State) (id tag peer off : Nat) (bs : List (Option Byte)) : State :=
  s.updCopy id fun c => { c with tags := c.tags.filter (· != tag), rbuf := bs.zipIdx.foldl (fun m p => smPut m (rkey peer (off + p.2)) p.1) c.rbuf }

/-- Write a packet of an FXRD, line by line: false where a line is not yet owned or translated. -/
def fxrdWrite (s : State) (c : CopyOp) (dst : Nat) (bs : List Byte) : Bool × State :=
  let cuts := lineCuts (bs.length / 128 + 2) dst bs
  let (ds, s) := dstAll c s (cuts.map fun p => (false, p.1))
  let s := askAll s c.core c.id ds
  if ds.any (· == .wait) || !ds.all (ownsDst s c.id) then (false, s)
  else
    let s := (cuts.zip ds).foldl (fun s p => match p.2 with
      | .glob pa a => dropStale (s.homePut pa p.1.2 a) c.core (lineOf pa)
      | .bad k => s.updCopy c.id fun d => { d with fail := match d.fail with
          | some (i, q) => if p.1.1 < i then some (p.1.1, k) else some (i, q)
          | none => some (p.1.1, k) }
      | _ => s) s
    (true, s)

/-- The lines of an FXRD whose bytes have all arrived are released; one that lies wholly in the destination has been written
whole (30 R479). -/
def fxrdRelease (s : State) (c : CopyOp) (off : Nat) (got : List Nat) : State :=
  match c.kind with
  | .fxrd dst len _ _ =>
    let es := restOf c
    let (ds, s) := dstAll c s (es.map c.kind.dstOf)
    (es.zip ds).foldl (fun s p => match p.2 with
      | .glob pa _ =>
        let lo := 128 * ((dst + p.1) / 128) - dst
        let hi := min (len - 1) (128 * ((dst + p.1) / 128) + 127 - dst)
        let whole := decide (dst ≤ 128 * ((dst + p.1) / 128)) && decide (128 * ((dst + p.1) / 128) + 128 ≤ dst + len)
        if got.contains ((off + lo) / 4096 - off / 4096) && got.contains ((off + hi) / 4096 - off / 4096) then
          releaseLine (if whole then s.clearPoison (lineOf pa) else s) c.id (lineOf pa)
        else s
      | _ => s) s
  | _ => s

/-- The first byte of packet `seq` of a reply, from the request's offset (R450). -/
def replyLo (r : RemOut) (seq : Nat) : Nat := if seq = 0 then 0 else 4096 * (r.req.off / 4096 + seq) - r.req.off
/-- The packets of a reply. -/
def replyCount (r : RemOut) : Nat := (r.req.off + r.req.len - 1) / 4096 - r.req.off / 4096 + 1

/-- Write what an FXRD's port holds, where its lines are owned and translated; with the last packet the FXRD ends. -/
def fxrdTake (s : State) (tag id dst : Nat) : State :=
  match smGet? s.remote tag, s.copy? id with
  | some r, some c => r.held.foldl (fun s p =>
      match smGet? s.remote tag, fxrdWrite s c (dst + replyLo r p.1) p.2 with
      | some q, (true, s) =>
        let held := q.held.filter (· != p)
        let done := q.got.filter fun n => !held.any fun x => x.1 == n
        let s := fxrdRelease { s with waits := [], remote := smPut s.remote tag { q with held := held } } c r.req.off done
        if done.length < replyCount r then s
        else (match s.copy? id with
          | some c => endCopy (dropRemote s tag) c
          | none => dropRemote s tag)
      | _, (false, s) => s
      | none, _ => s) s
  | _, _ => s

/-- Packets held by the ports go on as their lines come. -/
def takeHeld (s : State) : State :=
  s.remote.foldl (fun s e => if e.2.held.isEmpty then s else match e.2.who with
    | .copy id => (match s.copy? id with
      | some c => (match c.kind with | .fxrd dst _ _ _ => fxrdTake s e.1 id dst | _ => s)
      | none => s)
    | _ => s) s

/-- REMOTE_READ_REPLY, at a port; a packet of an FXRD waits there for its lines. -/
def execRemoteReadReply (p : ReplyTo) (seq : Nat) (data : List Byte) (s : State) : Res :=
  let port := p.port
  let tag := p.tag
  if !s.portOn port then .next s else
  let s := portBump s port 0x88
  match smGet? s.remote tag with
  | none => .next s
  | some r =>
    let lo := replyLo r seq
    let hi := min r.req.len (4096 * (r.req.off / 4096 + seq + 1) - r.req.off)
    let n := replyCount r
    if port ≠ r.port ∨ r.got.contains seq ∨ n ≤ seq ∨ data.length ≠ hi - lo ∨ r.req.len = 0 then .next s
    else
      let seen (s : State) : State := { s with waits := [], remote := smPut s.remote tag { r with got := seq :: r.got } }
      let last := decide (n ≤ r.got.length + 1)
      match r.who with
      | .lane slot op _ _ => .next (laneAnswer s tag slot op r data)
      | .copy id => match s.copy? id with
        | none => .next (dropRemote s tag)
        | some c => match c.kind with
          | .fxrd dst _ _ _ =>
            if c.dead then .next (dropRemote (endCopy s c) tag)
            else
              let q : RemOut := { r with got := seq :: r.got, held := r.held ++ [(seq, data)], due := if last then none else r.due }
              .next (fxrdTake { s with remote := smPut s.remote tag q, waits := [] } tag id dst)
          | _ =>
            let s := s.updCopy id fun c => { c with rbuf := data.zipIdx.foldl (fun m p => smPut m (rkey r.peer (r.req.off + lo + p.2)) (some p.1)) c.rbuf }
            if last then .next (copyBytes (dropRemote s tag) id tag r.peer r.req.off []) else .next (seen s)
      | .atom _ _ _ _ _ => .next s

/-- Push a request again with its original fields (R457). -/
def repush (s : State) (tag : Nat) (r : RemOut) : State :=
  let (id, s) := s.fresh
  let s := { s with remote := smPut s.remote tag { r with tries := r.tries + 1, due := none } }
  pushFormed s (r.port / 6) (egressLeaf r.port) { r.task with id := id, rank := 0, body := .packet (if r.req.len = 0 then .atomReq tag else .readReq tag) }

/-- FXATOM's result group lands in its members (16 R333). -/
def atomLands (s : State) (tag core dst low : Nat) (members : List (Nat × Mask)) (ws : List Word) : State :=
  let s := (maskLanes (unionMask members)).foldl (fun s l => landLane s core members tag dst low l ws) s
  arriveAll (moveCnt s core members .copies false) core members tag (dstRegs (some dst) 4)

/-- No reply after three reissues (15 R318, 16 R321, R331, R333): an FXATOM completes with its order all the same. -/
def giveUp (s : State) (tag : Nat) (r : RemOut) : State :=
  let s := match r.who with | .lane slot op _ _ => laneFail s slot op r | _ => s
  let s := dropRemote s tag
  match r.who with
  | .lane _ _ _ _ => s
  | .copy id => match s.copy? id with
    | none => s
    | some c => match c.kind with
      | .fxrd _ _ _ _ =>
        let s := { releaseAll s id with copies := s.copies.filter fun d => d.id != id }
        if c.dead then s else landStatus s c.core c.id c.dst c.members (statusWord 6 0 0 0)
      | _ =>
        let miss := (List.range r.req.len).map fun i => match smGet? c.rbuf (rkey r.peer (r.req.off + i)) with
          | some v => v
          | none => none
        copyBytes s id tag r.peer r.req.off miss
  | .atom _ dst low members acq =>
    let s := atomLands s tag r.core dst low members [0, 0, statusWord 6 0 0 0, 0]
    settleCore (if acq then acquireL1 s r.core 2 else s) r.core

/-- A remote request whose time has passed: sent again up to three times, then given up. An FXRD that still
waits for its own lines is not reissued. -/
def reissue (s : State) (tag : Nat) (read : Bool) : State :=
  match smGet? s.remote tag with
  | none => s
  | some r =>
    if !(r.due.any (· ≤ s.now)) || decide (0 < r.req.len) != read then s
    else
      let own := match r.who with
        | .copy id => engineBusy s id || s.owners.any (fun e => e.2.queue.contains id)
        | _ => false
      if own then { s with remote := smPut s.remote tag { r with due := some (s.now + tLostClk s) } }
      else if r.tries < 3 then repush s tag r
      else giveUp s tag r

def execRemoteReadRetransmit (tag : Nat) (s : State) : Res := .next (reissue s tag true)
def execRemoteAtomicReissue (tag : Nat) (s : State) : Res := .next (reissue s tag false)

/-- REMOTE_ATOMIC_REPLY. -/
def execRemoteAtomicReply (p : ReplyTo) (old : Nat) (s : State) : Res :=
  let port := p.port
  let tag := p.tag
  if !s.portOn port then .next s else
  let s := portBump s port 0x88
  match smGet? s.remote tag with
  | none => .next s
  | some r =>
    if port ≠ r.port ∨ r.req.len ≠ 0 then .next s
    else
      let s := match r.who with | .lane _ _ _ _ => s | _ => dropRemote s tag
      match r.who with
      | .lane slot op _ _ => .next (laneAnswer s tag slot op r (toBytes 8 old))
      | .copy _ => .next s
      | .atom _ dst low members acq =>
        let v := if r.req.ty.width = 64 then halves (old % 2 ^ 64) else wrT r.req.ty (rdT r.req.ty old) ++ [0]
        let ws := v ++ [statusWord 1 0 0 0, 0]
        let s := atomLands s tag r.core dst low members ws
        .next (settleCore (if acq then acquireL1 s r.core 2 else s) r.core)

/-- DELIVERY_CONTEXT_TEARDOWN (R456). -/
def execDeliveryContextTeardown (pdc : Nat) (s : State) : Res :=
  match smGet? s.pdcs pdc with
  | none => .next s
  | some t => if t + clkOfUs (s.regN (timeReg 1)) ≤ s.now then .next { s with pdcs := smDel s.pdcs pdc } else .next s

/-! ### Ingest (08 R172 to R175, 27 R458 to R463) -/

def ringOn (s : State) (r : Nat) : Bool := (s.reg (ringReg r 0)).getLsbD 31
def ringCtl (s : State) (r : Nat) : Nat := fld (s.reg (ringReg r 4)) 31 6 * 2 ^ 6 + fld (s.reg (ringReg r 5)) 15 0 * 2 ^ 32
def ringBaseOf (s : State) (r : Nat) : Nat := pairAddr (s.reg (ringReg r 2)) (s.reg (ringReg r 3))
/-- Bytes a port reads of a control block: zero where R438 forbids it. -/
def portRead (s : State) (port pa n : Nat) : Nat := if portReach s port pa then s.memNat pa n else 0

/-- Land a record, or drop it where the ring has no room (08 R173, R174). The flow and time fields of a pad
record are open (log 13). -/
def landRecord (s : State) (port ring status flow : Nat) (pay : List Byte) : State :=
  let k := fld (s.reg (ringReg ring 0)) 4 0
  let size := 2 ^ k
  let (p, c') := smGetD s.rings (0, 0) ring
  let c := ringSeen s ring
  let m := 2 ^ 64
  let rec64 := 64 * ceilDiv (16 + pay.length) 64
  let left := size - p % size
  let pad := if left < rec64 then left else 0
  let ctl := ringCtl s ring
  if size < (p + m - c) % m + pad + rec64 then
    let s := portWrite s port (ctl + 16) (toBytes 8 (portRead s port (ctl + 16) 8 + 1))
    portWrite s port (ctl + 24) (toBytes 8 (portRead s port (ctl + 24) 8 + pay.length))
  else
    let base := ringBaseOf s ring
    let s := if pad = 0 then s
      else
        let (f, s) := s.freeVal
        let (t, s) := s.freeVal
        portWrite s port (base + p % size) (toBytes 2 (pad - 16) ++ toBytes 2 0x8000 ++ toBytes 4 f ++ toBytes 8 t ++ List.replicate (pad - 16) 0)
    let p := (p + pad) % m
    let s := portWrite s port (base + p % size)
      (toBytes 2 pay.length ++ toBytes 2 status ++ toBytes 4 flow ++ toBytes 8 s.ns ++ pay ++ List.replicate (rec64 - 16 - pay.length) 0)
    let p := (p + rec64) % m
    portWrite { s with rings := smPut s.rings ring (p, c'), waits := [] } port ctl (toBytes 8 p)

/-- Does a copy own a line of the record a landing would write, of its pad record, or of its ring's control block (04 R86)? -/
def landHeld (s : State) (x : Landing) : Bool :=
  let size := 2 ^ fld (s.reg (ringReg x.ring 0)) 4 0
  let base := ringBaseOf s x.ring
  let p := (smGetD s.rings (0, 0) x.ring).1 % size
  let n := 64 * ceilDiv (16 + x.pay.length) 64
  rangeHeld s none (ringCtl s x.ring) 32
    || if size - p < n then rangeHeld s none (base + p) (size - p) || rangeHeld s none base n else rangeHeld s none (base + p) n

/-- The records that wait to land, in their order at each ring; one that waits for a copy's lines holds back the later ones of
its ring (27 R461). -/
def drainLands : List Landing → State → State
  | [], s => s
  | x :: l, s =>
    if landHeld s x || s.landq.any (fun y => y.ring == x.ring) then drainLands l { s with landq := s.landq ++ [x] }
    else drainLands l (landRecord s x.port x.ring x.status x.flow x.pay)

/-- What waits at rings and ports goes on. -/
def landWaiting (s : State) : State := if s.landq.isEmpty then s else drainLands s.landq { s with landq := [] }

/-- A datagram that a port has received: its fate is settled at once, by the flow map, the key and the ring as they stand
(R459, R460); the record then lands in its turn. -/
def ingestGo (port : Nat) (bytes : List Byte) (s : State) : State :=
    let t := port / 6
    let flow := ofBytes (bytes.take 4)
    let e0 := s.reg (flowMapReg t (flow % 8192) 0)
    let e1 := s.reg (flowMapReg t (flow % 8192) 1)
    let enc := e0.getLsbD 30
    let ring := fld e0 7 0
    let ks := 512 * t + fld e0 29 21
    if bytes.length < 9 ∨ ofBytes ((bytes.drop 4).take 4) ≠ 0 then (portBump s port 0xC8)
    else if !e0.getLsbD 31 ∨ fld e1 18 0 ≠ flow / 8192 then (portBump s port 0xB0)
    else
      let land (s : State) (status : Nat) (pay : List Byte) : State :=
        if !ringOn s ring then portBump s port 0xB8
        else drainLands (s.landq ++ [{ ring := ring, port := port, status := status, flow := flow, pay := pay }]) { s with landq := [] }
      if !enc then (land s 0 (bytes.drop 8))
      else if bytes.length ≤ 36 then (portBump s port 0xC8)
      else if !(s.reg (keyReg ks 8)).getLsbD 31 then (portBump s port 0xC0)
      else
        let body := bytes.drop 20
        let n := body.length - 16
        match gcmOpen (smGetD s.keys 0 ks) ((bytes.drop 8).take 12) (bytes.take 8) (body.take n) (body.drop n) with
        | some pay => (land s 1 pay)
        | none => (portBump (s.bump64 (keyReg ks 10) 1) port 0xC0)

/-- The UDP payload a frame of 9,216 bytes can carry: Ethernet, IPv4 and UDP headers take 42 bytes (R448; log 38). -/
def maxDatagram : Nat := 9174

/-- INGEST_DATAGRAM. -/
def execIngestDatagram (port : Nat) (bytes : List Byte) (s : State) : Res :=
  if !s.portOn port || fld (s.reg (portReg port 10)) 15 0 == 0 || decide (maxDatagram < bytes.length) then .next s
  else .next (ingestGo port bytes (portBump s port 0x88))

/-- What a port received before a copy released a line goes on; its frame is already counted. Anything else is done by
its own meaning. -/
def redoPort (i : Instr) (s : State) : Option State :=
  match i with
  | .fxwPacketArrive port p => some (fxwGo port p s)
  | .flagArrive port p => some (flagGo port p s)
  | .remoteReadRequest port r => some (remReadGo port r s)
  | .remoteAtomicRequest port r => some (remAtomicGo port r s)
  | _ => none

/-! ### Configuration writes with effects -/

/-- A write of word 0 of an ingest ring (R460), which reads the control block in the ring's world; k is 16 to 31 (log 54). -/
def writeRing0 (s : State) (r : Nat) (v : Word) : State :=
  let off := ringReg r 0
  if ringOn s r then (if v.getLsbD 31 then s else s.setReg off (s.reg off &&& 0x7FFFFFFF))
  else
    let s := s.setReg off (v &&& 0x1F)
    let k := fld v 4 0
    if v.getLsbD 31 && decide (16 ≤ k) then
      let c := ringCtl s r
      let get (a : Nat) : Nat := if (s.reg (ringReg r 6)).getLsbD 12 || !s.secureMem a then s.memNat a 8 else 0
      { (s.setReg off (v &&& 0x8000001F)) with rings := smPut s.rings r (get c, get (c + 8)) }
    else s
def execIngestRingEnable (ring : Nat) (val : Word) (s : State) : Res :=
  if ring < 256 then .next (writeRing0 s ring val) else .next s
def execIngestRingDisable (ring : Nat) (val : Word) (s : State) : Res :=
  if ring < 256 then .next (writeRing0 s ring val) else .next s

/-- Is a key slot marked secure, so that host writes are ignored (R463)? -/
def keySecure (s : State) (k : Nat) : Bool := (s.reg (keyReg k 8)).getLsbD 30

/-- KEY_INSTALL: a write of word 7 installs words 0 to 7 together (R463). -/
def execKeyInstall (slot : Nat) (val : Word) (s : State) : Res :=
  if 1024 ≤ slot ∨ keySecure s slot then .next s
  else
    let s := s.setReg (keyReg slot 7) val
    .next { s with keys := smPut s.keys slot ((List.range 8).foldl (fun a i => a + s.regN (keyReg slot i) * 2 ^ (32 * i)) 0) }

/-- KEY_SLOT_ZEROISE and enable: a write of word 8 (R463, 25 R442). -/
def execKeySlotZeroise (slot : Nat) (val : Word) (s : State) : Res :=
  if 1024 ≤ slot ∨ keySecure s slot then .next s
  else
    let s := s.setReg (keyReg slot 8) (val &&& 0x80000000)
    if val.getLsbD 31 then .next s
    else .next { (List.range 8).foldl (fun s i => s.setReg (keyReg slot i) 0) s with keys := smDel s.keys slot }

/-- PEER_ENABLE: a write of word 0 of a peer (R451). -/
def execPeerEnable (peer : Nat) (val : Word) (s : State) : Res :=
  if 4096 ≤ peer then .next s
  else
    let off := peerReg peer 0
    let old := s.reg off
    if old.getLsbD 31 then (if val.getLsbD 31 then .next s else .next (s.setReg off (old &&& 0x7FFFFFFF)))
    else
      let v := val &&& 0x000F803F
      let clash := (List.range 4096).any fun i => i != peer && s.peerOn i &&
        (s.reg (peerReg i 0) &&& 0x000F003F) == (v &&& 0x000F003F)
      let ok := val.getLsbD 31 && decide (fld v 19 16 < 12) && !clash
      .next { s.setReg off (if ok then v ||| 0x80000000 else v) with waits := [] }

/-- PORT_ENABLE_WRITE: a write of word 0 of a port; a disable writes its send records back (R449, R452). -/
def execPortEnableWrite (port : Nat) (val : Word) (s : State) : Res :=
  if 12 ≤ port then .next s
  else
    let off := portReg port 0
    let old := s.reg off
    if old.getLsbD 31 then
      if val.getLsbD 31 then .next s
      else .next ((flushSends s port).setReg off (old &&& 0x7FFFFFFF))
    else
      let v := val &&& 0x0003FFFF
      let s := { s.setReg off (if val.getLsbD 31 && fld v 17 16 != 3 then v ||| 0x80000000 else v) with waits := [] }
      .next (if s.portOn port then loadSends s port else s)

end Sys2Proof.Machine
end

