-- ==== Sys2Proof/Machine/Retire.lean ====
section
/-!
DEFINITION. The end of warps, blocks and launches: retirement (02 R48, R49), terminating a block and aborting
a grid (09 R191), the completion of a launch (22 R388), and fault reports (22 R394, 09 R187).
-/
namespace Sys2Proof.Machine

/-! ### Launch records -/

/-- A field of the record as it was read (22 R385). -/
def Launch.field (l : Launch) (off n : Nat) : Nat := ofBytes ((l.recd.drop off).take n)
/-- A field of the kernel descriptor as it was read (18 R362). -/
def Launch.dfield (l : Launch) (off n : Nat) : Nat := ofBytes ((l.desc.drop off).take n)
def Launch.grid (l : Launch) : List Nat := [l.field 24 2, l.field 26 2, l.field 28 2]
def Launch.bdim (l : Launch) : List Nat := [l.field 30 2, l.field 32 2, l.field 34 2]
def Launch.blocks (l : Launch) : Nat := l.grid.foldl (· * ·) 1

/-- The cores that hold warps; saved blocks stand at numbers from 2^20 up. -/
def realCores (s : State) : List (Nat × Core) := s.cores.filter fun e => e.1 < 512

/-- Resident blocks of a launch, as core and index. -/
def launchBlocks (s : State) (id : Nat) : List (Nat × Nat) :=
  (realCores s).flatMap fun e => (e.2.blocks.filter fun b => b.2.launch == id).map fun b => (e.1, b.1)

def claimsOf (s : State) (id : Nat) : Bool := (realCores s).any fun e => e.2.claim.any fun c => c.launch == id

/-! ### Completion (22 R388) -/

/-- Write bytes through an engine's translation, each 64 KiB page in turn; nothing is written while a page is
awaited or denied, or while a copy owns one of its lines (04 R86). -/
def engWrite (s : State) (core fn : Nat) (secure : Bool) (id va : Nat) (bs : List Byte) : EngX × State :=
  let m := min bs.length (2 ^ 16 - va % 2 ^ 16)
  let fab (n : Nat) (r : EngX × State) : EngX × State := match r with
    | (.ok pa a, s) => if a.fabric then (.bad 0x18, s) else if rangeHeld s none pa n then (.wait, s) else (.ok pa a, s)
    | r => r
  match fab m (engXlate s core fn secure id va 1) with
  | (.ok pa a, s) =>
    if m = bs.length then (.ok pa a, s.homeStore pa bs a)
    else match fab (bs.length - m) (engXlate s core fn secure id (va + m) 1) with
      | (.ok pb b, s) => (.ok pa a, (s.homeStore pa (bs.take m) a).homeStore pb (bs.drop m) b)
      | r => r
  | r => r

/-- Steps 3 and 4 of R388: the completion value, then the message; the launch is then forgotten. While the
completion address is awaited the launch keeps its status. -/
def signalLaunch (s : State) (id : Nat) : State :=
  match s.launch? id with
  | none => s
  | some l =>
    let done (s : State) : State :=
      let s := if l.field 104 2 = 0xFFFF then s else s.msix l.fn (l.field 104 2)
      { s with launches := smDel s.launches id, waits := [] }
    let va := l.field 80 8
    if va = 0 then done s
    else match engWrite s 512 l.fn (s.fnSecure l.fn) id va (toBytes 8 (l.field 88 8)) with
      | (.wait, s) => s
      | (_, s) => done s

/-- A launch's copies leave both leaves (R393). -/
def leaveLeaves (s : State) (id : Nat) : State :=
  let s := s.updLaunch id fun l => { l with opened := [] }
  let s := dropTasks s fun x => match x.body with | .launch k => k == id | _ => false
  freed (freed s 0 true 0) 1 true 0

/-- A push closed the launch in the clk in which it completes: the close is undone (R392), in the record and in what it
counted. -/
def undoClose (s : State) (l : Launch) : State :=
  match l.shut, l.pa with
  | some (c, t, _, last), some pa =>
    if c = s.now then
      let key := 16 * (2 + smGetD s.blame 0 (queueKey t true 0)) + 4
      let s := { s.bump (leafReg t 0 6) (2 ^ 32 - 1) with
        blame := smDel s.blame (queueKey t true 0), acts := smSetD s.acts 0 key (smGetD s.acts 0 key - 1) }
      let s := recUpd s (pa + 160) 4 fun v => v ||| 2 ^ t
      if last then recUpd (ticketFlip s pa) (pa + 156) 4 fun v => (v + 2 ^ 32 - 1) % 2 ^ 32 else s
    else s
  | _, _ => s
/-- The push whose close was undone takes the next victim, the completing launch excluded (R392). -/
def nextVictim (s : State) (l : Launch) : State :=
  match l.shut with
  | some (c, t, x, _) => if c = s.now then closeVictim s t x else s
  | none => s

/-- Complete a launch with a status: the blocks' stores were released as they retired. A pre-emption of that clk
loses against the last block's end (09 R193). -/
def completeLaunch (s : State) (id st : Nat) : State :=
  match s.launch? id with
  | none => s
  | some l =>
    let ended := st == 3 || st == 4
    let s := if ended then undoClose s l else s
    let s := match l.pa with
      | some pa => recUpd s (pa + 152) 4 fun _ => st
      | none => s
    let s := leaveLeaves s id
    let s := if ended then nextVictim s l else s
    signalLaunch (s.updLaunch id fun l => { l with fin := some st }) id

/-- Does a launch complete now: all blocks ended, or aborted with none resident and no claim in flight? -/
def launchCheck (s : State) (id : Nat) : State :=
  match s.launch? id with
  | none => s
  | some l =>
    if l.fin.isSome then s
    else if l.aborted then
      (if (launchBlocks s id).isEmpty && !claimsOf s id then completeLaunch s id 5 else s)
    else match l.pa with
      | some pa =>
        if s.memNat (pa + 136) 8 = l.blocks then completeLaunch s id (if s.memNat (pa + 144) 8 = 0 then 3 else 4) else s
      | none => s

/-! ### Retirement (02 R48, R49) -/

/-- Is a task one of the block's? -/
def taskOf (s : State) (core bi : Nat) (x : Task) : Bool :=
  match x.body with
  | .tile t => t.core == core && t.block == bi
  | .seg id _ _ => (s.copy? id).any fun c => c.core == core && c.block == bi
  | _ => false

/-- Tasks of a core that its engines run. -/
def runningTasks (s : State) (core : Nat) : List Task :=
  let k := s.core core
  k.arrRun.toList ++ k.drnRun.toList ++ k.segs.map (·.task)

/-- A block's unstarted tasks, wherever they wait: those of its leaves in queue order, then those at nodes and those not
yet pushed in the order in which they were formed (09 R195; log 31). An offered task still stands in its node. -/
def waitingTasks (s : State) (core bi : Nat) : List Task :=
  let offered (w : Waiting) : Bool := match w.fin with | .offer _ => true | _ => false
  let atLeaf (e : Nat × List Task) : Bool := e.1 / 1024 % 2 == 1
  let l := (((s.queues.filter fun e => !atLeaf e).flatMap (·.2)) ++ (s.waitq.filter fun w => !offered w).map (·.task)).filter (taskOf s core bi)
  ((s.queues.filter atLeaf).flatMap (·.2)).filter (taskOf s core bi)
    ++ l.foldl (fun acc x => insertBefore (fun y => decide (x.id < y.id)) x acc) []

/-- Can a warp retire (R48)? It stays until what it leads for others is performed (14 R285). -/
def warpDone (s : State) (core slot : Nat) : Bool :=
  match s.warp? core slot with
  | some w => !w.agent && w.gone && w.trailer.isNone && w.stopped.isNone && w.loads == 0 && w.stores == 0
      && w.copies == 0 && w.tiles == 0 && w.ops.isEmpty && (s.block core w.block).saving.isNone && !formHeld s core slot
  | none => false

/-- WARP_RETIRE: the slot and the private registers are freed. -/
def execWarpRetire (core slot : Nat) (s : State) : Res :=
  if !warpDone s core slot then .next s
  else match s.warp? core slot with
    | none => .next s
    | some w =>
      let s := releasePart s core slot
      let s := s.updCore core fun k => { k with warps := smDel k.warps slot }
      let s := s.updBlock core w.block fun b => { b with retired := b.retired ++ [w.num] }
      .next (barSettleAll { s with waits := [] } core w.block)

/-- Can a block retire (R49)? -/
def blockDone (s : State) (core bi : Nat) : Bool :=
  (smGet? (s.core core).blocks bi).isSome && (s.block core bi).saving.isNone && (blockWarps s core bi).isEmpty
  && (waitingTasks s core bi).isEmpty && !(runningTasks s core).any (taskOf s core bi)
  && !s.copies.any fun c => c.core == core && c.block == bi

/-- The block's resources are freed: its reservations as MXREL frees them. -/
def freeBlock (s : State) (core bi : Nat) : State :=
  let s := s.updCore core fun k =>
    { k with blocks := smDel k.blocks bi
             slots := k.slots.map fun m => if m.state ≠ 0 ∧ m.owner = bi then {} else m }
  { s with waits := [] }

/-- BLOCK_RETIRE: the block's stores are released at system scope, which waits where a copy owns a line that is
written back; its resources are freed, and its launch counts it (R388). -/
def execBlockRetire (core block : Nat) (s : State) : Res :=
  if !blockDone s core block then .next s
  else
    let b := s.block core block
    let s := releaseL1 s core 3
    if wbWaits s core then .next s else
    let s := freeBlock s core block
    let s := match (s.launch? b.launch).bind (·.pa) with
      | some pa =>
        let s := recUpd s (pa + 136) 8 fun v => (v + 1) % 2 ^ 64
        if b.faulted then recUpd s (pa + 144) 8 fun v => (v + 1) % 2 ^ 64 else s
      | none => s
    .next (launchCheck s b.launch)

/-! ### Terminating a block, aborting a grid (09 R191) -/

/-- Does an outstanding operation of a terminated warp still act: a store or an atomic? -/
def opStands (o : MemOp) : Bool :=
  match o.kind with
  | .store | .atom _ _ | .bank _ | .cctl _ => true
  | _ => false

/-- A counter of a terminated warp: the operations of the block that still act and count for it. -/
def standing (ops : List MemOp) (slot : Nat) (load : Bool) : Nat :=
  (ops.filter fun o => o.isLoad == load && o.opens.contains slot).length

/-- No status word of the block lands any more. -/
def dropStatuses (s : State) (core : Nat) (mine : Nat → Bool) : State :=
  let cut (c : Nat) (m : List (Nat × Mask)) : List (Nat × Mask) := if c = core then m.filter fun p => !mine p.1 else m
  { s with
    sends := s.sends.map fun e => (e.1, { e.2 with
      fxws := e.2.fxws.map fun f => { f with members := cut f.core f.members }
      flags := e.2.flags.map fun f => { f with members := cut f.core f.members } })
    remote := s.remote.map fun e => (e.1, match e.2.who with
      | .atom sl d lo m a => if e.2.core = core then { e.2 with who := .atom sl d lo (cut core m) a } else e.2
      | _ => e.2)
    ctrs := s.ctrs.map fun e => (e.1, { e.2 with waiters := e.2.waiters.filter fun q => !(q.1 == core && mine q.2.1) })
    walks := s.walks.filter fun x => match x.who with | .warp c sl => !(c == core && mine sl) | .engine _ => true }

/-- Every warp of the block stops for good: outstanding loads are discarded, stores and atomics are still
performed, tasks not started are discarded, and running ones finish. The block then retires. -/
def terminateBlock (s : State) (core bi : Nat) : State :=
  let ws := blockWarps s core bi
  let mine (sl : Nat) : Bool := ws.any fun e => e.1 == sl
  let s := dropTasks s (taskOf s core bi)
  let s := dropStatuses s core mine
  let keep := (ws.flatMap fun e => e.2.ops.filter opStands)
  let run := (runningTasks s core).filterMap bodyTile
  let s := ws.foldl (fun s e => releasePart s core e.1) s
  let s := ws.foldl (fun s e => s.updWarp core e.1 fun w =>
    { w with exited := fullMask, path := 0, stack := [], serial := none, loops := [], trailer := none, xfer := none
             xret := [], pend := [], resAt := 0, skip := false, fences := [], arrived := none, stopped := none, halt := none
             acw := none, replay := none, poison := none, bar := none, inRun := false, held := [], outst := [], fills := [], xl := []
             ops := (w.ops.filter opStands).map fun o => { o with dst := none, acq := false, todo := 0 }
             loads := standing keep e.1 true, stores := standing keep e.1 false, copies := 0
             tiles := (run.filter fun t => t.core == core && t.members.any fun p => p.1 == e.1).length }) s
  let s := s.updBlock core bi fun b => { b with latches := [], faulted := true, saving := none, tasks := [] }
  let s := { s with waits := [], copies := s.copies.map fun (c : CopyOp) => if c.core = core ∧ c.block = bi then { c with dead := true } else c }
  (s.copies.filter fun (c : CopyOp) => c.core == core && c.block == bi && (s.core core).segs.all fun g => g.copy != c.id).foldl endCopy s

/-- Claiming for the launch stops and every resident block of it is terminated; once aborted, a launch stays
so. -/
def abortGrid (s : State) (id : Nat) : State :=
  match s.launch? id with
  | none => s
  | some l =>
    if l.aborted then s
    else
      let s := match l.pa with
        | some pa =>
          let s := if s.memNat (pa + 128) 8 < 2 ^ 63 then ticketFlip s pa else s
          recUpd s (pa + 160) 4 fun _ => 0
        | none => s
      let s := leaveLeaves (s.updLaunch id fun l => { l with aborted := true }) id
      launchCheck ((launchBlocks s id).foldl (fun s q => terminateBlock s q.1 q.2) s) id

/-- The launch's fault policy (R191). -/
def faultPolicy (s : State) (core bi : Nat) : State :=
  let b := s.block core bi
  if b.abortPol && (s.launch? b.launch).isSome then abortGrid s b.launch else terminateBlock s core bi

/-! ### Fault reports (22 R394) -/

/-- The 1,344 bytes of a record (09 R187). -/
def FaultRec.bytes (r : FaultRec) : List Byte :=
  let adr (l : Nat) : Nat := if inMask r.lanes l then ((r.addrs.find? fun p => p.1 == l).map (·.2)).getD 0 else 0
  toBytes 1 r.code ++ toBytes 1 r.sub ++ toBytes 2 r.flags ++ toBytes 1 r.warp ++ toBytes 1 r.set ++ toBytes 1 r.pos
    ++ toBytes 1 0 ++ toBytes 8 r.instr ++ toBytes 8 r.runStart ++ toBytes 4 r.lanes.toNat ++ toBytes 2 r.trap
    ++ toBytes 1 r.tempsW.toNat ++ toBytes 1 0 ++ toBytes 8 r.time ++ toBytes 24 0
    ++ (List.range 32).flatMap (fun l => toBytes 8 (adr l))
    ++ (List.range 256).flatMap (fun i => toBytes 4 (smGetD r.temps 0 i).toNat)

/-- A record the agent has to report: every fault but a translation fault that may still be resolved. -/
def reportable (w : Warp) : Option FaultRec :=
  match w.stopped with
  | some r => if r.code ≠ 0 ∧ !r.reported ∧ !r.resolved ∧ (r.code ≠ 0x0A ∨ r.hopeless) then some r else none
  | none => none

def reportId (core slot : Nat) : Nat := 2 ^ 40 + 64 * core + slot

/-- Write one entry of the report area: none while a translation is awaited. -/
def writeReport (s : State) (core slot : Nat) (l : Launch) (b : Block) (r : FaultRec) : Option State × State :=
  let area := l.field 96 8
  let sec := s.blockSecure core b
  let id := reportId core slot
  match engRead s core b.fn sec id area 64 with
  | ((.wait, _), s) => (none, s)
  | ((.bad _, _), s) => (some s, s)
  | ((.ok _ _, h), s) =>
    let f (o n : Nat) : Nat := ofBytes ((h.drop o).take n)
    let wi := f 0 8
    let e := f 8 4
    if e ≤ (wi + 2 ^ 64 - f 16 8) % 2 ^ 64 then
      match engWrite s core b.fn sec id (area + 12) (toBytes 4 (f 12 4 + 1)) with
      | (.wait, s) => (none, s)
      | (_, s) => (some s, s)
    else
      let ent := toBytes 8 l.addr ++ toBytes 4 b.x ++ toBytes 4 b.y ++ toBytes 4 b.z ++ toBytes 4 core ++ toBytes 8 0
        ++ r.bytes
      match engWrite s core b.fn sec id (area + 64 + 2048 * (wi % e)) (ent ++ List.replicate (2048 - ent.length) 0) with
      | (.wait, s) => (none, s)
      | (.bad _, s) => (some s, s)
      | (.ok _ _, s) => match engWrite s core b.fn sec id area (toBytes 8 ((wi + 1) % 2 ^ 64)) with
        | (.ok _ _, s) =>
          let s := if l.field 104 2 = 0xFFFF then s else s.msix l.fn (l.field 104 2)
          (some s, s)
        | (.wait, s) => (none, s)
        | (.bad _, s) => (some s, s)

/-- A breakpoint of a launch being debugged stays as it is (09 R192). -/
def debugStop (b : Block) (r : FaultRec) : Bool := r.code == 0x16 && b.debug

/-- Does another fault that the policy acts on with this one still await its report: each of one clk is reported first
(09 R191)? -/
def moreReports (s : State) (core bi : Nat) : Bool :=
  let b := s.block core bi
  (realCores s).any fun e => e.2.warps.any fun w =>
    (if b.abortPol then (s.block e.1 w.2.block).launch == b.launch else e.1 == core && w.2.block == bi)
      && (s.block e.1 w.2.block).saving.isNone && (reportable w.2).any fun r => !debugStop (s.block e.1 w.2.block) r

/-- FAULT_REPORT: the agent reports a stopped warp, and where no agent warp runs it applies the policy once no other
report is due. -/
def execFaultReport (core slot : Nat) (s : State) : Res :=
  match s.warp? core slot with
  | none => .next s
  | some w => match reportable w with
    | none => .next s
    | some r =>
      let b := s.block core w.block
      let fin (s : State) : State :=
        let s := s.updWarp core slot fun w => { w with stopped := w.stopped.map fun q => { q with reported := true } }
        if nativeAgent s core && !debugStop b r && !moreReports s core w.block then faultPolicy s core w.block else { s with waits := [] }
      match s.launch? b.launch with
      | none => .next (fin s)
      | some l =>
        if l.field 96 8 = 0 then .next (fin s)
        else match writeReport s core slot l b r with
          | (some s, _) => .next (fin s)
          | (none, s) => .next s

end Sys2Proof.Machine
end

