-- ==== Sys2Proof/Machine/Commit.lean ====
section
/-!
DEFINITION. The commit of a trailer (02 R35 to R37, R39, R45, R46; 17 R357), the choice of the next run
(02 R41 to R44), and the firing of a rendezvous latch (03 R63 to R66).
-/
namespace Sys2Proof.Machine

/-! ### XRET's effect at the commit (17 R357) -/

/-- The warp a target names, with its slot, where it is resident with a pending record, that of a member stopped with its
set among them (09 R187), and the record's code. -/
def xretTarget (s : State) (core t : Nat) : Option (Nat × Nat × Nat) :=
  let bi := nfld t 3 0
  match smGet? (s.core core).blocks bi with
  | none => none
  | some b => match b.slotOf (nfld t 8 4) with
    | none => none
    | some sl => match s.warp? core sl with
      | some w => match w.stopped with
        | some r => if w.block = bi ∧ (!r.resolved ∨ r.code = 0) then some (bi, sl, r.code) else none
        | none => none
      | none => none

/-- Records that a warp can be resumed from (09 R188): a translation fault and a breakpoint; every other fault goes to
the launch's policy alone (09 R191, R192). -/
def resumable (code : Nat) : Bool := code == 0x0A || code == 0x16

def doXret (core : Nat) (s : State) (x : Nat × Nat) : State :=
  match xretTarget s core x.2 with
  | none => s
  | some (bi, sl, code) =>
    if x.1 = 0 then (if resumable code then resolveWarp s core sl else s)
    else if x.1 = 1 then terminateBlock s core bi
    else match s.launch? (s.block core bi).launch with
      | some _ => abortGrid s (s.block core bi).launch
      | none => terminateBlock s core bi

/-! ### TRAILER_COMMIT -/

/-- The clk of the commit: the clk after the issue, or the last fixed-latency result (R35). -/
def commitTime (w : Warp) (t : Trailer) : Nat := max (t.issued + 1) (max w.resAt (w.lastPend 0))

/-- The named registers to hold: those with a value outstanding and not held yet (R37). -/
def newHolds (w : Warp) (t : Trailer) : List Nat :=
  (t.names.filter fun r => w.awaits r && !w.held.contains r).eraseDups

/-- Can the trailer commit: with at most 16 registers held? -/
def commitReady (w : Warp) (t : Trailer) : Bool := w.held.length + (newHolds w t).length ≤ 16

/-- The warp after its run: temporaries gone, with what was still to fill them; its gap and PAUSE counted from the
commit; its give-way flag. A run without an effective PAUSE leaves an interval running (14 R295). A warp stopped
meanwhile stands between runs. -/
def Warp.endRun (w : Warp) (t : Trailer) (now : Nat) : Warp :=
  { w with trailer := none, xfer := none, runPause := none, xret := [], inRun := false, pos := 0, tmp := [], tmpW := 0
           fills := [], outst := w.outst.filter fun p => !(decide (1600 ≤ p.1) && decide (p.1 < 1608))
           next := now + t.gap, giveWay := t.giveWay
           pauseUntil := match w.runPause with | some n => if n = 0 then 0 else now + n | none => w.pauseUntil
           stopped := w.stopped.map fun r => r.atBoundary w.pc }

def execTrailerCommit (core slot : Nat) (s : State) : Res :=
  match s.warp? core slot with
  | none => .next s
  | some w => match w.trailer with
    | none => .next s
    | some t =>
      if !commitReady w t then .next s
      else
        let s := { s.tick (commitTime w t) with waits := [] }
        let s := landWarp s core slot
        match s.warp? core slot with
        | none => .next s
        | some w =>
          let b := s.block core w.block
          let w1 := { w with held := w.held ++ newHolds w t }
          let fall := t.addr + t.len
          let w2 := applyXfer b w1 t.addr fall w.xfer
          match loopEnd w2 w.xfer t.addr fall with
          | none =>
            let s := s.setWarp core slot { w with trailer := none, pc := t.addr, pos := w.pos - 1, stopped := none }
            .next (issueFault s core slot 0x14 0 w.path 0 t.addr [])
          | some w3 =>
            let s := releasePart (s.setWarp core slot ((if w3.skip then w3 else settle w3).endRun t s.now)) core slot
            let s := if w3.gone then barSettleAll s core w.block else s
            let s := ((w.xret.filter (·.1 == 2)) ++ w.xret.filter (·.1 == 1) ++ w.xret.filter (·.1 == 0)).foldl (doXret core) s
            .next (poisonFault s core slot)

/-! ### RUN_SELECT (R41 to R43) -/

/-- A warp that may begin, or go on with, a run on its idle partition. -/
def warpReady (s : State) (core : Nat) (e : Nat × Warp) : Bool :=
  let w := e.2
  w.stopped.isNone && w.arrived.isNone && w.trailer.isNone && w.path != 0 && decide (w.next ≤ s.now)
  && !s.waits.contains (core, e.1) && !s.present.contains (core, e.1) && !formHeld s core e.1
  && (w.agent || w.inRun || (s.block core w.block).saving.isNone)

/-- Ready warps of a partition in slot order, starting after the one it last issued. -/
def readyOrder (s : State) (core part : Nat) : List (Nat × Warp) :=
  let l := (s.core core).warps.filter fun e => partOf e.1 == part && warpReady s core e
  let last := (s.partn core part).last
  (l.filter fun e => decide (last < e.1)) ++ l.filter fun e => decide (e.1 ≤ last)

/-- The choice: warps inside a run go on before another run begins (R34; log 46); then a warp that gives way or pauses
only where no other is ready. Where only such warps are ready, one that gives way comes before one that pauses, and
otherwise the first in order (log 40). -/
def selectWarp (s : State) (core part : Nat) : Option Nat :=
  if !partIdle s core part then none
  else
    let l := readyOrder s core part
    let paused (w : Warp) : Bool := w.pauseUntil != 0 && decide (s.now ≤ w.pauseUntil)
    if !(openRuns s core part).isEmpty then (l.find? fun e => e.2.inRun).map (·.1)
    else match l.find? fun e => !e.2.giveWay && !paused e.2 with
    | some e => some e.1
    | none => match l.find? fun e => !paused e.2 with
      | some e => some e.1
      | none => match l.find? fun e => !e.2.giveWay with
        | some e => some e.1
        | none => l.head?.map (·.1)

/-- The give-way flags a selection uses up: of the warp selected, and of every other one of the partition, ready or not,
since another is ready (R42; log 46). A warp that goes on inside its run is no selection of a run. -/
def clearGiveWay (s : State) (core part : Nat) : State :=
  if !(openRuns s core part).isEmpty then s
  else ((s.core core).warps.filter fun e => partOf e.1 == part).foldl (fun s e =>
    if e.2.giveWay then s.updWarp core e.1 fun w => { w with giveWay := false } else s) s

def execRunSelect (core part : Nat) (s : State) : Res :=
  match selectWarp s core part with
  | none => .next s
  | some sl => .next (poisonFault ((clearGiveWay s core part).updPart core part fun p => { p with holder := some sl }) core sl)

/-! ### RENDEZVOUS_FIRE (03 R63 to R66) -/

/-- The firing of a full latch: the contributions by slot, in ascending warp order. -/
def firingOf (s : State) (core bi key : Nat) : Option Firing :=
  let b := s.block core bi
  let ms := (smGetD b.latches {} key).arrivals.filterMap fun p => (b.slotOf p.1).map fun sl => (sl, p.2)
  match ms.findSome? fun p => (s.warp? core p.1).bind (·.arrived) with
  | some r => some { core := core, block := bi, slot := key, members := ms, instr := r.instr, addr := r.addr, len := r.len }
  | none => none

/-- The latch fires: in the same step the instruction executes once. -/
def execRendezvousFire (core block latch : Nat) (s : State) : Res :=
  if !latchReady s core block latch then .next s
  else .next { s with firing := firingOf s core block latch, waits := [] }

end Sys2Proof.Machine
end

