-- ==== Sys2Proof/Machine/Cross.lean ====
section
/-!
DEFINITION. Cross-lane instructions (14 R273 to R283) under the member-mask rules of 03 R69.
-/
namespace Sys2Proof.Machine

/-! ### Quads (14 R275, 02 R28) -/

/-- A value read from another lane of the quad, in E or a helper. -/
def quad (o : Op) (x : Z1) (src : Nat → Nat) : Ctx → State → Act :=
  typed o x fun c s l => (c.srcA s x (words x.ty) (src l) : Nat)

def execQswap (w : Z1) (s : State) : Res :=
  issue .qswap w (quad .qswap w fun l => l ^^^ (fld w.mod 1 0 + 1)) s
def execQbcast (w : Z1) (s : State) : Res :=
  issue .qbcast w (quad .qbcast w fun l => 4 * (l / 4) + fld w.mod 1 0) s

/-! ### Member masks -/

/-- A 32-bit value that stands for the whole warp. -/
def warpVal (c : Ctx) (s : State) (r : Nat) : Mask := BitVec.ofNat 32 (c.scal s r)

/-- The mask of a reduction, scan or election (14 R278), from a register as warpVal reads it (log 16). -/
def maskB (x : Z1) (masked : Bool) (c : Ctx) (s : State) : Mask :=
  if !masked then fullMask else if immB x then immOf x.ext else warpVal c s x.b.toNat

/-- Some lane of E lies outside M. -/
def outside (c : Ctx) (m : Mask) : Bool := (c.e &&& ~~~m) != 0

/-! ### SHFL (14 R276) -/

/-- The source lane of a shuffle: its lane, or the edge. -/
def shflSrc (mode w l k : Nat) : Option Nat :=
  let sb := l - l % w
  match mode with
  | 0 => some (sb + k % w)
  | 1 => if k ≥ w ∨ l + k ≥ sb + w then none else some (l + k)
  | 2 => if k ≥ w ∨ l < sb + k then none else some (l - k)
  | 3 => some (sb + ((l % w) ^^^ (k % w)))
  | _ => some (sb + (l % w + k) % w)

def bodyShfl (x : Z1) (c : Ctx) (s : State) : Act :=
  let m : Mask := if isO x then (if immC x then immOf x.ext else warpVal c s (cReg x)) else fullMask
  let f := m &&& c.e
  let n := words x.ty
  let seg := 32 / 2 ^ fld x.mod 5 3
  let a (l : Nat) : Nat := c.srcA s x n l
  let val (l : Nat) : Nat :=
    if !inMask m l then a l
    else match shflSrc (fld x.mod 2 0) seg l (c.srcB s x 1 l) with
      | none => if fld x.mod 6 6 = 1 then 0 else a l
      | some k => if k = l ∨ inMask f k then a k else if inMask m k then 0 else a l
  let s := c.maskx s (outside c m)
  .done (c.result s (latOf c .shfl x) (some x.d.toNat) (fun l => wrT x.ty (val l : Nat)) [] 0)
def execShfl (w : Z1) (s : State) : Res := issue .shfl w (bodyShfl w) s

/-! ### VOTE (14 R277) -/

def bodyVote (x : Z1) (c : Ctx) (s : State) : Act :=
  let m : Mask := if fld x.mod 6 6 = 1 then warpVal c s x.b.toNat else fullMask
  let f := m &&& c.e
  let v (l : Nat) : Bool := predRef c x.a l
  let yes := maskOf fun l => inMask f l && v l
  let s := c.maskx s (outside c m)
  let lat := latOf c .vote x
  if fld x.mod 5 3 < 3 then
    let r := match fld x.mod 5 3 with
      | 0 => yes == f
      | 1 => yes != 0
      | _ => yes == f || yes == 0
    .done (c.result s lat none (fun _ => []) [(fld x.mod 2 0, fun l => if inMask m l then r else v l)] 0)
  else
    let isMask := fld x.mod 5 3 = 3
    let r := if isMask then yes else BitVec.ofNat 32 (popcount 32 yes.toNat)
    let own (l : Nat) : Word := if v l then (if isMask then laneBit l else 1) else 0
    .done (c.result s lat (some x.d.toNat) (fun l => [if inMask m l then r else own l]) [] 0)
def execVote (w : Z1) (s : State) : Res := issue .vote w (bodyVote w) s

/-! ### Reductions and scans (14 R278 to R281) -/

/-- The identity of an operation as its words (14 R274, R280). -/
def redIdentity (t : Ty) (op : Nat) : List Word :=
  match op with
  | 1 => if t = .f32 then [0x7FC00000] else wrT t (hiT t)
  | 2 => if t = .f32 then [0x7FC00000] else wrT t (loT t)
  | 3 => wrT t ((2 ^ t.width - 1 : Nat) : Int)
  | 6 => match t with
    | .f32 => [0xFF800000, 0xFFFFFFFF]
    | .f16 => [0xFFFFFC00]
    | _ => [0xFFFFFF80]
  | _ => wrT t 0

/-- One operation over a list of contributions, with flags. -/
def reduce (t : Ty) (op mode : Nat) (l : List Nat) : List Word × BitVec 5 :=
  let ints (g : Int → Int → Int) : List Word × BitVec 5 :=
    match l with
    | [] => (redIdentity t op, 0)
    | a :: r => (wrT t (r.foldl (fun z y => g z (rdT t y)) (rdT t a)), 0)
  match op with
  | 0 => if t = .f32 then one (sumF fmt32 mode (l.map (decodeF fmt32))) else ints fun a b => a + b
  | 1 | 2 =>
    if t = .f32 then one (l.foldl (fun (a : Nat × BitVec 5) y =>
      let r := minmaxF fmt32 (op == 2) a.1 y; (r.1, a.2 ||| r.2)) (fmt32.nanBits, 0))
    else if op = 1 then ints fun a b => min a b else ints fun a b => max a b
  | 6 =>
    let w := if t = .f32 then 32 else 16
    match l with
    | [] => (redIdentity t op, 0)
    | a :: r =>
      let z := r.foldl (fun a b => if beats (fmtOf t) (b % 2 ^ w) (b / 2 ^ w) (a % 2 ^ w) (a / 2 ^ w) then b else a) a
      ((halves z).take (if t = .f32 then 2 else 1), 0)
  | _ =>
    let g : Nat → Nat → Nat := match op with
      | 3 => fun a b => a &&& b
      | 4 => fun a b => a ||| b
      | _ => fun a b => a ^^^ b
    match l with
    | [] => (redIdentity t op, 0)
    | a :: r => (wrT t ((r.foldl g a : Nat) : Int), 0)

/-- Words per element of a reduction source. -/
def redWords (x : Z1) : Nat := if fld x.mod 3 0 = 6 ∧ x.ty = .f32 then 2 else words x.ty

def bodyWred (x : Z1) (c : Ctx) (s : State) : Act :=
  if c.e = 0 then .done s
  else
    let op := fld x.mod 3 0
    let m := maskB x (fld x.mod 4 4 = 1) c s
    let r := reduce x.ty op (fld x.mod 6 5) ((maskLanes (m &&& c.e)).map fun l => c.srcA s x (redWords x) l)
    let s := c.maskx s (outside c m)
    .done (c.result s (latOf c .wred x) (some x.d.toNat)
      (fun l => if inMask m l then r.1 else redIdentity x.ty op) [] r.2)
def execWred (w : Z1) (s : State) : Res := issue .wred w (bodyWred w) s

def bodyWscan (x : Z1) (c : Ctx) (s : State) : Act :=
  if c.e = 0 then .done s
  else
    let op := fld x.mod 3 0
    let m := maskB x (fld x.mod 4 4 = 1) c s
    let f := maskLanes (m &&& c.e)
    let excl := fld x.mod 5 5 = 1
    let g (l : Nat) : List Word × BitVec 5 :=
      if inMask m l then
        reduce x.ty op 0 ((f.filter fun j => if excl then j < l else j ≤ l).map fun j => c.srcA s x (words x.ty) j)
      else (redIdentity x.ty op, 0)
    let t := (maskLanes c.e).map fun l => (l, g l)
    let s := c.maskx s (outside c m)
    .done (c.result s (latOf c .wscan x) (some x.d.toNat)
      (fun l => (tableAt g t l).1) [] (t.foldl (fun a p => a ||| p.2.2) 0))
def execWscan (w : Z1) (s : State) : Res := issue .wscan w (bodyWscan w) s

/-! ### Match and elect (14 R282, R283) -/

def bodyMatch (x : Z1) (c : Ctx) (s : State) : Act :=
  let a (l : Nat) : Nat := c.srcA s x (words x.ty) l
  let eq (l : Nat) : Mask := maskOf fun j => inMask c.e j && a j == a l
  .done (c.result s (latOf c .matchLanes x) (some x.d.toNat) (fun l => [eq l])
    [(fld x.mod 2 0, fun l => eq l == c.e)] 0)
def execMatchLanes (w : Z1) (s : State) : Res := issue .matchLanes w (bodyMatch w) s

/-- The lane elected among the lanes of F. -/
def elected (choice : Nat) (f : Mask) (k : Nat) : Option Nat :=
  let l := maskLanes f
  match choice with
  | 0 => l.head?
  | 1 => l.getLast?
  | _ => match l.find? (fun j => k < j) with
    | some j => some j
    | none => l.head?

def bodyElect (x : Z1) (c : Ctx) (s : State) : Act :=
  let m := maskB x (fld x.mod 3 3 = 1) c s
  let f := m &&& c.e
  let e := elected (fld x.mod 6 5) f (c.scal s x.a.toNat % 32)
  let s := c.maskx s (outside c m)
  let v : Word := match e with | some l => BitVec.ofNat 32 l | none => 0xFFFFFFFF
  .done (c.result s (latOf c .elect x) (if fld x.mod 4 4 = 1 then some x.d.toNat else none) (fun _ => [v])
    [(fld x.mod 2 0, fun l => e == some l)] 0)
def execElect (w : Z1) (s : State) : Res := issue .elect w (bodyElect w) s

end Sys2Proof.Machine
end

