-- ==== Sys2Proof/Machine/System.lean ====
section
/-!
DEFINITION. The system instructions (17 R347 to R359), pushes by ENQ and submission windows (17 R353 to R355,
22 R384), and invalidations (17 R356, 25 R435).
-/
namespace Sys2Proof.Machine

/-! ### System registers (17 R348 to R350) -/

/-- Level k, counted from the outermost. -/
def loopAt (w : Warp) (k : Nat) : Option LoopLvl := w.loops.reverse[k]?
def half (v i : Nat) : Nat := if i = 0 then v else v / 2 ^ 32

/-- Stopped-warp records of a core's kernel warps that the agent has not handled. -/
def pendingStops (s : State) (core : Nat) : Nat :=
  ((s.core core).warps.filter fun e => !e.2.agent && e.2.stopped.any fun r => r.code == 0 || !r.resolved).length
def residentBits (s : State) (core : Nat) : Nat :=
  (s.core core).blocks.foldl (fun a e => if e.1 < 16 then a ||| 2 ^ e.1 else a) 0

/-- The contents of a system register (R349). -/
def sysReg (s : State) (core : Nat) (b : Block) (w : Warp) (n : Nat) : Nat :=
  let lv (f : LoopLvl → Nat) (k : Nat) : Nat := ((loopAt w k).map f).getD 0
  if n = 0 then w.xflags.toNat
  else if n = 1 then w.xstat.toNat
  else if 0x10 ≤ n ∧ n < 0x18 then half (lv (·.ls) ((n - 0x10) / 2)) (n % 2)
  else if 0x18 ≤ n ∧ n < 0x20 then half (lv (·.le) ((n - 0x18) / 2)) (n % 2)
  else if 0x20 ≤ n ∧ n < 0x24 then lv (·.lc) (n - 0x20)
  else match n with
    | 0x28 => w.loops.length
    | 0x29 => w.stack.length
    | 0x30 => b.user0.toNat
    | 0x31 => b.user1.toNat
    | 0x32 => b.tenant % 4096
    | 0x33 => b.cls % 256
    | 0x34 => b.flow
    | 0x35 => b.deadline
    | 0x36 => b.deadline / 2 ^ 32
    | 0x40 => (s.core core).ashape.toNat
    | 0x41 => 2 ^ 16 * s.effCadence core + (s.core core).cadReq.toNat
    | 0x100 => pendingStops s core
    | 0x101 => residentBits s core
    | _ => 0

def bodySysrd (x : Z1) (c : Ctx) (s : State) : Act :=
  if c.e = 0 then .done s
  else .done (c.result s 8 (some x.d.toNat) (fun _ => [BitVec.ofNat 32 (sysReg s c.core c.b c.w (sysNum x))]) [] 0)

/-- A write takes effect 4 clk after its issue (R350). -/
def bodySyswr (x : Z1) (c : Ctx) (s : State) : Act :=
  let v := c.scal s x.a.toNat
  let wr (y : BWr) : Act := .done (s.addBpend c.core c.bi (s.now + 4) y)
  if c.e = 0 then .done s
  else match sysNum x with
    | 0 => wr (.xflags c.slot (s.now + 4) (BitVec.ofNat 5 v))
    | 1 => wr (.xstat c.slot (BitVec.ofNat 2 v))
    | 0x30 => wr (.user 0 (BitVec.ofNat 32 v) c.w.num)
    | 0x31 => wr (.user 1 (BitVec.ofNat 32 v) c.w.num)
    | 0x40 => wr (.ashape (BitVec.ofNat 4 v))
    | _ => .done s

def execSysrd (w : Z1) (s : State) : Res := issue .sysrd w (bodySysrd w) s
def execSyswr (w : Z1) (s : State) : Res := issue .syswr w (bodySyswr w) s

/-! ### RAND (R351, R352) -/

/-- One round of Philox4x32 on a counter and a key. -/
def philoxRound (x : Word × Word × Word × Word) (k : Word × Word) : Word × Word × Word × Word :=
  let p0 := 0xD2511F53 * x.1.toNat
  let p1 := 0xCD9E8D57 * x.2.2.1.toNat
  let hi (p : Nat) : Word := BitVec.ofNat 32 (p / 2 ^ 32)
  let lo (p : Nat) : Word := BitVec.ofNat 32 p
  (hi p1 ^^^ x.2.1 ^^^ k.1, lo p1, hi p0 ^^^ x.2.2.2 ^^^ k.2, lo p0)

def philox : Nat → Word × Word × Word × Word → Word × Word → List Word
  | 0, x, _ => [x.1, x.2.1, x.2.2.1, x.2.2.2]
  | n + 1, x, k => philox n (philoxRound x k) (k.1 + 0x9E3779B9, k.2 + 0xBB67AE85)

def bodyRand (x : Z1) (c : Ctx) (s : State) : Act :=
  let k := 1536 + 2 * fld x.mod 4 0
  let w (n : Nat) : Word := BitVec.ofNat 32 n
  let stream (l : Nat) : Word := match x.ext with | .imm i => i | _ => w (c.reg s x.b.toNat l)
  let key := (w (c.scal s k), w (c.scal s (k + 1)))
  if c.e = 0 then .done s
  else .done (c.result s (latOf c .rand x) (some x.d.toNat) (fun l =>
    philox 10 (w (c.reg s x.a.toNat l), w (c.reg s (x.a.toNat + 1) l), w l, stream l) key) [] 0)

def execRand (w : Z1) (s : State) : Res := issue .rand w (bodyRand w) s

/-! ### Pushes of task records (17 R353 to R355, 22 R384) -/

/-- Is a target one that no push may name: bits that are zero, or an enabled node whose chain does not end at the launch
leaf (23 R399)? A disabled node is full to a push (R403; log 12). -/
def targetBad (s : State) (target : Nat) : Bool :=
  let n := nfld target 8 0
  let t := nfld target 9 9
  nfld target 31 11 != 0 || (if nfld target 10 10 = 1 then n != 0 else descOn s t false n && chainLeaf s t 8 n != some 0)

/-- A record read by a push: the task, or none where it is malformed (R355). A window gives the kind and, for
a virtual function, the tenant (22 R384). -/
def recordTask (s : State) (p : PushReq) (bs : List Byte) : Option (Task × Nat) × State :=
  let f (o n : Nat) : Nat := ofBytes ((bs.drop o).take n)
  let kind := if p.window.isSome then 0 else f 0 1
  let ten := match p.window with
    | some v => if v ≠ 0 then smGetD s.cfg.tenants 0 v else f 2 2
    | none => f 2 2
  if kind ≠ 0 ∨ 4096 ≤ ten ∨ 8 < f 12 4 ∨ targetBad s p.target then (none, s)
  else
    let (lid, s) := s.fresh
    let (tid, s) := s.fresh
    let t : Task := { id := tid, kind := 0, cls := f 1 1, tenant := ten, flow := f 4 4, length := f 8 4, stCount := f 12 4
                      deadline := f 16 8, user0 := f 24 8, user1 := f 32 8, stAddr := f 40 8, origin := 0x1FF, fn := p.fn
                      secure := p.secure, body := .launch lid }
    (some (t, lid), { s with launches := smPut s.launches lid { addr := f 48 8, fn := p.fn, tenant := ten } })

/-- Try a push: it stays while its release or the record's translation is awaited. Its status word lies at offset 56. -/
def tryPush (s : State) (p : PushReq) : State :=
  let gone (s : State) : State := { s with pushes := s.pushes.filter (·.id != p.id), waits := [] }
  let keep (s : State) : State := if s.pushes.any (·.id == p.id) then s else { s with pushes := s.pushes ++ [p] }
  if !drained s p.core p.rels then keep s else
  let s := releaseL1 s p.core 1
  if wbWaits s p.core then keep s else
  match engRead s p.core p.fn p.secure p.id p.va 64 with
  | ((.wait, _), s) => keep s
  | ((r, bs), s) =>
    let (st, s) := if r = .bad 0x0A then (.bad 0x0A, s) else engXlate s p.core p.fn p.secure p.id (p.va + 56) 1
    let status := match st with | .ok pa a => if a.fabric then none else some pa | _ => none
    if st == .wait then keep s
    else match r with
      | .ok _ _ => match recordTask s p bs with
        | (none, s) => settleEnq (gone s) 4 status p.who p.window
        | (some (t, _), s) =>
          startPush (gone s) (nfld p.target 9 9) (nfld p.target 10 10 = 1) (nfld p.target 8 0) t (.enq status p.who p.window)
      | _ => settleEnq (gone s) 4 status p.who p.window

/-- ENQ: the release, then the push (R355). -/
def bodyEnq (x : Z1) (c : Ctx) (s : State) : Act :=
  let va := c.scalPair s x.a.toNat
  if c.e = 0 then .done (fenceAll c s (ordering false true 1))
  else if va % 64 ≠ 0 then .fault 0x09 0 c.e 0 ((maskLanes c.e).map fun l => (l, va)) s
  else
    let rels := relBounds s c.members
    let s := moveCnt s c.core c.members .stores true
    let (id, s) := s.fresh
    .done (tryPush s { id := id, core := c.core, fn := c.b.fn, secure := s.blockSecure c.core c.b, va := va
                       target := c.scal s x.b.toNat, who := some (c.core, c.slot), window := none, rels := rels })

def execEnq (w : Z1) (s : State) : Res := issue .enq w (bodyEnq w) s

/-- Does the device have the function (22 R382)? -/
def isFn (fn : Nat) : Bool := fn == 0 || (decide (0x40 ≤ fn) && decide (fn < 0x80))

/-- SUBMISSION_PUSH: a write of the target word of a function's window. Work of a function that is not
enabled is not translated, so its push ends with no status (25 R425). -/
def execSubmissionPush (fn target : Nat) (s : State) : Res :=
  if !isFn fn then .next s
  else
    let s := { s with waits := [] }
    let va := s.reg64 (winBase fn)
    if va % 64 ≠ 0 ∨ !(s.reg (ctxReg fn 0)).getLsbD 31 then .next (s.bump (winBase fn + 0x0C) 1)
    else
      let (id, s) := s.fresh
      .next (tryPush s { id := id, core := 512, fn := fn, secure := s.fnSecure fn, va := va, target := target % 2 ^ 32
                         who := none, window := some fn })

/-- PUSH_RETRY_TIMER: a push whose time has come is tried again, as is one whose record was awaited; an offer
becomes possible again. -/
def execPushRetryTimer (tower task : Nat) (s : State) : Res :=
  match s.waitq.find? fun w => w.tower == tower && w.task.id == task && w.retry.any (· ≤ s.now) with
  | none => match s.pushes.find? fun p => p.id == task && nfld p.target 9 9 == tower && !engineBusy s p.id with
    | some p => .next (tryPush s p)
    | none => .next s
  | some w =>
    let s := { s with waits := [], waitq := s.waitq.filter (· != w) }
    match w.fin with
    | .offer _ => .next s
    | fin => .next (startPush s w.tower w.leaf w.target w.task fin)

/-! ### Invalidation (17 R356, 25 R435) -/

/-- Does an invalidation match an entry? -/
def Inval.drops (i : Inval) (e : TlbEntry) : Bool :=
  match i.kind with
  | 0 => true
  | 1 => e.fn == i.fn
  | 2 => e.covers i.fn i.addr
  | _ => e.fn == i.fn && decide (e.gpa ≤ i.addr) && decide (i.addr < e.gpa + e.gsize)

/-- Begin an invalidation: it waits for the walks begun before it, and for the accesses its release awaits. -/
def startInval (s : State) (kind fn addr : Nat) (who : Option (Nat × Nat)) (rels : List (Nat × Nat) := []) : State :=
  let (id, s) := s.fresh
  let i : Inval :=
    { id := id, kind := kind, fn := fn, addr := addr, who := who, rels := rels
      walks := (s.walks.filter fun w => !w.parked).map (·.id) }
  { s with waits := [], invals := s.invals ++ [i] }

def bodyTlbinv (x : Z1) (c : Ctx) (s : State) : Act :=
  let k := fld x.mod 1 0
  if c.e = 0 then .done (fenceAll c s (ordering false true 1))
  else
    .done (startInval (moveCnt s c.core c.members .stores true) k (if k = 0 then 0 else nfld (c.scal s x.b.toNat) 6 0)
      (if 2 ≤ k then c.scalPair s x.a.toNat else 0) (some (c.core, c.slot)) (relBounds s c.members))

def execTlbinv (w : Z1) (s : State) : Res := issue .tlbinv w (bodyTlbinv w) s

/-- The core whose warp issued an invalidation; the hypervisor's writes pass no L1. -/
def Inval.core (i : Inval) : Nat := match i.who with | some (c, _) => c | none => 512

/-- Have the walks begun before an invalidation finished, and the accesses its release awaits been performed? -/
def invalReady (s : State) (i : Inval) : Bool :=
  !(s.walks.any fun w => !w.parked && i.walks.contains w.id) && drained s i.core i.rels

/-- The word that reads 1 while a hypervisor invalidation runs. -/
def invalBusy : Nat := 0x01002014

/-- INVALIDATION_COMPLETE: the agent's stores are released, so that later walks see them, and every cache drops the
matching entries. -/
def execInvalidationComplete (id : Nat) (s : State) : Res :=
  match s.invals.find? fun i => i.id == id with
  | none => .next s
  | some i =>
    if !invalReady s i then .next s
    else
      let s := releaseL1 s i.core 1
      if wbWaits s i.core then .next s else
      let keep (l : List TlbEntry) : List TlbEntry := l.filter fun x => !i.drops x
      let s := { s with
        waits := []
        invals := s.invals.filter (·.id != id)
        cores := s.cores.map fun e => (e.1, { e.2 with tlb := keep e.2.tlb })
        clusters := s.clusters.map fun e => (e.1, { e.2 with tlb := keep e.2.tlb }) }
      match i.who with
      | some (c, sl) => .next (moveCnt s c [(sl, fullMask)] .stores false)
      | none => .next (s.setReg invalBusy 0)

/-- The hypervisor's invalidation register; ignored while one runs. -/
def hvInval (s : State) (kind fn addr : Nat) : State :=
  if s.reg invalBusy ≠ 0 then s else startInval (s.setReg invalBusy 1) kind fn addr none

def execHvInvalidateAll (s : State) : Res := .next (hvInval s 0 0 0)
def execHvInvalidateVf (fn : Nat) (s : State) : Res := .next (hvInval s 1 fn 0)
def execHvInvalidatePage (fn va : Nat) (s : State) : Res := .next (hvInval s 2 fn va)
def execHvInvalidateGpa (fn gpa : Nat) (s : State) : Res := .next (hvInval s 3 fn gpa)

/-! ### XRET (R357) -/

/-- XRET acts when the agent's trailer commits. -/
def bodyXret (x : Z1) (c : Ctx) (s : State) : Act :=
  if c.e = 0 then .done s
  else
    let t := c.scal s x.a.toNat
    .done (s.updWarp c.core c.slot fun w => { w with xret := w.xret ++ [(fld x.mod 1 0, t)] })

def execXret (w : Z1) (s : State) : Res := issue .xret w (bodyXret w) s

end Sys2Proof.Machine
end

