-- ==== Sys2Proof/Machine/Launch.lean ====
section
/-!
DEFINITION. Launches: the fetcher (22 R386, R387), the open window (R389, R393), the agents' claims (R390)
and the placement of blocks (02 R30, R32; 18 R362, R363; 10 R206).
-/
namespace Sys2Proof.Machine

/-! ### The checks of a launch (22 R387, 02 R18, 18 R363) -/

def Launch.nwarps (l : Launch) : Nat := ceilDiv (l.bdim.foldl (· * ·) 1) 32
/-- Role of warp i; plain mode has none. -/
def roleOf (x : Nat) : Role := if x = 0 then .copy else if x = 1 then .matrix else if x = 2 then .vector else .plain
def Launch.roleMode (l : Launch) : Bool := l.dfield 12 1 == 1
def Launch.roles (l : Launch) : List Role :=
  (List.range l.nwarps).map fun i => if l.roleMode then roleOf (nfld (l.dfield 16 8) (2 * i + 1) (2 * i)) else .plain
/-- Declared sets: mask and pool size; a zero mask declares none. -/
def Launch.sets (l : Launch) : List (Option SetRec) :=
  (List.range 8).map fun k =>
    let m := l.dfield (32 + 8 * k) 4
    if m = 0 then none else some { mask := BitVec.ofNat 32 m, size := l.dfield (36 + 8 * k) 2 }

def setBad (l : Launch) (r : SetRec) : Bool :=
  let ms := r.members
  decide (ms.length < 2) || decide (6 < ms.length) || ms.any (fun i => decide (l.nwarps ≤ i))
  || decide (((ms.map (· % 8)).eraseDups).length < ms.length) || r.size % 64 != 0 || decide (1024 < r.size)

/-- Two sets share a warp. -/
def setsMeet : List (Option SetRec) → Bool
  | [] => false
  | none :: r => setsMeet r
  | some x :: r => r.any (fun o => o.any fun y => x.mask &&& y.mask != 0) || setsMeet r

/-- The descriptor breaks R363. A bit that its table calls zero, in the quotas, the set entries or a plain kernel's
roles, counts as a reserved byte that is not zero (log 30). -/
def Launch.descBad (l : Launch) : Bool :=
  let q := l.dfield 24 4
  let n := l.dfield 13 1
  let has (r : Role) : Bool := l.roles.contains r
  let quotaBad (on : Bool) (x : Nat) : Bool := on && (x == 0 || decide (16 < x))
  decide (1 < l.dfield 12 1) || (n != 0 && n != l.nwarps) || decide (32 < n) || (l.roleMode && n == 0)
  || (l.roleMode && (List.range 32).any fun i => nfld (l.dfield 16 8) (2 * i + 1) (2 * i) == 3)
  || (if l.roleMode then quotaBad (has .copy) (nfld q 4 0) || quotaBad (has .matrix) (nfld q 9 5) || quotaBad (has .vector) (nfld q 14 10)
      else quotaBad true (nfld q 4 0) || nfld q 14 5 != 0 || l.dfield 16 8 != 0)
  || nfld q 31 15 != 0 || l.sets.any (fun o => o.any (setBad l)) || setsMeet l.sets || decide (786432 < l.dfield 28 4)
  || (List.range 8).any (fun k => l.dfield (38 + 8 * k) 2 != 0) || l.dfield 124 4 != 0

/-- An untorn record that is rejected. A counter or ring that does not exist has no descriptor of the launch's tenant (log 30);
a constant size above 65,536 is no case of R387 (log 52). -/
def launchBad (s : State) (l : Launch) : Bool :=
  let b := l.bdim
  let threads := b.foldl (· * ·) 1
  let cb := l.field 40 2
  let rb := l.field 42 1
  l.grid.contains 0 || decide (2 ^ 32 < l.blocks) || b.contains 0 || decide (1024 < threads)
  || nfld (l.field 36 2) 3 2 == 0 || l.descBad || decide (l.field 56 4 < l.dfield 112 4)
  || (List.range (l.field 39 1)).any (fun i => decide (16384 ≤ cb + i) || fld (s.reg (ctrReg (cb + i) 2)) 11 0 != l.tenant)
  || (List.range (l.field 44 2)).any (fun i => decide (256 ≤ rb + i) || fld (s.reg (ringReg (rb + i) 6)) 11 0 != l.tenant)
  || (nfld (l.field 36 2) 4 4 == 1) != s.fnSecure l.fn

/-! ### LAUNCH_FETCH -/

/-- The tower whose launch leaf holds a queued task of the launch. -/
def launchTask (s : State) (id : Nat) : Option (Nat × Task) :=
  let of (t : Nat) : Option (Nat × Task) :=
    ((s.queue t true 0).find? fun x => x.body == .launch id).map fun x => (t, x)
  match of 0 with
  | some r => some r
  | none => of 1

/-- Push a copy of the task across the bridge, every field unchanged (R393). -/
def forwardLaunch (s : State) (t : Nat) (x : Task) : State :=
  let (tid, s) := s.fresh
  startPush s (1 - t) true 0 { x with id := tid } .formed

/-- What follows a record read without tearing. -/
def fetched (s : State) (id t : Nat) (x : Task) : State :=
  match s.launch? id with
  | none => s
  | some l =>
    let tw := nfld (l.field 36 2) 3 2
    if tw = 3 then forwardLaunch s t x
    else if tw = 2 - t then
      let s := s.setQueue t true 0 ((s.queue t true 0).filter fun y => y.id != x.id)
      forwardLaunch (freed s t true 0) t x
    else s

/-- One attempt of the fetcher (R386). -/
def fetchLaunch (s : State) (id : Nat) : State :=
  match s.launch? id with
  | none => s
  | some l =>
    if l.fin.isSome then signalLaunch s id
    else if !l.recd.isEmpty ∨ s.now < l.due then s
    else match launchTask s id with
      | none => s
      | some (t, x) => match engRead s (512 + t) l.fn x.secure id l.addr 256 with
        | ((.wait, _), s) => s
        | ((.bad _, _), s) =>
          let s := leaveLeaves s id
          { s.bump (leafReg t 0 7) 1 with launches := smDel s.launches id }
        | ((.ok pa _, bs), s) =>
          if bs.take 8 ≠ (bs.drop 248).take 8 then
            s.updLaunch id fun l => { l with tries := l.tries + 1, due := s.now + clkOfUs (min 64 (2 ^ l.tries)) }
          else fetched ({ s.updLaunch id fun l => { l with recd := bs, pa := some pa } with waits := [] }) id t x

def execLaunchFetch (id : Nat) (s : State) : Res := .next (fetchLaunch s id)
def execLaunchFetchRetry (id : Nat) (s : State) : Res := .next (fetchLaunch s id)

/-! ### LAUNCH_OPEN (R389, R393) -/

/-- The best-ranked waiting launch of a tower whose function is not saved away. -/
def openCand (s : State) (t : Nat) : Option (Nat × Task) :=
  (s.queue t true 0).findSome? fun x => match x.body with
    | .launch id => match s.launch? id with
      | some l => if s.frozen.contains l.fn then none else some (id, x)
      | none => none
    | _ => none

/-- Can it open now: read, staged, a window slot free, and no partition change in progress? -/
def openReady (s : State) (t : Nat) : Option (Nat × Task) :=
  match openCand s t with
  | none => none
  | some (id, x) => match s.launch? id with
    | none => none
    | some l =>
      if x.staged && !l.recd.isEmpty && l.fin.isNone && !l.aborted && fld (s.reg partState) 3 0 == 0
        && decide ((leafRun s t 0).length < fld (s.reg (leafReg t 0 0)) 19 16) then some (id, x) else none

/-- The bytes of the init list: one ring entry of 8 and one layout entry of 56 for each set bit. -/
def initLen (d : List Byte) : Nat :=
  let f (o n : Nat) : Nat := ofBytes ((d.drop o).take n)
  8 * popcount 16 (f 116 2) + 56 * popcount 8 (f 118 1)

/-- Read the kernel descriptor with its init list for a translating core, as one engine access: none while it is awaited,
an empty list where it cannot be read. The list's offset counts from the start of the descriptor section, which no record
names: a free value (log 30). -/
def readDesc (s : State) (core id : Nat) (l : Launch) : Option (List Byte) × State :=
  let rd (s : State) (a n : Nat) := engRead s core l.fn (s.fnSecure l.fn) id a n
  match rd s (l.field 8 8) 128 with
  | ((.wait, _), s) => (none, s)
  | ((.bad _, _), s) => (some [], s)
  | ((.ok _ _, d), s) =>
    let n := initLen d
    if n = 0 then (some d, s)
    else match rd s (Config.descSection (l.field 8 8) + ofBytes ((d.drop 120).take 4)) n with
      | ((.wait, _), s) => (none, s)
      | ((.bad _, _), s) => (some [], s)
      | ((.ok _ _, e), s) => (some (d ++ e), s)

/-- A tower's copy opens: its open bit is set; with the first one a closed ticket opens again, with status 1. Its
agents read the descriptor anew (R390). -/
def openLaunch (s : State) (t id : Nat) (x : Task) : State :=
  let s := { s with cores := s.cores.map fun (e : Nat × Core) => if towerOf e.1 = t then (e.1, { e.2 with descs := smDel e.2.descs id }) else e }
  let s := popJob (s.setQueue t true 0 ((s.queue t true 0).filter fun y => y.id != x.id)) t true 0 x
  let s := s.updLaunch id fun l => { l with opened := l.opened ++ [(t, x)] }
  match (s.launch? id).bind (·.pa) with
  | none => s
  | some pa =>
    let old := s.memNat (pa + 160) 4
    let s := recUpd s (pa + 160) 4 fun v => v ||| 2 ^ t
    if old % 4 = 0 then
      let s := if 2 ^ 63 ≤ s.memNat (pa + 128) 8 then ticketFlip s pa else s
      recUpd s (pa + 152) 4 fun _ => 1
    else s

/-- LAUNCH_OPEN: checked when it first opens (R387). -/
def execLaunchOpen (tower : Nat) (s : State) : Res :=
  match openReady s tower with
  | none => .next s
  | some (id, x) => match s.launch? id with
    | none => .next s
    | some l =>
      if l.checked then .next (openLaunch s tower id x)
      else match readDesc s (512 + tower) id l with
        | (none, s) => .next s
        | (some d, s) =>
          let s := s.updLaunch id fun l => { l with desc := d, checked := true }
          if d.isEmpty ∨ launchBad s { l with desc := d } then .next (completeLaunch s id 6)
          else .next (openLaunch s tower id x)

/-! ### Placement (02 R30, R32) -/

def ceil4k (n : Nat) : Nat := ceilDiv n 4096 * 4096

/-- Slots a kernel may use on a partition, which no claim in flight reserves; slot 63 is the agent's. -/
def freeSlots (s : State) (core p : Nat) : List Nat :=
  ((List.range 8).map fun k => p + 8 * k).filter fun sl =>
    sl != 63 && (s.warp? core sl).isNone && !(s.core core).claim.any fun c => c.slots.contains sl

/-- The lowest free resident index, which no claim in flight reserves. -/
def freeIndex (s : State) (core : Nat) : Nat :=
  ((List.range 16).find? fun i => (smGet? (s.core core).blocks i).isNone && !(s.core core).claim.any fun c => c.index == i).getD 16

/-- Registers a block needs on a partition with base b (R32). -/
def blockNeed (b : Block) (base p : Nat) : Nat :=
  ((b.roles.zipIdx).filter fun r => (base + r.2) % 8 == p).foldl (fun a r => a + 32 * b.quota r.1) 0
    + poolNeed b ((List.range b.nwarps).map (base + ·)) p

/-- The first base partition at which a block fits on a core, beside its blocks and a claim in flight. -/
def fitBase (s : State) (core : Nat) (b : Block) : Option Nat :=
  let k := s.core core
  let bs := k.blocks.filter fun e => e.1 < 16
  let c (f : Claim → Nat) : Nat := (k.claim.map f).getD 0
  if 16 ≤ bs.length + c (fun _ => 1) ∨ 786432 < bs.foldl (fun a e => a + ceil4k e.2.scrSize) 0 + c (·.scr) + ceil4k b.scrSize
     ∨ 16 < bs.foldl (fun a e => a + e.2.barCount) 0 + c (·.bars) + b.barCount then none
  else (List.range 8).find? fun base => (List.range 8).all fun p =>
    decide (((List.range b.nwarps).filter fun i => (base + i) % 8 == p).length ≤ (freeSlots s core p).length)
    && decide (blockNeed b base p ≤ partFree s core p)

/-- The slots of a block's warps: on each partition the lowest free ones, in warp order. -/
def takeSlots (s : State) (core base n : Nat) : List Nat :=
  (List.range n).foldl (fun l i =>
    l ++ ((freeSlots s core ((base + i) % 8)).find? fun sl => !l.contains sl).toList) []

/-- The block of a launch at a workgroup index, before it has slots. -/
def blockOf (l : Launch) (id v : Nat) (core : Nat) : Block :=
  let g := l.grid
  let gx := max 1 ((g[0]?).getD 1)
  let gy := max 1 ((g[1]?).getD 1)
  let q := l.dfield 24 4
  let fl := l.field 36 2
  { launch := id, x := v % gx, y := v / gx % gy, z := v / (gx * gy), grid := g, bdim := l.bdim
    fn := l.fn, secure := nfld fl 4 4 == 1, role := l.roleMode, roles := l.roles
    qPlain := nfld q 4 0, qCopy := nfld q 4 0, qMatrix := nfld q 9 5, qVector := nfld q 14 10
    nwarps := l.nwarps, sets := l.sets
    nf := (List.range 8).foldl (fun m k => smSetD m 0 k (BitVec.ofNat 16 (l.dfield (96 + 2 * k) 2) &&& 0xFF7F)) []
    barCount := l.dfield 14 1, scrSize := l.dfield 28 4, constAddr := l.field 48 8, constSize := l.field 56 4
    ctrBase := l.field 40 2, ctrCount := l.field 39 1, ringBase := l.field 42 1, ringCount := l.field 44 2
    abortPol := nfld fl 0 0 == 1, debug := nfld fl 1 1 == 1, tower := towerOf core, cls := l.field 38 1
    tenant := l.tenant, flow := l.field 60 4, deadline := l.field 72 8
    user0 := BitVec.ofNat 32 (l.field 64 4), user1 := BitVec.ofNat 32 (l.field 68 4) }

/-- Two words that RINIT would refuse (16 R325, 08 R169): a base or size that is no multiple of 16, a size or count outside
its range, or a ring beyond the scratchpad. Reserved bits of a record in memory are ignored (00 R3). -/
def ringBad (w0 w1 scr : Nat) : Bool :=
  let base := nfld w0 19 0
  let size := nfld w1 16 0
  let n := nfld w1 24 20
  base % 16 != 0 || size % 16 != 0 || decide (size < 16)
    || decide (65536 < size) || n == 0 || decide (16 < n) || decide (scr < base + n * size)

/-- The init list of a descriptor: its rings as RINIT sets them; an entry that RINIT would refuse sets none (log 30). -/
def initRings (l : Launch) (b : Block) : Block :=
  (List.range (popcount 16 (l.dfield 116 2))).foldl (fun b i =>
    let w0 := l.dfield (128 + 8 * i) 4
    let w1 := l.dfield (132 + 8 * i) 4
    let n := nfld w1 24 20
    let r : Ring := { base := nfld w0 19 0, size := nfld w1 16 0, n := n, slots := List.replicate n 0 }
    if ringBad w0 w1 b.scrSize then b else { b with rings := smPut b.rings (nfld w0 23 20) r }) b

/-- A layout entry as LAYSET writes it, with its base; one that LAYSET would refuse (16 R323) writes none (log 30). -/
def layEntry (l : Launch) (at' base : Nat) : Nat × Option Lay :=
  let w0 := l.dfield at' 4
  let sc (k : Nat) : Nat := l.dfield (at' + 16 + 4 * k) 4
  let rank := nfld w0 8 7 + 1
  let scr := nfld w0 3 3 == 1
  let ext := (List.range 4).map fun k => if k < rank then sc (2 + k) % 2 ^ 25 else 1
  let lay : Lay := { written := true, scratch := scr, size := 2 ^ nfld w0 6 4, rank := rank, ext := ext
                     stride := (List.range 4).map fun k => if k < rank then sextN 32 (sc (6 + k)) else 0
                     base := truncN (if scr then 32 else 64) ((base : Int) + sextN 32 (l.dfield (at' + 4) 4)) }
  (nfld w0 2 0, if 4 < nfld w0 6 4 ∨ (ext.any fun e => e == 0 || decide (2 ^ 24 < e)) then none else some lay)

/-- The layouts of the init list; a base may be an n64 parameter read from the constant area. None while that
is awaited. -/
def initLays (l : Launch) (id core : Nat) : Nat → Nat → Block → State → Option Block × State
  | 0, _, b, s => (some b, s)
  | n + 1, at', b, s =>
    let lit := l.dfield (at' + 16) 8
    let put (base : Nat) : Block := match layEntry l at' base with
      | (k, some y) => { b with lays := smPut b.lays k y }
      | (_, none) => b
    if l.dfield (at' + 8) 4 % 2 = 0 then initLays l id core n (at' + 56) (put lit) s
    else match engRead s core b.fn (s.blockSecure core b) id ((b.constAddr + lit) % 2 ^ 64) 8 with
      | ((.ok _ _, bs), s) => initLays l id core n (at' + 56) (put (ofBytes bs)) s
      | ((.wait, _), s) => (none, s)
      | ((.bad _, _), s) => initLays l id core n (at' + 56) b s

/-- A warp at its start (02 R19, R20): present lanes at the kernel's entry, everything zero. -/
def startWarp (bi num threads entry now : Nat) (r : Role) : Warp :=
  let path := maskOf fun l => decide (32 * num + l < threads)
  { block := bi, num := num, role := r, agent := false, pc := entry, path := path, absent := ~~~path, next := now + 1 }

/-- Place a block with its warps at an index and in slots. -/
def placeBlock (s : State) (core base bi : Nat) (slots : List Nat) (b : Block) (threads entry : Nat) : State :=
  let s := s.setBlock core bi { b with basePart := base, slots := slots }
  let s := (slots.zipIdx).foldl (fun s p =>
    s.setWarp core p.1 (startWarp bi p.2 threads entry s.now ((b.roles[p.2]?).getD .plain))) s
  { s with waits := [] }

/-! ### Claims (22 R390) -/

/-- The open launches of a tower in rank order. -/
def openOrder (s : State) (t : Nat) : List Nat :=
  let l := s.launches.filterMap fun p => (p.2.opened.find? fun o => o.1 == t).map fun o => (p.1, o.2)
  (l.foldl (fun acc x => insertBefore (fun y => precedes x.2.rank y.2.rank) x acc) []).map (·.1)

/-- Are a core's matrix and copy leaves enabled? -/
def leavesOn (s : State) (core : Nat) : Bool :=
  descOn s (towerOf core) true (matrixLeaf core) && descOn s (towerOf core) true (copyLeaf core)

/-- May the core's agent place blocks: a compute core in service with both leaves enabled, not under test, and
no partition change (28 R466, R468, 30 R481, R482)? A boot that stopped before the partition configuration has no agent
(25 R439, R440). -/
def agentOpen (s : State) (core : Nat) : Bool :=
  s.isCompute core && !s.fenced core && leavesOn s core && !(s.testing.any fun q => q.1 == core) && fld (s.reg partState) 3 0 == 0
  && !(s.bootErr.any fun e => decide (e.1 ≤ 4))

/-- A launch with the kernel descriptor as a core's agent has read it (R390). -/
def agentLaunch (s : State) (core id : Nat) : Option Launch :=
  match s.launch? id, smGet? (s.core core).descs id with
  | some l, some d => some { l with desc := d }
  | _, _ => none

/-- A launch and base at which a block fits, among the launches given in order; or the first of them whose descriptor
the agent has still to read. -/
def claimable (s : State) (core : Nat) : List Nat → Option (Nat × Option (Nat × Block))
  | [] => none
  | id :: r =>
    if (s.launch? id).isNone then claimable s core r
    else match agentLaunch s core id with
      | none => some (id, none)
      | some l =>
        let b := blockOf l id 0 core
        if b.secure && !s.coreSecure core then claimable s core r
        else match fitBase s core b with
          | some base => some (id, some (base, b))
          | none => claimable s core r

/-- The engine number of an agent's read of a launch's descriptor. -/
def descEngine (core id : Nat) : Nat := 2 ^ 43 + 1024 * id + core

/-- The agent reads a launch's descriptor and checks it before it places a block (18 R362, R363); one that breaks a check
ends the launch as the fetcher's checks do. -/
def agentRead (s : State) (core id : Nat) : State :=
  match s.launch? id with
  | none => s
  | some l => match readDesc s core (descEngine core id) l with
    | (none, s) => s
    | (some d, s) =>
      if d.isEmpty || { l with desc := d }.descBad then completeLaunch s id 6
      else s.updCore core fun k => { k with descs := smPut k.descs id d }

/-- Reserve and claim: the atomic on the ticket is performed at the record's home. -/
def claimFrom (s : State) (core : Nat) (ids : List Nat) : State :=
  match claimable s core ids with
  | none => s
  | some (id, none) => agentRead s core id
  | some (id, some (base, b)) => match (s.launch? id).bind (·.pa) with
    | none => s
    | some pa =>
      let v := s.memNat (pa + 128) 8
      let c : Claim := { launch := id, base := base, value := v, need := (List.range 8).map (blockNeed b base)
                         index := freeIndex s core, slots := takeSlots s core base b.nwarps, scr := ceil4k b.scrSize, bars := b.barCount
                         pa := pa, blocks := ((s.launch? id).map (·.blocks)).getD 0 }
      (recUpd s (pa + 128) 8 fun v => (v + 1) % 2 ^ 64).updCore core fun k => { k with claim := some c }

/-- Has the core 16 resident blocks? -/
def coreFull (s : State) (core : Nat) : Bool := decide (16 ≤ ((s.core core).blocks.filter fun e => e.1 < 16).length)

/-- AGENT_CLAIM: the descriptor is read, once for each opening of the launch, or a workgroup is claimed. -/
def execAgentClaim (core : Nat) (s : State) : Res :=
  if (s.core core).claim.isSome || !agentOpen s core || coreFull s core then .next s
  else .next { claimFrom s core (openOrder s (towerOf core)) with waits := [] }

/-- CLAIM_RETURN: a void claim is undone, whether its launch is still known or not, and the next launch is tried; the block
is placed, but not of a launch that has been aborted or rejected (R390, 18 R363), nor while a leaf of the core is disabled (28 R468). A block claimed before its core went out
of service is placed, and then counts among those to drain (log 47). -/
def execClaimReturn (core : Nat) (s : State) : Res :=
  match (s.core core).claim with
  | none => .next s
  | some c =>
    let free (s : State) : State := { s.updCore core fun k => { k with claim := none } with waits := [] }
    if 2 ^ 63 ≤ c.value ∨ c.blocks ≤ c.value then
      let s := free (recUpd s (c.pa + 128) 8 fun v => (v + 2 ^ 64 - 1) % 2 ^ 64)
      let later := (openOrder s (towerOf core)).dropWhile fun i => i != c.launch
      .next (launchCheck (if agentOpen s core then claimFrom s core (later.drop 1) else s) c.launch)
    else match s.launch? c.launch with
    | none => .next (free s)
    | some l =>
      if l.aborted ∨ l.fin.isSome then .next (launchCheck (free s) c.launch)
      else if !leavesOn s core then .next s
      else
        let l := (agentLaunch s core c.launch).getD l
        let b := initRings l (blockOf l c.launch c.value core)
        match initLays l (descEngine core c.launch) core (popcount 8 (l.dfield 118 1)) (128 + 8 * popcount 16 (l.dfield 116 2)) b s with
        | (none, s) => .next s
        | (some b, s) =>
          .next (placeBlock (free s) core c.base c.index c.slots b (l.bdim.foldl (· * ·) 1) (l.field 16 8 + l.dfield 4 4))

end Sys2Proof.Machine
end

