-- ==== Sys2Proof/Machine/Staging.lean ====
section
/-!
DEFINITION. The staging units (23 R401, R407, R408): the staging lists of launches, the weight blocks of
WLOAD, and the hints of copy segments.
-/
namespace Sys2Proof.Machine

/-- Change a task that waits in a leaf, or that the copy engine took unstaged. -/
def updTask (s : State) (t k id : Nat) (f : Task → Task) : State :=
  let s := s.setQueue t true k ((s.queue t true k).map fun x => if x.id = id then f x else x)
  if k < 8 ∨ k % 2 = 0 then s
  else s.updCore (leafCore t k) fun c => { c with segs := c.segs.map fun g => if g.task.id = id then { g with task := f g.task } else g }

def markStaged (s : State) (t k id : Nat) : State := updTask s t k id fun x => { x with staged := true }

/-- The tasks the staging unit of a leaf works on, in position order: those within the proofing window and the
segments taken unstaged. -/
def stagingTasks (s : State) (t k : Nat) : List Task :=
  let d := max 1 (fld (s.reg (leafReg t k 0)) 28 24)
  let taken := if k < 8 ∨ k % 2 = 0 then [] else (s.core (leafCore t k)).segs.map (·.task)
  (taken ++ (s.queue t true k).take d).filter fun x => !x.staged

/-! ### The list of a launch -/

/-- Translate every page of a range for an access kind: the first answer that is not a translation. -/
def xlatePages (x : Task) (t kind : Nat) : Nat → Nat → Nat → State → EngX × State
  | 0, _, _, s => (.wait, s)
  | fuel + 1, va, n, s =>
    let m := min n (2 ^ 16 - va % 2 ^ 16)
    match engXlate s (512 + t) x.fn x.secure x.id va kind with
    | (.ok pa a, s) =>
      if a.fabric then (.bad 0x0B, s)
      else if n ≤ m then (.ok pa a, s) else xlatePages x t kind fuel (va + m) (n - m) s
    | r => r

/-- The lines of n bytes pass into their L2 homes. -/
def pullLines (s : State) (a : Attr) (pa n : Nat) : State :=
  if a.fabric then s else (linesOf pa n).foldl (fun s l => s.l2Use (128 * l) a.alloc a.prio false) s

/-- A mode-0 entry: page by page its lines are brought into their homes; false while a page is awaited. It completes where
it fails, since it is only a hint (R407). -/
def stagePull (x : Task) (t : Nat) : Nat → Nat → Nat → State → Bool × State
  | 0, _, _, s => (true, s)
  | fuel + 1, va, n, s =>
    let m := min n (2 ^ 16 - va % 2 ^ 16)
    match engXlate s (512 + t) x.fn x.secure x.id va 0 with
    | (.wait, s) => (false, s)
    | (.bad _, s) => (true, s)
    | (.ok pa a, s) => let s := pullLines s a pa m
                       if n ≤ m then (true, s) else stagePull x t fuel (va + m) (n - m) s

/-- Copy the bytes of a mode-1 entry, all its pages being translated. -/
def stageCopy (x : Task) (t : Nat) : Nat → Nat → Nat → Nat → State → EngX × State
  | 0, _, _, _, s => (.wait, s)
  | fuel + 1, src, dst, n, s =>
    let m := min n (min (2 ^ 16 - src % 2 ^ 16) (2 ^ 16 - dst % 2 ^ 16))
    match engRead s (512 + t) x.fn x.secure x.id src m with
    | ((.ok pa a, bs), s) => match engWrite s (512 + t) x.fn x.secure x.id dst bs with
      | (.ok _ _, s) => if n ≤ m then (.ok pa a, s) else stageCopy x t fuel (src + m) (dst + m) (n - m) s
      | r => r
    | ((r, _), s) => (r, s)

/-- One entry of a staging list: none while it waits, else whether it completed. -/
def stageEntry (s : State) (t : Nat) (x : Task) (e : List Byte) : Option Bool × State :=
  let f (o n : Nat) : Nat := ofBytes ((e.drop o).take n)
  if f 20 4 % 2 = 0 then
    match stagePull x t 258 (f 0 8) (f 16 4) s with
    | (true, s) => (some true, s)
    | (false, s) => (none, s)
  else match xlatePages x t 0 258 (f 0 8) (f 16 4) s with
    | (.wait, s) => (none, s)
    | (.bad _, s) => (some false, s)
    | (.ok _ _, s) => match xlatePages x t 1 258 (f 8 8) (f 16 4) s with
      | (.wait, s) => (none, s)
      | (.bad _, s) => (some false, s)
      | (.ok _ _, s) => match stageCopy x t 515 (f 0 8) (f 8 8) (f 16 4) s with
        | (.ok _ _, s) => (some true, s)
        | (.wait, s) => (none, s)
        | (.bad _, s) => (some false, s)

/-- A launch's list is read whole when its staging begins, then the next entry is done; a list that cannot be read, or an
entry that fails, ends the launch with status 6 (R408). -/
def stageLaunch (s : State) (t : Nat) (x : Task) (id : Nat) : State :=
  match s.launch? id with
  | none => s
  | some l =>
    if l.recd.isEmpty then s
    else if x.stCount ≤ x.stDone then markStaged s t 0 x.id
    else match x.stList with
    | none => match engRead s (512 + t) x.fn x.secure x.id x.stAddr (32 * x.stCount) with
      | ((.wait, _), s) => s
      | ((.bad _, _), s) => completeLaunch s id 6
      | ((.ok _ _, bs), s) => updTask s t 0 x.id fun y => { y with stList := some bs }
    | some bs => match stageEntry s t x ((bs.drop (32 * x.stDone)).take 32) with
        | (none, s) => s
        | (some false, s) => completeLaunch s id 6
        | (some true, s) => updTask s t 0 x.id fun y =>
            { y with stDone := y.stDone + 1, staged := decide (y.stCount ≤ y.stDone + 1) }

/-! ### The hint of a copy segment (R401) -/

/-- Bring the lines of one source into their homes: its physical address where it is local and known, and whether it is no
longer awaited. -/
def hintAt (c : CopyOp) (id va n : Nat) (s : State) : (Bool × Option Nat) × State :=
  match engXlateK true s c.core c.task.fn (copyWorld s c) id va 0 with
  | (.wait, s) => ((false, none), s)
  | (.bad _, s) => ((true, none), s)
  | (.ok pa a, s) => ((true, if a.fabric then none else some pa), pullLines s a pa n)

/-- The source of one element; a gather reads its index first. -/
def hintElem (c : CopyOp) (id e : Nat) (s : State) : Bool × State :=
  let src (scr : Bool) (a n : Nat) (s : State) : Bool × State :=
    if scr then (true, s) else let ((ok, _), s) := hintAt c id a n s; (ok, s)
  match c.kind with
  | .cpy n _ sScr ps => src sScr (((ps[e]?).map (·.2)).getD 0) n s
  | .tcpy dl sl none => src sl.scratch (sl.addr (coordOf dl.ext e)) dl.size s
  | .tcpy dl ul (some gl) =>
    let co := coordOf dl.ext e
    let ia := gl.addr (co.drop 1)
    let row (j : Nat) (s : State) : Bool × State :=
      if (ul.ext[1]?).getD 1 ≤ j then (true, s) else src ul.scratch (ul.addr (co.take 1 ++ [j] ++ co.drop 2)) dl.size s
    if gl.scratch then row (ofBytes (scrBytes (s.block c.core c.block) ia gl.size)) s
    else match hintAt c id ia gl.size s with
      | ((true, some pa), s) => row (s.memNat pa gl.size) s
      | ((ok, _), s) => (ok, s)
  | .fxrd _ _ _ _ => (true, s)

def hintAll (c : CopyOp) (id : Nat) : List Nat → State → Bool × State
  | [], s => (true, s)
  | e :: r, s => match hintElem c id e s with
    | (true, s) => hintAll c id r s
    | (false, s) => (false, s)

/-- The implicit mode-0 entry of a segment: its source lines come into their homes, and the task waits while one of their
pages is awaited. -/
def stageSeg (s : State) (t k : Nat) (x : Task) (copy lo hi : Nat) : State :=
  match s.copy? copy with
  | none => markStaged s t k x.id
  | some c => match hintAll c x.id (elemsOf c lo hi) s with
    | (true, s) => markStaged (dropFailed s x.id) t k x.id
    | (false, s) => s

/-- STAGING_ENTRY_DONE: the unit works through the entries in position order (R407). -/
def execStagingEntryDone (tower leaf task : Nat) (s : State) : Res :=
  match (stagingTasks s tower leaf).head? with
  | none => .next s
  | some x => if x.id ≠ task then .next s else
    let s := if x.staged then s else s.act (2 + x.tenant) 5 1
    match x.body with
    | .launch id => .next (stageLaunch s tower x id)
    | .tile t => match t.kind with
      | .wload w => .next (stageWload s t.core x t w)
      | _ => .next (markStaged s tower leaf task)
    | .seg c lo hi => .next (stageSeg s tower leaf x c lo hi)
    | .packet _ => .next s

end Sys2Proof.Machine
end

