-- ==== Sys2Proof/Machine/CtxSwitch.lean ====
section
/-!
DEFINITION. Context save and restore (17 R358, R359; 09 R194 to R196; 22 R395). The parts of the image whose content
the manual fixes are written to the save area and read back from it: registers, pools, temporaries, scratchpad and
tiles. The control and block images, whose format it leaves open, are free values in memory (log 3); what they hold
stands with the block at a number of its own in place of a core, which the padding of the area's first page names (log 31).
-/
namespace Sys2Proof.Machine

/-! ### Where a saved block stands -/

/-- Where what an area's image holds stands: the number lies in the padding after the header. -/
def savedAt (s : State) (pa : Nat) : Nat := 2 ^ 20 + s.memNat (pa + 64) 8

/-- A change of place: of a core, an index and the slots of a block's warps. -/
structure Move where
  c0 : Nat
  b0 : Nat
  c1 : Nat
  b1 : Nat
  from' : List Nat
  to' : List Nat
  deriving DecidableEq, Repr

def Move.mine (m : Move) (sl : Nat) : Bool := m.from'.contains sl
def Move.slot (m : Move) (sl : Nat) : Nat := if m.mine sl then (m.to'[m.from'.findIdx (· == sl)]?).getD sl else sl
def Move.mem (m : Move) (l : List (Nat × Mask)) : List (Nat × Mask) := l.map fun p => (m.slot p.1, p.2)
def Move.bounds (m : Move) (l : List (Nat × Nat)) : List (Nat × Nat) := l.map fun p => (m.slot p.1, p.2)

def Move.task (m : Move) (x : Task) : Task :=
  let x := if x.origin = m.c0 then { x with origin := m.c1 } else x
  match x.body with
  | .tile t => { x with
      body := .tile { t with core := m.c1, block := m.b1, members := m.mem t.members, rels := m.bounds t.rels }
      staged := x.staged && !isWload t }
  | _ => x

def Move.warp (m : Move) (w : Warp) : Warp :=
  { w with block := m.b1, xl := [], halt := w.halt.map fun h => (h.1, h.2.map m.slot)
           ops := w.ops.map fun o => { o with members := m.mem o.members, opens := o.opens.map m.slot }
           replay := w.replay.map fun r => (r.1, m.mem r.2)
           stopped := w.stopped.map fun r => { r with group := r.group.map m.slot, contrib := m.mem r.contrib, walks := [] } }

/-- Everything in flight that names the block follows it. -/
def Move.refs (m : Move) (s : State) : State :=
  let has (l : List (Nat × Mask)) : Bool := l.any fun p => m.mine p.1
  { s with
    copies := s.copies.map fun c => if c.core = m.c0 ∧ c.block = m.b0 then
        { c with core := m.c1, block := m.b1, members := m.mem c.members, rels := m.bounds c.rels, task := m.task c.task } else c
    sends := s.sends.map fun e => (e.1, { e.2 with
      fxws := e.2.fxws.map fun f => if f.core = m.c0 ∧ has f.members then
        { f with core := m.c1, members := m.mem f.members, rels := m.bounds f.rels } else f
      flags := e.2.flags.map fun f => if f.core = m.c0 ∧ has f.members then
        { f with core := m.c1, members := m.mem f.members, rels := m.bounds f.rels } else f })
    remote := s.remote.map fun e => (e.1, if e.2.core ≠ m.c0 then e.2 else match e.2.who with
      | .lane sl op l va => if m.mine sl then { e.2 with core := m.c1, who := .lane (m.slot sl) op l va, rels := m.bounds e.2.rels, after := m.bounds e.2.after } else e.2
      | .atom sl d lo ms a => if m.mine sl then
          { e.2 with core := m.c1, who := .atom (m.slot sl) d lo (m.mem ms) a, rels := m.bounds e.2.rels, after := m.bounds e.2.after } else e.2
      | .copy id => if s.copies.any fun c => c.id == id && c.core == m.c0 && c.block == m.b0 then { e.2 with core := m.c1 } else e.2)
    ctrs := s.ctrs.map fun e => (e.1, { e.2 with waiters := e.2.waiters.filter fun q => !(q.1 == m.c0 && m.mine q.2.1) })
    owners := s.owners.map fun e => (e.1, { e.2 with waiters := e.2.waiters.filter fun q => match q with
      | .lane c sl _ _ => !(c == m.c0 && m.mine sl)
      | _ => true })
    advs := s.advs.map fun a => if a.core = m.c0 ∧ a.rels.any (fun r => m.mine r.1) then { a with core := m.c1, rels := m.bounds a.rels } else a
    walks := s.walks.filter fun x => match x.who with | .warp c sl => !(c == m.c0 && m.mine sl) | .engine _ => true
    waits := [] }

/-- Move the block with its warps and its matrix slots. -/
def Move.block (m : Move) (s : State) (b : Block) : State :=
  let ws := m.from'.filterMap fun sl => (s.warp? m.c0 sl).bind fun w => if w.block = m.b0 ∧ !w.agent then some (sl, w) else none
  let old := (s.core m.c0).slots
  let s := m.refs s
  let s := ws.foldl (fun s e => s.updCore m.c0 fun k => { k with warps := smDel k.warps e.1 }) s
  let s := ws.foldl (fun s e => s.setWarp m.c1 (m.slot e.1) (m.warp e.2)) s
  let s := s.updCore m.c0 fun k =>
    { k with blocks := smDel k.blocks m.b0, slots := k.slots.map fun q => if q.state ≠ 0 ∧ q.owner = m.b0 then {} else q }
  let s := s.updCore m.c1 fun k =>
    { k with slots := (k.slots.zip old).map fun q => if q.2.state ≠ 0 ∧ q.2.owner = m.b0 then { q.2 with owner := m.b1 } else q.1 }
  s.setBlock m.c1 m.b1 { b with
    slots := m.to', tasks := b.tasks.map m.task
    rings := b.rings.map fun r => (r.1, { r.2 with rel := r.2.rel.map fun q => (q.1, m.bounds q.2) }) }

/-! ### CTXSAVE -/

/-- The slots of a block's warps by number. -/
def heldSlots (s : State) (core bi : Nat) : Nat :=
  ((s.core core).slots.zipIdx).foldl (fun a q => if q.1.state ≠ 0 ∧ q.1.owner = bi then a + 2 ^ q.2 else a) 0

/-- The save begins: the block's unstarted tasks leave the leaves, its running segments stop at their next
boundary, its warps that wait inside a run stop there, at a rendezvous or for the push of a task they formed too, and its
page requests are abandoned (09 R194, R195). -/
def beginSave (s : State) (core bi : Nat) (op : CtxOp) : State :=
  let s := match op.who with
    | some sl => moveCnt s core [(sl, fullMask)] .stores true
    | none => s
  let mine := waitingTasks s core bi
  let held := (blockWarps s core bi).filter fun e => e.2.inRun && e.2.stopped.isNone
    && (s.waits.contains (core, e.1) || e.2.arrived.isSome || formHeld s core e.1)
  let s := dropTasks s (taskOf s core bi)
  let s := s.updBlock core bi fun b => { b with saving := some op.pa, tasks := mine }
  let s := s.updCore core fun k => { k with
    ctxops := k.ctxops ++ [op]
    segs := k.segs.map fun g => if s.copies.any fun c => c.id == g.copy && c.block == bi then { g with stop := true } else g }
  let s := held.foldl (fun s e => stopWarp s core e.1 { mkRecord s core e.1 0 0 2 0 0 e.2.pc [] with group := [e.1] }) s
  { devWrite s op.pa (toBytes 4 0) with
    waits := [], walks := s.walks.filter fun x => match x.who with
      | .warp c sl => !(c == core && (s.block core bi).slots.contains sl)
      | .engine _ => true }

/-- A save area named by an instruction: its physical address, or what stops the instruction. -/
def areaCheck (c : Ctx) (s : State) (va : Nat) (go : Nat → Act) : Act :=
  let lanes := (maskLanes c.e).map fun l => (l, va)
  if c.e = 0 then .done s
  else if va % 4096 ≠ 0 then .fault 0x09 0 c.e 0 lanes s
  else match warpXlate s c.core c.b c.w va 1 with
    | none => .wait (startWalk s c.core c.slot c.b 1 [va])
    | some (.bad code sub) => .fault code sub c.e 0 lanes s
    | some (.ok pa _) => go pa

def bodyCtxsave (x : Z1) (c : Ctx) (s : State) : Act :=
  let va := c.scalPair s x.b.toNat
  areaCheck c s va fun pa =>
    let bi := c.scal s x.a.toNat % 16
    match smGet? (s.core c.core).blocks bi with
    | none => .done (devWrite s pa (toBytes 4 3))
    | some b =>
      if b.secure != s.secureMem pa then addrFault 0x0C va c s
      else if b.saving.isSome then .done s
      else .done (beginSave s c.core bi { who := some c.slot, block := bi, va := va, pa := pa, fn := c.b.fn
                                          secure := s.blockSecure c.core c.b, load := false })

def execCtxsave (w : Z1) (s : State) : Res := issue .ctxsave w (bodyCtxsave w) s

/-- Has everything of the block come to rest? -/
def saveReady (s : State) (core : Nat) (op : CtxOp) : Bool :=
  ((blockWarps s core op.block).all fun e =>
    (e.2.stopped.isSome || (!e.2.inRun && e.2.trailer.isNone)) && e.2.ops.all (·.isLoad))
  && !(runningTasks s core).any (taskOf s core op.block)

/-! ### The image (09 R195, 17 R358) -/

/-- The words of a sparse list, and back. -/
def sparseWords (t : Sparse Word) (n : Nat) : List Byte := (List.range n).flatMap fun i => toBytes 4 (smGetD t 0 i).toNat
def fromWords (n : Nat) (bs : List Byte) : Sparse Word :=
  (List.range n).filterMap fun i =>
    let x : Word := BitVec.ofNat 32 (ofBytes ((bs.drop (4 * i)).take 4))
    if x = 0 then none else some (i, x)

/-- A block's resident warps in the order of their numbers. -/
def orderedWarps (s : State) (core : Nat) (b : Block) : List (Nat × Warp) := b.slots.filterMap fun sl => (s.warp? core sl).map fun w => (sl, w)
/-- The slots a block holds, ascending. -/
def ownSlots (s : State) (core bi : Nat) : List (Nat × MSlot) :=
  ((s.core core).slots.zipIdx).filterMap fun q => if q.1.state ≠ 0 ∧ q.1.owner = bi then some (q.2, q.1) else none
/-- The temporaries of a warp that stopped inside a run. -/
def Warp.savedTemps (w : Warp) : Sparse Word := match w.stopped with | some r => r.temps | none => w.tmp
def tileBytes (q : MSlot) : List Byte := (List.range 16384).flatMap fun i => toBytes 14 (smGetD q.tile 0 i).toNat

/-- The parts in their listed order, with their bytes where the manual fixes them: within a part warps, sets and slots
ascend, and registers run by number, then lane (log 31). -/
def imageParts (s : State) (core bi : Nat) : List (Nat × Option (List Byte)) :=
  let b := s.block core bi
  let ws := orderedWarps s core b
  let runs := ws.filter fun e => e.2.inRun
  let part (bs : List Byte) : Nat × Option (List Byte) := (ceil4k bs.length, some bs)
  [part (ws.flatMap fun e => sparseWords e.2.v (1024 * b.quota e.2.role)),
   part ((b.sets.filterMap id).flatMap fun r => sparseWords r.pool (32 * r.size)),
   (ceil4k (1024 * ws.length), none),
   part (runs.flatMap fun e => sparseWords e.2.savedTemps 256),
   (4096, none),
   part ((List.range b.scrSize).map (smGetD b.scr 0 ·))]
  ++ (ownSlots s core bi).flatMap fun q => [part (tileBytes q.2), (4096, none)]

def imageSize (s : State) (core bi : Nat) : Nat := 4096 + ((imageParts s core bi).map (·.1)).sum

def freeBytes (k : Nat) : Nat → List Byte
  | 0 => []
  | n + 1 => BitVec.ofNat 8 (Config.freeNat k) :: freeBytes (k + 1) n

/-- The bytes of the parts one after another, each padded; those the manual leaves open are free values. -/
def imageBytes : List (Nat × Option (List Byte)) → State → List Byte × State
  | [], s => ([], s)
  | (n, some bs) :: r, s => let (l, s) := imageBytes r s; (bs ++ List.replicate (n - bs.length) 0 ++ l, s)
  | (n, none) :: r, s => let (l, t) := imageBytes r { s with free := s.free + n }; (freeBytes s.free n ++ l, t)

/-- The number of a context operation's accesses to its area. -/
def areaEngine (op : CtxOp) : Nat := 2 ^ 46 + op.pa / 4096

/-- Are pages k on of an area translated for an access, and free of copies? One that cannot be is passed over. -/
def areaReady (op : CtxOp) (core kind : Nat) : Nat → Nat → State → Bool × State
  | 0, _, s => (true, s)
  | n + 1, k, s => match engXlate s core op.fn op.secure (areaEngine op) (op.va + 4096 * k) kind with
    | (.wait, s) => (false, s)
    | (.ok pa _, s) => if rangeHeld s none pa 4096 then (false, s) else areaReady op core kind n (k + 1) s
    | (.bad _, s) => areaReady op core kind n (k + 1) s

/-- Write the image after the header's page, 4 KiB at a time; a page that cannot be translated is left. -/
def writeImage (op : CtxOp) (core : Nat) : Nat → Nat → List Byte → State → State
  | 0, _, _, s => s
  | n + 1, k, bs, s =>
    writeImage op core n (k + 1) (bs.drop 4096)
      (engWrite s core op.fn op.secure (areaEngine op) (op.va + 4096 * k) (bs.take 4096)).2

/-- Read the image; a page that cannot be read is as it was saved. -/
def readImage (op : CtxOp) (core : Nat) : Nat → Nat → List Byte → State → List Byte × State
  | 0, _, _, s => ([], s)
  | n + 1, k, old, s =>
    let (r, s) := engRead s core op.fn op.secure (areaEngine op) (op.va + 4096 * k) 4096
    let page := match r with | (.ok _ _, bs) => bs | _ => old.take 4096
    let (l, s) := readImage op core n (k + 1) (old.drop 4096) s
    (page ++ l, s)

/-- The header (17 R358) apart from its status, and the number that names what the open parts hold. -/
def saveHeader (s : State) (core bi token : Nat) : List Byte :=
  let b := s.block core bi
  toBytes 4 (imageSize s core bi) ++ toBytes 8 (((s.launch? b.launch).map (·.addr)).getD 0)
    ++ toBytes 4 b.x ++ toBytes 4 b.y ++ toBytes 4 b.z ++ toBytes 4 (heldSlots s core bi) ++ List.replicate 32 0
    ++ toBytes 8 token

/-- An operation of the core is over: the agent's counter falls, or the list's count rises, and with the last
one the request ends (22 R395). -/
def endCtxOp (s : State) (core : Nat) (op : CtxOp) (counted : Bool) : State :=
  let s := { s.updCore core fun k => { k with ctxops := k.ctxops.filter (· != op) } with waits := [] }
  match op.who with
  | some sl => moveCnt s core [(sl, fullMask)] .stores false
  | none =>
    let s := if counted then recUpd s (s.ctxList + 8) 4 fun v => (v + 1) % 2 ^ 32 else s
    if op.load ∨ (realCores s).any (fun e => e.2.ctxops.any fun o => o.who.isNone) then s
    else s.setReg (ctxswReg 3) (BitVec.ofNat 32 s.ctxEnd)

/-- The save at the head of a core's list that can finish now. -/
def saveOp (s : State) (core : Nat) : Option CtxOp :=
  (s.core core).ctxops.find? fun op => !op.load &&
    ((s.block core op.block).saving != some op.pa || saveReady s core op)

/-- CTXSAVE_DONE: the core's stores are released and the image is written, the status reads 1, and the block's resources
are freed. It waits while a page of the area is awaited or a copy owns a line to be written. -/
def execCtxsaveDone (core : Nat) (s : State) : Res :=
  match saveOp s core with
  | none => .next s
  | some op =>
    if (s.block core op.block).saving ≠ some op.pa then
      .next (endCtxOp (devWrite s op.pa (toBytes 4 3)) core op false)
    else
      let bi := op.block
      let ws := blockWarps s core bi
      let n := imageSize s core bi / 4096
      let (ok, s) := areaReady op core 1 (n - 1) 1 s
      let s := releaseL1 s core 1
      if !ok || wbWaits s core then .next s else
      let late := waitingTasks s core bi
      let s := dropTasks s (taskOf s core bi)
      let s := s.updBlock core bi fun b => { b with tasks := late ++ b.tasks }
      let s := (s.block core bi).bpend.foldl (fun s p => applyBWr core bi s p.2) s
      let s := ws.foldl (fun s e => s.updWarp core e.1 fun w =>
        { w.applyAll (s.block core bi) (w.pend.flatMap (·.writes)) with pend := [] }) s
      let (token, s) := s.fresh
      let (bs, s) := imageBytes (imageParts s core bi) (devWrite s (op.pa + 4) (saveHeader s core bi token))
      let s := writeImage op core (n - 1) 1 bs s
      let b := s.block core bi
      let m : Move := { c0 := core, b0 := bi, c1 := 2 ^ 20 + token, b1 := 0, from' := b.slots, to' := b.slots }
      let s := ws.foldl (fun s e => releasePart s core e.1) (s.setCore (2 ^ 20 + token) {})
      let s := m.block s { b with bpend := [] }
      .next (endCtxOp (devWrite s op.pa (toBytes 4 1)) core op true |>.act (2 + b.tenant) 6 1)

/-! ### CTXLOAD -/

def bodyCtxload (x : Z1) (c : Ctx) (s : State) : Act :=
  let va := c.scalPair s x.a.toNat
  areaCheck c s va fun pa =>
    match smGet? (s.core (savedAt s pa)).blocks 0 with
    | none => .done (devWrite s pa (toBytes 4 3))
    | some b =>
      if b.secure != s.secureMem pa then addrFault 0x0C va c s
      else if s.memNat pa 4 ≠ 1 then .done (devWrite s pa (toBytes 4 3))
      else
        let op : CtxOp := { who := some c.slot, block := 0, va := va, pa := pa, fn := c.b.fn
                            secure := s.blockSecure c.core c.b, load := true }
        .done ({ moveCnt s c.core c.members .stores true with waits := [] }.updCore c.core fun k => { k with ctxops := k.ctxops ++ [op] })

def execCtxload (w : Z1) (s : State) : Res := issue .ctxload w (bodyCtxload w) s

/-- Can a saved block be restored on a core (17 R359)? None on a fenced one, which has left the agents' list (30 R482). -/
def loadBase (s : State) (core : Nat) (pa : Nat) : Option Nat :=
  let k := savedAt s pa
  match smGet? (s.core k).blocks 0 with
  | none => none
  | some b =>
    let clash := ((s.core k).slots.zip (s.core core).slots).any fun q => q.1.state != 0 && q.2.state != 0
    if b.tower ≠ towerOf core ∨ clash ∨ s.fenced core then none else fitBase s core b

/-- The weight blocks a restored block needs again: those of its slots and of its queued commands, except
where a WLOAD still queued brings them (07 R154). -/
def weightsOf (s : State) (k : Nat) (b : Block) : List (Nat × WCtx) :=
  let ts := b.tasks.filterMap bodyTile
  let queued := ts.filterMap fun t => match t.kind with | .wload w => some w.id | _ => none
  let all := (((s.core k).slots.zipIdx).filterMap fun q => if q.1.state ≠ 0 then q.1.ctx.map fun w => (q.2, w) else none)
    ++ ts.filterMap fun t => match t.kind with | .mxmul w .. => some (t.slot, w) | _ => none
  (all.filter fun q => !queued.contains q.2.id).eraseDups

/-- Fetch the weight blocks again: none while one is awaited; false where one cannot be read or is malformed. -/
def fetchWeights (core : Nat) (b : Block) : List (Nat × WCtx) → State → Option Bool × State
  | [], s => (some true, s)
  | (i, w) :: r, s => match engRead s core b.fn (b.secure && s.coreSecure core) (2 ^ 42 + w.id) w.addr w.len with
    | ((.wait, _), s) => (none, s)
    | ((.bad _, _), s) => (some false, s)
    | ((.ok _ _, bs), s) => match parseBlock w bs with
      | none => (some false, s)
      | some _ => fetchWeights core b r (wbufWrite s core i w bs)

/-- Take n elements of a size from the front of bytes. -/
def cutBytes (z : Nat) : Nat → List Byte → List (List Byte)
  | 0, _ => []
  | n + 1, bs => bs.take z :: cutBytes z n (bs.drop z)

/-- Each part's bytes from an image. -/
def partSlices : List (Nat × Option (List Byte)) → List Byte → List (List Byte)
  | [], _ => []
  | (n, _) :: r, bs => bs.take n :: partSlices r (bs.drop n)

/-- Registers by warp, each with its quota's words, from a part. -/
def sliceWarps (b : Block) : List (Nat × Warp) → List Byte → List (Nat × Sparse Word)
  | [], _ => []
  | e :: r, bs => (e.1, fromWords (1024 * b.quota e.2.role) bs) :: sliceWarps b r (bs.drop (4096 * b.quota e.2.role))
def slicePools : List (Option SetRec) → List Byte → List (Option SetRec)
  | [], _ => []
  | none :: r, bs => none :: slicePools r bs
  | some q :: r, bs => some { q with pool := fromWords (32 * q.size) bs } :: slicePools r (bs.drop (128 * q.size))
def tileFrom (bs : List Byte) : Sparse (BitVec 112) :=
  ((cutBytes 14 16384 bs).zipIdx).filterMap fun p =>
    let x : BitVec 112 := BitVec.ofNat 112 (ofBytes p.1)
    if x = 0 then none else some (p.2, x)

/-- What an image in memory holds takes the place of what was saved. -/
def loadImage (s : State) (k : Nat) (img : List Byte) : State :=
  let b := s.block k 0
  let ws := orderedWarps s k b
  let runs := ws.filter fun e => e.2.inRun
  match partSlices (imageParts s k 0) img with
  | regs :: pools :: _ :: temps :: _ :: scr :: tiles =>
    let s := (sliceWarps b ws regs).foldl (fun s e => s.updWarp k e.1 fun w => { w with v := e.2 }) s
    let s := (runs.zip (cutBytes 1024 runs.length temps)).foldl (fun s e => s.updWarp k e.1.1 fun w =>
      match w.stopped with
      | some r => { w with stopped := some { r with temps := fromWords 256 e.2 } }
      | none => { w with tmp := fromWords 256 e.2 }) s
    let bytes : Sparse Byte := ((scr.take b.scrSize).zipIdx).filterMap fun p => if p.1 = 0 then none else some (p.2, p.1)
    let s := s.setBlock k 0 { b with sets := slicePools b.sets pools, scr := bytes }
    ((ownSlots s k 0).zipIdx).foldl (fun s q => s.updMslot k q.1.1 fun m => { m with tile := tileFrom ((tiles[2 * q.2]?).getD []) }) s
  | _ => s

/-- The loads still outstanding are attempted again at the addresses they name (05 R112): none while a page is awaited,
false where one cannot be translated. -/
def retranslate (core : Nat) (b : Block) (id kind : Nat) : List LaneAcc → State → Option (Bool × List LaneAcc) × State
  | [], s => (some (true, []), s)
  | x :: r, s => match engXlate s core b.fn (b.secure && s.coreSecure core) id x.va kind with
    | (.wait, s) => (none, s)
    | (.bad _, s) => (some (false, []), s)
    | (.ok pa a, s) => match retranslate core b id kind r s with
      | (some (ok, l), s) => (some (ok, { x with addr := pa, attr := a } :: l), s)
      | q => q

/-- The outstanding loads of a saved block from memory or its constants, each with the slot that leads it. -/
def openLoads (s : State) (k : Nat) : List (Nat × MemOp) :=
  (s.core k).warps.flatMap fun e =>
    (e.2.ops.filter fun o => (o.space == .glob || o.space == .const) && !o.accs.isEmpty).map fun o => (e.1, o)

def replayLoads (k core : Nat) (b : Block) : List (Nat × MemOp) → State → Option Bool × State
  | [], s => (some true, s)
  | (sl, o) :: r, s => match retranslate core b (2 ^ 45 + o.id) (if o.kind = .load then 0 else 3) o.accs s with
    | (none, s) => (none, s)
    | (some (false, _), s) => (some false, s)
    | (some (true, l), s) => match replayLoads k core b r s with
      | (some ok, s) => (some ok, putOp s k sl { o with accs := l })
      | q => q

/-- What stays of a saved block once it is restored, for a copy of its image: not its copies, replies and segments, which
went with it (log 31). -/
def keepSaved (s : State) (k : Nat) (old : Core) : State :=
  let tiles (b : Block) : List Task := b.tasks.filter fun x => (bodyTile x).isSome
  let ids (b : Block) (w : Warp) : List Nat := w.ops.map (·.id) ++ (tiles b).map (·.id)
  let b := smGetD old.blocks {} 0
  let warp (w : Warp) : Warp := { w with
    copies := 0, ops := w.ops.map fun o => { o with remote := [] }
    outst := w.outst.filter fun q => (old.warps.flatMap fun e => ids b e.2).contains q.2 }
  let s := s.setCore k { old with warps := old.warps.map fun e => (e.1, warp e.2), blocks := [(0, { b with tasks := tiles b })] }
  (s.core k).warps.foldl (fun s e => (e.2.ops.filter fun o => openLanes s o == 0).foldl (fun s o => completeOp s k e.1 o) s) s

/-- The block continues on its new core: its tasks wait again at their ranks, or to be pushed, its stopped warps go on, and a
translation that was pending is attempted again (09 R194, R196). A task takes its old rank in its engine's leaf, and waits
where the leaf has no room (07 R150; log 31). The core keeps no clean line older than the block's own stores (05 R97; log
31). -/
def restoreBlock (s : State) (core base pa : Nat) (b : Block) : State :=
  let k := savedAt s pa
  let bi := freeIndex s core
  let old := s.core k
  let slots := takeSlots s core base b.nwarps
  let m : Move := { c0 := k, b0 := 0, c1 := core, b1 := bi, from' := b.slots, to' := slots }
  let s := acquireL1 (m.block s { s.block k 0 with saving := none, basePart := base }) core 1
  let s := keepSaved s k old
  let ts := (s.block core bi).tasks
  let t := towerOf core
  let s := s.updBlock core bi fun b => { b with tasks := [] }
  let s := ts.foldl (fun s x =>
    let l := match x.body with | .tile _ => matrixLeaf core | _ => copyLeaf core
    if notPushed s x || !treeRoom s t true l then
      let (leaf, n) := entryOf s t l x.cls
      { s with waitq := s.waitq ++ [{ tower := t, leaf := leaf, target := n, task := x, fin := .formed, retry := some s.now }] }
    else s.setQueue t true l (placeIn (s.queue t true l) x)) s
  let ws := blockWarps s core bi
  let s := ws.foldl (fun s e => match e.2.stopped with
    | some r => if (r.code = 0x0A ∧ r.sub ≠ 3 ∧ r.addrs.all fun p => decide (p.2 < 2 ^ 52)) ∨ (r.code = 0 ∧ r.group = [e.1])
        then resolveWarp s core e.1 else s
    | none => s) s
  let done := s.copies.filter fun c => c.core == core && c.block == bi && c.held.isSome
  done.foldl (fun s c => endCopy s c) { s with waits := [] }

/-- The first core of a saved block's tower that can hold it. -/
def loadCore (s : State) (pa : Nat) : Option Nat :=
  match smGet? (s.core (savedAt s pa)).blocks 0 with
  | none => none
  | some b => ((List.range 256).map (256 * b.tower + ·)).find? fun c =>
      agentOpen s c && (!b.secure || s.coreSecure c) && (loadBase s c pa).isSome

/-- An area that the host's list gives to a core which cannot take its block, or is gated meanwhile, goes to another core of
the tower, if one can (22 R395, 28 R469). -/
def otherCore (s : State) (core : Nat) (op : CtxOp) : Option Nat :=
  if op.who.isNone then (loadCore s op.pa).filter (· != core) else none

def moveLoad (s : State) (core c : Nat) (op : CtxOp) : State :=
  let s := s.updCore core fun k => { k with ctxops := k.ctxops.filter (· != op) }
  { s with waits := [] }.updCore c fun k => { k with ctxops := k.ctxops ++ [op] }

/-- CTXLOAD_DONE: status 2, or 4 where the core cannot hold the block. No block comes onto a core while a partition change runs
(28 R466, R469) or the core is selected for a test (30 R481). -/
def execCtxloadDone (core : Nat) (s : State) : Res :=
  match (s.core core).ctxops.find? (·.load) with
  | none => .next s
  | some op =>
    if fld (s.reg partState) 3 0 ≠ 0 ∨ s.testing.any (fun q => q.1 == core) then .next s else
    let fail (st : Nat) : Res := .next (endCtxOp (devWrite s op.pa (toBytes 4 st)) core op false)
    let k := savedAt s op.pa
    match smGet? (s.core k).blocks 0 with
    | none => fail 3
    | some b => match loadBase s core op.pa with
      | none => match otherCore s core op with
        | some c => .next (moveLoad s core c op)
        | none => fail 4
      | some base =>
        let n := imageSize s k 0 / 4096
        match areaReady op core 0 (n - 1) 1 s with
        | (false, s) => .next s
        | (true, s) => match fetchWeights core b (weightsOf s k b) s with
          | (none, s) => .next s
          | (some ok, s) => match replayLoads k core b (openLoads s k) s with
            | (none, s) => .next s
            | (some ok', s) =>
              let (img, s) := readImage op core (n - 1) 1 (imageBytes (imageParts s k 0) s).1 s
              let bi := freeIndex s core
              let s := restoreBlock (loadImage s k img) core base op.pa b
              let s := if ok && ok' then s else terminateBlock s core bi
              .next (endCtxOp (devWrite s op.pa (toBytes 4 2)) core op false |>.act (2 + b.tenant) 6 1)

/-! ### Requests of the host (22 R395) -/

def ctxEngine : Nat := 2 ^ 41

/-- Launches of a function with a claim in flight. -/
def fnClaims (s : State) (fn : Nat) : Bool :=
  (realCores s).any fun e => e.2.claim.any fun c => (s.launch? c.launch).any fun l => l.fn == fn

/-- Close every open copy of the function's launches, with no victim chosen. -/
def closeFn (s : State) (p : Launch → Bool) : State :=
  s.launches.foldl (fun s e => if p e.2 then closeLaunch (closeLaunch s 0 e.1) 1 e.1 else s) s

/-- The save list as read: header address, count, next, and the addresses; none while it is awaited. -/
def readList (s : State) : Option (Option (Nat × Nat × Nat × List Nat)) × State :=
  let va := s.reg64 (ctxswReg 0)
  match engRead s 512 0 (s.fnSecure 0) ctxEngine va 64 with
  | ((.wait, _), s) => (none, s)
  | ((.bad _, _), s) => (some none, s)
  | ((.ok _ _, h), s) => match engXlate s 512 0 (s.fnSecure 0) ctxEngine va 1 with
    | (.wait, s) => (none, s)
    | (.bad _, s) => (some none, s)
    | (.ok pw _, s) =>
      let n := ofBytes (h.take 4)
      match engRead s 512 0 (s.fnSecure 0) ctxEngine (va + 64) (8 * n) with
      | ((.wait, _), s) => (none, s)
      | ((.bad _, _), s) => (some none, s)
      | ((.ok _ _, l), s) =>
        (some (some (pw, n, ofBytes ((h.drop 4).take 4), (List.range n).map fun k => ofBytes ((l.drop (8 * k)).take 8))), s)

/-- The physical addresses of save areas, each named by an agent of a world: none while one is awaited. -/
def areaPas : List (Nat × Bool) → State → Option (List (Nat × Option Nat)) × State
  | [], s => (some [], s)
  | (a, sec) :: r, s => match engXlate s 512 0 sec ctxEngine a 1 with
    | (.wait, s) => (none, s)
    | (x, s) => match areaPas r s with
      | (none, s) => (none, s)
      | (some l, s) => (some ((a, match x with | .ok pa _ => if a % 4096 = 0 then some pa else none | _ => none) :: l), s)

/-- Is a block secure exactly where its area lies in secure memory? CTXSAVE and CTXLOAD fault with 0x0C otherwise (17 R347), so
the area is not used (22 R395; log 48). -/
def sameWorld (s : State) (b : Block) (pa : Nat) : Bool := b.secure == s.secureMem pa

def ctxState (s : State) (n : Nat) : State := { s.setReg (ctxswReg 3) (BitVec.ofNat 32 n) with ctxsw := none, waits := [] }

/-- Every agent with blocks of the function takes areas in ascending core and index order and saves. -/
def saveAll (s : State) (fn : Nat) : State :=
  let blocks := (realCores s).flatMap fun e => (e.2.blocks.filter fun b => b.2.fn == fn && b.1 < 16 && b.2.saving.isNone).map fun b => (e.1, b.1)
  match readList s with
  | (none, s) => s
  | (some none, s) => ctxState s 3
  | (some (some (pw, n, next, l)), s) => match areaPas (((l.drop next).take blocks.length).zip (blocks.map fun q => s.coreSecure q.1)) s with
    | (none, s) => s
    | (some as, s) =>
      let s := recUpd { s with ctxList := pw } (pw + 4) 4 fun v => (v + blocks.length) % 2 ^ 32
      let pairs := (blocks.zip as).map fun q => (q.1, q.2.1, q.2.2.filter fun pa => sameWorld s (s.block q.1.1 q.1.2) pa)
      let ok := decide (next + blocks.length ≤ n) && pairs.all fun q => q.2.2.isSome
      let s := pairs.foldl (fun s q => match q.2.2 with
        | some pa => beginSave s q.1.1 q.1.2 { who := none, block := q.1.2, va := q.2.1, pa := pa, fn := 0
                                               secure := s.coreSecure q.1.1, load := false }
        | none => s) s
      let st := if ok then 2 else 3
      if pairs.any fun q => q.2.2.isSome then { s with ctxsw := none, ctxEnd := st } else ctxState s st

/-- CTX_SWITCH_SAVE: a request, or the continuation of the one in progress. A request with a bit of [31:9] set starts nothing
(log 48). -/
def execCtxSwitchSave (val : Word) (s : State) : Res :=
  let fn := fld val 6 0
  if s.ctxsw = some val then
    (if fnClaims s fn then .next s else .next (saveAll s fn))
  else if s.reg (ctxswReg 3) = 1 ∨ fld val 8 7 ≠ 1 ∨ fld val 31 9 ≠ 0 then .next s
  else
    let s := { s.setReg (ctxswReg 3) 1 with frozen := fn :: s.frozen.filter (· != fn), waits := [] }
    .next { closeFn s (fun l => l.fn == fn) with ctxsw := some val }

/-- The physical address of an area that an agent of either world names. -/
def areaPa (s : State) (va : Nat) : Option (Option Nat) × State :=
  match areaPas [(va, false)] s with
  | (none, s) => (none, s)
  | (some [(_, some pa)], s) => (some (some pa), s)
  | (_, s) => match areaPas [(va, true)] s with
    | (none, s) => (none, s)
    | (some [(_, some pa)], s) => (some (some pa), s)
    | (_, s) => (some none, s)

/-- CTX_SWITCH_RESTORE: a request, or its next area; it waits while a partition change runs (28 R469). -/
def execCtxSwitchRestore (val : Word) (s : State) : Res :=
  let fn := fld val 6 0
  if s.ctxsw = some val then
    if fld (s.reg partState) 3 0 ≠ 0 ∨ (realCores s).any (fun e => e.2.ctxops.any fun o => o.who.isNone) then .next s
    else match readList s with
      | (none, s) => .next s
      | (some none, s) => .next (ctxState s 3)
      | (some (some (pw, n, next, l)), s) =>
        if n ≤ next then .next { ctxState s 2 with frozen := s.frozen.filter (· != fn) }
        else
          let va := (l[next]?).getD 0
          match areaPa s va with
          | (some (some pa), s) =>
            let s := recUpd s (pw + 4) 4 fun v => (v + 1) % 2 ^ 32
            let saved := smGet? (s.core (savedAt s pa)).blocks 0
            if saved.any fun b => !sameWorld s b pa then .next s
            else if s.memNat pa 4 ≠ 1 then .next (devWrite s pa (toBytes 4 3))
            else match loadCore s pa with
              | none => .next (devWrite s pa (toBytes 4 4))
              | some c => .next { s.updCore c fun k => { k with ctxops := k.ctxops ++
                  [{ who := none, block := 0, va := va, pa := pa, fn := 0, secure := s.coreSecure c, load := true }] } with waits := [] }
          | (none, s) => .next s
          | (_, s) => .next (recUpd s (pw + 4) 4 fun v => (v + 1) % 2 ^ 32)
  else if s.reg (ctxswReg 3) = 1 ∨ fld val 8 7 ≠ 2 ∨ fld val 31 9 ≠ 0 then .next s
  else .next { s.setReg (ctxswReg 3) 1 with ctxsw := some val, waits := [] }

end Sys2Proof.Machine
end

