-- ==== Sys2Proof/Machine/Power.lean ====
section
/-!
DEFINITION. Strata roles and partition changes (28 R464 to R469), the measurement chain they extend (25 R440),
cadence and its limits (29 R471 to R473), operating points (R475, R476) and energy accounts (R477).
-/
namespace Sys2Proof.Machine

/-! ### The measurement chain (25 R439, R440) -/

/-- The flash slot of a kind: A is 0, B is 1 (30 R484). -/
def flashAt (s : State) (kind slot : Nat) : List Byte := smGetD s.flash [] (2 * kind + slot)
def activeSlot (s : State) (kind : Nat) : Nat := if (s.reg (fwReg 6)).getLsbD kind then 1 else 0
def activeImage (s : State) (kind : Nat) : List Byte := flashAt s kind (activeSlot s kind)

/-- Extend the chain by header and body of an accepted image. -/
def extendBy (s : State) (id v : Nat) (body : List Byte) : State :=
  let d := shake256 body 64
  { s with measure := shake256 (s.measure ++ toBytes 4 id ++ toBytes 4 v ++ d) 64, mlog := s.mlog ++ [(id, v, d)] }
def extend (s : State) (id : Nat) (img : List Byte) : State := extendBy s id (Config.imageVersion img) (Config.imageBody img)

/-- The map in force, as a partition change measures it: the accepted configuration's header and body, then the words of both
towers' maps (log 9). -/
def mapBody (s : State) : List Byte := Config.imageBody (activeImage s 5) ++ toBytes 4 (s.regN (mapReg 0)) ++ toBytes 4 (s.regN (mapReg 1))

def chainFull (s : State) : Bool := decide (16 ≤ s.mlog.length)

/-! ### Partition changes (28 R465 to R467) -/

def partSt (s : State) : Nat := fld (s.reg partState) 3 0
def setPart (s : State) (st err : Nat) : State := { s.setReg partState (BitVec.ofNat 32 (st + 256 * err)) with waits := [] }

def targetOf (v : Word) (t : Nat) : Nat := if t = 0 then fld v 5 0 else fld v 13 8
def changing (s : State) (v : Word) (t : Nat) : Bool := targetOf v t != s.roles t

/-- The bank memory of a tower under the map in force: base and bytes. -/
def bankRange (s : State) (t : Nat) : Nat × Nat :=
  (if t = 0 then s.cfg.bank0 else s.cfg.bank1, s.memStrata t * 16 * 0x800000)

/-- The first check of the admit state that fails; 0 where all pass. -/
def admitErr (s : State) (v : Word) : Nat :=
  let ts := [0, 1]
  let n (t : Nat) : Nat := popcount 6 (targetOf v t)
  if fld v 30 14 ≠ 0 ∨ fld v 7 6 ≠ 0 ∨ ts.any (fun t => targetOf v t % 2 == 1 || decide (n t < 2) || decide (4 < n t)) then 1
  else if ts.any (fun t =>
      (List.range 5).any (fun i => (targetOf v t).testBit (i + 1) && !(s.reg (thermReg t 0)).getLsbD (16 + i))
      || !(s.reg (thermReg t 0)).getLsbD (n t)) then 2
  else if (List.range 12).any (fun p => s.portOn p) || (List.range 256).any (fun r =>
      ringOn s r && ts.any (fun t => changing s v t &&
        (let q := bankRange s t
         decide (q.1 ≤ ringBaseOf s r) && decide (ringBaseOf s r < q.1 + q.2)))) then 3
  else if chainFull s then 7
  else 0

/-- PARTITION_CHANGE_GO: a write of word 0 of the request. -/
def execPartitionChangeGo (val : Word) (s : State) : Res :=
  if !val.getLsbD 31 then .next (s.setReg (partReq 0) (val &&& 0x00003F3F))
  else if partSt s ≠ 0 then .next s
  else
    let s := s.setReg (partReq 0) (val &&& 0x00003F3F)
    if !changing s val 0 && !changing s val 1 then .next (setPart s 0 0)
    else
      let e := admitErr s val
      if e ≠ 0 then .next (setPart s 0 e)
      else
        let s := setPart s 2 0
        .next { closeFn s (fun _ => true) with part := { due := s.now + s.regN (partReq 1) * clkOfUs 1000, target := val.toNat } }

/-- Has everything on the device drained: blocks, claims, engine tasks and a test in progress (30 R481)? A core selected for a
test that has not started keeps nothing waiting; a restore waits for the change to end (R469). -/
def drainedAll (s : State) : Bool :=
  ((realCores s).all fun e => (e.2.blocks.all fun b => decide (16 ≤ b.1)) && e.2.claim.isNone && e.2.arrRun.isNone
    && e.2.drnRun.isNone && e.2.segs.isEmpty)
  && s.testing.all fun q => !q.2

def execPartitionQuiesceDone (s : State) : Res :=
  if partSt s = 2 ∧ drainedAll s then .next (setPart s 3 0) else .next s

/-- PARTITION_DRAIN_TIMEOUT: nothing changed; launches reopen. -/
def execPartitionDrainTimeout (s : State) : Res :=
  if partSt s = 2 ∧ s.part.due ≤ s.now then .next (setPart s 0 5) else .next s

/-- Move the bytes and the poison of bank memory to the evacuation address, 0 for none, and zero the banks. -/
def evacuate (s : State) (base size to' : Nat) : State :=
  let inB (a : Nat) : Bool := decide (base ≤ a) && decide (a < base + size)
  let inT (a : Nat) : Bool := to' != 0 && decide (to' ≤ a) && decide (a < to' + size)
  let cells := s.mem.filter fun c => inB c.1
  let bad := s.poison.filter fun p => inB (128 * p.1)
  let s := { s with mem := s.mem.filter fun c => !inB c.1 && !inT c.1,
                    poison := s.poison.filter fun p => !inB (128 * p.1) && !inT (128 * p.1) }
  if to' = 0 then s
  else
    let s := cells.foldl (fun s c => s.setByte (c.1 - base + to') c.2) s
    { s with poison := bad.foldl (fun m p => smPut m (p.1 - base / 128 + to' / 128) ()) s.poison }

def evacAddr (s : State) (t : Nat) : Nat :=
  fld (s.reg (partReq (2 + 2 * t))) 31 12 * 2 ^ 12 + fld (s.reg (partReq (3 + 2 * t))) 15 0 * 2 ^ 32

/-- PARTITION_FLUSH_DONE: L1s and translation caches of the device, then L2 and banks of the changing towers. -/
def execPartitionFlushDone (s : State) : Res :=
  if partSt s ≠ 3 then .next s
  else
    let v := BitVec.ofNat 32 s.part.target
    let s := (realCores s).foldl (fun s e => l1WriteBack s e.1) s
    let s := { s with cores := s.cores.map fun e => (e.1, { e.2 with l1 := [], tlb := [] }),
                      clusters := s.clusters.map fun e => (e.1, { e.2 with tlb := [] }) }
    let s := [0, 1].foldl (fun s t =>
      if !changing s v t then s
      else
        let s := (s.l2.filter fun p => s.kind (128 * p.1) != .unmapped && (s.kind (128 * p.1)).tower == t).foldl (fun s p => s.l2Drop p.1) s
        let q := bankRange s t
        evacuate s q.1 q.2 (evacAddr s t)) s
    .next (setPart s 4 0)

/-- Cores of a stratum. -/
def strataCores (t st : Nat) : List Nat := (List.range 32).map fun i => 256 * t + 32 * st + i

/-- A core is gated: its leaves are disabled and it keeps nothing. -/
def gateCore (s : State) (c : Nat) : State :=
  let t := towerOf c
  let s := disableLeaf (disableLeaf s t (matrixLeaf c)) t (copyLeaf c)
  { s with cores := smDel s.cores c }

/-- A core that enters compute role has its leaves at reset, their state words too. -/
def powerCore (s : State) (c : Nat) : State :=
  let t := towerOf c
  let clr (s : State) (k : Nat) : State :=
    (List.range 8).foldl (fun s w => s.setReg (leafState t k w) 0) ((List.range 16).foldl (fun s w => s.setReg (leafReg t k w) 0) s)
  { clr (clr s (matrixLeaf c)) (copyLeaf c) with cores := smDel s.cores c }

/-- Does every stratum that enters compute role pass its power-up check (log 10)? -/
def powersUp (s : State) (t tgt : Nat) : Bool :=
  (List.range 6).all fun st =>
    !(tgt.testBit st && !(s.roles t).testBit st) || Config.stratumPasses t st s.free

/-- A tower takes its new map. -/
def remap (s : State) (t tgt : Nat) : State :=
  let old := s.roles t
  let s := (List.range 6).foldl (fun s st =>
    if old.testBit st && !tgt.testBit st then (strataCores t st).foldl gateCore s
    else if !old.testBit st && tgt.testBit st then (strataCores t st).foldl powerCore s else s) s
  let m := s.reg (mapReg t)
  s.setReg (mapReg t) (BitVec.ofNat 32 ((fld m 31 16 + 1) % 2 ^ 16 * 2 ^ 16 + popcount 6 tgt * 2 ^ 8 + tgt))

/-- Areas of the host's list that stand at cores that are to be gated. -/
def lostLoads (s : State) (v : Word) : List CtxOp :=
  ((realCores s).filter fun e => changing s v (towerOf e.1) && !(targetOf v (towerOf e.1)).testBit (stratumOf e.1)).flatMap fun e =>
    e.2.ctxops.filter fun o => o.load && o.who.isNone

/-- Such an area is restored on another core of its tower, or reads status 4 (R469, 17 R359). -/
def replaceLoads (s : State) (l : List CtxOp) : State :=
  l.foldl (fun s o => match loadCore s o.pa with
    | some c => s.updCore c fun k => { k with ctxops := k.ctxops ++ [o] }
    | none => devWrite s o.pa (toBytes 4 4)) s

/-- PARTITION_REENUMERATE_DONE. -/
def execPartitionReenumerateDone (s : State) : Res :=
  if partSt s ≠ 4 then .next s
  else
    let v := BitVec.ofNat 32 s.part.target
    let ok (t : Nat) : Bool := changing s v t && powersUp s t (targetOf v t)
    let bad := [0, 1].any fun t => changing s v t && !powersUp s t (targetOf v t)
    let done := [0, 1].filter ok
    let lost := (lostLoads s v).filter fun o => done.contains (((smGet? (s.core (savedAt s o.pa)).blocks 0).map (·.tower)).getD 0)
    let s := done.foldl (fun s t => remap s t (targetOf v t)) { s with free := s.free + 1 }
    let s := if done.isEmpty then s else extendBy s 5 (Config.imageVersion (activeImage s 5)) (mapBody s)
    .next (replaceLoads (setPart s 0 (if bad then 6 else 0)) lost)

/-! ### Cadence and its limits (29 R472, R473) -/

/-- The words of the power control that host and firmware see. -/
def setTrip (s : State) (bit : Nat) (on : Bool) : State :=
  s.setReg (powerReg 2) (if on then s.reg (powerReg 2) ||| BitVec.ofNat 32 (2 ^ bit) else s.reg (powerReg 2) &&& ~~~(BitVec.ofNat 32 (2 ^ bit)))

def watchdogClk : Nat := clkOfUs 50000

def execHeartbeatWrite (val : Word) (s : State) : Res :=
  .next { setTrip (s.setReg (powerReg 1) val) 3 false with wdArmed := true, wdDue := s.now + watchdogClk }

/-- WATCHDOG_EXPIRE: every core's requested cadence becomes 8. -/
def execWatchdogExpire (s : State) : Res :=
  if !s.wdArmed ∨ s.now < s.wdDue ∨ (s.reg (powerReg 2)).getLsbD 3 then .next s
  else .next ((List.range 512).foldl (fun s c => s.updCore c fun k => { k with cadReq := 8 }) (setTrip s 3 true))

/-- The temperature reading of a die, row r of tower t as 7t + r, in tenths of a degree. -/
def tempReg (die : Nat) : Nat := relReg (0x100 + 4 * die)
def tempOf (s : State) (die : Nat) : Int := sextN 16 (fld (s.reg (tempReg die)) 15 0)

/-- THERMAL_TRIP: a die reaches 105 degrees. -/
def execThermalTrip (die : Nat) (s : State) : Res :=
  if 14 ≤ die then .next s
  else .next (setTrip (s.setReg (tempReg die) 1050) (1 + die / 7) true)

/-- A sensor's reading: 105 degrees or more trips the tower, 115 or more powers the device off. -/
def senseTemp (s : State) (die : Nat) (v : Word) : State :=
  let s := s.setReg (tempReg die) (v &&& 0xFFFF)
  let s := if 1050 ≤ tempOf s die then setTrip s (1 + die / 7) true else s
  if 1150 ≤ tempOf s die then { s.emit (.powerOff die) with off := some die } else s

/-- Can a tower's trip end: all its dies read below 95 degrees? -/
def tripOver (s : State) (t : Nat) : Bool :=
  (s.reg (powerReg 2)).getLsbD (1 + t) && (List.range 7).all (fun r => decide (tempOf s (7 * t + r) < 950))

/-- THERMAL_TRIP_CLEAR: the trip ends once all dies of the tower read below 95 degrees. -/
def execThermalTripClear (tower : Nat) (s : State) : Res :=
  if tower < 2 ∧ (List.range 7).all (fun r => decide (tempOf s (7 * tower + r) < 950)) then .next (setTrip s (1 + tower) false)
  else .next s

/-- THERMAL_POWER_OFF: a die reaches 115 degrees; the module removes power and latches the cause. -/
def execThermalPowerOff (die : Nat) (s : State) : Res :=
  if 14 ≤ die then .next s
  else .next { (s.setReg (tempReg die) 1150).emit (.powerOff die) with off := some die }

/-- Is the limiter raising a core's cadence? -/
def limited (s : State) (c : Nat) : Bool :=
  let k := s.core c
  decide (max k.cadReq.toNat (s.thermFloor (towerOf c)) < k.limiter)
/-- The bit `limiting` of the power control: the limiter raises some cadence. -/
def limiting (s : State) : Bool := (realCores s).any fun e => limited s e.1

/-- CURRENT_LIMIT_RAISE: the effective cadence of the cores that raise current rises by 1, up to 16; the first raise sets the
time of the next release. -/
def execCurrentLimitRaise (cores : List Nat) (s : State) : Res :=
  let s := if limiting s then s else { s with limDue := s.now + clkOfUs 10 }
  .next ((cores.filter (· < 512)).foldl (fun s c => s.updCore c fun k =>
    { k with limiter := min 16 (max (max k.cadReq.toNat (s.thermFloor (towerOf c))) k.limiter + 1) }) s)

/-- CURRENT_LIMIT_RELEASE, every 10 us: each raise falls by 1. -/
def execCurrentLimitRelease (s : State) : Res :=
  .next { (realCores s).foldl (fun s e =>
    s.updCore e.1 fun k => { k with limiter := if limited s e.1 then k.limiter - 1 else 0 }) s with limDue := s.now + clkOfUs 10 }

/-! ### Energy (R477) -/

/-- The counter of an account. -/
def acctReg (a : Nat) : Nat := if a = 0 then powerReg 4 else if a = 1 then powerReg 6 else energyReg (a - 2)

/-- An account's energy since the last booking, in pJ: each count times its fused coefficient, and what was left then. -/
def acctEnergy (s : State) (a : Nat) : Nat :=
  (s.acts.map fun p => if p.1 / 16 ≠ a then 0 else if p.1 % 16 = 15 then p.2 else p.2 * Config.actEnergy (p.1 % 16)).sum

/-- Book an account in whole microjoules and keep the rest. -/
def bookAcct (s : State) (a : Nat) : State :=
  let e := acctEnergy s a
  let s := s.bump64 (acctReg a) (e / 1000000)
  { s with acts := smSetD (s.acts.filter fun p => p.1 / 16 != a) 0 (16 * a + 15) (e % 1000000) }

/-- ENERGY_BOOKING, every 10 us: idle time goes to the unattributed account and the injected ballast to housekeeping. -/
def execEnergyBooking (ballast : Nat) (s : State) : Res :=
  let s := (s.act 1 9 (s.now - s.bookAt)).act 0 10 ballast
  .next { ((s.acts.map (·.1 / 16)).eraseDups.filter (· < 4098)).foldl bookAcct s with bookAt := s.now }

/-! ### Operating points (R475, R476) -/

def opState (s : State) (c : Nat) : Nat := fld (s.reg (opPoint c 2)) 1 0
def setOpState (s : State) (c st : Nat) : State := s.setReg (opPoint c 2) (putFld (s.reg (opPoint c 2)) 1 0 st)
/-- A denied request: counted, and the host notified through vector 0. -/
def denyOp (s : State) (c : Nat) : State :=
  let w := s.reg (opPoint c 2)
  (s.setReg (opPoint c 2) (putFld w 31 16 ((fld w 31 16 + 1) % 2 ^ 16))).msix 0 0

/-- A write of word 0 of an operating point (R475): denied while a sequence runs, also where an earlier denial has set state
2 meanwhile (log 32). -/
def execOperatingPointRequest (cluster : Nat) (val : Word) (s : State) : Res :=
  let v := fld val 27 16
  let f := fld val 11 0
  if 128 ≤ cluster ∨ !s.isCompute (4 * cluster) ∨ v < 600 ∨ 1000 < v ∨ f < 100 ∨ 850 < f then .next s
  else if opState s cluster = 1 ∨ (smGetD s.clusters {} cluster).step ≠ 0 then .next (setOpState (denyOp s cluster) cluster 2)
  else
    let s := s.setReg (opPoint cluster 0) (val &&& 0x0FFF0FFF)
    if v < Config.voltFloor cluster f then .next (setOpState (denyOp s cluster) cluster 2)
    else
      let old := fld (s.reg (opPoint cluster 1)) 11 0
      let st := if old < f then 1 else if f < old then 2 else 3
      .next (setOpState (s.updCluster cluster fun k => { k with step := st, target := (val &&& 0x0FFF0FFF).toNat, stopAt := s.now }) cluster 1)

/-- The last step of a sequence completes. -/
def opDone (s : State) (c : Nat) : State :=
  let s := s.setReg (opPoint c 1) (BitVec.ofNat 32 (smGetD s.clusters {} c).target)
  { setOpState (s.updCluster c fun k => { k with step := 0 }) c 0 with waits := [] }

def execVoltageRampDone (cluster : Nat) (s : State) : Res :=
  let k := smGetD s.clusters {} cluster
  if k.step = 1 then .next (s.updCluster cluster fun k => { k with step := 2, stopAt := s.now })
  else if k.step = 3 then .next (opDone s cluster) else .next s

/-- Results on their way and the next issue are later by the time of the stop; the filled clk count toward a PAUSE. -/
def shiftWarp (at' d filled : Nat) (w : Warp) : Warp :=
  let later (t : Nat) : Nat := if at' < t then t + d else t
  { w with pend := w.pend.map fun p => { p with due := later p.due }
           next := later w.next, resAt := later w.resAt, pauseUntil := later w.pauseUntil - if at' < w.pauseUntil then filled else 0
           trailer := w.trailer.map fun t => { t with issued := t.issued + d } }

/-- A block-level write on its way, later by the time of the stop. -/
def shiftBWr (at' d : Nat) (p : Nat × BWr) : Nat × BWr :=
  if at' < p.1 then (p.1 + d, match p.2 with | .xflags sl due v => .xflags sl (due + d) v | x => x) else p

/-- CLOCK_RELOCK_DONE: the cluster's counter stands during the stop and is then advanced by the time of the stop at the new
frequency, rounded up; these filled clk count as stalls. -/
def execClockRelockDone (tower index : Nat) (s : State) : Res :=
  let cluster := 64 * tower + index
  let k := smGetD s.clusters {} cluster
  if k.step ≠ 2 then .next s
  else
    let d := s.now - k.stopAt
    let filled := ceilDiv (d * (k.target % 2 ^ 12)) 850
    let rising := decide (fld (s.reg (opPoint cluster 1)) 11 0 < fld (BitVec.ofNat 32 k.target) 11 0)
    let s := s.bump (stallReg cluster 1) filled
    let s := s.updCluster cluster fun k => { k with fill := k.fill + filled - d, step := 3 }
    let s := (List.range 4).foldl (fun s i => match smGet? s.cores (4 * cluster + i) with
      | some c => s.setCore (4 * cluster + i)
          { c with warps := c.warps.map fun e => (e.1, shiftWarp k.stopAt d filled e.2)
                   parts := c.parts.map fun p => { p with sfuFree := if k.stopAt < p.sfuFree then p.sfuFree + d else p.sfuFree }
                   blocks := c.blocks.map fun e => (e.1, { e.2 with bpend := e.2.bpend.map (shiftBWr k.stopAt d) }) }
      | none => s) s
    .next (if rising then opDone s cluster else { s with waits := [] })

end Sys2Proof.Machine
end

