-- ==== Sys2Proof/Machine/Reliability.lean ====
section
/-!
DEFINITION. Patrol scrubbing (30 R480), in-field tests and fencing (R481, R482), firmware update (R484), secure
boot and quotes (25 R439 to R442), and reset.
-/
namespace Sys2Proof.Machine

/-! ### Scrubbing -/

/-- The ranges a pass reads, in ascending address order (log 13): base and bytes of HBM, the second tier and the banks. -/
def scrubRanges (s : State) : List (Nat × Nat) :=
  [(s.cfg.hbm0, s.cfg.hbmSize), (s.cfg.hbm1, s.cfg.hbmSize), (s.cfg.tier0, s.cfg.tierSize), (s.cfg.tier1, s.cfg.tierSize),
   bankRange s 0, bankRange s 1]

/-- The first line of the pass at or after a number; none past the last. -/
def scrubLine (s : State) (n : Nat) : Option Nat :=
  (scrubRanges s).findSome? fun q => if 128 * n < q.1 + q.2 then some (max n (lineOf q.1)) else none

/-- Is an address one that the scrubber reads? -/
def scrubbed (s : State) (addr : Nat) : Bool :=
  match s.kind addr with
  | .hbm _ | .tier _ | .bank _ => true
  | _ => false

/-- The patrol has read a line: it goes on after it, and a pass that has read its last line and all that it reads again is
complete. -/
def scrubNext (s : State) (line : Nat) (again : Bool) : State :=
  let s := { s with rescrub := if again then smPut s.rescrub line () else smDel s.rescrub line }
  let s := if scrubLine s s.scrubAt = some line then { s with scrubAt := line + 1 } else s
  if (scrubLine s s.scrubAt).isNone && s.rescrub.isEmpty then { s.bump64 (relReg 0x28) 1 with scrubAt := 0 } else s

/-- SCRUB_READ of a line of memory, or of its copy in an L2 tile: a corrected line is written back unchanged in value unless
another write came between, and is then read again in the same pass; an uncorrected error poisons the line. -/
def execScrubRead (addr : Nat) (kind : ScrubOutcome) (s : State) : Res :=
  if !scrubbed s addr then .next s
  else
    let s := s.act 0 7 1
    let (s, again) : State × Bool := match kind with
      | .clean => (s, false)
      | .corrected raced tile => (if raced then s else match s.kind addr with
          | .hbm _ => s.bump64 (relReg (if tile then 0x00 else 0x08)) 1
          | .tier _ => s.bump64 (relReg (if tile then 0x00 else 0x10)) 1
          | _ => s.bump64 (relReg 0x00) 1, raced)
      | .uncorrected => (s.markPoison (lineOf addr), false)
    .next (scrubNext s (lineOf addr) again)

/-! ### In-field tests -/

def testEn (s : State) : Bool := (s.reg testCtl).getLsbD 31

/-- The next unfenced core of compute role, in ascending order after the last one tested. -/
def nextTest (s : State) : Option Nat :=
  let ok (c : Nat) : Bool := s.isCompute c && !s.fenced c
  let from' := match s.lastTest with | some c => c + 1 | none => 0
  match (List.range 512).find? fun c => decide (from' ≤ c) && ok c with
  | some c => some c
  | none => (List.range 512).find? ok

def execInfieldTestSelect (s : State) : Res :=
  if !testEn s || s.testing.isSome || partSt s != 0 || decide (s.now < s.testDue) then .next s
  else match nextTest s with
    | none => .next s
    | some c => .next { s with testing := some (c, false), lastTest := some c, waits := []
                               testDue := s.now + fld (s.reg testCtl) 15 0 * clkOfUs 1000000 }

/-- The selected core holds no resident block, nor a claim or a restore that would bring one: its test runs. A block claimed
before the core was selected is placed first, since its ticket is taken (log 10). -/
def execInfieldTestRun (s : State) : Res :=
  match s.testing with
  | some (c, false) =>
    if ((s.core c).blocks.all fun b => decide (16 ≤ b.1)) && (s.core c).claim.isNone && partSt s == 0 then
      .next (({ s with testing := some (c, true) }.bump64 (relReg 0x30) 1).act 0 8 1)
    else .next s
  | _ => .next s

/-- A core that fails is fenced: its bit is set and its leaves are disabled. -/
def fenceCore (s : State) (c : Nat) : State :=
  let t := towerOf c
  let off := fenceReg t (stratumOf c)
  let s := s.setReg off (s.reg off ||| (1#32 <<< (c % 32)))
  disableLeaf (disableLeaf s t (matrixLeaf c)) t (copyLeaf c)

def execInfieldTestEnd (signature : Word) (s : State) : Res :=
  match s.testing with
  | some (c, true) =>
    let s := { s with testing := none, waits := [] }
    if Config.testPasses c signature.toNat then .next s
    else .next (fenceCore (s.bump64 (relReg 0x38) 1) c)
  | _ => .next s

/-! ### Accepting an image (25 R439) -/

/-- Why an image is rejected, by the reasons of R484; 0 where it is accepted. -/
def imageErr (s : State) (kind : Nat) (img : List Byte) : Nat :=
  let digest := shake256 (Config.imageBody img) 64
  if ofBytes (shake256 (Config.imageKey img) 32) ≠ s.cfg.keyDigest then 2
  else if !xmssVerify (Config.imageKey img) digest (Config.imageSig img) then 1
  else if Config.imageVersion img < (s.minVer[kind]?).getD 0 then 3
  else 0

/-! ### Firmware update (30 R484) -/

def fwState (s : State) : Nat := fld (s.reg (fwReg 5)) 3 0
def setFw (s : State) (st reason : Nat) : State := { s.setReg (fwReg 5) (BitVec.ofNat 32 (st + 256 * reason)) with fwBusy := none }
def fwPending (s : State) (k : Nat) : Bool := (s.reg (fwReg 6)).getLsbD (8 + k)
def setFwBit (s : State) (i : Nat) (on : Bool) : State :=
  s.setReg (fwReg 6) (if on then s.reg (fwReg 6) ||| (1#32 <<< i) else s.reg (fwReg 6) &&& ~~~(1#32 <<< i))

/-- A write of word 0: with go set it starts the action, unless one runs or was rejected. -/
def fwWrite (s : State) (val : Word) : State :=
  let st := fwState s
  if !val.getLsbD 31 then s.setReg (fwReg 0) (val &&& 0xFF)
  else if st ≠ 0 ∧ st ≠ 2 then s
  else { (s.setReg (fwReg 0) (val &&& 0xFF)).setReg (fwReg 5) 1 with fwBusy := some (fld val 7 4, fld val 3 0) }

def execFwStage (val : Word) (s : State) : Res := .next (fwWrite s val)
def execFwActivatePower (val : Word) (s : State) : Res := .next (fwWrite s val)
def execFwRaiseMinimum (val : Word) (s : State) : Res := .next (fwWrite s val)

/-- Do n bytes at an address lie in the HBM of one tower? -/
def inHbm (s : State) (a n : Nat) : Bool :=
  [s.cfg.hbm0, s.cfg.hbm1].any fun b => decide (b ≤ a) && decide (a + n ≤ b + s.cfg.hbmSize)

/-- Stage: verify, then write the inactive slot. An image outside HBM is not allowed (log 32). -/
def fwStage (s : State) (k : Nat) : State :=
  let n := s.regN (fwReg 4)
  let a := fld (s.reg (fwReg 2)) 31 6 * 64 + fld (s.reg (fwReg 3)) 15 0 * 2 ^ 32
  if 2 ^ 24 < n then setFw s 3 4
  else if !inHbm s a n then setFw s 3 5
  else
    let img := readBytes s a n
    let e := imageErr s k img
    if e ≠ 0 then setFw s 3 e
    else if s.flashBad then setFw s 3 6
    else setFw (setFwBit { s with flash := smSetD s.flash [] (2 * k + (1 - activeSlot s k)) img } (8 + k) true) 2 0

/-- Activate a staged power firmware at once. -/
def fwActivate (s : State) (k : Nat) : State :=
  if k ≠ 3 ∨ !fwPending s 3 ∨ chainFull s then setFw s 3 5
  else
    let s := setFwBit (setFwBit s 3 (activeSlot s 3 = 0)) 11 false
    setFw (extend { s with fellBack := s.fellBack &&& (2 ^ 6 - 1 - 2 ^ 3) } 3 (activeImage s 3)) 2 0

/-- Raise the fused minimum to the version of the active image, where it booted, without fallback: it never falls. -/
def fwRaise (s : State) (k : Nat) : State :=
  if s.fellBack.testBit k || !s.mlog.any (fun e => e.1 == k) then setFw s 3 5
  else setFw { s with minVer := setAt s.minVer k (max ((s.minVer[k]?).getD 0) (Config.imageVersion (activeImage s k))) } 2 0

/-- FW_ACTION_COMPLETE. -/
def execFwActionComplete (s : State) : Res :=
  match s.fwBusy with
  | none => .next s
  | some (a, k) =>
    if 2 < a ∨ 5 < k then .next (setFw s 3 5)
    else if a = 0 then .next (fwStage s k)
    else if a = 1 then .next (fwActivate s k)
    else .next (fwRaise s k)

/-! ### Boot (25 R439, R440) -/

/-- May a tower have these strata roles (01 R11): stratum 0 in memory role, 2 to 4 compute strata, and its thermal table
admits them? -/
def rolesOk (s : State) (t roles : Nat) : Bool :=
  let n := popcount 6 roles
  roles % 2 == 0 && decide (2 ≤ n) && decide (n ≤ 4) && (s.reg (thermReg t 0)).getLsbD n
    && (List.range 5).all fun i => !roles.testBit (i + 1) || (s.reg (thermReg t 0)).getLsbD (16 + i)

/-- A tower's thermal admission table as a signed partition configuration gives it (28 R464); a cadence floor outside 1 to 16
leaves the table as it was (log 10). -/
def applyThermal (s : State) (img : List Byte) (t : Nat) : State :=
  let w : Word := BitVec.ofNat 32 (Config.imageThermal img t 1)
  let ok (n : Nat) : Bool := decide (1 ≤ n) && decide (n ≤ 16)
  if ok (fld w 20 16) && ok (fld w 12 8) && ok (fld w 4 0) then
    (s.setReg (thermReg t 0) (BitVec.ofNat 32 (Config.imageThermal img t 0) &&& 0x001F001C)).setReg (thermReg t 1) (w &&& 0x001F1F1F)
  else s

/-- The thermal tables, the maps and the fenced mask that an accepted partition configuration sets (28 R464, 30 R482); roles that 01 R11
excludes leave the map at its default (log 10). -/
def applyPartition (s : State) (img : List Byte) : State :=
  let s := applyThermal (applyThermal s img 0) img 1
  let r := Config.imageRoles img
  let s := [0, 1].foldl (fun s t =>
    let roles := nfld r (6 * t + 5) (6 * t)
    if rolesOk s t roles then s.setReg (mapReg t) (BitVec.ofNat 32 (popcount 6 roles * 256 + roles)) else s) s
  (Config.imageUnfence img).foldl (fun s c =>
    let off := fenceReg (towerOf c) (stratumOf c)
    s.setReg off (s.reg off &&& ~~~(1#32 <<< (c % 32)))) s

/-- Load one kind: a pending slot first, else, or where it does not verify, the active one. -/
def bootKind (s : State) (k : Nat) : State :=
  if s.bootErr.isSome then s
  else if chainFull s then { s with bootErr := some (k, 5) }
  else
    let s := if !fwPending s k then s
      else
        let e := imageErr s k (flashAt s k (1 - activeSlot s k))
        let s := setFwBit s (8 + k) false
        if e = 0 then setFwBit s k (activeSlot s k = 0)
        else { s.setReg (fwReg 5) (putFld (s.reg (fwReg 5)) 15 8 e) with fellBack := s.fellBack ||| 2 ^ k }
    let e := imageErr s k (activeImage s k)
    if e ≠ 0 then { s with bootErr := some (k, e) }
    else
      let s := extend s k (activeImage s k)
      if k = 5 then applyPartition s (activeImage s k) else s

/-- Host memory as the host has it, once the L2 homes hold nothing (04 R90). -/
def hostView (s : State) (m : List Host.Cell) : List Host.Cell :=
  s.hostMem.foldl (fun m c => smSetD m memDefault c.1 c.2) (m.filter fun c => s.kind c.1 != .host)

/-- What a reset keeps: the flash and fuses, which slots are active and pending, the fenced mask, memory
outside the device's own banks, the host's as it has reached the host, and what the host has still to do. -/
def resetKeep (s : State) : State :=
  let r := { State.reset with
    agenda := s.agenda, inputs := s.inputs, auto := s.auto, out := s.out, free := s.free, cfg := s.cfg, flash := s.flash, minVer := s.minVer
    nsBase := s.nsBase, hostMem := s.hostMem
    mem := hostView s (s.mem.filter fun c => !(s.kind c.1).isBank), poison := s.poison.filter fun p => !(s.kind (128 * p.1)).isBank }
  let r := r.setReg (fwReg 6) (s.reg (fwReg 6))
  [0, 1].foldl (fun r t => (List.range 6).foldl (fun r st => r.setReg (fenceReg t st) (s.reg (fenceReg t st))) r) r

/-- DEVICE_RESET: the signed images are loaded in order. -/
def execDeviceReset (s : State) : Res := .next ((List.range 6).foldl bootKind (resetKeep s))

/-! ### Quotes (25 R441) -/

/-- QUOTE_REQUEST: a write of 1; ignored while a quote is being written. -/
def execQuoteRequest (val : Word) (s : State) : Res :=
  if val ≠ 1 ∨ s.quote then .next s else .next { s.setReg (quoteReg 10) 1 with quote := true }

/-- The quote's bytes. -/
def quoteBytes (s : State) : List Byte :=
  let words (f : Nat → Nat) (n : Nat) : List Byte := (List.range n).flatMap fun i => toBytes 4 (s.regN (f i))
  let log := s.mlog.flatMap fun e => toBytes 4 e.1 ++ toBytes 4 e.2.1 ++ e.2.2
  let body := toBytes 4 1 ++ toBytes 4 4605 ++ words quoteReg 8 ++ s.measure ++ toBytes 4 s.mlog.length ++ toBytes 4 0
    ++ (log ++ List.replicate (1152 - log.length) 0)
    ++ shake256 (words (worldReg 0) 19 ++ words (worldReg 1) 19) 32
  let first := match s.mlog.find? fun e => e.1 == 0 with | some e => e.2.2 | none => []
  body ++ fitBytes 3309 (Config.quoteSign (toBytes 32 s.cfg.secret ++ first) body)

def quoteEngine : Nat := 2 ^ 43

/-- QUOTE_COMPLETE: the quote is written through the physical function's tables; the request word reads 0. -/
def execQuoteComplete (s : State) : Res :=
  if !s.quote then .next s
  else match engWrite s 512 0 (s.fnSecure 0) quoteEngine (s.reg64 (quoteReg 8)) (quoteBytes s) with
    | (.wait, s) => .next s
    | (_, s) => .next { s.setReg (quoteReg 10) 0 with quote := false, waits := [] }

end Sys2Proof.Machine
end

