-- ==== Sys2Proof/Machine/Host.lean ====
section
/-!
DEFINITION. The host's apertures (22 R383) and the register writes of host and firmware (00 R3): the field
masks of every register table, and the words whose write does more.
-/
namespace Sys2Proof.Machine

/-! ### BAR0 writes (R3): who writes -/

def secureFw : Nat := 0x100
def managementFw : Nat := 0x101
def powerFw : Nat := 0x102
def sensorsFw : Nat := 0x103

/-- Write the bits of a mask; the others keep their values. -/
def maskWrite (s : State) (off : Nat) (m v : Word) : State := s.setReg off ((s.reg off &&& ~~~m) ||| (v &&& m))

/-- Take the state of a meaning. -/
def ofRes (s : State) : Res → State
  | .next s => s
  | _ => s

/-- A tower's tree region (23 R416, R419). -/
def writeTree (s : State) (t o : Nat) (v : Word) : State :=
  let off := towerReg t + o
  if o < 0x8000 then writeDesc s t false (o / 64) (o % 64 / 4) v
  else if 0x10000 ≤ o ∧ o < 0x10000 + 64 * 392 then writeDesc s t true ((o - 0x10000) / 64) (o % 64 / 4) v
  else if 0x20000 ≤ o ∧ o < 0x24000 then
    match progInUse s t ((o - 0x20000) / 4) with
    | some (leaf, k) => treeErr s t 7 leaf k
    | none => s.setReg off v
  else if 0x30000 ≤ o ∧ o < 0x34000 then
    let n := (o - 0x30000) / 32
    if descOn s t false n then treeErr s t 7 false n else s.setReg off v
  else if 0x34000 ≤ o ∧ o < 0x34000 + 32 * 392 then
    let k := (o - 0x34000) / 32
    if descOn s t true k then treeErr s t 7 true k else s.setReg off v
  else if 0x40000 ≤ o ∧ o < 0xC0000 then
    match flowOwner s t ((o - 0x40000) / 16) with
    | some n => treeErr s t 7 false n
    | none => s.setReg off v
  else if o = 0xC0000 then (if fld v 7 0 = 0 then s.setReg off (s.reg off &&& 0xFFFFFF00) else s)
  else s

/-- The writable bits, while en is 0, of a port's words 1 to 13 (27 R449). -/
def portMask (w : Nat) : Word :=
  match w with
  | 1 => 0xFFFFFF00
  | 2 | 3 | 4 | 5 | 6 | 8 => 0xFFFFFFFF
  | 7 | 9 | 10 | 13 => 0xFFFF
  | 12 => 0xFFFFF000
  | _ => 0

/-- Of a window's words 2 to 7, a ring's 2 to 6, a counter's 2, a context's 2 to 7 (R453, R460, R454, 25 R425). -/
def pairMask (w : Nat) : Word := if w % 2 = 0 then 0xFFFF0000 else 0xFFFF
def ringMask (w : Nat) : Word :=
  match w with
  | 2 => 0xFFFF0000
  | 3 | 5 => 0xFFFF
  | 4 => 0xFFFFFFC0
  | 6 => 0x1FFF
  | _ => 0
def ctxMask (w : Nat) : Word :=
  match w with
  | 2 | 4 => 0xFFFF0000
  | 3 | 5 | 7 => 0xFFFF
  | 6 => 0xFFFFE000
  | _ => 0

/-- A tower's fabric region (27 R447). -/
def writeFabric (s : State) (src t o : Nat) (v : Word) : State :=
  let off := fabReg t + o
  let w32 := o % 32 / 4
  if o < 0x600 then
    let p := 6 * t + o / 0x100
    let w := o % 0x100 / 4
    if w = 0 then ofRes s (execPortEnableWrite p v s)
    else if s.portOn p then s else maskWrite s off (portMask w) v
  else if o = 0x1000 ∧ t = 0 then (if 10 ≤ fld v 13 0 ∧ fld v 13 0 ≤ 10000 then s.setReg off (v &&& 0x3FFF) else s)
  else if o = 0x1004 ∧ t = 0 then (if fld v 15 0 = 0 then s else s.setReg off (v &&& 0xFFFF))
  else if 0x10000 ≤ o ∧ o < 0x30000 then
    let c := 8192 * t + (o - 0x10000) / 16
    let w := o % 16 / 4
    if w = 0 then writeCtr0 s c v
    else if w = 2 ∧ !ctrOn s c then maskWrite s off 0x1FFF v else s
  else if 0x30000 ≤ o ∧ o < 0x30800 ∧ t = 0 then
    let i := (o - 0x30000) / 32
    let on := (s.reg (winReg i 0)).getLsbD 31
    if w32 = 0 then maskWrite s off (if on then 0x80000000 else 0xC0000000) v
    else if 2 ≤ w32 ∧ !on then maskWrite s off (pairMask w32) v else s
  else if 0x31000 ≤ o ∧ o < 0x32000 then
    let r := 128 * t + (o - 0x31000) / 32
    if w32 = 0 then writeRing0 s r v
    else if ringOn s r then s else maskWrite s off (ringMask w32) v
  else if 0x32000 ≤ o ∧ o < 0x3A000 then
    let k := 512 * t + (o - 0x32000) / 64
    let w := o % 64 / 4
    if src = secureFw ∧ w = 8 then
      let s := s.setReg off (v &&& 0xC0000000)
      if v.getLsbD 31 then s else { (List.range 8).foldl (fun s i => s.setReg (keyReg k i) 0) s with keys := smDel s.keys k }
    else if keySecure s k ∧ src ≠ secureFw then s
    else if w < 7 then s.setReg off v
    else if w = 7 then
      let s := s.setReg off v
      { s with keys := smPut s.keys k ((List.range 8).foldl (fun a i => a + s.regN (keyReg k i) * 2 ^ (32 * i)) 0) }
    else if w = 8 then ofRes s (execKeySlotZeroise k v s) else s
  else if 0x40000 ≤ o ∧ o < 0x60000 ∧ t = 0 then
    let i := (o - 0x40000) / 32
    if w32 = 0 then ofRes s (execPeerEnable i v s)
    else if (s.reg (peerReg i 0)).getLsbD 31 ∨ 6 ≤ w32 then s else s.setReg off v
  else if 0x60000 ≤ o ∧ o < 0x70000 then s.setReg off (v &&& if o % 8 = 0 then 0xFFE000FF else 0x7FFFF)
  else s

/-- Translation contexts, replies, invalidations, worlds and quotes (25 R425, R434 to R437, R441). The low six
bits of a quote's address are dropped: the model's choice (log 15). -/
def writeTranslation (s : State) (src off : Nat) (v : Word) : State :=
  if off < 0x01002000 then
    let f := (off - 0x01000000) / 64
    let w := off % 64 / 4
    let on := (s.reg (ctxReg f 0)).getLsbD 31
    if !isFn f then s
    else match w with
      | 0 => { s.setReg off (v &&& 0x80000000) with waits := [] }
      | 9 => ofRes s (execTranslationConsumerWrite f v s)
      | 10 => s.setReg off (v &&& 0x7FF)
      | _ => if on then s else maskWrite s off (ctxMask w) v
  else if off = 0x01002018 ∨ off = 0x0100201C then s.setReg off v
  else if off = 0x01002010 then hvInval s (fld v 1 0) (fld v 8 2) (s.reg64 0x01002018)
  else if worldReg 0 0 ≤ off ∧ off < worldReg 2 0 then
    let t := (off - worldReg 0 0) / 0x100
    let w := off % 0x100 / 4
    let m : Word := if w < 15 then 0xFFFFFFFF else if w = 15 then 0x3F
      else if t = 0 then (if w = 16 then 1 else if w ≤ 18 then 0xFFFFFFFF else 0) else 0
    if src = secureFw then maskWrite s off m v else s
  else if regionReg 0 0 0 ≤ off ∧ off < regionReg 2 0 0 then
    let w := off % 32 / 4
    let m : Word := if w = 0 then 0x80000000 else if 2 ≤ w ∧ w ≤ 5 then pairMask w else 0
    if src = secureFw then maskWrite s off m v else s
  else if quoteReg 0 ≤ off ∧ off < quoteReg 8 then s.setReg off v
  else if off = quoteReg 8 then s.setReg off (v &&& 0xFFFFFFC0)
  else if off = quoteReg 9 then s.setReg off v
  else if off = quoteReg 10 then ofRes s (execQuoteRequest v s)
  else s

/-- Partitions and power (28 R464, R465; 29 R471, R475). The management firmware writes the thermal table only from the signed
partition configuration (R464). -/
def writePower (s : State) (src off : Nat) (v : Word) : State :=
  if off = partReq 0 then ofRes s (execPartitionChangeGo v s)
  else if off = partReq 1 then s.setReg off v
  else if off = partReq 2 ∨ off = partReq 4 then s.setReg off (v &&& 0xFFFFF000)
  else if off = partReq 3 ∨ off = partReq 5 then s.setReg off (v &&& 0xFFFF)
  else if off = thermReg 0 0 ∨ off = thermReg 1 0 ∨ off = thermReg 0 1 ∨ off = thermReg 1 1 then
    let t := if off < thermReg 1 0 then 0 else 1
    let w := if off = thermReg t 0 then 0 else 1
    let m : Word := if w = 0 then 0x001F001C else 0x001F1F1F
    if src = managementFw ∧ v &&& m = BitVec.ofNat 32 (Config.imageThermal (activeImage s 5) t w) &&& m then applyThermal s (activeImage s 5) t
    else s
  else if off = powerReg 0 then (if 1800 ≤ fld v 11 0 ∧ fld v 11 0 ≤ 3600 then s.setReg off (v &&& 0xFFF) else s)
  else if off = powerReg 1 then (if src = powerFw then ofRes s (execHeartbeatWrite v s) else s)
  else if opPoint 0 0 ≤ off ∧ off < opPoint 128 0 ∧ off % 16 = 0 then
    ofRes s (execOperatingPointRequest ((off - opPoint 0 0) / 16) v s)
  else s

/-- Reliability, telemetry and update; bands (30 R483, R484; 07 R156). -/
def writeReliability (s : State) (src off : Nat) (v : Word) : State :=
  if off = testCtl then
    s.setReg off ((v &&& 0x80000000) ||| (if fld v 15 0 = 0 then s.reg off &&& 0xFFFF else v &&& 0xFFFF))
  else if tempReg 0 ≤ off ∧ off < tempReg 14 then (if src = sensorsFw then senseTemp s ((off - tempReg 0) / 4) v else s)
  else if off = fwReg 0 then fwWrite s v
  else if off = fwReg 2 then s.setReg off (v &&& 0xFFFFFFC0)
  else if off = fwReg 3 then s.setReg off (v &&& 0xFFFF)
  else if off = fwReg 4 then s.setReg off v
  else if ashapeReg 0 ≤ off ∧ off < ashapeReg 512 then ofRes s (execAshapeHostWrite ((off - ashapeReg 0) / 4) v s)
  else s

/-- A function's submission window (22 R384). -/
def writeWindow (s : State) (fn o : Nat) (v : Word) : State :=
  if o = 0 ∨ o = 4 then s.setReg (winBase fn + o) v
  else if o = 8 then ofRes s (execSubmissionPush fn v.toNat s) else s

/-- The context-switch request (22 R395). The low six bits of the list's address, which is a multiple of 64, are dropped: the
model's choice (log 15). -/
def writeCtxsw (s : State) (off : Nat) (v : Word) : State :=
  if off = ctxswReg 0 then s.setReg off (v &&& 0xFFFFFFC0)
  else if off = ctxswReg 1 then s.setReg off v
  else if off = ctxswReg 2 then
    if fld v 8 7 = 1 then ofRes s (execCtxSwitchSave v s)
    else if fld v 8 7 = 2 then ofRes s (execCtxSwitchRestore v s) else s
  else s

/-- A write of one word of the physical function's BAR0 by the host or by firmware. -/
def writeBar0 (s : State) (src off : Nat) (v : Word) : State :=
  if off % 4 ≠ 0 then s
  else if off < 0x14 then writeWindow s 0 off v
  else if 0x00100000 ≤ off ∧ off < 0x00100010 then writeCtxsw s off v
  else if fabReg 0 ≤ off ∧ off < fabReg 2 then writeFabric s src ((off - fabReg 0) / 0x00200000) ((off - fabReg 0) % 0x00200000) v
  else if 0x01000000 ≤ off ∧ off < 0x01005000 then writeTranslation s src off v
  else if 0x01005000 ≤ off ∧ off < 0x01010000 then writePower s src off v
  else if 0x01010000 ≤ off ∧ off < 0x01014000 then writeReliability s src off v
  else if towerReg 0 ≤ off ∧ off < towerReg 2 then writeTree s ((off - towerReg 0) / 0x01000000) ((off - towerReg 0) % 0x01000000) v
  else s

/-! ### BAR2 (22 R383, 25 R433, R438, 28 R469) -/

def hostEngine (fn gpa : Nat) : Nat := 2 ^ 44 + 128 * pageOf gpa + fn

/-- The bytes of a function's BAR2: for a virtual function as the hypervisor has set it, the least where it has not
(R383; log 15). -/
def bar2Size (s : State) (fn : Nat) : Nat := smGetD s.cfg.bar2 (if fn = 0 then 2 ^ 36 else 2 ^ 26) fn

/-- The stage-2 translation of an aperture access; a miss asks for the page and the access waits. -/
def hostXlate (s : State) (fn gpa kind : Nat) : EngX × State :=
  let id := hostEngine fn gpa
  match s.walks.find? fun x => x.who == .engine id with
  | some x => if x.failed then (.bad 0x0A, { s with walks := s.walks.filter fun y => y.id != x.id }) else (.wait, s)
  | none =>
    if min (bar2Size s fn) (2 ^ 48) ≤ gpa then (.bad 0x0A, s)
    else match runStage2 s (s.fnSecure fn) fn gpa with
      | .stop 3 _ _ => (.bad 0x0A, s)
      | .stop sub l g =>
        let (wid, s) := s.fresh
        let s := { s with walks := s.walks ++ [{ id := wid, core := 512, fn := fn, va := 0, kind := kind
                                                 secure := s.fnSecure fn, who := .engine id, parked := true }] }
        (.wait, pageRequest s fn 0 g sub kind l wid)
      | .leaf e a l =>
        let pa := leafPa e l gpa
        if entBit e 15 || s.kind pa == .unmapped then (.bad 0x0A, s)
        else match s.judge (s.fnSecure fn) kind pa (combine e e true) with
          | .ok pa at' => (.ok pa at', setBits s a kind)
          | .bad c _ => (.bad c, s)

/-- Read through the aperture, page by page: none while a page is awaited or a copy owns a line (04 R86), else the bytes or none where the
access is aborted. A read that R438 forbids returns zeros. -/
def hostRead (fn : Nat) : Nat → Nat → Nat → State → Option (Option (List Byte)) × State
  | 0, _, _, s => (some (some []), s)
  | fuel + 1, off, n, s =>
    let m := min n (2 ^ 16 - off % 2 ^ 16)
    let rest (s : State) (bs : List Byte) : Option (Option (List Byte)) × State :=
      if n ≤ m then (some (some bs), s)
      else match hostRead fn fuel (off + m) (n - m) s with
        | (some (some l), s) => (some (some (bs ++ l)), s)
        | r => r
    match hostXlate s fn off 0 with
    | (.wait, s) => (none, s)
    | (.bad c, s) => if c = 0x0C then rest s (List.replicate m 0) else (some none, s)
    | (.ok pa _, s) =>
      if rangeHeld s none pa m then (none, s)
      else if (List.range (m / 128 + 2)).any fun i => decide (lineOf (pa + 128 * i) ≤ lineOf (pa + m - 1)) && s.poisoned (pa + 128 * i)
      then (some none, s)
      else rest s (readBytes s pa m)

/-- The pages of an aperture write, translated; a page that R438 forbids drops its bytes. -/
def hostPages (fn : Nat) : Nat → Nat → Nat → State → Option (Option (List (Nat × Option (Nat × Attr)))) × State
  | 0, _, _, s => (some (some []), s)
  | fuel + 1, off, n, s =>
    let m := min n (2 ^ 16 - off % 2 ^ 16)
    let rest (s : State) (p : Option (Nat × Attr)) : Option (Option (List (Nat × Option (Nat × Attr)))) × State :=
      if n ≤ m then (some (some [(m, p)]), s)
      else match hostPages fn fuel (off + m) (n - m) s with
        | (some (some l), s) => (some (some ((m, p) :: l)), s)
        | r => r
    match hostXlate s fn off 1 with
    | (.wait, s) => (none, s)
    | (.bad c, s) => if c = 0x0C then rest s none else (some none, s)
    | (.ok pa a, s) => if rangeHeld s none pa m then (none, s) else rest s (some (pa, a))

/-- The bytes are written at their homes under the attributes of their pages (04 R77). -/
def hostStore : State → List (Nat × Option (Nat × Attr)) → List Byte → State
  | s, [], _ => s
  | s, (m, some p) :: l, bs => hostStore (s.homeStore p.1 (bs.take m) p.2) l (bs.drop m)
  | s, (m, none) :: l, bs => hostStore s l (bs.drop m)

def hostFn : Instr → Option Nat
  | .hostApertureRead fn _ _ => some fn
  | .hostApertureWrite fn _ _ => some fn
  | .registerWrite fn _ _ => some fn
  | .pageReply _ => some 0
  | _ => none

/-- A write of one word of a function's BAR0 by the host (0, or 0x40 + n), or by firmware. -/
def registerWrite (s : State) (fn off : Nat) (val : Word) : State :=
  if 0x40 ≤ fn ∧ fn < 0x80 then (if off % 4 = 0 then writeWindow s fn off val else s) else writeBar0 s fn off val

/-- Perform an access of the host: none while one of its pages is awaited. -/
def hostDo (s : State) : Instr → Option State × State
  | .hostApertureRead fn off len =>
    if len = 0 then (some s, s)
    else match hostRead fn (len / 2 ^ 16 + 2) off len s with
      | (none, s) => (none, s)
      | (some none, s) => (some (s.emit (.abort fn off)), s)
      | (some (some bs), s) => (some (s.emit (.hostRead fn off bs)), s)
  | .hostApertureWrite fn off bytes =>
    if bytes.isEmpty then (some s, s)
    else match hostPages fn (bytes.length / 2 ^ 16 + 2) off bytes.length s with
      | (none, s) => (none, s)
      | (some none, s) => (some (s.emit (.abort fn off)), s)
      | (some (some l), s) => (some { hostStore s l bytes with waits := [] }, s)
  | .registerWrite fn off val => (some (registerWrite s fn off val), s)
  | .pageReply val => (some (pageReply s val), s)
  | _ => (some s, s)

/-- An access arrives: aborted while a partition change runs; behind an earlier one of its function that waits
it waits too. -/
def hostArrive (s : State) (fn off : Nat) (i : Instr) : State :=
  if !isFn fn then s
  else if partSt s ≠ 0 then s.emit (.abort fn off)
  else if s.hostq.any fun j => hostFn j == some fn then { s with hostq := s.hostq ++ [i] }
  else match hostDo s i with
    | (some s, _) => s
    | (none, s) => { s with hostq := s.hostq ++ [i] }

/-- Does an access wait for no page: no walk of its function's apertures is parked unanswered? -/
def hostIdle (s : State) (fn : Nat) : Bool :=
  !s.walks.any fun x => x.fn == fn && !x.failed && (match x.who with | .engine id => decide (2 ^ 44 ≤ id) && decide (id < 2 ^ 45) | _ => false)

/-- The first waiting access of a function whose page has been answered, and which can go on. -/
def hostNext (s : State) : Option Instr :=
  s.hostq.find? fun i => match hostFn i with
    | some fn => hostIdle s fn && (s.hostq.find? fun j => hostFn j == some fn) == some i
        && (partSt s != 0 || (hostDo s i).1.isSome || (hostDo s i).2 != s)
    | none => false

/-- A waiting access goes on. -/
def hostResume (s : State) (i : Instr) : State :=
  let off := match i with | .hostApertureRead _ o _ => o | .hostApertureWrite _ o _ => o | _ => 0
  let gone (s : State) : State := { s with hostq := s.hostq.erase i }
  let bar2 : Bool := match i with | .hostApertureRead _ _ _ | .hostApertureWrite _ _ _ => true | _ => false
  if bar2 = true ∧ partSt s ≠ 0 then (gone s).emit (.abort ((hostFn i).getD 0) off)
  else match hostDo s i with
    | (some s, _) => gone s
    | (none, s) => s

def execHostApertureRead (fn off len : Nat) (s : State) : Res := .next (hostArrive s fn off (.hostApertureRead fn off len))
def execHostApertureWrite (fn off : Nat) (bytes : List Byte) (s : State) : Res :=
  .next (hostArrive s fn off (.hostApertureWrite fn off bytes))

/-- Does a write of a function stay behind an earlier one that waits for a copy's line: posted writes of one function are in
order (26 R445)? One that waits for a page lets the others pass, since its page's reply is among them (log 15). -/
def hostBehind (s : State) (fn : Nat) : Bool := (s.hostq.any fun j => hostFn j == some fn) && hostIdle s fn

/-- REGISTER_WRITE: by the host through a function's BAR0, or by firmware. -/
def execRegisterWrite (fn off : Nat) (val : Word) (s : State) : Res :=
  if hostBehind s fn then .next { s with hostq := s.hostq ++ [.registerWrite fn off val] }
  else .next (registerWrite s fn off val)

/-- PAGE_REPLY: the hypervisor's write of a reply through the physical function's BAR0. -/
def execPageReply (val : DWord) (s : State) : Res :=
  if hostBehind s 0 then .next { s with hostq := s.hostq ++ [.pageReply val] } else .next (pageReply s val)

/-! ### BAR0 reads: what each word reads as -/

/-- The high words that a read of their low words latches (29 R471, R474, 30 R483). -/
def latchedHigh (off : Nat) : Bool :=
  off % 8 == 4 && (off == powerReg 5 || off == powerReg 7 || (decide (energyReg 0 < off) && decide (off < energyReg 4096))
    || (decide (relReg 0 < off) && decide (off < relReg 0x40)) || (decide (stallReg 0 0 < off) && decide (off < stallReg 128 0)))

/-- The reset or held word, with the fields that live elsewhere in the state. -/
def hostReads (s : State) (fn off : Nat) : Word :=
  let w (n : Nat) : Word := BitVec.ofNat 32 n
  let inR (a b : Nat) : Bool := decide (a ≤ off) && decide (off < b)
  if 0x40 ≤ fn then (if off = 0x0C ∨ off = 0x10 then s.reg (winBase fn + off) else 0)
  else if off = 0 ∨ off = 4 ∨ off = 8 ∨ off % 4 ≠ 0 then 0
  else if latchedHigh off then smGetD s.latch 0 off
  else if off = powerReg 2 then (s.reg off &&& 0xFFFFFFFE) ||| if limiting s then 1 else 0
  else if inR (fabReg 0) (fabReg 2) then
    let t := (off - fabReg 0) / 0x00200000
    let o := (off - fabReg 0) % 0x00200000
    if 0x32000 ≤ o ∧ o < 0x3A000 ∧ o % 64 < 32 then 0
    else if 0x10000 ≤ o ∧ o < 0x30000 then
      let c := 8192 * t + (o - 0x10000) / 16
      let k := s.ctr c
      if o % 16 = 0 then
        s.reg off ||| w ((if k.failed then 2 ^ 30 else 0) + (if flagParked s c then 2 ^ 29 else 0)
          + (if k.released then 2 ^ 28 else 0) + 2 ^ 16 * k.inc)
      else if o % 16 = 4 then w k.count else s.reg off
    else if o = 0x1008 ∧ t = 0 then w s.parked.length
    else s.reg off
  else if inR (stallReg 0 0) (stallReg 128 0) ∨ inR (opPoint 0 0) (opPoint 128 0) then
    let c := if off < stallReg 0 0 then (off - opPoint 0 0) / 16 else (off - stallReg 0 0) / 8
    if !s.isCompute (4 * c) then 0
    else if stallReg 0 0 ≤ off ∧ off % 8 = 0 then w (s.clk (4 * c))
    else if off < stallReg 0 0 ∧ off % 16 = 12 then w (Config.voltFloor c (fld (s.reg (opPoint c 0)) 11 0)) &&& 0xFFF
    else s.reg off
  else if inR (ashapeReg 0) (ashapeReg 512) then
    let c := (off - ashapeReg 0) / 4
    if s.isCompute c then w (s.core c).ashape.toNat else 0
  else if inR (towerReg 0) (towerReg 2) then
    let t := (off - towerReg 0) / 0x01000000
    let o := (off - towerReg 0) % 0x01000000
    if o < 0x8000 ∧ o % 64 = 20 then w (heldCount s t false (o / 64))
    else if 0x10000 ≤ o ∧ o < 0x10000 + 64 * 392 ∧ o % 64 = 20 then w (heldCount s t true ((o - 0x10000) / 64))
    else if o = 0xC0004 then w (poolFree s t)
    else s.reg off
  else s.reg off

/-- The host reads a word: of a counter of two words the low one latches the high one. -/
def hostReadReg (s : State) (fn off : Nat) : State :=
  let v := hostReads s fn off
  let s := if fn < 0x40 ∧ latchedHigh (off + 4) then { s with latch := smSetD s.latch 0 (off + 4) (s.reg (off + 4)) } else s
  s.emit (.regRead fn off v)

/-- The host writes its own memory: its copy, and what the device reads at the home (05 R115; log 39). -/
def hostWrites (s : State) (a : Nat) (bs : List Byte) : State :=
  if s.kind a = .host ∧ s.kind (a + bs.length - 1) = .host then hostPut (writeBytes s a bs) a bs else s

/-! ### Inputs from outside (log 45) -/

/-- A breakpoint of a launch being debugged, which the host may answer (09 R192). -/
def atBreakpoint (s : State) (core slot : Nat) : Bool :=
  (s.warp? core slot).any fun w => w.stopped.any (fun r => r.code == 0x16) && (s.block core w.block).debug

/-- The sizes a BAR2 may take (22 R383). -/
def bar2Ok (fn size : Nat) : Bool :=
  if fn = 0 then decide (2 ^ 36 ≤ size) && decide (size ≤ 2 ^ 40) else decide (2 ^ 26 ≤ size) && decide (size ≤ 2 ^ 36)

def applyInput (s : State) : Input → State
  | .resume c sl => if atBreakpoint s c sl then resolveWarp s c sl else s
  | .terminate c sl => if atBreakpoint s c sl then terminateBlock s c ((s.warp? c sl).elim 0 (·.block)) else s
  | .badReg c sl r l => s.updWarp c sl fun w => { w with bad := (r, l) :: w.bad }
  | .badPool c bi i r l => if (smGet? (s.core c).blocks bi).isNone then s else s.updBlock c bi fun b =>
      { b with sets := setAt b.sets i (((b.sets[i]?).getD none).map fun t => { t with bad := (r, l) :: t.bad }) }
  | .badAcc c i k => if (s.mslot c i).state = 0 then s else s.updMslot c i fun q => { q with bad := k :: q.bad }
  | .badScratch c bi k => if (smGet? (s.core c).blocks bi).isNone then s else s.updBlock c bi fun b => { b with scrBad := smPut b.scrBad k () }
  | .badLine n => s.markPoison n
  | .badWeights c i => if (s.mslot c i).state = 0 then s else s.updMslot c i fun q => { q with badW := true }
  | .badL1 c n => if (l1Get s c n).isSome then (l1Del s c n).markPoison n else s
  | .parity c a n => if a = 0 then s.updCore c fun k => { k with icache := smDel k.icache n }
      else if a = 1 then s.updCore c fun k => { k with tlb := k.tlb.eraseIdx n }
      else s.updCluster (c / 4) fun k => { k with tlb := k.tlb.eraseIdx n }
  | .flashBad on => { s with flashBad := on }
  | .hostMem a bs => hostWrites s a bs
  | .regRead fn off => hostReadReg s fn off
  | .corrected k => if k < 3 then s.bump64 (relReg (8 * k)) 1 else s
  | .bar2 fn size => if bar2Ok fn size then { s with cfg := { s.cfg with bar2 := smPut s.cfg.bar2 fn size } } else s

end Sys2Proof.Machine
end

