-- ==== Sys2Proof/Machine/Dispatch.lean ====
section
/-!
DEFINITION. One arm per constructor of Instr: each calls that instruction's own meaning.
-/
namespace Sys2Proof.Machine

/-- The effect of one instruction or event on the state. -/
def exec (i : Instr) (s : State) : Host.Outcome State Fault Refusal :=
  match i with
  | .nop w => Sys2Proof.Machine.execNop w s
  | .runend w => Sys2Proof.Machine.execRunend w s
  | .trailerCommit core slot => Sys2Proof.Machine.execTrailerCommit core slot s
  | .runSelect core part => Sys2Proof.Machine.execRunSelect core part s
  | .rendezvousFire core block latch => Sys2Proof.Machine.execRendezvousFire core block latch s
  | .bra w => Sys2Proof.Machine.execBra w s
  | .brx w => Sys2Proof.Machine.execBrx w s
  | .call w => Sys2Proof.Machine.execCall w s
  | .ret w => Sys2Proof.Machine.execRet w s
  | .exit w => Sys2Proof.Machine.execExit w s
  | .loop w => Sys2Proof.Machine.execLoop w s
  | .lbrk w => Sys2Proof.Machine.execLbrk w s
  | .wait w => Sys2Proof.Machine.execWait w s
  | .pause w => Sys2Proof.Machine.execPause w s
  | .trap w => Sys2Proof.Machine.execTrap w s
  | .bkpt w => Sys2Proof.Machine.execBkpt w s
  | .iadd w => Sys2Proof.Machine.execIadd w s
  | .isub w => Sys2Proof.Machine.execIsub w s
  | .imul w => Sys2Proof.Machine.execImul w s
  | .imulh w => Sys2Proof.Machine.execImulh w s
  | .imad w => Sys2Proof.Machine.execImad w s
  | .idiv w => Sys2Proof.Machine.execIdiv w s
  | .irem w => Sys2Proof.Machine.execIrem w s
  | .imin w => Sys2Proof.Machine.execImin w s
  | .imax w => Sys2Proof.Machine.execImax w s
  | .iabs w => Sys2Proof.Machine.execIabs w s
  | .ineg w => Sys2Proof.Machine.execIneg w s
  | .iaddc w => Sys2Proof.Machine.execIaddc w s
  | .icmp w => Sys2Proof.Machine.execIcmp w s
  | .sel w => Sys2Proof.Machine.execSel w s
  | .mov w => Sys2Proof.Machine.execMov w s
  | .lea w => Sys2Proof.Machine.execLea w s
  | .and w => Sys2Proof.Machine.execAnd w s
  | .or w => Sys2Proof.Machine.execOr w s
  | .xor w => Sys2Proof.Machine.execXor w s
  | .not w => Sys2Proof.Machine.execNot w s
  | .andn w => Sys2Proof.Machine.execAndn w s
  | .shl w => Sys2Proof.Machine.execShl w s
  | .shr w => Sys2Proof.Machine.execShr w s
  | .sar w => Sys2Proof.Machine.execSar w s
  | .rot w => Sys2Proof.Machine.execRot w s
  | .fshf w => Sys2Proof.Machine.execFshf w s
  | .bfx w => Sys2Proof.Machine.execBfx w s
  | .bfi w => Sys2Proof.Machine.execBfi w s
  | .clz w => Sys2Proof.Machine.execClz w s
  | .ffs w => Sys2Proof.Machine.execFfs w s
  | .popc w => Sys2Proof.Machine.execPopc w s
  | .brev w => Sys2Proof.Machine.execBrev w s
  | .prmt w => Sys2Proof.Machine.execPrmt w s
  | .pset w => Sys2Proof.Machine.execPset w s
  | .p2v w => Sys2Proof.Machine.execP2v w s
  | .v2p w => Sys2Proof.Machine.execV2p w s
  | .idot4 w => Sys2Proof.Machine.execIdot4 w s
  | .ipack w => Sys2Proof.Machine.execIpack w s
  | .fadd w => Sys2Proof.Machine.execFadd w s
  | .fsub w => Sys2Proof.Machine.execFsub w s
  | .fmul w => Sys2Proof.Machine.execFmul w s
  | .ffma w => Sys2Proof.Machine.execFfma w s
  | .fmin w => Sys2Proof.Machine.execFmin w s
  | .fmax w => Sys2Proof.Machine.execFmax w s
  | .fcmp w => Sys2Proof.Machine.execFcmp w s
  | .fclass w => Sys2Proof.Machine.execFclass w s
  | .frcp w => Sys2Proof.Machine.execFrcp w s
  | .frsq w => Sys2Proof.Machine.execFrsq w s
  | .fsqrt w => Sys2Proof.Machine.execFsqrt w s
  | .fdiv w => Sys2Proof.Machine.execFdiv w s
  | .fexp2 w => Sys2Proof.Machine.execFexp2 w s
  | .flog2 w => Sys2Proof.Machine.execFlog2 w s
  | .fsinp w => Sys2Proof.Machine.execFsinp w s
  | .fcosp w => Sys2Proof.Machine.execFcosp w s
  | .ftanh w => Sys2Proof.Machine.execFtanh w s
  | .fscale w => Sys2Proof.Machine.execFscale w s
  | .frnd w => Sys2Proof.Machine.execFrnd w s
  | .f2i w => Sys2Proof.Machine.execF2i w s
  | .i2f w => Sys2Proof.Machine.execI2f w s
  | .f2f w => Sys2Proof.Machine.execF2f w s
  | .f2n w => Sys2Proof.Machine.execF2n w s
  | .n2f w => Sys2Proof.Machine.execN2f w s
  | .fmaxi w => Sys2Proof.Machine.execFmaxi w s
  | .fdot2 w => Sys2Proof.Machine.execFdot2 w s
  | .qswap w => Sys2Proof.Machine.execQswap w s
  | .qbcast w => Sys2Proof.Machine.execQbcast w s
  | .shfl w => Sys2Proof.Machine.execShfl w s
  | .vote w => Sys2Proof.Machine.execVote w s
  | .wred w => Sys2Proof.Machine.execWred w s
  | .wscan w => Sys2Proof.Machine.execWscan w s
  | .matchLanes w => Sys2Proof.Machine.execMatchLanes w s
  | .elect w => Sys2Proof.Machine.execElect w s
  | .bar w => Sys2Proof.Machine.execBar w s
  | .regqImm w => Sys2Proof.Machine.execRegqImm w s
  | .regqScalar w => Sys2Proof.Machine.execRegqScalar w s
  | .ld w => Sys2Proof.Machine.execLd w s
  | .st w => Sys2Proof.Machine.execSt w s
  | .lds w => Sys2Proof.Machine.execLds w s
  | .sts w => Sys2Proof.Machine.execSts w s
  | .ldk w => Sys2Proof.Machine.execLdk w s
  | .atom w => Sys2Proof.Machine.execAtom w s
  | .atoms w => Sys2Proof.Machine.execAtoms w s
  | .bankop w => Sys2Proof.Machine.execBankop w s
  | .fence w => Sys2Proof.Machine.execFence w s
  | .pref w => Sys2Proof.Machine.execPref w s
  | .cctl w => Sys2Proof.Machine.execCctl w s
  | .cpy w => Sys2Proof.Machine.execCpy w s
  | .tcpy w => Sys2Proof.Machine.execTcpy w s
  | .layset w => Sys2Proof.Machine.execLayset w s
  | .rfillGet w => Sys2Proof.Machine.execRfillGet w s
  | .rfill w => Sys2Proof.Machine.execRfill w s
  | .rtake w => Sys2Proof.Machine.execRtake w s
  | .rtakeBack w => Sys2Proof.Machine.execRtakeBack w s
  | .rinit w => Sys2Proof.Machine.execRinit w s
  | .ringadv w => Sys2Proof.Machine.execRingadv w s
  | .fxw w => Sys2Proof.Machine.execFxw w s
  | .fxflag w => Sys2Proof.Machine.execFxflag w s
  | .fxrd w => Sys2Proof.Machine.execFxrd w s
  | .fxatom w => Sys2Proof.Machine.execFxatom w s
  | .acwait w => Sys2Proof.Machine.execAcwait w s
  | .acread w => Sys2Proof.Machine.execAcread w s
  | .mxrsv w => Sys2Proof.Machine.execMxrsv w s
  | .mxrel w => Sys2Proof.Machine.execMxrel w s
  | .wload w => Sys2Proof.Machine.execWload w s
  | .mxmul w => Sys2Proof.Machine.execMxmul w s
  | .mxdrain w => Sys2Proof.Machine.execMxdrain w s
  | .atbl w => Sys2Proof.Machine.execAtbl w s
  | .nfset w => Sys2Proof.Machine.execNfset w s
  | .mxstat w => Sys2Proof.Machine.execMxstat w s
  | .enq w => Sys2Proof.Machine.execEnq w s
  | .rand w => Sys2Proof.Machine.execRand w s
  | .sysrd w => Sys2Proof.Machine.execSysrd w s
  | .syswr w => Sys2Proof.Machine.execSyswr w s
  | .tlbinv w => Sys2Proof.Machine.execTlbinv w s
  | .xret w => Sys2Proof.Machine.execXret w s
  | .ctxsave w => Sys2Proof.Machine.execCtxsave w s
  | .ctxload w => Sys2Proof.Machine.execCtxload w s
  | .resultLand core slot op lanes => Sys2Proof.Machine.execResultLand core slot op lanes s
  | .storePerform core slot op lanes => Sys2Proof.Machine.execStorePerform core slot op lanes s
  | .walk id => Sys2Proof.Machine.execWalk id s
  | .faultReport core slot => Sys2Proof.Machine.execFaultReport core slot s
  | .warpRetire core slot => Sys2Proof.Machine.execWarpRetire core slot s
  | .blockRetire core block => Sys2Proof.Machine.execBlockRetire core block s
  | .tileTaskStart core => Sys2Proof.Machine.execTileTaskStart core s
  | .tileTaskRetire core task => Sys2Proof.Machine.execTileTaskRetire core task s
  | .copySegmentStart core => Sys2Proof.Machine.execCopySegmentStart core s
  | .copySegmentBoundary core seg => Sys2Proof.Machine.execCopySegmentBoundary core seg s
  | .copySegmentRetire core seg => Sys2Proof.Machine.execCopySegmentRetire core seg s
  | .stagingEntryDone tower leaf task => Sys2Proof.Machine.execStagingEntryDone tower leaf task s
  | .acwaitComplete counter => Sys2Proof.Machine.execAcwaitComplete counter s
  | .egressPacketSend port => Sys2Proof.Machine.execEgressPacketSend port s
  | .fxwPacketArrive port p => Sys2Proof.Machine.execFxwPacketArrive port p s
  | .flagArrive port p => Sys2Proof.Machine.execFlagArrive port p s
  | .pendingFlagTimer counter => Sys2Proof.Machine.execPendingFlagTimer counter s
  | .shortfallArrive port p => Sys2Proof.Machine.execShortfallArrive port p s
  | .failureNoticeArrive port p => Sys2Proof.Machine.execFailureNoticeArrive port p s
  | .flagAckArrive port p => Sys2Proof.Machine.execFlagAckArrive port p s
  | .flagResendTimer send => Sys2Proof.Machine.execFlagResendTimer send s
  | .remoteReadRequest port r => Sys2Proof.Machine.execRemoteReadRequest port r s
  | .remoteReadReply r seq data => Sys2Proof.Machine.execRemoteReadReply r seq data s
  | .remoteReadRetransmit tag => Sys2Proof.Machine.execRemoteReadRetransmit tag s
  | .remoteAtomicRequest port r => Sys2Proof.Machine.execRemoteAtomicRequest port r s
  | .remoteAtomicReply r old => Sys2Proof.Machine.execRemoteAtomicReply r old s
  | .remoteAtomicReissue tag => Sys2Proof.Machine.execRemoteAtomicReissue tag s
  | .deliveryContextTeardown pdc => Sys2Proof.Machine.execDeliveryContextTeardown pdc s
  | .ingestDatagram port bytes => Sys2Proof.Machine.execIngestDatagram port bytes s
  | .submissionPush fn target => Sys2Proof.Machine.execSubmissionPush fn target s
  | .nodeOffer tower node => Sys2Proof.Machine.execNodeOffer tower node s
  | .pushRetryTimer tower task => Sys2Proof.Machine.execPushRetryTimer tower task s
  | .launchFetch id => Sys2Proof.Machine.execLaunchFetch id s
  | .launchFetchRetry id => Sys2Proof.Machine.execLaunchFetchRetry id s
  | .launchOpen tower => Sys2Proof.Machine.execLaunchOpen tower s
  | .agentClaim core => Sys2Proof.Machine.execAgentClaim core s
  | .claimReturn core => Sys2Proof.Machine.execClaimReturn core s
  | .ctxsaveDone core => Sys2Proof.Machine.execCtxsaveDone core s
  | .ctxloadDone core => Sys2Proof.Machine.execCtxloadDone core s
  | .ctxSwitchSave val => Sys2Proof.Machine.execCtxSwitchSave val s
  | .ctxSwitchRestore val => Sys2Proof.Machine.execCtxSwitchRestore val s
  | .invalidationComplete id => Sys2Proof.Machine.execInvalidationComplete id s
  | .hvInvalidateAll => Sys2Proof.Machine.execHvInvalidateAll s
  | .hvInvalidateVf fn => Sys2Proof.Machine.execHvInvalidateVf fn s
  | .hvInvalidatePage fn va => Sys2Proof.Machine.execHvInvalidatePage fn va s
  | .hvInvalidateGpa fn gpa => Sys2Proof.Machine.execHvInvalidateGpa fn gpa s
  | .pageReply val => Sys2Proof.Machine.execPageReply val s
  | .quoteRequest val => Sys2Proof.Machine.execQuoteRequest val s
  | .quoteComplete => Sys2Proof.Machine.execQuoteComplete s
  | .ashapeHostWrite core val => Sys2Proof.Machine.execAshapeHostWrite core val s
  | .cadenceWrite core val => Sys2Proof.Machine.execCadenceWrite core val s
  | .nodeEnable tower node val => Sys2Proof.Machine.execNodeEnable tower node val s
  | .leafEnable tower leaf val => Sys2Proof.Machine.execLeafEnable tower leaf val s
  | .counterEnable counter val => Sys2Proof.Machine.execCounterEnable counter val s
  | .counterDisable counter val => Sys2Proof.Machine.execCounterDisable counter val s
  | .ingestRingEnable ring val => Sys2Proof.Machine.execIngestRingEnable ring val s
  | .ingestRingDisable ring val => Sys2Proof.Machine.execIngestRingDisable ring val s
  | .keyInstall slot val => Sys2Proof.Machine.execKeyInstall slot val s
  | .keySlotZeroise slot val => Sys2Proof.Machine.execKeySlotZeroise slot val s
  | .peerEnable peer val => Sys2Proof.Machine.execPeerEnable peer val s
  | .portEnableWrite port val => Sys2Proof.Machine.execPortEnableWrite port val s
  | .hostApertureRead fn off len => Sys2Proof.Machine.execHostApertureRead fn off len s
  | .hostApertureWrite fn off bytes => Sys2Proof.Machine.execHostApertureWrite fn off bytes s
  | .partitionChangeGo val => Sys2Proof.Machine.execPartitionChangeGo val s
  | .partitionQuiesceDone => Sys2Proof.Machine.execPartitionQuiesceDone s
  | .partitionDrainTimeout => Sys2Proof.Machine.execPartitionDrainTimeout s
  | .partitionFlushDone => Sys2Proof.Machine.execPartitionFlushDone s
  | .partitionReenumerateDone => Sys2Proof.Machine.execPartitionReenumerateDone s
  | .heartbeatWrite val => Sys2Proof.Machine.execHeartbeatWrite val s
  | .watchdogExpire => Sys2Proof.Machine.execWatchdogExpire s
  | .thermalTrip die => Sys2Proof.Machine.execThermalTrip die s
  | .thermalTripClear tower => Sys2Proof.Machine.execThermalTripClear tower s
  | .thermalPowerOff die => Sys2Proof.Machine.execThermalPowerOff die s
  | .currentLimitRaise cores => Sys2Proof.Machine.execCurrentLimitRaise cores s
  | .currentLimitRelease => Sys2Proof.Machine.execCurrentLimitRelease s
  | .energyBooking ballast => Sys2Proof.Machine.execEnergyBooking ballast s
  | .operatingPointRequest cluster val => Sys2Proof.Machine.execOperatingPointRequest cluster val s
  | .voltageRampDone cluster => Sys2Proof.Machine.execVoltageRampDone cluster s
  | .clockRelockDone tower index => Sys2Proof.Machine.execClockRelockDone tower index s
  | .scrubRead addr kind => Sys2Proof.Machine.execScrubRead addr kind s
  | .infieldTestSelect => Sys2Proof.Machine.execInfieldTestSelect s
  | .infieldTestRun => Sys2Proof.Machine.execInfieldTestRun s
  | .infieldTestEnd signature => Sys2Proof.Machine.execInfieldTestEnd signature s
  | .fwStage val => Sys2Proof.Machine.execFwStage val s
  | .fwActivatePower val => Sys2Proof.Machine.execFwActivatePower val s
  | .fwRaiseMinimum val => Sys2Proof.Machine.execFwRaiseMinimum val s
  | .fwActionComplete => Sys2Proof.Machine.execFwActionComplete s
  | .deviceReset => Sys2Proof.Machine.execDeviceReset s
  | .registerWrite fn off val => Sys2Proof.Machine.execRegisterWrite fn off val s
  | .rankLdt d f => Sys2Proof.Machine.execRankLdt d f s
  | .rankLdn d w => Sys2Proof.Machine.execRankLdn d w s
  | .rankLdf d a w => Sys2Proof.Machine.execRankLdf d a w s
  | .rankStn a w => Sys2Proof.Machine.execRankStn a w s
  | .rankStf a b w => Sys2Proof.Machine.execRankStf a b w s
  | .rankAdd d a b => Sys2Proof.Machine.execRankAdd d a b s
  | .rankAddi d a imm => Sys2Proof.Machine.execRankAddi d a imm s
  | .rankSub d a b => Sys2Proof.Machine.execRankSub d a b s
  | .rankMul d a b => Sys2Proof.Machine.execRankMul d a b s
  | .rankShl d a n => Sys2Proof.Machine.execRankShl d a n s
  | .rankShr d a n => Sys2Proof.Machine.execRankShr d a n s
  | .rankMin d a b sg => Sys2Proof.Machine.execRankMin d a b sg s
  | .rankMax d a b sg => Sys2Proof.Machine.execRankMax d a b sg s
  | .rankAnd d a b => Sys2Proof.Machine.execRankAnd d a b s
  | .rankOr d a b => Sys2Proof.Machine.execRankOr d a b s
  | .rankCmplt d a b sg => Sys2Proof.Machine.execRankCmplt d a b sg s
  | .rankSel d a b c => Sys2Proof.Machine.execRankSel d a b c s
  | .rankNow d sel => Sys2Proof.Machine.execRankNow d sel s
  | .rankEmit a => Sys2Proof.Machine.execRankEmit a s
  | .rankRefuse a => Sys2Proof.Machine.execRankRefuse a s
  | .translationConsumerWrite fn val => Sys2Proof.Machine.execTranslationConsumerWrite fn val s

end Sys2Proof.Machine
end

