-- ==== Sys2Proof/Machine/Schedule.lean ====
section
/-!
DEFINITION. What happens next (log 2): the steps the device can take by itself now, in a fixed order, and the
partitions' next issues in order of time.
-/
namespace Sys2Proof.Machine

/-! ### Steps the device can take now -/

/-- Cores whose clock runs: what arrives for a cluster whose clock is stopped waits (29 R476). -/
def liveCores (s : State) : List (Nat × Core) := (realCores s).filter fun e => !clockStopped s e.1

/-- The results and stores of the warps that can land or be performed. -/
def opEvents (s : State) : List Instr :=
  (liveCores s).flatMap fun e => e.2.warps.flatMap fun w => w.2.ops.filterMap fun o =>
    let m := readyLanes s e.1 w.1 o
    if m ≠ 0 ∨ (o.accs.isEmpty ∧ o.remote.isEmpty) then
      some (if o.isLoad then .resultLand e.1 w.1 o.id m else .storePerform e.1 w.1 o.id m)
    else none

/-- The matrix engine of a core. -/
def tileEvents (s : State) (core : Nat) (k : Core) : List Instr :=
  (k.arrRun.toList ++ k.drnRun.toList).map (fun x => Instr.tileTaskRetire core x.id)
    ++ (if (tileStartable s core).isSome then [.tileTaskStart core] else [])
    ++ (match (s.queue (towerOf core) true (matrixLeaf core)).head? with
        | some x => if x.staged && (bodyTile x).any isWload then [.tileTaskRetire core x.id] else []
        | none => [])

/-- The copy engine of a core. -/
def copyEvents (s : State) (core : Nat) (k : Core) : List Instr :=
  (k.segs.filterMap fun g => if !segReady s core g then none
    else some (if g.stop then Instr.copySegmentBoundary core g.task.id else .copySegmentRetire core g.task.id))
    ++ (if (s.queue (towerOf core) true (copyLeaf core)).isEmpty then [] else [.copySegmentStart core])

/-- The staging units, each at the first entry of its window that is not staged (23 R407). -/
def stagingEvents (s : State) : List Instr :=
  let leaves := (s.queues.filterMap fun q => if q.1 / 1024 % 2 = 1 then some (q.1 / 2048, q.1 % 1024) else none)
    ++ (realCores s).filterMap fun e => if e.2.segs.isEmpty then none else some (towerOf e.1, copyLeaf e.1)
  leaves.eraseDups.filterMap fun l => (stagingTasks s l.1 l.2).head?.bind fun x =>
    if engineBusy s x.id then none else some (.stagingEntryDone l.1 l.2 x.id)

/-- Events in the order of a key, those of one key as they stand. -/
def byKey (l : List (Nat × Instr)) : List Instr := (l.foldl (fun a x => insertBefore (fun y => decide (x.1 < y.1)) x a) []).map (·.2)

/-- The place of a formed push among those of its clk: the core, then the warp that leads it (23 R406). -/
def formKey (s : State) (x : Task) : Nat :=
  let at' (core : Nat) (m : List (Nat × Mask)) : Nat := 1024 * core + ((s.warp? core (leaderOf m)).elim 0 fun w => 32 * w.block + w.num)
  match x.body with
  | .tile t => at' t.core t.members
  | .seg id _ _ => (s.copy? id).elim 0 fun c => at' c.core c.members
  | .packet (.data key f _ _) => ((findSend s key).bind fun r => r.fxws.find? fun w => w.id == f).elim 0 fun w => at' w.core w.members
  | .packet (.flag key f) => ((findSend s key).bind fun r => r.flags.find? fun w => w.id == f).elim 0 fun w => at' w.core w.members
  | .packet (.readReq t) | .packet (.atomReq t) => (smGet? s.remote t).elim 0 fun r => 1024 * r.core
  | .launch _ => 0

/-- Offers by ascending node (23 R406). -/
def offerEvents (s : State) : List Instr :=
  byKey (s.waitq.filterMap (fun w => match w.fin with
      | .offer n => if w.retry.any (· ≤ s.now) then some (n, Instr.pushRetryTimer w.tower w.task.id) else none
      | _ => none)
    ++ s.queues.filterMap fun q =>
        if q.1 / 1024 % 2 = 0 && (offerReady s (q.1 / 2048) (q.1 % 1024)).isSome then some (q.1 % 1024, .nodeOffer (q.1 / 2048) (q.1 % 1024)) else none)

/-- Offers of the nodes, ENQ and window pushes, and formed pushes, in the order in which their programs run (23 R406). -/
def pushEvents (s : State) : List Instr :=
  offerEvents s
    ++ (s.waitq.filterMap fun w => match w.fin with
        | .enq .. => if w.retry.any (· ≤ s.now) then some (Instr.pushRetryTimer w.tower w.task.id) else none
        | _ => none)
    ++ (s.pushes.filterMap fun p => if engineBusy s p.id then none else some (.pushRetryTimer (nfld p.target 9 9) p.id))
    ++ byKey (s.waitq.filterMap fun w => match w.fin with
        | .formed => if w.retry.any (· ≤ s.now) then some (formKey s w.task, .pushRetryTimer w.tower w.task.id) else none
        | _ => none)

/-- Ports, counters and the timers of the fabric. -/
def fabricEvents (s : State) : List Instr :=
  ((List.range 12).filterMap fun p => if egressReady s p then some (Instr.egressPacketSend p) else none)
    ++ (s.ctrs.filterMap fun e => if e.2.waiters.any fun w => ctrMet e.2 w.2.2 then some (.acwaitComplete e.1) else none)
    ++ (s.parked.filterMap fun p => if p.due ≤ s.now then some (.pendingFlagTimer p.flag.counter) else none)
    ++ (s.sends.filterMap fun e => if e.2.flags.any fun f => f.due.any (· ≤ s.now) then some (.flagResendTimer e.1) else none)
    ++ (s.remote.filterMap fun e => if e.2.due.any (· ≤ s.now) then
        some (if 0 < e.2.req.len then .remoteReadRetransmit e.1 else .remoteAtomicReissue e.1) else none)
    ++ (s.pdcs.filterMap fun e => if e.2 + clkOfUs (s.regN (timeReg 1)) ≤ s.now then some (.deliveryContextTeardown e.1) else none)

/-- Fault reports. They follow the issues of their clk, so that every fault of it is known (09 R191). -/
def reportEvents (s : State) : List Instr :=
  (realCores s).flatMap fun e => e.2.warps.filterMap fun w =>
    if (reportable w.2).isSome && !engineBusy s (reportId e.1 w.1) && (s.block e.1 w.2.block).saving.isNone
    then some (Instr.faultReport e.1 w.1) else none

/-- Ends of warps and blocks. -/
def endEvents (s : State) : List Instr :=
  (realCores s).flatMap fun e =>
    (e.2.warps.filterMap fun w => if warpDone s e.1 w.1 then some (.warpRetire e.1 w.1) else none)
    ++ (e.2.blocks.filterMap fun b => if b.1 < 16 && blockDone s e.1 b.1 then some (.blockRetire e.1 b.1) else none)

/-- Launch leaves that open a launch. -/
def openEvents (s : State) : List Instr :=
  [0, 1].filterMap fun t => (openReady s t).bind fun p => if engineBusy s p.1 then none else some (.launchOpen t)

/-- Launches and claims. -/
def launchEvents (s : State) : List Instr :=
  (s.launches.filterMap fun l =>
    if (l.2.recd.isEmpty || l.2.fin.isSome) && decide (l.2.due ≤ s.now) && !engineBusy s l.1 then some (Instr.launchFetch l.1) else none)
    ++ ((realCores s).filterMap fun e => if e.2.claim.isSome then some (.claimReturn e.1) else none)
    ++ ([0, 1].flatMap fun t =>
        let open' := (openOrder s t).filter fun id => (s.launch? id).any fun l => !l.aborted &&
          l.pa.any fun pa => decide (s.memNat (pa + 128) 8 < l.blocks)
        if open'.isEmpty then []
        else (List.range 256).filterMap fun i =>
          let c := 256 * t + i
          if agentOpen s c && (s.core c).claim.isNone && !coreFull s c && (claimable s c open').any (fun q => q.2.isSome || !engineBusy s (descEngine c q.1))
          then some (.agentClaim c) else none)

/-- The watchdog is armed and has not expired (29 R473). -/
def wdRunning (s : State) : Bool := s.wdArmed && !(s.reg (powerReg 2)).getLsbD 3

/-- Is the next core to be selected for a test (30 R481)? -/
def testDueNow (s : State) : Bool := testEn s && s.testing.isNone && partSt s == 0 && decide (s.testDue ≤ s.now) && (nextTest s).isSome

/-- Context switches, partition changes, firmware, and what comes round (29 R472, R477; 30 R481). -/
def deviceEvents (s : State) : List Instr :=
  ((realCores s).flatMap fun e =>
    (if (saveOp s e.1).isSome then [Instr.ctxsaveDone e.1] else []) ++ (if e.2.ctxops.any (·.load) then [.ctxloadDone e.1] else []))
    ++ (match s.ctxsw with
        | some v => if engineBusy s ctxEngine then [] else [if fld v 8 7 = 1 then .ctxSwitchSave v else .ctxSwitchRestore v]
        | none => [])
    ++ (match partSt s with
        | 2 => [.partitionQuiesceDone, .partitionDrainTimeout]
        | 3 => [.partitionFlushDone]
        | 4 => [.partitionReenumerateDone]
        | _ => [])
    ++ (if s.quote && !engineBusy s quoteEngine then [.quoteComplete] else [])
    ++ (if s.fwBusy.isSome then [.fwActionComplete] else [])
    ++ (if s.testing.any fun q => !q.2 then [.infieldTestRun] else [])
    ++ (if testDueNow s then [.infieldTestSelect] else [])
    ++ (if limiting s && decide (s.limDue ≤ s.now) then [.currentLimitRelease] else [])
    ++ ([0, 1].filterMap fun t => if tripOver s t then some (.thermalTripClear t) else none)
    ++ (if s.bookAt + clkOfUs 10 ≤ s.now then [.energyBooking (Config.ballast s.now)] else [])
    ++ (if wdRunning s && decide (s.wdDue ≤ s.now) then [.watchdogExpire] else [])

/-- What comes before the pushes of its clk: takes, whose pop programs run first, among them (23 R406). -/
def earlyEvents (s : State) : List Instr :=
  ((walkersOf s 0 ++ walkersOf s 1).map fun x => Instr.walk x.id)
    ++ opEvents s
    ++ ((liveCores s).flatMap fun e => tileEvents s e.1 e.2) ++ ((liveCores s).flatMap fun e => copyEvents s e.1 e.2)
    ++ stagingEvents s ++ fabricEvents s ++ endEvents s ++ openEvents s

/-- Every step the device can take now without an issue, in order. -/
def internalEvents (s : State) : List Instr :=
  earlyEvents s ++ pushEvents s
    ++ (s.invals.filterMap fun i => if invalReady s i then some (.invalidationComplete i.id) else none)
    ++ launchEvents s ++ deviceEvents s

/-- Does a step change more than what is tried again? -/
def moves (s : State) (i : Instr) : Bool :=
  match exec i s with
  | .next t => decide ({ t with waits := s.waits } ≠ s)
  | _ => true

/-- The next step the device takes by itself. -/
def nextEvent (s : State) : Option Instr := (internalEvents s).find? (moves s)

/-! ### Issue -/

/-- What a partition does next. -/
inductive Pick where
  | issue (core slot : Nat)
  | present (core slot : Nat)
  | event (i : Instr)
  deriving DecidableEq, Repr

/-- A candidate: its time, its place among those of the same clk, and what it does. -/
structure Cand where
  time  : Nat
  place : Nat
  what  : Pick
  deriving DecidableEq, Repr

/-- Places in a clk: commits, then selections, then issues, presentations and firings by core, the block's index and the warp's number
(07 R149, 17 R345), an agent's before its core's blocks (log 40), and last the fault reports. -/
def placeIn' (phase core place : Nat) : Nat := (512 * phase + core) * 1024 + place
def placeOf (phase core : Nat) (w : Warp) : Nat := placeIn' phase core (if w.agent then 0 else 1 + 32 * w.block + w.num)

/-- The special functions (13 R265). -/
def isSfu : Op → Bool
  | .frcp | .frsq | .fsqrt | .fdiv | .fexp2 | .flog2 | .fsinp | .fcosp | .ftanh => true
  | _ => false

/-- A latch that is full fires once it can; a special function once its leader's unit is free (13 R265). -/
def latchCand (s : State) (core bi key : Nat) : Option Cand :=
  if !latchReady s core bi key || s.waits.contains (core, 1000 + 16 * bi + key) then none
  else match firingOf s core bi key with
    | none => none
    | some f =>
      let lead := leaderOf f.members
      let busy := if f.instr.z1?.any fun q => isSfu q.1 then (s.partn core (partOf lead)).sfuFree else 0
      (s.warp? core lead).map fun w =>
        { time := max s.now busy, place := placeOf 2 core w, what := .event (.rendezvousFire core bi key) }

def latchCands (s : State) (core : Nat) : List Cand :=
  (s.core core).blocks.flatMap fun b => b.2.latches.filterMap fun l => latchCand s core b.1 l.1

/-- Is a partition awaited by a latch that fires now, so that it selects no other warp? -/
def firesSoon (s : State) (core p : Nat) : Bool :=
  (s.core core).blocks.any fun b => b.2.latches.any fun l => (latchCand s core b.1 l.1).any (fun c => c.time ≤ s.now) &&
    (firingOf s core b.1 l.1).any fun f => f.members.any fun m => partOf m.1 == p

/-- What a partition that a warp holds does next. -/
def holderCand (s : State) (core sl : Nat) (w : Warp) : Option Cand :=
  match w.trailer with
  | some t =>
    if commitReady w t then
      some { time := max s.now (commitTime w t), place := placeOf 0 core w, what := .event (.trailerCommit core sl) }
    else none
  | none =>
    if w.stopped.isSome || w.arrived.isSome || s.waits.contains (core, sl) || formHeld s core sl then none
    else some { time := max s.now w.next, place := placeOf 2 core w, what := .issue core sl }

/-- The earliest selection of an idle partition. -/
def selectCand (s : State) (core p : Nat) : Option Cand :=
  let later : State := { s with now := 2 ^ 64 + s.now }
  let between := (openRuns s core p).isEmpty
  let ready := (s.core core).warps.filter fun e => partOf e.1 == p && (between || e.2.inRun) && (warpReady s core e || (decide (s.now < e.2.next) && warpReady later core e))
  match ready with
  | [] => none
  | e :: l => some { time := l.foldl (fun t x => min t (max s.now x.2.next)) (max s.now e.2.next)
                     place := placeIn' 1 core p, what := .event (.runSelect core p) }

def partCand (s : State) (core p : Nat) : Option Cand :=
  if partIdle s core p then (if firesSoon s core p then none else selectCand s core p)
  else ((s.partn core p).holder.bind fun sl => (s.warp? core sl).bind (holderCand s core sl))

/-- The earlier of two candidates. -/
def firstOf (a b : Cand) : Cand := if a.time < b.time ∨ (a.time = b.time ∧ a.place ≤ b.place) then a else b

/-- Warps whose first instruction waits present it, in the order of the issues of their clk (16 R326). -/
def presentCands (s : State) : List Cand :=
  s.present.filterMap fun q => (s.warp? q.1 q.2).map fun w =>
    { time := s.now, place := placeOf 2 q.1 w, what := .present q.1 q.2 }

/-- What comes too late for its place in the present clk is done in the next one. -/
def Cand.inOrder (s : State) (c : Cand) : Cand := if c.time ≤ s.now ∧ c.place < s.place then { c with time := s.now + 1 } else c

/-- The candidate that comes first; clusters whose clock is stopped issue nothing (29 R476). -/
def nextCand (s : State) : Option Cand :=
  let report := if s.auto then ((reportEvents s).find? (moves s)).map fun i => { time := s.now, place := placeIn' 3 0 0, what := .event i : Cand }
    else none
  (((realCores s).flatMap fun e =>
    if clockStopped s e.1 then []
    else (List.range 8).filterMap (partCand s e.1) ++ if s.auto then latchCands s e.1 else []) ++ presentCands s).foldl
    (fun a c => some (match a with | some b => firstOf b (c.inOrder s) | none => c.inOrder s)) report

/-- The times at which something becomes due, after the present. -/
def dueTimes (s : State) : List Nat :=
  ((s.agenda.head?.map (·.1)).toList ++ (s.inputs.head?.map (·.1)).toList
    ++ (if s.cores.any fun e => e.2.warps.any (·.2.halt.isSome) then [s.now + 1] else []) ++ s.waitq.filterMap (·.retry) ++ s.parked.map (·.due) ++ s.sends.flatMap (fun e => e.2.flags.filterMap (·.due))
    ++ s.remote.filterMap (fun e => e.2.due) ++ s.pdcs.map (fun e => e.2 + clkOfUs (s.regN (timeReg 1)))
    ++ s.launches.map (fun l => l.2.due) ++ (if partSt s = 2 then [s.part.due] else [])
    ++ (if wdRunning s then [s.wdDue] else []) ++ (if testEn s then [s.testDue] else []) ++ (if limiting s then [s.limDue] else [])
    ++ [s.bookAt + clkOfUs 10]).filter fun t => decide (s.now < t)

def nextDue (s : State) : Option Nat := (dueTimes s).foldl (fun a t => some (match a with | some b => min b t | none => t)) none

/-- Is a warp to stop at the end of a clk that is over (03 R70)? -/
def haltDue (s : State) : Bool := s.cores.any fun e => e.2.warps.any fun w => w.2.halt.any fun h => decide (h.1 < s.now)

/-- Land every block-level write that is due (17 R345, R350; 03 R56); none advances while the cluster's clock is stopped (29 R476). -/
def landBlocks (s : State) : State :=
  s.cores.foldl (fun s e => if clockStopped s e.1 || e.2.blocks.all (fun b => b.2.bpend.isEmpty) then s
    else e.2.blocks.foldl (fun s b => landBlock s e.1 b.1) s) s

/-- What happens as time stands: writes land, warps that were to stop do, copies ask for the lines whose page has
become known, and what ports hold goes on. -/
def landAll (s : State) : State :=
  let s := landBlocks s
  landWaiting (takeHeld (askKnown (if haltDue s then { stopHalted s with waits := [] } else s)))

/-- An instruction that a warp has issued counts for its block's tenant (29 R477). -/
def countIssue (core slot : Nat) (t : State) : State :=
  match t.warp? core slot with
  | some w => if t.now < w.next then t.act (if w.agent then 1 else 2 + (t.block core w.block).tenant) 0 1 else t
  | none => t
def counted (core slot : Nat) : Res → Res
  | .next t => .next (countIssue core slot t)
  | r => r

/-- Run an instruction; a latch that it fires executes in the same step (03 R66). -/
def runInstr (i : Instr) (s : State) : Res :=
  match exec i s with
  | .next t => match t.firing with
    | some f => counted f.core f.slot (exec f.instr t)
    | none => .next t
  | r => r

/-- A warp issues: what its fetch yields is executed. -/
def issueAt (s : State) (core slot : Nat) : Res :=
  match fetchIssue s core slot with
  | .run i t => counted core slot (exec i { t with cur := some (core, slot) })
  | .stop t => .next t

/-- What a warp leaves that would issue the first instruction of a run now and waits, or arrives at a rendezvous; none
where it would not wait (02 R40, R41). -/
def firstWaits (s : State) (core sl : Nat) : Option State :=
  if (s.warp? core sl).any fun w => w.poison.isSome || w.inRun then none
  else match issueAt (s.updPart core (partOf sl) fun q => { q with holder := some sl }) core sl with
    | .next t => if (t.warp? core sl).any fun w => !w.inRun && w.stopped.isNone then some t else none
    | _ => none

/-- A selection: a warp whose first instruction would wait is not ready (02 R40, R41); it presents that instruction in its
turn, and the choice is made among the others. -/
def selectAt (s : State) (core p : Nat) : Res :=
  let l := if (openRuns s core p).isEmpty then readyOrder s core p else []
  match l.find? fun e => (firstWaits s core e.1).isSome with
  | some e => .next { s with present := (core, e.1) :: s.present }
  | none => exec (.runSelect core p) s

/-- A warp presents an instruction that waits: it enters the queue it waits in, or arrives. -/
def presentAt (s : State) (core sl : Nat) : Res :=
  let s := { s with present := s.present.erase (core, sl) }
  .next ((firstWaits s core sl).getD s)

/-- Time passes to a candidate, which then happens, unless warps stop first. -/
def runCand (s : State) (c : Cand) : Res :=
  let u := s.tick c.time
  let s := { landAll u with place := c.place }
  if haltDue u then .next s
  else match c.what with
    | .present core slot => presentAt s core slot
    | .issue core slot => issueAt s core slot
    | .event (.runSelect core p) => selectAt s core p
    | .event i => runInstr i s

/-- Nothing is due now: the earliest candidate, unless something becomes due before it. -/
def advance (s : State) : Res :=
  match nextCand s, nextDue s with
  | some c, some t => if t ≤ c.time ∧ s.now < c.time then .next (s.tick (min t c.time)) else runCand s c
  | some c, none => runCand s c
  | none, some t => .next (s.tick t)
  | none, none => .next (s.tick (s.now + 1))

/-- The device acts by itself, else a warp issues. -/
def ownStep (s : State) : Res :=
  if !s.auto then advance s
  else match nextEvent s with
    | some i => runInstr i s
    | none => match hostNext s with
      | some i => .next (hostResume s i)
      | none => advance s

/-- What another agent did to a line that a copy owned is done now that the copy has released it (04 R86). -/
def redoStep (s : State) (line : Nat) (i : Instr) : Res :=
  match redoPort i s with
  | some t => .next (grantLine t line)
  | none => match exec i s with
    | .next t => .next (grantLine t line)
    | r => r

/-- Device time: what was held at a home, an input from outside; then the device acts by itself, else a warp issues. -/
def deviceStep (s : State) : Res :=
  match s.redo with
  | (line, i) :: l => redoStep { s with redo := l } line i
  | [] =>
  match s.inputs with
  | (t, x) :: l => if t ≤ s.now then .next { applyInput { s with inputs := l } x with waits := [] } else ownStep s
  | [] => ownStep s

/-- The counter a host write configures. -/
def ctrWritten : Instr → Option Nat
  | .counterEnable k _ | .counterDisable k _ => some k
  | .registerWrite 0 off _ => if ctrReg 0 0 ≤ off ∧ off < ctrReg 8192 0 then some ((off - ctrReg 0 0) / 16)
      else if ctrReg 8192 0 ≤ off ∧ off < ctrReg 8192 0 + 0x20000 then some (8192 + (off - ctrReg 8192 0) / 16) else none
  | _ => none

/-- Of two arrivals of one clk, does the later listed come first: a packet of a counter before a write that configures it
(27 R455), a datagram at a lower port (R461)? -/
def goesFirst (x y : Instr) : Bool :=
  match x, y with
  | .ingestDatagram p _, .ingestDatagram q _ => decide (q < p)
  | _, .fxwPacketArrive _ p => ctrWritten x == some p.counter
  | _, .flagArrive _ p => ctrWritten x == some p.counter
  | _, .failureNoticeArrive _ p => ctrWritten x == some p.counter
  | _, _ => false

/-- The first of the arrivals that share the clk of the one listed first. -/
def firstArrival (t : Nat) (i : Instr) (l : List (Nat × Instr)) : Instr :=
  l.foldl (fun x y => if y.1 = t ∧ goesFirst x y.2 then y.2 else x) i

/-- A push through a submission window (22 R384). -/
def isWindowPush : Instr → Bool
  | .submissionPush _ _ => true
  | .registerWrite fn off _ => off == 8 && (fn == 0 || decide (0x40 ≤ fn) && decide (fn < 0x80))
  | _ => false

/-- What the device does itself before an arrival of the same clk: takes and offers before a window push (23 R406). -/
def beforeArrival (s : State) (i : Instr) : Option Instr :=
  if s.auto && isWindowPush i then (earlyEvents s ++ offerEvents s).find? (moves s) else none

/-- What the outside does next. -/
def arrivalStep (s : State) (t : Nat) (i : Instr) (l : List (Nat × Instr)) : Res :=
  let x := firstArrival t i l
  match beforeArrival s x with
  | some e => runInstr e s
  | none => runInstr x { s with agenda := ((t, i) :: l).erase (t, x), waits := [] }

/-- The rank program at the head runs its next word (23 R411). -/
def rankStep (s : State) (j : RankJob) : Res :=
  match jobInstr s j with
  | some i => exec i s
  | none => .next (jobRunaway s j)

end Sys2Proof.Machine
end

