-- ==== Sys2Proof/Machine/Step.lean ====
section
/-!
DEFINITION. One step of the device: what the outside does, a rank program, what the device does by itself, or
the next issue of a warp (log 2).
-/
namespace Sys2Proof.Machine

/-- One step. A device that the module has powered off stays as it is (29 R472). -/
def step (s : State) : Host.Outcome State Fault Refusal :=
  if s.off.isSome then .next s
  else
    let s := landAll s
    match s.jobs with
    | j :: _ => rankStep s j
    | [] => match s.agenda with
      | (t, i) :: l => if t ≤ s.now then arrivalStep s t i l else deviceStep s
      | [] => deviceStep s

/-- The core on which withFetchWord runs an instruction: the lowest one of compute role at reset. -/
def fetchCore : Nat := 0x020

/-- A rank word is placed at word 0 of tower 0's program store and a program that starts there is running; any
other instruction is placed at address 0 of the physical function, mapped to physical address 0, where the
one warp of a block stands, which holds its partition (log 14). -/
def State.withFetchWord (s : State) (nbits w : Nat) : State :=
  if nbits = 32 then
    { (s.setReg (progReg 0 0) (BitVec.ofNat 32 w)) with
      agenda := []
      jobs := [{ tower := 0, leaf := false, target := 0, pc := 0, left := 32, nowNs := s.ns, nowClk := s.now % 2 ^ 32, fin := .pop
                 task := { id := 0, kind := 0, cls := 0, tenant := 0, flow := 0, length := 0, deadline := 0, user0 := 0
                           user1 := 0, origin := 0, fn := 0, body := .launch 0 } }] }
  else
    { (s.setMemNat 0 16 (w % 2 ^ nbits)).setCore fetchCore
        { parts := { holder := some 0 } :: List.replicate 7 {}
          tlb := [{ fn := 0, va := 0, size := 2 ^ 16, gpa := 0, gsize := 2 ^ 16, pa := 0
                    attr := { read := true, write := true, exec := true, dirty := true } }]
          warps := [(0, { block := 0, num := 0, role := .plain, agent := false, pc := 0, path := fullMask, next := s.now })]
          blocks := [(0, { slots := [0], roles := [.plain] })] } with
      agenda := [], jobs := [], waits := [] }

end Sys2Proof.Machine
end

