-- ==== Sys2Proof/Safety.lean ====
section
/-!
DEFINITION. The terms claims are stated in: where a Z1 instruction executes and what is done once its effect
is known, what an instruction may change and what it leaves, and the invariants of the device.
-/
namespace Sys2Proof.Machine

/-! ### Where an instruction executes -/

/-- An execution of a Z1 instruction: its context, the state its effect starts from (what was due has landed),
the warps that take part, and the latch that fired for a set- or block-scope instance. -/
structure Entry where
  c   : Ctx
  s   : State
  all : List (Nat × Mask)
  key : Option Nat

/-- The execution, where no source has an uncorrected error (09 R186). -/
def Entry.sound (o : Op) (x : Z1) (en : Entry) : Option Entry := if en.c.badLanes (srcsOf o x) = 0 then some en else none

/-- The execution that an issue leads to: a latch that fires with room in every counter (03 R66, 02 R38), a replay
once its warps' partitions are free (09 R188), or a warp that passes the checks of 09 R185 and waits for nothing
(02 R37, R38), at lane or warp scope. None where the issue faults, waits, or arrives at a rendezvous. -/
def entry (o : Op) (x : Z1) (s : State) : Option Entry :=
  match s.firing with
  | some f =>
    let e := unionMask f.members
    let t := latchClk (landWarp s f.core (leaderOf f.members)) f.core (leaderOf f.members) o x e
    if firingWaits s f.core f.members o x then none
    else Entry.sound o x { c := mkCtx t f.core (leaderOf f.members) x e e f.members f.addr f.len, s := t, all := f.members, key := some f.slot }
  | none => match s.cur with
    | none => none
    | some (core, slot) => match s.warp? core slot, (landWarp s core slot).warp? core slot with
      | some _, some w =>
        let t := landWarp s core slot
        match w.replay with
        | some (lanes, contrib) =>
          if partsFree t core contrib then
            let t := latchClk t core slot o x lanes
            Entry.sound o x { c := mkCtx t core slot x lanes (unionMask contrib) (contrib.map fun p => (p.1, p.2 &&& lanes)) w.pc (8 + 4 * x.ext.lenCode)
                              s := t, all := contrib, key := none }
          else none
        | none =>
          let b := t.block core w.block
          let e := execMask w x
          if (issueCheck b w (if isXfer o then peekWord t core b w (w.pc + (8 + 4 * x.ext.lenCode)) else none) o x).isNone
              && !mustWait b w o x e && !joint x then
            let t := latchClk t core slot o x e
            Entry.sound o x { c := mkCtx t core slot x e e [(slot, e)] w.pc (8 + 4 * x.ext.lenCode), s := t, all := [(slot, e)], key := none }
          else none
      | _, _ => none

/-- The state after an execution whose effect left `t`: the warps that took part move past the instruction, and
the latch that fired becomes free. -/
def finish (o : Op) (x : Z1) (en : Entry) (t : State) : State :=
  let u := advanceAll t en.all en.c.core en.c.addr en.c.len x.gap.toNat (tmpBits o x)
  match en.key with
  | some k => freeLatch u en.c.core en.c.bi k
  | none => u

/-! ### What an execution leaves -/

/-- A warp without what the issue of any instruction moves: its place in its run and path, its clk of issue,
its rendezvous and translations, and the fixed-latency results on their way with the clk of the last. -/
def Warp.still (w : Warp) : Warp :=
  { w with pc := 0, pcs := [], path := 0, stack := [], serial := none, last := 0, runStart := 0, pos := 0, inRun := false
           tmpW := 0, next := 0, giveWay := false, arrived := none, replay := none, xl := [], pend := [], resAt := 0 }

/-- A block without its rendezvous latches and the pool writes on their way. -/
def Block.still (b : Block) : Block := { b with latches := [], bpend := [] }

/-- From s to t nothing but the core's partitions, its warps and its blocks changed, and the marks of the
issue itself. All of memory, every special register, queue and counter of the device and every other core stay. -/
def OnlyCore (core : Nat) (s t : State) : Prop :=
  { t with cores := s.cores, waits := s.waits, cur := s.cur, firing := s.firing, busy := s.busy } = s ∧
  (∀ d, d ≠ core → t.core d = s.core d) ∧
  { t.core core with parts := (s.core core).parts, warps := (s.core core).warps, blocks := (s.core core).blocks } = s.core core

/-- From s to t every warp of the core keeps its registers, predicates, flags, counters, outstanding operations,
loop levels and fence, and every block its registers, scratchpad and records: only places and results on their way moved. -/
def OnlyIssue (core : Nat) (s t : State) : Prop :=
  OnlyCore core s t ∧ (∀ slot, (t.warp? core slot).map Warp.still = (s.warp? core slot).map Warp.still) ∧
  ∀ b, (t.block core b).still = (s.block core b).still

/-- As OnlyIssue, and every result on its way stays as it was: the warps only moved. -/
def OnlyPlace (core : Nat) (s t : State) : Prop :=
  OnlyCore core s t ∧
  (∀ slot, (t.warp? core slot).map (fun w => (w.still, w.pend, w.resAt)) = (s.warp? core slot).map fun w => (w.still, w.pend, w.resAt)) ∧
  ∀ b, ((t.block core b).still, (t.block core b).bpend) = ((s.block core b).still, (s.block core b).bpend)

/-- A register or flag write is on its way to a warp and lands at a clk. -/
def LandsAt (t : State) (core slot due : Nat) (x : Wr) : Prop :=
  ∃ w, t.warp? core slot = some w ∧ ∃ p ∈ w.pend, p.due = due ∧ x ∈ p.writes

/-- A write that a result of the words f(l) in d, the predicates ps and the flags makes in a member with the lanes m:
word k of a lane of m in d + k, or of the lowest lane of E where d is a scalar register; a predicate of a lane of m; the
flags. A result in a set pool makes none (03 R54, R66). -/
def Sends (en : Entry) (d : Option Nat) (f : Nat → List Word) (ps : List (Nat × (Nat → Bool))) (flags : BitVec 5) (m : Mask) : Wr → Prop
  | .lane r l v => ∃ b k, d = some b ∧ (b < 512 ∨ 1600 ≤ b) ∧ r = b + k ∧ l < 32 ∧ inMask m l ∧ (f l)[k]? = some v
  | .scal r v => ∃ b k, d = some b ∧ 1536 ≤ b ∧ b < 1600 ∧ r = b + k ∧ (f en.c.low)[k]? = some v
  | .pred p l v => p < 7 ∧ l < 32 ∧ inMask m l ∧ ∃ g, (p, g) ∈ ps ∧ v = g l
  | .flags x => x = flags

/-- The words f(l) reach registers d, d + 1, ... of every member's lane l (the value of the lowest lane of E,
where d is a scalar register) L clk after the issue, 2 clk later in a set pool (03 R54, R56, R66). -/
def RegResult (en : Entry) (t : State) (L d : Nat) (f : Nat → List Word) : Prop :=
  en.c.e ≠ 0 → ∀ q ∈ en.c.members, q.2 ≠ 0 → (en.s.warp? en.c.core q.1).isSome → ∀ (k : Nat) (v : Word),
    (1536 ≤ d ∧ d < 1600 → (f en.c.low)[k]? = some v → LandsAt t en.c.core q.1 (en.s.now + L) (.scal (d + k) v)) ∧
    (∀ l, l < 32 → inMask q.2 l → (f l)[k]? = some v → d < 512 ∨ 1600 ≤ d →
      LandsAt t en.c.core q.1 (en.s.now + L) (.lane (d + k) l v)) ∧
    (∀ l i r, l < 32 → inMask en.c.e l → (f l)[k]? = some v → 512 ≤ d ∧ d < 1536 → en.c.b.setOf en.c.w.num = some (i, r) →
      (en.s.now + L + 2, BWr.pool i (d - 512 + k) l v) ∈ (t.block en.c.core en.c.bi).bpend)

/-- Predicate p of every member's lane l becomes f(l) L clk after the issue; p7 cannot be written (03 R58). -/
def PredResult (en : Entry) (t : State) (L p : Nat) (f : Nat → Bool) : Prop :=
  en.c.e ≠ 0 → p < 7 → ∀ q ∈ en.c.members, q.2 ≠ 0 → (en.s.warp? en.c.core q.1).isSome → ∀ l, l < 32 → inMask q.2 l →
    LandsAt t en.c.core q.1 (en.s.now + L) (.pred p l (f l))

/-- Exception flags collect in every member L clk after the issue (03 R60). -/
def FlagResult (en : Entry) (t : State) (L : Nat) (x : BitVec 5) : Prop :=
  en.c.e ≠ 0 → x ≠ 0 → ∀ q ∈ en.c.members, q.2 ≠ 0 → (en.s.warp? en.c.core q.1).isSome →
    LandsAt t en.c.core q.1 (en.s.now + L) (.flags x)

/-- Every result on its way before the issue still is, in its order; one that is on its way only after it lands L clk
after the issue (2 clk later in the set's pool) and is this result: the words f(l) in d, the predicates ps, the flags.
No trailer waits longer for it than that. -/
def OnlyDest (en : Entry) (t : State) (L : Nat) (d : Option Nat) (f : Nat → List Word) (ps : List (Nat × (Nat → Bool)))
    (flags : BitVec 5) : Prop :=
  (∀ slot w, t.warp? en.c.core slot = some w → ∃ w0, en.s.warp? en.c.core slot = some w0 ∧ w0.pend.Sublist w.pend ∧
    (∀ p ∈ w.pend, p ∈ w0.pend ∨ (en.c.e ≠ 0 ∧ p.due = en.s.now + L ∧ ∃ q ∈ en.c.members, q.1 = slot ∧ q.2 ≠ 0 ∧ ∀ y ∈ p.writes, Sends en d f ps flags q.2 y)) ∧
    w0.resAt ≤ w.resAt ∧ w.resAt ≤ max w0.resAt (en.s.now + L + 2)) ∧
  ∀ b, (en.s.block en.c.core b).bpend.Sublist (t.block en.c.core b).bpend ∧
    ∀ y ∈ (t.block en.c.core b).bpend, y ∈ (en.s.block en.c.core b).bpend ∨
      (b = en.c.bi ∧ ∃ i r a k l v, en.c.b.setOf en.c.w.num = some (i, r) ∧ d = some a ∧ 512 ≤ a ∧ a < 1536 ∧ l < 32 ∧
        inMask en.c.e l ∧ (f l)[k]? = some v ∧ y = (en.s.now + L + 2, BWr.pool i (a - 512 + k) l v))

/-- The instruction completes: its words f(l) reach d, at most n of them, its predicates ps and its flags, and nothing
else changes. -/
def Gives (i : Instr) (s : State) (en : Entry) (L d n : Nat) (f : Nat → List Word) (ps : List (Nat × (Nat → Bool)))
    (flags : BitVec 5) : Prop :=
  ∃ t, exec i s = .next t ∧ RegResult en t L d f ∧ (∀ p g, (p, g) ∈ ps → PredResult en t L p g) ∧ FlagResult en t L flags ∧
    OnlyDest en t L (some d) f ps flags ∧ (∀ l, (f l).length ≤ n) ∧ OnlyIssue en.c.core en.s t

/-- The instruction completes: its predicates and flags, and nothing else changes. -/
def GivesPreds (i : Instr) (s : State) (en : Entry) (L : Nat) (ps : List (Nat × (Nat → Bool))) (flags : BitVec 5) : Prop :=
  ∃ t, exec i s = .next t ∧ (∀ p g, (p, g) ∈ ps → PredResult en t L p g) ∧ FlagResult en t L flags ∧
    OnlyDest en t L none (fun _ => []) ps flags ∧ OnlyIssue en.c.core en.s t

/-- A latency of n clk, n64 at 64 bits, and 2 more for a source in another member's pool share (11 R226, R227). -/
def clks (en : Entry) (o : Op) (x : Z1) (n n64 : Nat) : Nat :=
  (if x.ty.is64 then n64 else n) + if poolFar en.c.b en.c.w (srcsOf o x) then 2 else 0

/-- The sources a, b and c of a lane as the instruction's type reads them (12 R229). -/
def Entry.a (en : Entry) (x : Z1) (l : Nat) : Int := rdT x.ty (en.c.srcA en.s x (words x.ty) l)
def Entry.b (en : Entry) (x : Z1) (l : Nat) : Int := rdT x.ty (en.c.srcB en.s x (words x.ty) l)
def Entry.cc (en : Entry) (x : Z1) (l : Nat) : Int := rdT x.ty (en.c.srcC en.s x (words x.ty) l)
/-- The same as bit patterns of n words. -/
def Entry.ua (en : Entry) (x : Z1) (n l : Nat) : Nat := en.c.srcA en.s x n l
def Entry.ub (en : Entry) (x : Z1) (n l : Nat) : Nat := en.c.srcB en.s x n l
def Entry.uc (en : Entry) (x : Z1) (n l : Nat) : Nat := en.c.srcC en.s x n l

/-- The instruction only advances: nothing changed but the places of its warps. -/
def Idles (i : Instr) (s : State) (en : Entry) : Prop := ∃ t, exec i s = .next t ∧ OnlyPlace en.c.core en.s t

/-- A byte is as it was, or the dirty one that a line of the core's L1 held and has carried home. -/
def KeptOrHome (core : Nat) (s t : State) (a : Nat) : Prop :=
  t.byte a = s.byte a ∨ ∃ p ∈ (s.core core).l1, p.1 = lineOf a ∧ p.2.dirty.getLsbD (a % 128) = true ∧ t.byte a = lineByte p.2.data (a % 128)

/-- From s to t one write joins those on their way in a block, and every other result on its way stays. -/
def OnlyWrite (en : Entry) (t : State) (due : Nat) (y : BWr) : Prop :=
  OnlyIssue en.c.core en.s t ∧
  (∀ slot w, t.warp? en.c.core slot = some w → ∃ w0, en.s.warp? en.c.core slot = some w0 ∧ w.pend = w0.pend ∧
    w0.resAt ≤ w.resAt ∧ w.resAt ≤ max w0.resAt due) ∧
  (due, y) ∈ (t.block en.c.core en.c.bi).bpend ∧
  ∀ b, (en.s.block en.c.core b).bpend.Sublist (t.block en.c.core b).bpend ∧
    ∀ p ∈ (t.block en.c.core b).bpend, p ∈ (en.s.block en.c.core b).bpend ∨ (b = en.c.bi ∧ p = (due, y))

/-- A floating result: one word from the lane that supplies the sources, the flags of the lanes that compute
(13 R253). -/
def GivesFp (i : Instr) (s : State) (en : Entry) (x : Z1) (L : Nat) (g : Nat → Nat × BitVec 5) : Prop :=
  Gives i s en L x.d.toNat 1 (fun l => [BitVec.ofNat 32 (g (srcLane en.c l)).1]) []
    (if en.c.e = 0 then 0 else flagsOf en.c fun l => (g l).2)

/-- A function of the elements of three sources, packed as the type packs them. -/
def Entry.elems (en : Entry) (x : Z1) (f : Nat → Nat → Nat → Nat × BitVec 5) (l : Nat) : Nat × BitVec 5 :=
  perElem x.ty fun i => f (elem x.ty (en.ua x 1 l) i) (elem x.ty (en.ub x 1 l) i) (elem x.ty (en.uc x 1 l) i)

/-- The entry once the members' xstat.maskx is set where a lane of E lies outside the mask (03 R61, R69). -/
def Entry.masked (en : Entry) (m : Mask) : Entry := { en with s := en.c.maskx en.s (en.c.e &&& ~~~m != 0) }

/-! ### Outstanding operations -/

/-- The registers, predicates and flags of a warp, and the lanes that have ended. -/
def Warp.regs (w : Warp) : Sparse Word × Sparse Word × Sparse Word × Sparse Mask × BitVec 5 × BitVec 2 × Mask :=
  (w.v, w.s, w.tmp, w.p, w.xflags, w.xstat, w.exited)

/-- From s to t every warp of the core keeps its registers, and every block what it holds. -/
def KeepsRegs (core : Nat) (s t : State) : Prop :=
  (∀ slot, (t.warp? core slot).map Warp.regs = (s.warp? core slot).map Warp.regs) ∧
  ∀ b, (t.block core b).still = (s.block core b).still

/-- What a warp has outstanding: its operations and its four counters. -/
def Warp.work (w : Warp) : List MemOp × Nat × Nat × Nat × Nat := (w.ops, w.loads, w.stores, w.copies, w.tiles)

/-- The instruction performs its ordering and nothing else (05 R107, 03 R67): no register, block, outstanding operation or
counter, no BAR0 word, queue or copy, and no byte of memory but those the L1 carries home. -/
def OnlyOrders (i : Instr) (s : State) (en : Entry) : Prop :=
  ∃ t, exec i s = .next t ∧ KeepsRegs en.c.core en.s t ∧ t.bar0 = en.s.bar0 ∧ t.queues = en.s.queues ∧ t.copies = en.s.copies ∧
    (∀ sl, (t.warp? en.c.core sl).map Warp.work = (en.s.warp? en.c.core sl).map Warp.work) ∧ ∀ a, KeptOrHome en.c.core en.s t a

/-- From s to t nothing changed but one core's warps, blocks and partitions, the marks of a step and the numbering
of operations. -/
def OnlyWarps (core : Nat) (s t : State) : Prop :=
  { t with cores := s.cores, waits := s.waits, cur := s.cur, firing := s.firing, busy := s.busy, nextId := s.nextId } = s ∧
  (∀ d, d ≠ core → t.core d = s.core d) ∧
  { t.core core with parts := (s.core core).parts, warps := (s.core core).warps, blocks := (s.core core).blocks } = s.core core

/-- From s to t no register and no block changed, and outside the core's warps and partitions only the marks of
the issue and the numbering of operations: the instruction left an outstanding operation behind, if anything. -/
def OnlyOps (core : Nat) (s t : State) : Prop := OnlyWarps core s t ∧ KeepsRegs core s t

/-- The leader has a new outstanding operation whose result goes to the members, and it satisfies f. -/
def Queues (en : Entry) (t : State) (f : MemOp → Prop) : Prop :=
  ∃ w, t.warp? en.c.core en.c.slot = some w ∧ ∃ o ∈ w.ops, o.id = en.s.nextId ∧ o.members = en.c.members ∧ f o

/-- Each warp takes part once. -/
abbrev Entry.Fair (en : Entry) : Prop := (en.c.members.map (·.1)).Nodup ∧ en.c.slot ∈ en.c.members.map (·.1) ∧ (en.s.warp? en.c.core en.c.slot).isSome

/-- A counter rose by one in every member with lanes (02 R38). -/
def Raises (en : Entry) (t : State) (k : Cnt) : Prop :=
  ∀ q ∈ en.c.members, q.2 ≠ 0 → ∀ w, en.s.warp? en.c.core q.1 = some w →
    ∃ w1, t.warp? en.c.core q.1 = some w1 ∧ w1.cnt k = w.cnt k + 1

/-- A special function completes its issue: the value of every lane is fixed now and lands later (02 R36, 13 R265). -/
def GivesLater (i : Instr) (s : State) (en : Entry) (x : Z1) (g : Nat → Nat × BitVec 5) : Prop :=
  ∃ t, exec i s = .next t ∧ OnlyOps en.c.core en.s t ∧
    (en.c.e ≠ 0 → Raises en t .loads ∧ Queues en t fun o => o.kind = .value ∧ o.dst = some x.d.toNat ∧
      o.flags = flagsOf en.c (fun l => (g l).2) ∧
      ∀ l, l < 32 → inMask en.c.e l → ∃ y ∈ o.accs, y.lane = l ∧ y.a = [BitVec.ofNat 32 (g (srcLane en.c l)).1])

/-- The leader is resident after the issue and satisfies f. -/
def LeaderHas (en : Entry) (t : State) (f : Warp → Prop) : Prop :=
  ∃ w, t.warp? en.c.core en.c.slot = some w ∧ f w

/-- A control instruction completes: it leaves f true of the leader, and no register, block or memory changed. -/
def Notes (i : Instr) (s : State) (en : Entry) (f : Warp → Prop) : Prop :=
  ∃ t, exec i s = .next t ∧ LeaderHas en t f ∧ OnlyOps en.c.core en.s t

/-- Every lane of E reaches a local page through a translation that permits the access, at an aligned address
(04 R93, 09 R185): `tr` gives the physical address and the attributes. -/
abbrev Reaches (en : Entry) (x : Z1) (kind size : Nat) (tr : Nat → Nat × Attr) : Prop :=
  ∀ l ∈ maskLanes en.c.e, memAddr x true en.c en.s l % size = 0 ∧ (tr l).2.fabric = false ∧
    warpXlate en.s en.c.core en.c.b en.c.w (memAddr x true en.c en.s l) kind = some (.ok (tr l).1 (tr l).2)

/-- Every lane of E lies aligned within the declared scratchpad; a load meets no poisoned line (04 R79, 09 R186). -/
abbrev InScratch (en : Entry) (x : Z1) (size : Nat) (load : Bool) : Prop :=
  ∀ l ∈ maskLanes en.c.e, memAddr x false en.c en.s l % size = 0 ∧ memAddr x false en.c en.s l + size ≤ en.c.b.scrSize ∧
    (load = true → smGet? en.c.b.scrBad (memAddr x false en.c en.s l / 128) = none)

/-- A memory instruction completes its issue: one access of every lane of E is outstanding, in a new operation with
the counter of 02 R38 risen, or, where the lanes are replayed, in the operation they belong to (05 R112). No register,
block or byte of memory has changed yet. -/
def Accesses (i : Instr) (s : State) (en : Entry) (joins : Option MemOp) (k : Cnt) (f : MemOp → Prop) (accs : List LaneAcc) : Prop :=
  ∃ t, exec i s = .next t ∧ OnlyOps en.c.core en.s t ∧
    (joins = none → Raises en t k ∧ Queues en t fun o => o.accs = accs ∧ f o) ∧
    ∀ p, joins = some p → LeaderHas en t fun w => ∃ o ∈ w.ops, o.id = p.id ∧ o.accs = p.accs ++ accs ∧ o.todo = 0

/-- The bytes of memory at and above an address. -/
def State.bytesAt (s : State) (a n : Nat) : List Byte := readBytes s a n

/-- An operation of a resident warp with one access left to perform, held back by nothing: a plain access (no
release, no acquire) whose result, if any, goes to the warp's own lane y. -/
structure LastAccess (s : State) (core slot : Nat) (w : Warp) (o : MemOp) (y : LaneAcc) : Prop where
  core_ok : core < 512
  warp    : s.warp? core slot = some w
  op      : findOp s core slot o.id = some o
  accs    : o.accs = [y]
  alone   : w.ops = [o]
  remote  : o.remote = []
  plain   : o.acq = false ∧ o.rel = false ∧ (o.kind = .value ∨ o.flags = 0)
  free    : heldBack s core slot o y = false ∧ ownerWait s core o y = false
  lane    : y.lane < 32
  members : o.members = [(slot, laneBit y.lane)]
  counts  : o.opens = [slot] ∧ o.todo = 0
  calm    : (∀ e ∈ (s.core core).warps, e.2.fences = []) ∧ s.advs = [] ∧ w.poison = none

/-- Outside n bytes at an address every L1 holds what it held: the bytes, and which of them are valid and dirty. -/
def L1Outside (s t : State) (core a n : Nat) : Prop :=
  (∀ c, c ≠ core → (t.core c).l1 = (s.core c).l1) ∧
  ∀ line i, i < 128 → 128 * line + i < a ∨ a + n ≤ 128 * line + i →
    (l1Get t core line).map (fun y => (lineByte y.data i, y.valid.getLsbD i, y.dirty.getLsbD i)) =
      (l1Get s core line).map fun y => (lineByte y.data i, y.valid.getLsbD i, y.dirty.getLsbD i)

/-- Outside n bytes at an address of one block's scratchpad, every scratchpad of the core holds what it held. -/
def ScratchOutside (s t : State) (core b a n : Nat) : Prop :=
  (∀ c, c ≠ b → (t.block core c).scr = (s.block core c).scr) ∧
  ∀ i, i < a ∨ a + n ≤ i → smGetD (t.block core b).scr 0 i = smGetD (s.block core b).scr 0 i

/-- Memory outside n bytes at an address reads as before. -/
def MemoryOutside (s t : State) (a n : Nat) : Prop := ∀ b, b < a ∨ a + n ≤ b → t.byte b = s.byte b

/-! ### The end of a run -/

/-- A trailer that commits now: its warp is not stopped, and its results have landed. -/
structure TrailerGoes (s : State) (core slot : Nat) (w : Warp) (t : Trailer) : Prop where
  warp    : s.warp? core slot = some w
  trailer : w.trailer = some t
  going   : w.stopped = none ∧ w.poison = none
  room    : commitReady w t = true
  due     : commitTime w t ≤ s.now
  landed  : w.pend = [] ∧ (s.block core w.block).bpend = []

/-- One whose warp's path is whole. -/
structure TrailerDue (s : State) (core slot : Nat) (w : Warp) (t : Trailer) : Prop extends TrailerGoes s core slot w t where
  whole : w.stack = [] ∧ w.serial = none ∧ w.skip = false

/-- What the end of a run leaves of a warp. -/
def Warp.lasting (w : Warp) : Sparse Word × Sparse Mask × BitVec 5 × BitVec 2 × List Nat × List MemOp :=
  (w.v, w.p, w.xflags, w.xstat, [w.loads, w.stores, w.copies, w.tiles], w.ops)

/-- The trailer commits (02 R33, R35, R37, R42): the run is over, the temporaries are gone with what was to fill them, the
named registers with a value on its way are held, the gap and a PAUSE count from now, an earlier interval goes on (14
R295), the partition is free, and the warp satisfies f. -/
def Commits (s : State) (core slot : Nat) (w : Warp) (t : Trailer) (f : Warp → Prop) : Prop :=
  ∃ u, exec (.trailerCommit core slot) s = .next u ∧ OnlyWarps core s u ∧ (u.partn core (partOf slot)).holder ≠ some slot ∧
    (∀ sl, sl ≠ slot → (u.warp? core sl).map (fun x => { x with bar := none }) = (s.warp? core sl).map fun x => { x with bar := none }) ∧
    ∃ v, u.warp? core slot = some v ∧ v.trailer = none ∧ v.xfer = none ∧ v.inRun = false ∧ v.pos = 0 ∧ v.tmp = [] ∧
      v.next = s.now + t.gap ∧ v.giveWay = t.giveWay ∧ v.lasting = w.lasting ∧
      v.outst = w.outst.filter (fun p => p.1 < 1600 ∨ 1608 ≤ p.1) ∧
      v.held = w.held ++ (t.names.filter fun r => w.awaits r && !w.held.contains r).eraseDups ∧
      v.pauseUntil = (match w.runPause with | some n => if n = 0 then 0 else s.now + n | none => w.pauseUntil) ∧ f v

/-- The trailer takes a fault in place of its effect: the warp stands at it, stopped precisely, with its path's lanes (09 R184). -/
def CommitFaults (s : State) (core slot : Nat) (w : Warp) (t : Trailer) (code : Nat) : Prop :=
  ∃ u v r, exec (.trailerCommit core slot) s = .next u ∧ u.mem = s.mem ∧ u.warp? core slot = some v ∧ v.regs = w.regs ∧ v.loops = w.loops ∧
    v.stack = w.stack ∧ v.path = w.path ∧ v.trailer = none ∧ v.pc = t.addr ∧ v.stopped = some r ∧ r.code = code ∧ r.instr = t.addr ∧ r.lanes = w.path

/-! ### Translation and engines -/

/-- An access of an engine is answered by the caches at a local page. -/
def CacheHit (s : State) (core fn : Nat) (secure : Bool) (va kind pa : Nat) : Prop :=
  va < 2 ^ 52 ∧ ∃ e a, s.tlbLookup core fn va kind = some e ∧ s.judge secure kind (e.pa + (va - e.va)) e.attr = .ok pa a ∧ a.fabric = false

/-- No walk is made for an engine's operation. -/
abbrev NoWalk (s : State) (id : Nat) : Prop := ∀ x ∈ s.walks, x.who ≠ .engine id

/-- No byte of a range is poisoned. -/
abbrev Clean (s : State) (a n : Nat) : Prop := ∀ i, i < n → s.poisoned (a + i) = false

/-- No copy owns a line of n bytes (04 R86). -/
abbrev Unheld (s : State) (pa n : Nat) : Prop := rangeHeld s none pa n = false

/-- An engine reads n bytes of one page. -/
def EngineReads (s : State) (core fn : Nat) (secure : Bool) (id va n pa : Nat) : Prop :=
  0 < n ∧ va % 2 ^ 16 + n ≤ 2 ^ 16 ∧ CacheHit s core fn secure va 0 pa ∧ NoWalk s id ∧ Clean s pa n ∧ Unheld s pa n

/-- An engine writes n bytes of one page. -/
def EngineWrites (s : State) (core fn : Nat) (secure : Bool) (id va n pa : Nat) : Prop :=
  0 < n ∧ va % 2 ^ 16 + n ≤ 2 ^ 16 ∧ CacheHit s core fn secure va 1 pa ∧ NoWalk s id ∧ Unheld s pa n

/-- The warp a walk is made for knows the outcome. -/
def Knows (t : State) (core slot : Nat) (x : Walk) (r : Xlate) : Prop :=
  ∃ w, t.warp? core slot = some w ∧ w.xl.find? (fun y => y.1 == pageOf x.va && y.2.1 == x.kind) = some (pageOf x.va, x.kind, r)

/-- A function's request queue: 256 entries of 32 bytes (25 R433). -/
def queueBase (s : State) (fn : Nat) : Nat := fld (s.reg (ctxReg fn 6)) 31 13 * 2 ^ 13 + fld (s.reg (ctxReg fn 7)) 15 0 * 2 ^ 32

/-- From s to t only BAR0 words changed, and none but those listed. -/
def OnlyBar0 (offs : List Nat) (s t : State) : Prop := { t with bar0 := s.bar0 } = s ∧ ∀ o, o ∉ offs → t.reg o = s.reg o

/-- From s to t no BAR0 word changed but those listed. -/
def Bar0Keeps (offs : List Nat) (s t : State) : Prop := ∀ o, o ∉ offs → t.reg o = s.reg o

/-- No line of a core's L1 is dirty. -/
abbrev L1Clean (s : State) (core : Nat) : Prop := ∀ p ∈ (s.core core).l1, p.2.dirty = 0

/-- A release has nothing to wait for: the accesses below its bounds are performed, the core's L1 is clean, and nothing
that it wrote back waits at a home (05 R101, 04 R86). -/
abbrev Settled (s : State) (core : Nat) (rels : List (Nat × Nat)) : Prop :=
  drained s core rels = true ∧ L1Clean s core ∧ wbWaits s core = false

/-- The release of an executing instruction has nothing to wait for. -/
abbrev Entry.Settled (en : Entry) : Prop := Machine.Settled en.s en.c.core (relBounds en.s en.c.members)

/-! ### Faults, ends, pushes -/

/-- A leaf takes one more task of a class at once: no program runs, it is enabled with room, ranks nothing, maps the
class to itself and pre-empts for no push. -/
structure LeafTakes (s : State) (t k cls : Nat) : Prop where
  idle   : s.jobs = []
  on     : descOn s t true k = true
  room   : treeRoom s t true k = true
  plain  : (s.reg (leafReg t k 2)).getLsbD 31 = false
  direct : (s.reg (leafReg t k (8 + cls % 8))).getLsbD 31 = false
  quiet  : fld (s.reg (leafReg t k 1)) 15 0 = 0

/-- A field of the bytes of a record. -/
def bytesField (l : List Byte) (o n : Nat) : Nat := ofBytes ((l.drop o).take n)

/-- A task record of 64 bytes at va can be read at pa and its status word written at ps, it is well formed, and it
names a launch leaf that takes it (17 R353 to R355, 22 R384). -/
structure Pushable (s : State) (core fn : Nat) (secure : Bool) (va target pa ps : Nat) (window : Bool) : Prop where
  reads  : EngineReads s core fn secure s.nextId va 64 pa
  status : CacheHit s core fn secure (va + 56) 1 ps ∧ Unheld s ps 4
  kind   : window = true ∨ bytesField (s.bytesAt pa 64) 0 1 = 0
  tenant : (if window = true ∧ fn ≠ 0 then smGetD s.cfg.tenants 0 fn else bytesField (s.bytesAt pa 64) 2 2) < 4096
  count  : bytesField (s.bytesAt pa 64) 12 4 ≤ 8
  names  : nfld target 31 11 = 0 ∧ nfld target 10 10 = 1 ∧ nfld target 8 0 = 0
  leaf   : LeafTakes s (nfld target 9 9) 0 0

/-- From s to t a record's task was queued in the launch leaf it names, its launch is known, and its status word
reads 1; no other byte of memory changed. -/
def Pushed (s t : State) (fn target pa ps : Nat) : Prop :=
  let f := bytesField (s.bytesAt pa 64)
  (∃ x ∈ t.queue (nfld target 9 9) true 0, ∃ id l, x.body = .launch id ∧ t.launch? id = some l ∧ l.addr = f 48 8 ∧ l.fn = fn ∧
    x.cls = f 1 1 ∧ x.flow = f 4 4 ∧ x.length = f 8 4 ∧ x.stCount = f 12 4 ∧ x.deadline = f 16 8 ∧ x.user0 = f 24 8 ∧ x.user1 = f 32 8 ∧
    x.stAddr = f 40 8) ∧
  t.bytesAt ps 4 = toBytes 4 1 ∧ MemoryOutside s t ps 4

/-! ### Matrix and copy engines -/

/-- From s to t a tile task of the issuing set waits in the core's matrix leaf, the tiles counter of every warp of the
set has risen (07 R150), and no register, block or byte of memory changed. -/
def TilePushed (en : Entry) (t : State) (slot length : Nat) (k : TileKind) (rel : Bool) : Prop :=
  (((setMembers en.s en.c).map (·.1)).Nodup → ∀ q ∈ setMembers en.s en.c, ∀ w, en.s.warp? en.c.core q.1 = some w →
      ∃ v, t.warp? en.c.core q.1 = some v ∧ v.tiles = w.tiles + 1) ∧
    KeepsRegs en.c.core en.s t ∧ t.mem = en.s.mem ∧ ∃ y ∈ t.queue (towerOf en.c.core) true (matrixLeaf en.c.core),
    y.kind = 1 ∧ y.length = length ∧ y.origin = en.c.core ∧ y.fn = en.c.b.fn ∧ y.cls = en.c.b.cls ∧
    ∃ r, y.body = .tile { core := en.c.core, block := en.c.bi, set := (en.c.b.setOf en.c.w.num).elim 8 (·.1), slot := slot, kind := k
                          members := setMembers en.s en.c, eOnce := en.c.e, iaddr := en.c.addr, rels := r, fresh := false } ∧
      r.map (·.1) = (if rel then en.c.members.map (·.1) else []) ∧ ∀ p ∈ r, en.s.nextId ≤ p.2

/-- The matrix slot i is held by the issuing block, no task of it waits to be pushed, and the core's matrix leaf takes
its task (07 R149, R150). -/
def SlotReady (en : Entry) (i : Nat) : Prop :=
  (∃ m, (en.s.core en.c.core).slots[i]? = some m ∧ m.state = 1 ∧ m.owner = en.c.bi) ∧ slotWaits en.s en.c.core i = false ∧
  LeafTakes en.s (towerOf en.c.core) (matrixLeaf en.c.core) en.c.b.cls

/-- From s to t a copy is in progress with its first segment in the core's copy leaf; no register, block or byte of
memory changed. -/
def CopyBegun (en : Entry) (t : State) (k : CopyKind) (dst bytes segMax : Nat) : Prop :=
  Raises en t .copies ∧ KeepsRegs en.c.core en.s t ∧ t.mem = en.s.mem ∧ ∃ c ∈ t.copies, ∃ y ∈ t.queue (towerOf en.c.core) true (copyLeaf en.c.core),
    c.kind = k ∧ c.dst = dst ∧ c.bytes = bytes ∧ c.segMax = segMax ∧ c.members = en.c.members ∧ c.core = en.c.core ∧ c.block = en.c.bi ∧
    c.retired = 0 ∧ y.kind = 2 ∧ y.body = .seg c.id 0 (min bytes segMax)

/-- The copy engine's translations of a list of global addresses for writing are all cached, and the core's L1 holds
nothing to write back first (05 R110). -/
def DestsCached (s : State) (core fn : Nat) (l : List Nat) : Prop :=
  NoWalk s (s.nextId + 1) ∧ L1Clean s core ∧ ∀ a ∈ l, (∃ pa, CacheHit s core fn (s.copySecure core) a 1 pa) ∧
    pageFabric s core fn (s.copySecure core) a = false ∧ pageFabric s core fn (s.copySecure core) (pageOf a * 2 ^ 16) = false

/-- A set- or warp-scope instruction changes one ring of the block, or its layouts, and nothing else but places. -/
def BlockChanges (en : Entry) (t : State) (f : Block → Block) : Prop :=
  OnlyWarps en.c.core en.s t ∧ (∀ sl, (t.warp? en.c.core sl).map Warp.still = (en.s.warp? en.c.core sl).map Warp.still) ∧
  (t.block en.c.core en.c.bi).still = (f (en.s.block en.c.core en.c.bi)).still ∧
  ∀ b, b ≠ en.c.bi → (t.block en.c.core b).still = (en.s.block en.c.core b).still

/-- The block's ring of a number becomes r. -/
def withRing (k : Nat) (r : Ring) (b : Block) : Block := { b with rings := smPut b.rings k r }

/-- A copy of scratchpad pieces, its one segment ready to run to its end with nothing in its way. -/
structure ScratchCopy (s : State) (core bi n : Nat) (ps : List (Nat × Nat)) (g : SegRun) (c : CopyOp) : Prop where
  seg     : (s.core core).segs.find? (fun h => h.task.id == g.task.id) = some g
  copy    : s.copy? g.copy = some c
  ready   : segReady s core g = true
  kind    : c.kind = .cpy n true true ps ∧ 0 < n
  place   : c.core = core ∧ c.block = bi ∧ c.id = g.copy
  whole   : g.lo = 0 ∧ g.hi = c.bytes ∧ c.bytes = n * ps.length ∧ c.retired = 0 ∧ g.stop = false
  fresh   : c.dead = false ∧ c.fail = none ∧ c.oob = false ∧ c.did = []
  saving  : (s.block core bi).saving = none
  clean   : L1Clean s core ∧ ∀ p ∈ ps, smGet? (s.block core bi).scrBad (p.2 / 128) = none
  unowned : ∀ e ∈ s.owners, e.2.copy ≠ some c.id ∧ e.2.queue.contains c.id = false
  apart   : ∀ (i j : Nat) (p q : Nat × Nat), ps[i]? = some p → ps[j]? = some q → i ≠ j → p.1 + n ≤ q.1 ∨ q.1 + n ≤ p.1

/-! ### The fabric -/

/-- A word has landed in private register d of every lane of every member that still awaits it: `base` is the first
register of the result, `id` the operation it comes from, none where the issue itself brings it (03 R53). -/
def Lands (s t : State) (core : Nat) (members : List (Nat × Mask)) (id : Option Nat) (base d : Nat) (x : Word) : Prop :=
  (members.map (·.1)).Nodup → ∀ p ∈ members, ∀ w, s.warp? core p.1 = some w → d < 512 → d < privRegs (s.block core w.block) w →
    (∀ n, id = some n → (base, n) ∈ w.outst) → ∃ v, t.warp? core p.1 = some v ∧ ∀ l, l < 32 → inMask p.2 l → smGetD v.v 0 (32 * d + l) = x

/-- A fabric instruction leaves memory and every block as they were. -/
def KeepsMemory (core : Nat) (s t : State) : Prop := t.mem = s.mem ∧ ∀ b, (t.block core b).still = (s.block core b).still

/-- A packet reaches an enabled port for an enabled counter with its key, incarnation and offset in order: pa is where
its n bytes go, where no copy owns a line (27 R453, R454, 08 R178, 04 R86). -/
structure PacketLands (s : State) (port counter key inc off n pa : Nat) : Prop where
  port_on : s.portOn port = true
  ctr_on  : ctrOn s counter = true ∧ fld (s.reg (ctrReg counter 0)) 15 0 = key
  going   : (s.ctr counter).failed = false ∧ (inc = (s.ctr counter).inc ∨ newer inc (s.ctr counter).inc = true)
  window  : inWindow s port off n = some pa ∧ Unheld s pa n
  counter_lt : counter < 16384

/-- An answer reaches an enabled port and names a record of the sender. -/
def Answers (s : State) (port key : Nat) (p : CtlPacket) (r : SendRec) : Prop :=
  s.portOn port = true ∧ ctlRecord s port p = some (key, r) ∧ smGet? s.sends key = some r ∧ p.inc = r.inc ∧ r.failed = false

/-! ### The host, the tree and the device -/

/-- A rank instruction completes: register d of the running program holds v and the program stands at its next word;
nothing else changed (23 R411). -/
def RankGives (i : Instr) (s : State) (j : RankJob) (js : List RankJob) (d : Reg4) (v : Word) : Prop :=
  ∃ k, exec i s = .next { s with jobs := k :: js } ∧ k.q' d = v ∧ (∀ r, r ≠ d → k.q' r = j.q' r) ∧
    { k with q := j.q } = { j with pc := j.pc + 1, left := j.left - 1 }

/-- A leaf's pushes are placed by rank alone: it runs no program and pre-empts for none. -/
abbrev Plain (s : State) (t : Nat) (leaf : Bool) (k : Nat) : Prop :=
  (s.reg (descReg t leaf k 2)).getLsbD 31 = false ∧ (leaf = true → fld (s.reg (leafReg t k 1)) 15 0 = 0)

/-- A function's guest-physical address, translated by stage 2 for its aperture: a is the address of the leaf entry,
pa that of the byte. -/
structure ApertureAt (s : State) (fn gpa kind a pa : Nat) : Prop where
  fn_ok : isFn fn = true
  idle  : NoWalk s (hostEngine fn gpa)
  range : gpa < min (bar2Size s fn) (2 ^ 48)
  leaf  : ∃ e l at', runStage2 s (s.fnSecure fn) fn gpa = .leaf e a l ∧ entBit e 15 = false ∧ pa = leafPa e l gpa ∧
    s.kind pa ≠ .unmapped ∧ s.judge (s.fnSecure fn) kind pa (combine e e true) = .ok pa at'

/-- No access of a function's aperture waits, and no partition change runs. -/
abbrev ApertureFree (s : State) (fn : Nat) : Prop := partSt s = 0 ∧ ∀ i ∈ s.hostq, hostFn i ≠ some fn

/-- The save list of the host's request can be read: n areas, the next one to take, and their addresses; pw is where
its header is written (22 R395). -/
structure SaveList (s : State) (pw n next : Nat) (l : List Nat) : Prop where
  header : ∃ pa, EngineReads s 512 0 (s.fnSecure 0) ctxEngine (s.reg64 (ctxswReg 0)) 64 pa ∧
    bytesField (s.bytesAt pa 64) 0 4 = n ∧ bytesField (s.bytesAt pa 64) 4 4 = next
  writes : CacheHit s 512 0 (s.fnSecure 0) (s.reg64 (ctxswReg 0)) 1 pw
  areas  : ∃ pa, EngineReads s 512 0 (s.fnSecure 0) ctxEngine (s.reg64 (ctxswReg 0) + 64) (8 * n) pa ∧
    l = (List.range n).map fun k => bytesField (s.bytesAt pa (8 * n)) (8 * k) 8

/-- A launch as it opens: checked before, or its kernel descriptor of 128 bytes without an init list is read and
passes (22 R387). -/
def Opens (s : State) (tower id : Nat) (l l' : Launch) : Prop :=
  (l.checked = true ∧ l' = l) ∨
  (l.checked = false ∧ ∃ pd, EngineReads s (512 + tower) l.fn (s.fnSecure l.fn) id (l.field 8 8) 128 pd ∧
    initLen (s.bytesAt pd 128) = 0 ∧ l' = { l with desc := s.bytesAt pd 128, checked := true } ∧ launchBad s l' = false)

end Sys2Proof.Machine
end

