-- ==== Sys2Proof/Certificates/Slice0/Obligations.lean ====
section
/-!
DEFINITION. The statements for the provers.
-/
open Sys2Proof Sys2Proof.Machine

/-! ### Integer and logic instructions (12) -/

/-- 12 R233 to R241: the two's-complement sum, difference, product, high product, minimum, maximum, multiply-add,
truncated quotient and remainder, absolute value and negation of every lane, the sum with carry and its carry out, a
comparison, a choice, a copy and an address complete: they reach d or a predicate, and nothing else changes. -/
def Obligations.IntegerArithmetic : Prop :=
  ∀ (x : Z1) (s : State) (en : Entry),
    let sat (z : Int) : Int := if fld x.mod 0 0 = 1 then satI z (loT x.ty) (hiT x.ty) else z
    let lim : Bool := x.ty.signed
    (entry .iadd x s = some en → Gives (.iadd x) s en (clks en .iadd x 4 6) x.d.toNat (words x.ty)
      (fun l => wrT x.ty (sat (en.a x l + en.b x l))) [] 0) ∧
    (entry .isub x s = some en → Gives (.isub x) s en (clks en .isub x 4 6) x.d.toNat (words x.ty)
      (fun l => wrT x.ty (sat (en.a x l - en.b x l))) [] 0) ∧
    (entry .imul x s = some en → Gives (.imul x) s en (clks en .imul x 6 8) x.d.toNat (words x.ty)
      (fun l => wrT x.ty (en.a x l * en.b x l)) [] 0) ∧
    (entry .imulh x s = some en → Gives (.imulh x) s en (clks en .imulh x 6 8) x.d.toNat (words x.ty)
      (fun l => wrT x.ty (en.a x l * en.b x l / (2 ^ x.ty.width : Nat))) [] 0) ∧
    (entry .imad x s = some en → Gives (.imad x) s en (clks en .imad x 6 8) x.d.toNat (words x.ty)
      (fun l => wrT x.ty (en.a x l * en.b x l + en.cc x l)) [] 0) ∧
    (entry .idiv x s = some en → Gives (.idiv x) s en (clks en .idiv x 24 40) x.d.toNat (words x.ty)
      (fun l => wrT x.ty (if en.b x l = 0 then (if lim then -1 else hiT x.ty)
        else if lim ∧ en.a x l = loT x.ty ∧ en.b x l = -1 then loT x.ty else (en.a x l).tdiv (en.b x l))) [] 0) ∧
    (entry .irem x s = some en → Gives (.irem x) s en (clks en .irem x 24 40) x.d.toNat (words x.ty)
      (fun l => wrT x.ty (if en.b x l = 0 then en.a x l
        else if lim ∧ en.a x l = loT x.ty ∧ en.b x l = -1 then 0 else (en.a x l).tmod (en.b x l))) [] 0) ∧
    (entry .imin x s = some en → Gives (.imin x) s en (clks en .imin x 4 6) x.d.toNat (words x.ty)
      (fun l => wrT x.ty (if en.a x l ≤ en.b x l then en.a x l else en.b x l)) [] 0) ∧
    (entry .imax x s = some en → Gives (.imax x) s en (clks en .imax x 4 6) x.d.toNat (words x.ty)
      (fun l => wrT x.ty (if en.a x l ≤ en.b x l then en.b x l else en.a x l)) [] 0) ∧
    (entry .iabs x s = some en → Gives (.iabs x) s en (clks en .iabs x 4 6) x.d.toNat (words x.ty)
      (fun l => wrT x.ty (sat ((en.a x l).natAbs : Int))) [] 0) ∧
    (entry .ineg x s = some en → Gives (.ineg x) s en (clks en .ineg x 4 6) x.d.toNat (words x.ty)
      (fun l => wrT x.ty (sat (-en.a x l))) [] 0) ∧
    (entry .iaddc x s = some en →
      let cin (l : Nat) : Nat := if fld x.mod 6 6 = 1 ∧ readPred en.c.w (fld x.mod 5 3) l = true then 1 else 0
      Gives (.iaddc x) s en (clks en .iaddc x 4 6) x.d.toNat 1
        (fun l => [BitVec.ofNat 32 (en.ua x 1 l + en.ub x 1 l + cin l)])
        [(fld x.mod 2 0, fun l => decide (2 ^ 32 ≤ en.ua x 1 l % 2 ^ 32 + en.ub x 1 l % 2 ^ 32 + cin l))] 0) ∧
    (entry .icmp x s = some en → GivesPreds (.icmp x) s en (clks en .icmp x 4 6)
      [(fld x.mod 2 0, fun l => match fld x.mod 6 3 with
        | 0 => en.a x l == en.b x l
        | 1 => en.a x l != en.b x l
        | 2 => decide (en.a x l < en.b x l)
        | 3 => decide (en.a x l ≤ en.b x l)
        | 4 => decide (en.b x l < en.a x l)
        | _ => decide (en.b x l ≤ en.a x l))] 0) ∧
    (entry .sel x s = some en → Gives (.sel x) s en (clks en .sel x 4 6) x.d.toNat (words x.ty)
      (fun l => wrT x.ty (if readPred en.c.w (fld x.mod 2 0) l = decide (fld x.mod 3 3 = 1)
        then en.ub x (words x.ty) l else en.ua x (words x.ty) l : Nat)) [] 0) ∧
    (entry .mov x s = some en → Gives (.mov x) s en (clks en .mov x 4 6) x.d.toNat (words x.ty)
      (fun l => wrT x.ty (if immB x then immNat x (words x.ty) else en.ua x (words x.ty) l : Nat)) [] 0) ∧
    (entry .lea x s = some en → Gives (.lea x) s en (clks en .lea x 4 6) x.d.toNat (words x.ty)
      (fun l => wrT x.ty ((en.ua x (words x.ty) l : Int) +
        (if fld x.mod 3 3 = 1 then sextN 32 (en.ub x 1 l) else (en.ub x 1 l : Int)) * (2 ^ fld x.mod 2 0 : Nat))) [] 0)

/-- 12 R242 to R252: the bit operations, the shifts (a count at or above the width leaves nothing of the value,
or its sign), the field extraction and insertion, the counts over one element, the byte permutation, the predicate and
register transfers, the byte dot product and the saturating pack complete, and nothing else changes. -/
def Obligations.LogicAndBits : Prop :=
  ∀ (x : Z1) (s : State) (en : Entry),
    let n := words x.ty
    let w := x.ty.width
    let el (l : Nat) : Nat := en.ua x n l % 2 ^ w
    (entry .and x s = some en → Gives (.and x) s en (clks en .and x 4 6) x.d.toNat n
      (fun l => wrT x.ty (en.ua x n l &&& en.ub x n l : Nat)) [] 0) ∧
    (entry .or x s = some en → Gives (.or x) s en (clks en .or x 4 6) x.d.toNat n
      (fun l => wrT x.ty (en.ua x n l ||| en.ub x n l : Nat)) [] 0) ∧
    (entry .xor x s = some en → Gives (.xor x) s en (clks en .xor x 4 6) x.d.toNat n
      (fun l => wrT x.ty (en.ua x n l ^^^ en.ub x n l : Nat)) [] 0) ∧
    (entry .andn x s = some en → Gives (.andn x) s en (clks en .andn x 4 6) x.d.toNat n
      (fun l => wrT x.ty (en.ua x n l &&& (2 ^ w - 1 - en.ub x n l) : Nat)) [] 0) ∧
    (entry .not x s = some en → Gives (.not x) s en (clks en .not x 4 6) x.d.toNat n
      (fun l => wrT x.ty ((2 ^ w - 1 : Nat) - en.a x l)) [] 0) ∧
    (entry .shl x s = some en → Gives (.shl x) s en (clks en .shl x 4 6) x.d.toNat n
      (fun l => wrT x.ty (if w ≤ en.ub x 1 l then 0 else en.ua x n l * 2 ^ en.ub x 1 l % 2 ^ w : Nat)) [] 0) ∧
    (entry .shr x s = some en → Gives (.shr x) s en (clks en .shr x 4 6) x.d.toNat n
      (fun l => wrT x.ty (if w ≤ en.ub x 1 l then 0 else en.ua x n l / 2 ^ en.ub x 1 l : Nat)) [] 0) ∧
    (entry .sar x s = some en → Gives (.sar x) s en (clks en .sar x 4 6) x.d.toNat n
      (fun l => wrT x.ty (if w ≤ en.ub x 1 l then (if sextN w (en.ua x n l) < 0 then 2 ^ w - 1 else 0)
        else truncN w (sextN w (en.ua x n l) / (2 ^ en.ub x 1 l : Nat)) : Nat)) [] 0) ∧
    (entry .rot x s = some en → Gives (.rot x) s en (clks en .rot x 4 6) x.d.toNat n
      (fun l => wrT x.ty ((en.ua x n l * 2 ^ (en.ub x 1 l % w) % 2 ^ w) ||| (en.ua x n l / 2 ^ (w - en.ub x 1 l % w)) : Nat)) [] 0) ∧
    (entry .fshf x s = some en → Gives (.fshf x) s en (clks en .fshf x 4 6) x.d.toNat 1
      (fun l =>
        let v := en.ua x 1 l * 2 ^ 32 + en.ub x 1 l
        let k := min (en.uc x 1 l) 32
        [BitVec.ofNat 32 (if fld x.mod 0 0 = 1 then v * 2 ^ k / 2 ^ 32 else v / 2 ^ k)]) [] 0) ∧
    (entry .bfx x s = some en → Gives (.bfx x) s en (clks en .bfx x 4 6) x.d.toNat n
      (fun l =>
        let pos := en.ub x 1 l % 256
        let len := en.uc x 1 l % 256
        let k := min len (w - pos)
        let f := en.ua x n l / 2 ^ pos % 2 ^ k
        wrT x.ty (if w ≤ pos ∨ len = 0 then 0 else if x.ty.signed then sextN k f else (f : Int))) [] 0) ∧
    (entry .bfi x s = some en → Gives (.bfi x) s en (clks en .bfi x 4 6) x.d.toNat n
      (fun l => wrT x.ty (bfiN w (en.ua x n l) (en.ub x n l) (en.uc x 1 l) : Nat)) [] 0) ∧
    (entry .clz x s = some en → Gives (.clz x) s en (clks en .clz x 4 6) x.d.toNat 1
      (fun l => [BitVec.ofNat 32 (if el l = 0 then x.ty.width else x.ty.width - 1 - (el l).log2)]) [] 0) ∧
    (entry .ffs x s = some en → Gives (.ffs x) s en (clks en .ffs x 4 6) x.d.toNat 1
      (fun l => [BitVec.ofNat 32 (ffsN x.ty.width (el l))]) [] 0) ∧
    (entry .popc x s = some en → Gives (.popc x) s en (clks en .popc x 4 6) x.d.toNat 1
      (fun l => [BitVec.ofNat 32 (((List.range x.ty.width).map fun i => (el l >>> i) % 2).sum)]) [] 0) ∧
    (entry .brev x s = some en → Gives (.brev x) s en (clks en .brev x 4 6) x.d.toNat (words x.ty)
      (fun l => wrT x.ty (brevN x.ty.width (el l) : Nat)) [] 0) ∧
    (entry .prmt x s = some en → Gives (.prmt x) s en (clks en .prmt x 4 6) x.d.toNat 1
      (fun l => [BitVec.ofNat 32 (prmtN (en.ua x 1 l) (en.ub x 1 l) (en.uc x 1 l))]) [] 0) ∧
    (entry .pset x s = some en → GivesPreds (.pset x) s en (clks en .pset x 4 6)
      [(fld x.mod 2 0, fun l =>
        x.mod.getLsbD (3 + 2 * (readPred en.c.w (fld x.a 2 0) l != decide (fld x.a 3 3 = 1)).toNat
          + (readPred en.c.w (fld x.b 2 0) l != decide (fld x.b 3 3 = 1)).toNat))] 0) ∧
    (entry .p2v x s = some en → Gives (.p2v x) s en (clks en .p2v x 4 6) x.d.toNat 1
      (fun l => [BitVec.ofNat 32 (((List.range 8).map fun k => (readPred en.c.w k l).toNat * 2 ^ k).sum)]) [] 0) ∧
    (entry .v2p x s = some en → GivesPreds (.v2p x) s en (clks en .v2p x 4 6)
      (((List.range 7).filter fun k => x.mod.getLsbD k).map fun k => (k, fun l => (en.ua x 1 l).testBit k)) 0) ∧
    (entry .idot4 x s = some en → Gives (.idot4 x) s en (clks en .idot4 x 6 8) x.d.toNat (words x.ty)
      (fun l =>
        let byte (sg : Bool) (v j : Nat) : Int := if sg then sextN 8 (v / 2 ^ (8 * j) % 256) else (v / 2 ^ (8 * j) % 256 : Nat)
        let sum := rdT x.ty (en.uc x 1 l) + ((List.range 4).map fun j =>
          byte (fld x.mod 0 0 = 1) (en.ua x 1 l) j * byte (fld x.mod 1 1 = 1) (en.ub x 1 l) j).sum
        wrT x.ty (if fld x.mod 2 2 = 1 then satI sum (loT x.ty) (hiT x.ty) else sum)) [] 0) ∧
    (entry .ipack x s = some en → Gives (.ipack x) s en (clks en .ipack x 4 6) x.d.toNat 1
      (fun l =>
        let rd (v : Nat) : Int := if fld x.mod 0 0 = 1 then (v : Int) else sextN 32 v
        let p (v : Nat) : Nat := truncN x.ty.width (satI (rd v) (loT x.ty) (hiT x.ty))
        [BitVec.ofNat 32 (if x.ty.width = 16 then p (en.ua x 1 l) + 2 ^ 16 * p (en.ub x 1 l)
          else p (en.ua x 1 l) + 2 ^ 8 * p (en.ub x 1 l) + 2 ^ 16 * ((if isO x ∧ x.ty.width = 8 then en.uc x 1 l else 0) % 2 ^ 16))]) [] 0)

/-! ### Floating-point instructions (13) -/

/-- 13 R256 to R260, R272: the rounded sum, difference, product, fused multiply-add, minimum, maximum, scaling
and dot product, at lane scope each lane's own and at warp scope the lowest lane's for all, and their flags.
Rests on the model's own reading or choice of log 23 where the manual leaves that open. -/
def Obligations.FloatArithmetic : Prop :=
  ∀ (x : Z1) (s : State) (en : Entry),
    let f := fmtOf x.ty
    let mode := fld x.mod 1 0
    let L (o : Op) (n : Nat) : Nat := clks en o x n n
    (entry .fadd x s = some en → GivesFp (.fadd x) s en x (L .fadd 4) (en.elems x fun a b _ => sumF f mode [decodeF f a, decodeF f b])) ∧
    (entry .fsub x s = some en → GivesFp (.fsub x) s en x (L .fsub 4) (en.elems x fun a b _ => sumF f mode [decodeF f a, (decodeF f b).flip])) ∧
    (entry .fmul x s = some en → GivesFp (.fmul x) s en x (L .fmul 4) (en.elems x fun a b _ => mulF f mode a b)) ∧
    (entry .ffma x s = some en → GivesFp (.ffma x) s en x (L .ffma 4) (en.elems x fun a b c => fmaF f mode a b c)) ∧
    (entry .fmin x s = some en → GivesFp (.fmin x) s en x (L .fmin 4) (en.elems x fun a b _ => minmaxF f false a b)) ∧
    (entry .fmax x s = some en → GivesFp (.fmax x) s en x (L .fmax 4) (en.elems x fun a b _ => minmaxF f true a b)) ∧
    (entry .fscale x s = some en → GivesFp (.fscale x) s en x (L .fscale 4)
      fun l => perElem x.ty fun i => scaleF f mode (elem x.ty (en.ua x 1 l) i) (sextN 32 (en.ub x 1 l))) ∧
    (entry .fdot2 x s = some en → GivesFp (.fdot2 x) s en x (L .fdot2 6)
      fun l => fdot2 x.ty mode (en.ua x 1 l) (en.ub x 1 l) (en.uc x 1 l))

/-- 13 R261 to R263, R266 to R271: comparison, classification, rounding to an integer, the conversions among
integers, floats and the narrow formats of a valid descriptor, and the better of two candidates. -/
def Obligations.FloatCompareAndConvert : Prop :=
  ∀ (x : Z1) (s : State) (en : Entry),
    let f := fmtOf x.ty
    let mode := fld x.mod 1 0
    let g := inFmt (fld x.mod 3 2)
    let nf := smGetD en.c.b.nf 0 (fld x.mod 6 4)
    let L (o : Op) : Nat := clks en o x 4 4
    (entry .fcmp x s = some en →
      let r (l : Nat) : Bool × BitVec 5 := fcmpF f (fld x.mod 6 3) (elem x.ty (en.ua x 1 l) 0) (elem x.ty (en.ub x 1 l) 0)
      GivesPreds (.fcmp x) s en (L .fcmp) (if en.c.e = 0 then [] else [(fld x.mod 2 0, fun l => (r (srcLane en.c l)).1)])
        (if en.c.e = 0 then 0 else flagsOf en.c fun l => (r l).2)) ∧
    (entry .fclass x s = some en → GivesFp (.fclass x) s en x (L .fclass) (en.elems x fun a _ _ => (classF f a, 0))) ∧
    (entry .frnd x s = some en → GivesFp (.frnd x) s en x (L .frnd) (en.elems x fun a _ _ => frndF f mode (fld x.mod 2 2 = 1) a)) ∧
    (entry .f2i x s = some en → Gives (.f2i x) s en (L .f2i) x.d.toNat (words x.ty)
      (fun l => wrT x.ty (f2i x.ty mode (decodeF g (en.ua x 1 (srcLane en.c l) % 2 ^ g.width))).1) []
      (if en.c.e = 0 then 0 else flagsOf en.c fun l => (f2i x.ty mode (decodeF g (en.ua x 1 l % 2 ^ g.width))).2)) ∧
    (entry .i2f x s = some en → GivesFp (.i2f x) s en x (L .i2f) fun l =>
      let t := inTy (fld x.mod 4 2)
      let z := rdT t (en.ua x (words t) l)
      roundF f mode (z < 0) z.natAbs 0) ∧
    (entry .f2f x s = some en → GivesFp (.f2f x) s en x (L .f2f) fun l =>
      perElem x.ty fun i => roundV f mode (decodeF g ((if i = 0 then en.ua x 1 l else en.ub x 1 l) % 2 ^ g.width))) ∧
    (entry .f2n x s = some en → nfValid nf = true → GivesFp (.f2n x) s en x (L .f2n) fun l =>
      toNarrow nf (decodeF g (en.ua x 1 l % 2 ^ g.width))) ∧
    (entry .n2f x s = some en → nfValid nf = true → GivesFp (.n2f x) s en x (L .n2f) fun l =>
      roundV f mode (nfValue nf (en.ua x 1 l % 2 ^ nfW nf))) ∧
    (entry .fmaxi x s = some en →
      let k := if x.ty = .f32 then 2 else 1
      let w := if x.ty = .f32 then 32 else 16
      Gives (.fmaxi x) s en (L .fmaxi) x.d.toNat k
        (fun l =>
          let a := en.ua x k (srcLane en.c l)
          let b := en.ub x k (srcLane en.c l)
          (halves (if beats f (b % 2 ^ w) (b / 2 ^ w) (a % 2 ^ w) (a / 2 ^ w) then b else a)).take k) [] 0)

/-- 13 R264, R265: where the partition's special-function unit is free, each special function fixes its correctly
rounded value now, counts as a load in every member, and changes no register until it lands.
Rests on the model's own reading or choice of log 18 where the manual leaves that open. -/
def Obligations.SpecialFunctions : Prop :=
  ∀ (x : Z1) (s : State) (en : Entry), en.Fair → sfuBusy en.c en.s = false →
    let v (f : FFmt → Nat → FV → FV → Nat × BitVec 5) (l : Nat) : Nat × BitVec 5 :=
      f (fmtOf x.ty) (fld x.mod 1 0) (decodeF (fmtOf x.ty) (elem x.ty (en.ua x 1 l) 0)) (decodeF (fmtOf x.ty) (elem x.ty (en.ub x 1 l) 0))
    (entry .frcp x s = some en → GivesLater (.frcp x) s en x (v fun f m a _ => divF f m (.fin false 1 0) a)) ∧
    (entry .frsq x s = some en → GivesLater (.frsq x) s en x (v fun f m a _ => rsqF f m a)) ∧
    (entry .fsqrt x s = some en → GivesLater (.fsqrt x) s en x (v fun f m a _ => sqrtF f m a)) ∧
    (entry .fdiv x s = some en → GivesLater (.fdiv x) s en x (v divF)) ∧
    (entry .fexp2 x s = some en → GivesLater (.fexp2 x) s en x (v fun f m a _ => exp2F f m a)) ∧
    (entry .flog2 x s = some en → GivesLater (.flog2 x) s en x (v fun f m a _ => log2F f m a)) ∧
    (entry .fsinp x s = some en → GivesLater (.fsinp x) s en x (v fun f m a _ => sinpF f m a)) ∧
    (entry .fcosp x s = some en → GivesLater (.fcosp x) s en x (v fun f m a _ => cospF f m a)) ∧
    (entry .ftanh x s = some en → GivesLater (.ftanh x) s en x (v fun f m a _ => tanhF f m a))

/-! ### Cross-lane instructions (14) -/

/-- 14 R275 to R277, R282, R283: values from the quad and from other lanes, votes, matches and the election; a
lane of E outside the member mask sets xstat.maskx (03 R69).
Rests on the model's own reading or choice of log 16 where the manual leaves that open. -/
def Obligations.CrossLane : Prop :=
  ∀ (x : Z1) (s : State) (en : Entry),
    let n := words x.ty
    let m5 : Mask := if isO x then (if immC x then immOf x.ext else warpVal en.c en.s (cReg x)) else fullMask
    let mV : Mask := if fld x.mod 6 6 = 1 then warpVal en.c en.s x.b.toNat else fullMask
    let mE : Mask := maskB x (fld x.mod 3 3 = 1) en.c en.s
    (entry .qswap x s = some en → Gives (.qswap x) s en (clks en .qswap x 4 4) x.d.toNat n
      (fun l => wrT x.ty (en.ua x n (l ^^^ (fld x.mod 1 0 + 1)) : Nat)) [] 0) ∧
    (entry .qbcast x s = some en → Gives (.qbcast x) s en (clks en .qbcast x 4 4) x.d.toNat n
      (fun l => wrT x.ty (en.ua x n (4 * (l / 4) + fld x.mod 1 0) : Nat)) [] 0) ∧
    (entry .shfl x s = some en → Gives (.shfl x) s (en.masked m5) (clks en .shfl x 6 6) x.d.toNat n
      (fun l => wrT x.ty (if !inMask m5 l then en.ua x n l
        else match shflSrc (fld x.mod 2 0) (32 / 2 ^ fld x.mod 5 3) l (en.ub x 1 l) with
          | none => if fld x.mod 6 6 = 1 then 0 else en.ua x n l
          | some k => if k = l ∨ inMask (m5 &&& en.c.e) k then en.ua x n k
              else if inMask m5 k then 0 else en.ua x n l : Nat)) [] 0) ∧
    (entry .vote x s = some en →
      let v (l : Nat) : Bool := readPred en.c.w (fld x.a 2 0) l != decide (fld x.a 3 3 = 1)
      let f := mV &&& en.c.e
      let yes := maskOf fun l => inMask f l && v l
      (fld x.mod 5 3 < 3 → GivesPreds (.vote x) s (en.masked mV) (clks en .vote x 6 6)
        [(fld x.mod 2 0, fun l => if inMask mV l then
            (match fld x.mod 5 3 with | 0 => yes == f | 1 => yes != 0 | _ => yes == f || yes == 0) else v l)] 0) ∧
      (fld x.mod 5 3 = 3 → Gives (.vote x) s (en.masked mV) (clks en .vote x 6 6) x.d.toNat 1
        (fun l => [if inMask mV l then yes else if v l then laneBit l else 0]) [] 0) ∧
      (3 < fld x.mod 5 3 → Gives (.vote x) s (en.masked mV) (clks en .vote x 6 6) x.d.toNat 1
        (fun l => [if inMask mV l then BitVec.ofNat 32 (popcount 32 yes.toNat) else if v l then 1 else 0]) [] 0)) ∧
    (entry .matchLanes x s = some en →
      let eq (l : Nat) : Mask := maskOf fun j => inMask en.c.e j && en.ua x n j == en.ua x n l
      Gives (.matchLanes x) s en (clks en .matchLanes x 8 8) x.d.toNat 1 (fun l => [eq l]) [(fld x.mod 2 0, fun l => eq l == en.c.e)] 0) ∧
    (entry .elect x s = some en →
      let e := elected (fld x.mod 6 5) (mE &&& en.c.e) (en.c.scal en.s x.a.toNat % 32)
      (fld x.mod 4 4 = 1 → Gives (.elect x) s (en.masked mE) (clks en .elect x 4 4) x.d.toNat 1
        (fun _ => [match e with | some l => BitVec.ofNat 32 l | none => 0xFFFFFFFF]) [(fld x.mod 2 0, fun l => e == some l)] 0) ∧
      (fld x.mod 4 4 ≠ 1 → GivesPreds (.elect x) s (en.masked mE) (clks en .elect x 4 4) [(fld x.mod 2 0, fun l => e == some l)] 0))

/-- 14 R278 to R281: a reduction gives every lane of its mask the operation over the lanes of E in the mask, a
scan the operation over those up to, or before, its own lane; a lane outside the mask gets the identity.
Rests on the model's own reading or choice of log 16 where the manual leaves that open. -/
def Obligations.ReductionsAndScans : Prop :=
  ∀ (x : Z1) (s : State) (en : Entry), en.c.e ≠ 0 →
    let op := fld x.mod 3 0
    let m := maskB x (fld x.mod 4 4 = 1) en.c en.s
    let lanes := maskLanes (m &&& en.c.e)
    (entry .wred x s = some en →
      let r := reduce x.ty op (fld x.mod 6 5) (lanes.map fun l => en.ua x (redWords x) l)
      Gives (.wred x) s (en.masked m) (clks en .wred x 10 10) x.d.toNat (redWords x)
        (fun l => if inMask m l then r.1 else redIdentity x.ty op) [] r.2) ∧
    (entry .wscan x s = some en →
      let r (l : Nat) : List Word × BitVec 5 := if inMask m l then
          reduce x.ty op 0 ((lanes.filter fun j => if fld x.mod 5 5 = 1 then j < l else j ≤ l).map fun j => en.ua x (words x.ty) j)
        else (redIdentity x.ty op, 0)
      Gives (.wscan x) s (en.masked m) (clks en .wscan x 12 12) x.d.toNat (redWords x) (fun l => (r l).1) []
        (((maskLanes en.c.e).map fun l => (r l).2).foldl (· ||| ·) 0))

/-! ### Control instructions (14, 02) -/

/-- 14 R288 to R293, 02 R39: a control transfer records its lanes and targets at issue and changes no register; it
takes effect at its trailer. Displacements count 4 bytes from the transfer's own address, modulo 2^64. -/
def Obligations.ControlTransfers : Prop :=
  ∀ (x : Z1) (s : State) (en : Entry), en.Fair →
    let dest (v : Word) : Nat := (((en.c.addr : Int) + 4 * sextN 32 v.toNat) % (2 ^ 64 : Nat)).toNat
    (entry .bra x s = some en → Notes (.bra x) s en fun w =>
      w.xfer = some (.bra en.c.e (fld x.mod 0 0 = 1) (dest (cmd0 x.ext)) (dest (cmd1 x.ext)))) ∧
    (entry .brx x s = some en → Notes (.brx x) s en fun w =>
      w.xfer = some (.brx en.c.e (fld x.mod 0 0 = 1)
        ((maskLanes en.c.e).map fun l => (l, (((en.c.addr : Int) + sextN 32 (en.ua x 1 l)) % (2 ^ 64 : Nat)).toNat)) (dest (immOf x.ext)))) ∧
    (entry .call x s = some en → Notes (.call x) s en fun w => w.xfer = some (.call x.d.toNat (dest (immOf x.ext)))) ∧
    (entry .ret x s = some en → Notes (.ret x) s en fun w => w.xfer = some (.ret (en.c.scalPair en.s x.a.toNat))) ∧
    (entry .exit x s = some en → Notes (.exit x) s en fun w => w.xfer = some (.exit en.c.e)) ∧
    (entry .loop x s = some en →
      let n := if x.a = 0 then (cmd1 x.ext).toNat else en.c.scal en.s x.a.toNat
      (n = 0 ∨ en.c.w.loops.length < 4) → Notes (.loop x) s en fun w => w.xfer = some (.loop n (dest (cmd0 x.ext)))) ∧
    (entry .lbrk x s = some en → ∀ l rest, en.c.w.loops = l :: rest → en.c.w.stack.length ≤ l.depth →
      Notes (.lbrk x) s en fun w => w.xfer = some .lbrk)

/-- 14 R287, R294, R295, 11 R224: NOP only advances; RUNEND leaves its trailer with its names; WAIT passes once
every counter is at or below its limit; PAUSE records its interval. With no lane in E an instruction only advances, or, where it carries
an acquire or a release, performs that and nothing else (03 R67, 05 R107, 15 R304, 16 R320; 07 R149 and 06 R124 check even then). -/
def Obligations.NopRunendWaitPause : Prop :=
  ∀ (x : Z1) (s : State) (en : Entry), en.Fair →
    (entry .nop x s = some en → ∃ t, exec (.nop x) s = .next t ∧ OnlyPlace en.c.core en.s t ∧
      ∀ w, en.s.warp? en.c.core en.c.slot = some w → w.stack = [] → w.serial = none → w.xfer = none → w.trailer = none →
        en.c.slot ∈ en.all.map (·.1) → (en.all.map (·.1)).Nodup →
        LeaderHas en t fun v => v.pc = en.c.addr + en.c.len ∧ v.next = en.s.now + x.gap.toNat + 1 ∧ v.inRun = true ∧
          v.pos = if w.inRun then w.pos + 1 else 1) ∧
    (entry .runend x s = some en → Notes (.runend x) s en fun w => w.trailer = some
      { addr := en.c.addr, len := en.c.len, issued := en.s.now, gap := x.gap.toNat, giveWay := x.giveWay
        names := ([x.d.toNat, x.a.toNat, x.b.toNat, fld (immOf x.ext) 10 0, fld (immOf x.ext) 21 11]).take (fld x.mod 2 0) }) ∧
    (entry .wait x s = some en →
      en.c.w.loads ≤ fld (immOf x.ext) 5 0 → en.c.w.stores ≤ fld (immOf x.ext) 13 8 →
      en.c.w.copies ≤ fld (immOf x.ext) 21 16 → en.c.w.tiles ≤ fld (immOf x.ext) 29 24 →
      Idles (.wait x) s en) ∧
    (entry .pause x s = some en → en.c.e ≠ 0 → Notes (.pause x) s en fun w => w.runPause = some
      (match x.ext with | .imm i => fld i 15 0 | _ => en.c.scal en.s x.a.toNat % 2 ^ 16)) ∧
    ∀ o : Op, entry o x s = some en → en.c.e = 0 →
      let order (k : Nat) : Bool := fld x.mod k k == 1
      let held (k : Nat) : Bool := holdsSlot en.s en.c k
      let quiet : Bool := match o with
        | .ld | .lds | .st | .sts => !order 2
        | .atom | .atoms | .fxatom => !order 3 && !order 4
        | .bankop => !order 3
        | .cctl => fld x.mod 2 0 != 3 && fld x.mod 2 0 != 5
        | .frcp | .frsq | .fsqrt | .fdiv | .fexp2 | .flog2 | .fsinp | .fcosp | .ftanh => !sfuBusy en.c en.s
        | .mxrel => held (fld x.mod 1 0)
        | .atbl => held (fld (cmd0 x.ext) 21 20)
        | .mxdrain => held (fld (cmd0 x.ext) 1 0) && (fld (cmd1 x.ext) 2 0 != 3 || nfValid (nfAt en.s en.c (fld (cmd1 x.ext) 5 3)))
        | .ldk | .pref | .layset | .rinit | .wred | .wscan | .pause | .sysrd | .syswr | .rand | .nfset | .ctxsave | .ctxload | .xret | .acread
        | .fxrd | .mxrsv | .mxstat => true
        | _ => false
      let ordering : Bool := match o with
        | .ld | .lds | .st | .sts => order 2
        | .atom | .atoms | .fxatom => order 3 || order 4
        | .bankop => order 3
        | .wload => held (fld (cmd0 x.ext) 27 26) && nfValid (nfAt en.s en.c (fld (cmd0 x.ext) 25 23))
        | .mxmul => held (fld (cmd1 x.ext) 24 23) && nfValid (nfAt en.s en.c (fld (cmd1 x.ext) 22 20))
        | .cpy | .tcpy | .rfillGet | .rtake | .rfill | .rtakeBack | .ringadv | .fxw | .fxflag | .acwait | .enq | .tlbinv => true
        | _ => false
      (quiet = true → Idles (Instr.ofOp o x) s en) ∧ (ordering = true → OnlyOrders (Instr.ofOp o x) s en)

/-- 14 R296, 09 R184: TRAP and BKPT with a lane in E stop the warp precisely at the instruction, with code 0x15 or
0x16, the lanes of E and, for TRAP, its immediate; no register and no byte of memory changes. With E empty they do nothing. -/
def Obligations.TrapAndBreakpoint : Prop :=
  ∀ (x : Z1) (s : State) (en : Entry), en.Fair → (∀ w, en.s.warp? en.c.core en.c.slot = some w → w.stopped = none ∧ w.pend = []) →
    let stops (i : Instr) (code trap : Nat) : Prop := ∃ t, exec i s = .next t ∧ t.mem = en.s.mem ∧
      LeaderHas en t fun w => (∃ r, w.stopped = some r ∧ r.code = code ∧ r.lanes = en.c.e ∧ r.trap = trap ∧ r.instr = en.c.addr) ∧
        ∀ w0, en.s.warp? en.c.core en.c.slot = some w0 → w.regs = w0.regs ∧ w.pc = w0.pc
    (entry .trap x s = some en → en.c.e ≠ 0 → stops (.trap x) 0x15 (fld (immOf x.ext) 15 0)) ∧
    (entry .bkpt x s = some en → en.c.e ≠ 0 → stops (.bkpt x) 0x16 0) ∧
    (entry .trap x s = some en → en.c.e = 0 → Idles (.trap x) s en) ∧ (entry .bkpt x s = some en → en.c.e = 0 → Idles (.bkpt x) s en)

/-- 14 R285: BAR lets a warp whose generation is complete pass. A warp not counted yet is counted, the first sets the number n, and it
waits while the generation lacks a warp: n of them, or with n = 0 or n at least the block's warps all of them, those gone included with n = 0;
where it completes the generation it passes, every other counted warp may resume, and the slot opens the next one, in which the
warps that wait count first. A warp counted already waits uncounted. One that waits goes on waiting.
Rests on the model's own reading or choice of log 53 where the manual leaves that open. -/
def Obligations.Barrier : Prop :=
  ∀ (x : Z1) (s : State) (en : Entry), en.Fair → entry .bar x s = some en →
    let id := fld x.mod 3 0
    (∀ k, en.c.w.bar = some (k, true) → ∃ t, exec (.bar x) s = .next t ∧ LeaderHas en t (fun w => w.bar = none) ∧
      OnlyOps en.c.core en.s t) ∧
    (∀ k, en.c.w.bar = some (k, false) → en.c.b.saving = none → ∃ t, exec (.bar x) s = .next t ∧ OnlyOps en.c.core en.s t ∧
      LeaderHas en t fun w => w.bar = some (k, false) ∧ w.pc = en.c.w.pc) ∧
    let n := fld (immOf x.ext) 5 0
    let y := smGetD en.c.b.bars {} id
    let m := y.n.getD n
    let full (m : Nat) (l : List Nat) : Prop :=
      if m = 0 then ∀ k, k < en.c.b.nwarps → k ∈ l ∨ k ∈ goneWarps en.s en.c.core en.c.bi else min m en.c.b.nwarps ≤ l.length
    let becomes (z : Bar) (f : Warp → Prop) : Prop := ∃ t, exec (.bar x) s = .next t ∧ OnlyWarps en.c.core en.s t ∧ LeaderHas en t f ∧
      (∀ sl, (t.warp? en.c.core sl).map Warp.regs = (en.s.warp? en.c.core sl).map Warp.regs) ∧
      smGet? (t.block en.c.core en.c.bi).bars id = some z ∧ (∀ k, k ≠ id → smGet? (t.block en.c.core en.c.bi).bars k = smGet? en.c.b.bars k) ∧
      ∀ k ∈ y.counted, ∀ sl, en.c.b.slotOf k = some sl → sl ≠ en.c.slot → ∀ w, en.s.warp? en.c.core sl = some w →
        ∃ v, t.warp? en.c.core sl = some v ∧ v.bar = if full m (y.counted ++ [en.c.w.num]) ∧ en.c.w.num ∉ y.counted then w.bar.map (fun q => (q.1, true)) else w.bar
    let waits (w : Warp) : Prop := w.bar = some (id, false) ∧ w.pc = en.c.w.pc
    (en.c.w.bar = none → opsDone en.s en.c.core en.c.slot = true → en.c.b.saving = none → (∀ l, en.c.b.slotOf en.c.w.num = some l → l = en.c.slot) →
      (en.c.w.num ∉ y.counted → ¬ full m (y.counted ++ [en.c.w.num]) → becomes { y with n := some m, counted := y.counted ++ [en.c.w.num] } waits) ∧
      (en.c.w.num ∉ y.counted → full m (y.counted ++ [en.c.w.num]) → en.c.b.slotOf en.c.w.num = some en.c.slot →
        becomes { n := y.waiting.head?.map (·.2), counted := y.waiting.map (·.1), waiting := [] } fun w => w.bar = none) ∧
      (en.c.w.num ∈ y.counted → (∀ k, y.n = some k → ¬ full k y.counted) → becomes { y with waiting := y.waiting ++ [(en.c.w.num, n)] } waits))

/-- 03 R73, R53: REGQ in a role block with the same total of registers, where every partition has room for the new quotas of its warps, moves
the quotas of the three roles to the requested ones and gives the predicate true: a register that a warp keeps has its value, one
that it loses reads zero and awaits nothing. Where a partition lacks room nothing changes and the predicate is false; E empty does nothing. -/
def Obligations.RegisterQuotas : Prop :=
  ∀ (x : Z1) (s : State) (en : Entry), en.c.b = en.s.block en.c.core en.c.bi →
    let count (r : Role) : Nat := (en.c.b.roles.filter (· == r)).length
    let want (v : Nat) (r : Role) : Nat := match r with | .copy => nfld v 4 0 | .matrix => nfld v 9 5 | .vector => nfld v 14 10 | .plain => 0
    let good (v : Nat) : Prop := en.c.b.role = true ∧ v / 2 ^ 15 % 2 ^ 17 = 0 ∧
      (∀ r ∈ [Role.copy, .matrix, .vector], 1 ≤ want v r ∧ want v r ≤ 16) ∧
      ([Role.copy, .matrix, .vector].map fun r => count r * want v r).sum = ([Role.copy, .matrix, .vector].map fun r => count r * en.c.b.quota r).sum
    let quotas (t : State) : List Nat := [Role.copy, .matrix, .vector].map (t.block en.c.core en.c.bi).quota
    let mine := blockWarps en.s en.c.core en.c.bi
    let fits (v : Nat) : Bool := (List.range 8).all fun p =>
      let ws := mine.filter fun e => partOf e.1 == p
      decide ((ws.map fun e => 32 * want v e.2.role).sum ≤ (ws.map fun e => 32 * en.c.b.quota e.2.role).sum + partFree en.s en.c.core p)
    let moves (i : Instr) (v : Nat) : Prop := ∃ t, exec i s = .next t ∧ PredResult en t 8 (fld x.mod 2 0) (fun _ => fits v) ∧
      OnlyDest en t 8 none (fun _ => []) [(fld x.mod 2 0, fun _ => fits v)] 0 ∧ OnlyCore en.c.core en.s t ∧
      (fits v = false → OnlyIssue en.c.core en.s t) ∧
      (fits v = true → quotas t = [Role.copy, .matrix, .vector].map (want v) ∧
        (∀ b, b ≠ en.c.bi → (t.block en.c.core b).still = (en.s.block en.c.core b).still) ∧
        (∀ sl w, en.s.warp? en.c.core sl = some w → w.block ≠ en.c.bi → (t.warp? en.c.core sl).map Warp.still = some w.still) ∧
        (((en.s.core en.c.core).warps.map (·.1)).Nodup → ∀ e ∈ mine, ∃ w, t.warp? en.c.core e.1 = some w ∧
          { w.still with v := e.2.v, outst := e.2.outst, held := e.2.held, fills := e.2.fills, bad := e.2.bad } = e.2.still ∧
          ∀ r l, r < 512 → l < 32 →
            smGetD w.v 0 (32 * r + l) = (if want v e.2.role < en.c.b.quota e.2.role ∧ 32 * want v e.2.role ≤ r then 0 else smGetD e.2.v 0 (32 * r + l)) ∧
            (want v e.2.role < en.c.b.quota e.2.role → 32 * want v e.2.role ≤ r → (∀ p ∈ w.outst, p.1 ≠ r) ∧ r ∉ w.held ∧ ∀ p ∈ w.bad, p.1 ≠ r)))
    (entry .regqImm x s = some en → en.c.e ≠ 0 → good (immOf x.ext).toNat → moves (.regqImm x) (immOf x.ext).toNat) ∧
    (entry .regqScalar x s = some en → en.c.e ≠ 0 → good (en.c.scal en.s x.a.toNat) → moves (.regqScalar x) (en.c.scal en.s x.a.toNat)) ∧
    (entry .regqImm x s = some en → en.c.e = 0 → Idles (.regqImm x) s en) ∧ (entry .regqScalar x s = some en → en.c.e = 0 → Idles (.regqScalar x) s en)

/-! ### Memory instructions (15) -/

/-- 15 R301, R302, R308, R313, 05 R112: a load, store, atomic, bank or cache line operation whose lanes all translate
issues one access per lane, at the lane's physical address with the lane's data, in a new operation or, at a replay, in
the one its good lanes began; nothing is written before the access is performed.
Rests on the model's own reading or choice of logs 39 and 47 where the manual leaves that open. -/
def Obligations.GlobalAccesses : Prop :=
  ∀ (x : Z1) (s : State) (en : Entry) (tr : Nat → Nat × Attr), en.Fair → en.c.e ≠ 0 →
    let acc (a b : Nat → List Word) : List LaneAcc := (maskLanes en.c.e).map fun l =>
      { lane := l, va := memAddr x true en.c en.s l, addr := (tr l).1, attr := (tr l).2, a := a l, b := b l }
    let data (r n l : Nat) : List Word := (List.range n).map fun k => readReg en.s en.c.core en.c.b en.c.w (r + k) l
    let none' (_ : Nat) : List Word := []
    let size := x.ty.width / 8 * 2 ^ fld x.mod 1 0
    let n := words x.ty
    let k := fld x.mod 2 0
    (entry .ld x s = some en → Reaches en x 0 size tr → Accesses (.ld x) s en (replayed en.c) .loads
      (fun o => o.kind = .load ∧ o.space = .glob ∧ o.size = size ∧ o.dst = some x.d.toNat ∧ o.acq = (fld x.mod 2 2 == 1)) (acc none' none')) ∧
    (entry .st x s = some en → Reaches en x 1 size tr → Accesses (.st x) s en (replayed en.c) .stores
      (fun o => o.kind = .store ∧ o.space = .glob ∧ o.size = size ∧ o.dst = none ∧ o.rel = (fld x.mod 2 2 == 1))
      (acc (data x.a.toNat (n * 2 ^ fld x.mod 1 0)) none')) ∧
    (entry .atom x s = some en → Reaches en x 3 (x.ty.width / 8) tr →
      (∀ l ∈ maskLanes en.c.e, hostAtomBad en.s k x.ty (tr l).2 (tr l).1 = false) →
      Accesses (.atom x) s en (replayed en.c) (if fld x.mod 5 5 = 1 then .loads else .stores)
        (fun o => o.kind = .atom k (fld x.mod 5 5 = 1) ∧ o.space = .glob ∧ o.dst = (if fld x.mod 5 5 = 1 then some x.d.toNat else none) ∧
          o.acq = (fld x.mod 3 3 == 1) ∧ o.rel = (fld x.mod 4 4 == 1))
        (acc (data x.a.toNat n) (if k = 7 then data x.b.toNat n else none'))) ∧
    (entry .bankop x s = some en → Reaches en x 4 (if k = 3 then 8 else 4) tr →
      (∀ l ∈ maskLanes en.c.e, (en.s.kind (tr l).1).isBank = true) →
      Accesses (.bankop x) s en (replayed en.c) .stores (fun o => o.kind = .bank k ∧ o.dst = none ∧ o.rel = (fld x.mod 3 3 == 1))
        (acc (data x.a.toNat (if k = 3 then 2 else 1)) (if k = 4 then data x.b.toNat 1 else none'))) ∧
    (entry .cctl x s = some en → k ≠ 3 → k ≠ 5 → (∀ l ∈ maskLanes en.c.e, (tr l).2.fabric = false ∧
        warpXlate en.s en.c.core en.c.b en.c.w (memAddr x true en.c en.s l / 128 * 128) 0 = some (.ok (tr l).1 (tr l).2)) →
      Accesses (.cctl x) s en (replayed en.c) .stores (fun o => o.kind = .cctl k ∧ o.size = 128 ∧ o.dst = none)
        ((acc none' none').map fun y => { y with va := y.va / 128 * 128 }))

/-- 15 R299, R303, R308, 04 R81: the same for scratchpad offsets within the declared size, and for the constant
area. -/
def Obligations.ScratchAndConstantAccesses : Prop :=
  ∀ (x : Z1) (s : State) (en : Entry), en.Fair → en.c.e ≠ 0 →
    let acc (a b : Nat → List Word) : List LaneAcc := (maskLanes en.c.e).map fun l =>
      { lane := l, va := memAddr x false en.c en.s l, addr := memAddr x false en.c en.s l, attr := {}, a := a l, b := b l }
    let data (r n l : Nat) : List Word := (List.range n).map fun k => readReg en.s en.c.core en.c.b en.c.w (r + k) l
    let none' (_ : Nat) : List Word := []
    let size := x.ty.width / 8 * 2 ^ fld x.mod 1 0
    let n := words x.ty
    let k := fld x.mod 2 0
    (entry .lds x s = some en → InScratch en x size true → Accesses (.lds x) s en none .loads
      (fun o => o.kind = .load ∧ o.space = .scr ∧ o.size = size ∧ o.dst = some x.d.toNat) (acc none' none')) ∧
    (entry .sts x s = some en → InScratch en x size false → Accesses (.sts x) s en none .stores
      (fun o => o.kind = .store ∧ o.space = .scr ∧ o.size = size ∧ o.dst = none) (acc (data x.a.toNat (n * 2 ^ fld x.mod 1 0)) none')) ∧
    (entry .atoms x s = some en → InScratch en x (x.ty.width / 8) (fld x.mod 5 5 = 1) →
      Accesses (.atoms x) s en none (if fld x.mod 5 5 = 1 then .loads else .stores)
        (fun o => o.kind = .atom k (fld x.mod 5 5 = 1) ∧ o.space = .scr)
        (acc (data x.a.toNat n) (if k = 7 then data x.b.toNat n else none'))) ∧
    ∀ tr : Nat → Nat × Attr,
    (entry .ldk x s = some en →
      (∀ l ∈ maskLanes en.c.e, memAddr x false en.c en.s l % size = 0 ∧ memAddr x false en.c en.s l + size ≤ en.c.b.constSize ∧
        (tr l).2.fabric = false ∧ warpXlate en.s en.c.core en.c.b en.c.w ((en.c.b.constAddr + memAddr x false en.c en.s l) % 2 ^ 64) 0 =
          some (.ok (tr l).1 (tr l).2)) →
      Accesses (.ldk x) s en (replayed en.c) .loads (fun o => o.kind = .load ∧ o.space = .const ∧ o.dst = some x.d.toNat)
        ((maskLanes en.c.e).map fun l => { lane := l, va := (en.c.b.constAddr + memAddr x false en.c en.s l) % 2 ^ 64
                                           addr := (tr l).1, attr := (tr l).2, a := [], b := [] }))

/-- 15 R315 to R317, 04 R83: a FENCE of any kind waits while its warp has an earlier access that is not performed, and
otherwise is complete at once: of device scope or wider it leaves every dirty byte of the L1 at its home and the L1
empty; PREF brings its line into its home and changes no byte, and with .l1 into the L1, where a line that leaves may carry
its dirty bytes home; CCTL's whole-cache operations
are outstanding like a store.
Rests on the model's own reading or choice of log 39 where the manual leaves that open. -/
def Obligations.FencesAndCacheHints : Prop :=
  ∀ (x : Z1) (s : State) (en : Entry), en.Fair →
    (entry .fence x s = some en → ∃ t, exec (.fence x) s = .next t ∧ KeepsRegs en.c.core en.s t ∧
      (∀ q ∈ en.c.members, ∀ w, en.s.warp? en.c.core q.1 = some w → w.fences = [] → ∃ v, t.warp? en.c.core q.1 = some v ∧
        (memPending en.s en.c.core q.1 en.s.nextId = true →
          v.fences = [{ waits := true, wb := true, inv := true, scope := fld x.mod 3 2, upTo := en.s.nextId }]) ∧
        (memPending en.s en.c.core q.1 en.s.nextId = false → en.s.owners = [] → v.fences = [])) ∧
      ((∀ q ∈ en.c.members, memPending en.s en.c.core q.1 en.s.nextId = false ∧
          ∀ w, en.s.warp? en.c.core q.1 = some w → w.fences = []) → en.s.owners = [] → 1 ≤ fld x.mod 3 2 →
        (smSorted (en.s.core en.c.core).l1 = true → (t.core en.c.core).l1 = []) ∧ ∀ line y i, l1Get en.s en.c.core line = some y → y.dirty.getLsbD i = true →
          t.byte (128 * line + i) = lineByte y.data i)) ∧
    (entry .pref x s = some en → ∃ t, exec (.pref x) s = .next t ∧ KeepsRegs en.c.core en.s t ∧
      (fld x.mod 0 0 = 0 → t.mem = en.s.mem ∧ (t.core en.c.core).l1 = (en.s.core en.c.core).l1) ∧ (∀ a, KeptOrHome en.c.core en.s t a) ∧
      ∀ l pa at', en.c.e = laneBit l → l < 32 → warpXlate en.s en.c.core en.c.b en.c.w (memAddr x true en.c en.s l) 0 = some (.ok pa at') →
        at'.fabric = false → (en.s.kind pa).isBank = false → en.s.kind pa ≠ .unmapped → at'.alloc ≠ 2 → en.s.poisoned pa = false →
        lineHeld en.s none (lineOf pa) = false →
        (fld x.mod 0 0 = 0 ∨ (en.s.core en.c.core).l1.length < 2048 → (smGet? t.l2 (lineOf pa)).isSome) ∧
        (fld x.mod 0 0 = 1 → l1Allowed en.s pa at' = true → ∃ y, l1Get t en.c.core (lineOf pa) = some y ∧ y.valid = BitVec.allOnes 128)) ∧
    (entry .cctl x s = some en → fld x.mod 2 0 = 3 ∨ fld x.mod 2 0 = 5 →
      (en.c.e ≠ 0 ∨ en.c.scope = .lane ∨ en.c.scope = .warp → ∃ t, exec (.cctl x) s = .next t ∧ OnlyOps en.c.core en.s t ∧
        LeaderHas en t (fun w => ∃ o ∈ w.ops, o.id = en.s.nextId ∧ o.kind = .cctl (fld x.mod 2 0) ∧ o.accs.length = 1) ∧
        ∀ q ∈ en.c.members, (q.2 ≠ 0 ∨ en.c.e = 0) → ∀ w, en.s.warp? en.c.core q.1 = some w →
          ∃ v, t.warp? en.c.core q.1 = some v ∧ v.stores = w.stores + 1) ∧
      (en.c.e = 0 → en.c.scope = .set ∨ en.c.scope = .block → Idles (.cctl x) s en))

/-- 02 R38, 15 R299, R302, R309, 04 R81: a result lands. The last access of a load from scratchpad, from a page that no L1
holds, or of LDK from a line its core does not hold, gives its lane the extended value of the bytes and leaves memory; an
atomic gives the old value and stores the new one at the home, or in scratchpad; a special function, ACWAIT or ACREAD gives the words and
collects the flags fixed at its issue. The operation is gone and the loads counter has fallen.
Rests on the model's own reading or choice of logs 39 and 49 where the manual leaves that open. -/
def Obligations.ResultsLand : Prop :=
  ∀ (s : State) (core slot d : Nat) (w : Warp) (o : MemOp) (y : LaneAcc), LastAccess s core slot w o y →
    o.isLoad = true → o.dst = some d → (d, o.id) ∈ w.outst → d + 4 ≤ privRegs (s.block core w.block) w → d + 4 ≤ 512 →
    let lands (ws : List Word) (t : State) : Prop := exec (.resultLand core slot o.id (laneBit y.lane)) s = .next t ∧
      ∃ v, t.warp? core slot = some v ∧ v.ops = [] ∧ v.loads = w.loads - 1 ∧ v.xflags = w.xflags ||| o.flags ∧
        ∀ k x, ws[k]? = some x → k < 4 → smGetD v.v 0 (32 * (d + k) + y.lane) = x
    (o.kind = .load → o.space = .scr → o.size ≤ 16 → ∃ t, lands (loadWords o.ty o.size (scrBytes (s.block core w.block) y.addr o.size)) t ∧ t.mem = s.mem) ∧
    (o.kind = .load → o.space = .glob → l1Allowed s y.addr y.attr = false → l1Get s core (lineOf y.addr) = none → s.poisoned y.addr = false →
      ∃ t, lands (loadWords o.ty o.size (s.bytesAt y.addr o.size)) t ∧ t.mem = s.mem) ∧
    (o.kind = .load → o.space = .const → y.addr % 128 + o.size ≤ 128 → s.poisoned y.addr = false →
      smGet? (s.core core).kcache ((s.block core w.block).launch * 2 ^ 64 + lineOf y.addr) = none →
      ∃ t, lands (loadWords o.ty o.size (s.bytesAt y.addr o.size)) t ∧ t.mem = s.mem) ∧
    (o.kind = .value → o.space = .none → ∃ t, lands y.a t ∧ t.mem = s.mem) ∧
    ∀ op, (o.kind = .atom op true → o.space = .scr → ∃ t,
      lands (wrT o.ty (rdT o.ty (ofBytes (scrBytes (s.block core w.block) y.addr o.size)))) t ∧ t.mem = s.mem ∧
        scrBytes (t.block core w.block) y.addr o.size = (match atomNew op o.ty (ofBytes (scrBytes (s.block core w.block) y.addr o.size))
            (ofBytes (wordsBytes y.a)) (ofBytes (wordsBytes y.b)) with
          | some v => toBytes o.size v
          | none => scrBytes (s.block core w.block) y.addr o.size) ∧ ScratchOutside s t core w.block y.addr o.size) ∧
    (o.kind = .atom op true → o.space = .glob → l1Get s core (lineOf y.addr) = none → s.poisoned y.addr = false →
      ∃ t, lands (wrT o.ty (rdT o.ty (s.memNat y.addr o.size))) t ∧
        t.bytesAt y.addr o.size = (match atomNew op o.ty (s.memNat y.addr o.size) (ofBytes (wordsBytes y.a)) (ofBytes (wordsBytes y.b)) with
          | some v => toBytes o.size v
          | none => s.bytesAt y.addr o.size) ∧ MemoryOutside s t y.addr o.size)

/-- 04 R82, R88, 15 R303, R313: the last access of a store puts its bytes into scratchpad, into memory where the page goes
through to its home (bank memory, write-through, a page no L1 holds), else into the resident line of the L1; of a bank
operation its new bytes into bank memory; no other byte changes, and the stores counter falls.
Rests on the model's own reading or choice of log 39 where the manual leaves that open. -/
def Obligations.StoresPerform : Prop :=
  ∀ (s : State) (core slot : Nat) (w : Warp) (o : MemOp) (y : LaneAcc), LastAccess s core slot w o y →
    o.isLoad = false → o.dst = none →
    let done (t : State) : Prop := exec (.storePerform core slot o.id (laneBit y.lane)) s = .next t ∧
      ∃ v, t.warp? core slot = some v ∧ v.ops = [] ∧ v.stores = w.stores - 1 ∧ v.regs = w.regs
    let bs := (wordsBytes y.a).take o.size
    (o.kind = .store → o.space = .scr → ∃ t, done t ∧ t.mem = s.mem ∧ (∀ c, (t.core c).l1 = (s.core c).l1) ∧
      ScratchOutside s t core w.block y.addr bs.length ∧ ∀ i b, bs[i]? = some b → smGetD (t.block core w.block).scr 0 (y.addr + i) = b) ∧
    (o.kind = .store → o.space = .glob → storeAtHome s y.addr y.attr = true → ∃ t, done t ∧
      t.bytesAt y.addr bs.length = bs ∧ MemoryOutside s t y.addr bs.length ∧ L1Outside s t core y.addr bs.length ∧
      ∀ b, (t.block core b).scr = (s.block core b).scr) ∧
    (o.kind = .store → o.space = .glob → storeAtHome s y.addr y.attr = false → ownedBy s (lineOf y.addr) = none →
      (l1Get s core (lineOf y.addr)).isSome → y.addr % 128 + bs.length ≤ 128 → ∃ t, done t ∧
      l1Read t core y.addr bs.length = bs ∧ t.mem = s.mem ∧ L1Outside s t core y.addr bs.length ∧
      ∀ b, (t.block core b).scr = (s.block core b).scr) ∧
    (∀ op, o.kind = .bank op → o.space = .glob → l1Get s core (lineOf y.addr) = none → s.poisoned y.addr = false → ∃ t, done t ∧
      t.bytesAt y.addr o.size = toBytes o.size (bankNew op o.ty (s.memNat y.addr o.size) (ofBytes (wordsBytes y.a)) (ofBytes (wordsBytes y.b))) ∧
      MemoryOutside s t y.addr o.size ∧ L1Outside s t core y.addr o.size ∧ ∀ b, (t.block core b).scr = (s.block core b).scr)

/-! ### The end of a run, selection, rendezvous (02, 03) -/

/-- 02 R35, R39, R45, R46, R22 to R26, R47, 14 R289 to R293: the trailer commits (TRAILER_COMMIT), and what its control transfer and
its loop end do: the next instruction, a uniform branch, a branch whose lanes agree, a divergence onto the stack, by groups where its targets
differ, the path's return at a reconvergence point, serial mode, a call's return pair, the end of lanes, a loop entered or skipped, repeated,
ended or left, and a transfer at a loop's end.
Rests on the model's own reading or choice of logs 33 and 41 where the manual leaves that open. -/
def Obligations.TrailerCommits : Prop :=
  (∀ (s : State) (core slot : Nat) (w : Warp) (t : Trailer), TrailerDue s core slot w t → w.xret = [] →
    let fall := t.addr + t.len
    let after (v : Warp) (le : Nat) : Prop := if le = t.addr then v.pc = fall else v.pc = le ∧ v.skip = true
    let still (v : Warp) : Prop := v.s = w.s ∧ v.path = w.path ∧ v.exited = w.exited ∧ v.stack = []
    (w.loops = [] → w.xfer = none → Commits s core slot w t fun v => still v ∧ v.loops = [] ∧ v.pc = fall) ∧
    (w.loops = [] → ∀ e target rpc, w.xfer = some (.bra e true target rpc) → Commits s core slot w t fun v =>
      still v ∧ v.loops = [] ∧ v.pc = if e = 0 then fall else target) ∧
    (w.loops = [] → ∀ e target rpc, w.xfer = some (.bra e false target rpc) → e ≠ 0 → w.path &&& ~~~e ≠ 0 → rpc ≠ fall →
      Commits s core slot w t fun v => v.s = w.s ∧ v.exited = w.exited ∧ v.loops = [] ∧ v.path = w.path &&& ~~~e ∧ v.pc = fall ∧
        (∀ l, l < 32 → inMask e l → v.pcOf l = target) ∧
        v.stack = [{ rpc := rpc, restore := w.path, pending := e, phase := false, group := false, fall := 0 }]) ∧
    (w.loops = [] → ∀ e targets rpc l p, w.xfer = some (.brx e true targets rpc) → lowLane e = some l →
      targets.find? (fun q => q.1 == l) = some p → Commits s core slot w t fun v => still v ∧ v.loops = [] ∧ v.pc = p.2) ∧
    (w.loops = [] → ∀ d target, w.xfer = some (.call d target) → 1536 ≤ d → d + 1 < 1600 → Commits s core slot w t fun v =>
      v.path = w.path ∧ v.exited = w.exited ∧ v.stack = [] ∧ v.loops = [] ∧ v.pc = target ∧
      smGetD v.s 0 (d - 1536) = BitVec.ofNat 32 fall ∧ smGetD v.s 0 (d + 1 - 1536) = BitVec.ofNat 32 (fall / 2 ^ 32) ∧
      ∀ k, k ≠ d - 1536 → k ≠ d + 1 - 1536 → smGetD v.s 0 k = smGetD w.s 0 k) ∧
    (w.loops = [] → ∀ target, w.xfer = some (.ret target) → Commits s core slot w t fun v => still v ∧ v.loops = [] ∧ v.pc = target) ∧
    (w.loops = [] → ∀ e, w.xfer = some (.exit e) → Commits s core slot w t fun v =>
      v.s = w.s ∧ v.loops = [] ∧ v.stack = [] ∧ v.pc = fall ∧ v.exited = w.exited ||| e ∧ v.path = w.path &&& ~~~e) ∧
    (∀ n le, w.xfer = some (.loop n le) → 1 ≤ n → le ≠ t.addr → Commits s core slot w t fun v =>
      still v ∧ v.pc = fall ∧ v.loops = { ls := fall, le := le, lc := n, depth := 0 } :: w.loops) ∧
    (w.loops = [] → ∀ le, w.xfer = some (.loop 0 le) → Commits s core slot w t fun v => still v ∧ v.loops = [] ∧ after v le) ∧
    (∀ l rest, w.loops = l :: rest → w.xfer = some .lbrk → Commits s core slot w t fun v => still v ∧ v.loops = rest ∧ after v l.le) ∧
    (∀ l rest, w.loops = l :: rest → l.le = t.addr → w.xfer = none → w.path ≠ 0 → Commits s core slot w t fun v => still v ∧
      (if 1 < l.lc then v.pc = l.ls ∧ v.loops = { l with lc := l.lc - 1 } :: rest else v.pc = fall ∧ v.loops = rest)) ∧
    (w.loops = [] → ∀ e target rpc, w.xfer = some (.bra e false target rpc) → e = 0 ∨ w.path &&& ~~~e = 0 → Commits s core slot w t fun v =>
      still v ∧ v.loops = [] ∧ v.pc = if e = 0 then fall else target) ∧
    (w.loops = [] → ∀ e targets rpc, w.xfer = some (.brx e false targets rpc) →
      let to' (l : Nat) : Nat := ((targets.find? fun p => p.1 == l).map (·.2)).getD fall
      (e = 0 → Commits s core slot w t fun v => still v ∧ v.loops = [] ∧ v.pc = fall) ∧
      ∀ l, lowLane e = some l →
        let whole : Prop := w.path &&& ~~~e = 0 ∧ ∀ k ∈ maskLanes e, to' k = to' l
        let g := maskOf fun k => inMask e k && to' k == to' l
        (whole → Commits s core slot w t fun v => still v ∧ v.loops = [] ∧ v.pc = to' l) ∧
        (¬ whole → to' l ≠ rpc → Commits s core slot w t fun v => v.s = w.s ∧ v.exited = w.exited ∧ v.loops = [] ∧ v.path = g ∧ v.pc = to' l ∧
          v.stack = [{ rpc := rpc, restore := w.path, pending := e &&& ~~~g, phase := false, group := true, fall := w.path &&& ~~~e }] ∧
          (∀ k, k < 32 → inMask (e &&& ~~~g) k → v.pcOf k = to' k) ∧ ∀ k, k < 32 → inMask (w.path &&& ~~~e) k → v.pcOf k = fall)) ∧
    (∀ l rest, w.loops = l :: rest → l.le = t.addr → w.path ≠ 0 →
      let counts (v : Warp) : Prop := if 1 < l.lc then v.pc = l.ls ∧ v.loops = { l with lc := l.lc - 1 } :: rest else v.pc = fall ∧ v.loops = rest
      (∀ e target rpc, w.xfer = some (.bra e true target rpc) →
        (e ≠ 0 → target ≠ fall → Commits s core slot w t fun v => still v ∧ v.pc = target ∧ v.loops = w.loops) ∧
        (e = 0 → Commits s core slot w t fun v => still v ∧ counts v)) ∧
      (∀ target, w.xfer = some (.ret target) → target ≠ fall → Commits s core slot w t fun v => still v ∧ v.pc = target ∧ v.loops = w.loops) ∧
      (∀ e, w.xfer = some (.exit e) →
        (w.path &&& ~~~e = 0 → Commits s core slot w t fun v => v.exited = w.exited ||| e ∧ v.path = 0 ∧ v.loops = w.loops) ∧
        (w.path &&& ~~~e ≠ 0 → Commits s core slot w t fun v => v.exited = w.exited ||| e ∧ v.path = w.path &&& ~~~e ∧ counts v)) ∧
      (∀ e target rpc, w.xfer = some (.bra e false target rpc) → e ≠ 0 → w.path &&& ~~~e ≠ 0 → l.depth = 0 → CommitFaults s core slot w t 0x14))) ∧
  ∀ (s : State) (core slot : Nat) (w : Warp) (t : Trailer), TrailerGoes s core slot w t → w.xret = [] → w.skip = false →
    let fall := t.addr + t.len
    let resumes (v : Warp) (m : Mask) : Prop := v.path = m ∧ v.loops = w.loops ∧ v.s = w.s ∧ ∀ l, lowLane m = some l → v.pc = w.pcOf l
    let away (m : Mask) (pc : Nat) : Prop := ∃ l, lowLane m = some l ∧ w.pcOf l ≠ pc
    (∀ l rest, w.loops = l :: rest → l.le = t.addr → w.xfer = none → l.depth < w.stack.length → CommitFaults s core slot w t 0x14) ∧
    (w.loops = [] → w.serial = none → w.xfer = none → ∀ k rest, w.stack = k :: rest → fall = k.rpc →
      let pops : Prop := (∀ j ∈ rest.head?, j.rpc ≠ k.rpc ∧ k.restore ≠ 0) → Commits s core slot w t fun v =>
        v.stack = rest ∧ v.path = k.restore ∧ v.pc = k.rpc ∧ v.loops = [] ∧ v.exited = w.exited ∧ v.s = w.s
      (k.group = false → k.phase = false → away k.pending k.rpc → Commits s core slot w t fun v =>
        resumes v k.pending ∧ v.stack = { k with phase := true } :: rest ∧ v.exited = w.exited) ∧
      (k.group = false → k.phase = true → pops) ∧
      (k.group = true → ∀ l, lowLane k.pending = some l → w.pcOf l ≠ k.rpc →
        let g := maskOf fun i => inMask k.pending i && w.pcOf i == w.pcOf l
        Commits s core slot w t fun v => v.path = g ∧ v.pc = w.pcOf l ∧ v.loops = [] ∧ v.s = w.s ∧ v.exited = w.exited ∧
          v.stack = { k with pending := k.pending &&& ~~~g, phase := true } :: rest) ∧
      (k.group = true → k.pending = 0 → away k.fall k.rpc → Commits s core slot w t fun v =>
        resumes v k.fall ∧ v.stack = { k with fall := 0, phase := true } :: rest ∧ v.exited = w.exited) ∧
      (k.group = true → k.pending = 0 → k.fall = 0 → pops)) ∧
    (w.loops = [] → w.serial = none → ∀ e k rest, w.xfer = some (.exit e) → w.stack = k :: rest → w.path &&& ~~~e = 0 → k.group = false → k.phase = false →
      away (k.pending &&& ~~~e) k.rpc → Commits s core slot w t fun v => resumes v (k.pending &&& ~~~e) ∧ v.exited = w.exited ||| e ∧
        ∃ r, v.stack = { k with phase := true, restore := k.restore &&& ~~~e, pending := k.pending &&& ~~~e, fall := k.fall &&& ~~~e } :: r) ∧
    (w.loops = [] → w.serial = none → ∀ e target rpc k rest l, w.xfer = some (.bra e false target rpc) → e ≠ 0 → w.path &&& ~~~e ≠ 0 →
      w.stack = k :: rest → 16 ≤ w.stack.length → lowLane w.path = some l →
      let pc := if inMask e l then target else fall
      pc ≠ k.rpc → ∃ u v, exec (.trailerCommit core slot) s = .next u ∧
        u.mem = s.mem ∧ u.warp? core slot = some v ∧ v.trailer = none ∧ v.stopped = none ∧ v.stack = w.stack ∧ v.xstat = w.xstat ||| 2 ∧
        v.path = laneBit l ∧ v.pc = pc ∧ v.exited = w.exited ∧ v.serial = some { stop := k.rpc, todo := w.path &&& ~~~laneBit l, former := w.path }) ∧
    (w.loops = [] → w.xfer = none → ∀ z, w.serial = some z → fall = z.stop →
      (∀ l, lowLane z.todo = some l → w.pcOf l ≠ z.stop → Commits s core slot w t fun v => v.stack = w.stack ∧ v.path = laneBit l ∧
        v.pc = w.pcOf l ∧ v.exited = w.exited ∧ v.serial = some { z with todo := z.todo &&& ~~~laneBit l }) ∧
      ∀ k rest, z.todo = 0 → w.stack = k :: rest → k.rpc = z.stop → k.group = false → k.phase = false → away k.pending k.rpc →
        Commits s core slot w t fun v => resumes v k.pending ∧ v.serial = none ∧ v.stack = { k with phase := true } :: rest ∧ v.exited = w.exited)

/-- 02 R24, 14 R292: TRAILER_COMMIT of a uniform branch never pushes: the whole path goes where the lowest lane of E goes,
or falls through where E is empty, and no fault is taken and no flag set; that of an EXIT ends the lanes of E, and the rest of the path
continues at the fall-through address. -/
def Obligations.UniformBranchesAndExits : Prop :=
  ∀ (s : State) (core slot : Nat) (w : Warp) (t : Trailer), TrailerGoes s core slot w t →
    ((∃ e target rpc, w.xfer = some (.bra e true target rpc)) ∨ (∃ e targets rpc, w.xfer = some (.brx e true targets rpc)) →
      ∃ u, exec (.trailerCommit core slot) s = .next u ∧ ∀ v, u.warp? core slot = some v → v.stack.length ≤ w.stack.length) ∧
    (w.serial = none → w.skip = false → w.xret = [] → w.path ≠ 0 → (∀ l ∈ w.loops.head?, l.le ≠ t.addr) →
    let fall := t.addr + t.len
    let apart (pc : Nat) : Prop := ∀ k ∈ w.stack.head?, k.rpc ≠ pc
    let moves (pc : Nat) : Prop := ∃ u, exec (.trailerCommit core slot) s = .next u ∧ u.mem = s.mem ∧
      ∃ v, u.warp? core slot = some v ∧ v.trailer = none ∧ v.inRun = false ∧ v.stopped = none ∧ v.xstat = w.xstat ∧ v.xflags = w.xflags ∧
        v.stack = w.stack ∧ v.path = w.path ∧ v.exited = w.exited ∧ v.loops = w.loops ∧ v.pc = pc
    (∀ e target rpc, w.xfer = some (.bra e true target rpc) → apart (if e = 0 then fall else target) →
      moves (if e = 0 then fall else target)) ∧
    (∀ e targets rpc, w.xfer = some (.brx e true targets rpc) → lowLane e = none → apart fall → moves fall) ∧
    (∀ e targets rpc l p, w.xfer = some (.brx e true targets rpc) → lowLane e = some l → targets.find? (fun q => q.1 == l) = some p →
      apart p.2 → moves p.2) ∧
    ∀ e, w.xfer = some (.exit e) → ∃ u, exec (.trailerCommit core slot) s = .next u ∧ u.mem = s.mem ∧
      ∃ v, u.warp? core slot = some v ∧ v.trailer = none ∧ v.inRun = false ∧ v.stopped = none ∧ v.exited = w.exited ||| e ∧
        (w.path &&& ~~~e ≠ 0 → apart fall → v.path = w.path &&& ~~~e ∧ v.pc = fall ∧ v.stack.length = w.stack.length))

/-- 02 R34, R41 to R43, 03 R63 to R66: an idle partition with a ready warp is given to one: of those that neither give way nor pause the
first in slot order after the warp it last issued, and only where there is none another; the give-way flags of the partition clear.
Where warps stand inside runs on it, a ready one of them goes on (log 46). A latch that may fire hands on the contributions counted at it, by slot.
Rests on the model's own reading or choice of logs 21, 33, 40 and 46 where the manual leaves that open. -/
def Obligations.SelectionAndRendezvous : Prop :=
  ∀ s : State,
    (∀ core part, part < (s.core core).parts.length → partIdle s core part = true → (∀ sl w, s.warp? core sl = some w → w.poison = none) →
      let ready (e : Nat × Warp) : Prop := e ∈ (s.core core).warps ∧ partOf e.1 = part ∧ warpReady s core e = true
      let eager (e : Nat × Warp) : Prop := e.2.giveWay = false ∧ ¬ (e.2.pauseUntil ≠ 0 ∧ s.now ≤ e.2.pauseUntil)
      let last := (s.partn core part).last
      let before (a b : Nat) : Prop := (last < a ∧ b ≤ last) ∨ ((last < a ↔ last < b) ∧ a ≤ b)
      let picks (sl : Nat) (u : State) : Prop := exec (.runSelect core part) s = .next u ∧ (u.partn core part).holder = some sl ∧
        OnlyIssue core s u ∧ u.waits = s.waits ∧ ∀ p, p ≠ part → u.partn core p = s.partn core p
      (openRuns s core part = [] → (∃ e, ready e) → ∃ e u, ready e ∧ picks e.1 u ∧
        ((∃ e', ready e' ∧ eager e') → eager e ∧ (smSorted (s.core core).warps = true → ∀ e', ready e' → eager e' → before e.1 e'.1)) ∧
        ∀ sl w, partOf sl = part → u.warp? core sl = some w → w.giveWay = false) ∧
      (openRuns s core part ≠ [] → (∃ e, ready e ∧ e.2.inRun = true) → ∃ e u, ready e ∧ e.2.inRun = true ∧ picks e.1 u ∧
        ∀ sl, u.warp? core sl = s.warp? core sl)) ∧
    (∀ core block latch (r : Arrival), latchReady s core block latch = true →
      let b := s.block core block
      let arr := (smGetD b.latches {} latch).arrivals
      arr ≠ [] → (∀ p ∈ arr, ∃ sl w q, b.slotOf p.1 = some sl ∧ s.warp? core sl = some w ∧ w.arrived = some q ∧
        q.instr = r.instr ∧ q.addr = r.addr ∧ q.len = r.len) →
      ∃ u f, exec (.rendezvousFire core block latch) s = .next u ∧ u.firing = some f ∧ { u with firing := s.firing, waits := s.waits } = s ∧
        f.core = core ∧ f.block = block ∧ f.slot = latch ∧ f.instr = r.instr ∧ f.addr = r.addr ∧ f.len = r.len ∧
        f.members.map (·.2) = arr.map (·.2) ∧ f.members.map (fun p => some p.1) = arr.map fun p => b.slotOf p.1)

/-! ### Translation (25) -/

/-- 25 R429, R430, R432, R433: a walk that a walker makes answers every waiter of its cluster for the page. One that finds a translation ends,
is cached, and changes no byte of memory but that it sets the accessed bit, and for a write the dirty bit, of the two leaf entries it used; a
miss parks the walks, attaches them to a page request and writes nowhere but into the request queue; a fault ends them.
Rests on the model's own reading or choice of logs 19 and 45 where the manual leaves that open. -/
def Obligations.Walks : Prop :=
  ∀ (s : State) (id : Nat) (y x : Walk), s.walks.find? (fun z => z.id == id && !z.parked) = some y → (sharers s y).head? = some x →
    x ∈ walkersOf s (towerOf x.core % 2) →
    let g := sharers s x
    let mine (z : Walk) : Bool := g.any fun v => v.id == z.id
    let told (u : State) (r : Xlate) : Prop := ∀ z ∈ g, ∀ core slot w, z.who = .warp core slot → s.warp? core slot = some w → w.stopped = none →
      Knows u core slot z r
    (∀ e t, walkFull s x.core x.secure x.fn x.va x.kind = (.ok e, t) → ∃ u, exec (.walk id) s = .next u ∧
      u.walks = s.walks.filter (fun z => !mine z) ∧ (∀ z ∈ g, u.tlbLookup z.core x.fn x.va x.kind = some e) ∧
      told u (.ok (e.pa + (pageOf x.va * 2 ^ 16 - e.va)) e.attr) ∧ Bar0Keeps [] s u ∧ u.reqs = s.reqs ∧
      ∃ e1 a1 l1 e2 a2 l2, stage1 s x.core x.secure x.fn x.va (s.root1 x.fn) [1, 2, 3] = .leaf e1 a1 l1 ∧
        stage2Of s x.core x.secure x.fn (leafPa e1 l1 x.va) x.kind = .leaf e2 a2 l2 ∧
        (∀ a, a < a1 ∨ a1 + 8 ≤ a → a < a2 ∨ a2 + 8 ≤ a → u.byte a = s.byte a) ∧
        (a1 = a2 ∨ a1 + 8 ≤ a2 ∨ a2 + 8 ≤ a1 → ∀ a ∈ [a1, a2], u.memNat a 8 = s.memNat a 8 ||| 2 ^ 62 ||| if writes x.kind then 2 ^ 63 else 0)) ∧
    (∀ sub l a t, walkFull s x.core x.secure x.fn x.va x.kind = (.miss sub l a, t) → ∃ u, exec (.walk id) s = .next u ∧
      u.walks = s.walks.map (fun z => if mine z then { z with parked := true } else z) ∧ told u (.bad 0x0A sub) ∧
      (∃ r ∈ u.reqs, r.fn = x.fn ∧ r.sub = sub ∧ ∀ z ∈ g, z.id ∈ r.walks) ∧ Bar0Keeps [ctxReg x.fn 8] s u ∧
      MemoryOutside s u (queueBase s x.fn) 8192) ∧
    (∀ c sub t, walkFull s x.core x.secure x.fn x.va x.kind = (.bad c sub, t) → ∃ u, exec (.walk id) s = .next u ∧
      u.walks = s.walks.filter (fun z => !mine z) ∧ told u (.bad c sub) ∧ u.mem = s.mem ∧ u.reqs = s.reqs ∧ u.bar0 = s.bar0)

/-- 25 R433, R434, 09 R190: a reply with success lets the waiting walks of warps go on; one with failure ends those of a
stopped warp, whose record then awaits none, and makes the others fail when their warp stops; a reply that names no outstanding request is only counted; a write of the consumer word is held.
Rests on the model's own reading or choice of log 20 where the manual leaves that open. -/
def Obligations.PageReplies : Prop :=
  ∀ (s : State) (val : DWord), hostBehind s 0 = false →
    let f := nfld val.toNat 22 16
    let res := nfld val.toNat 25 24
    let req := s.reqs.find? fun r => r.fn == f && r.tag == some (nfld val.toNat 15 0)
    (req = none ∨ res = 0 ∨ res = 3 → ∃ u, exec (.pageReply val) s = .next u ∧ OnlyBar0 [ctxReg f 11] s u ∧
      u.reg (ctxReg f 11) = s.reg (ctxReg f 11) + 1) ∧
    (∀ r, req = some r → res = 1 ∨ res = 2 → ∃ u, exec (.pageReply val) s = .next u ∧ Bar0Keeps [ctxReg f 8] s u ∧
      MemoryOutside s u (queueBase s f) 8192 ∧ u.reqs.length < s.reqs.length ∧
      ∀ y ∈ s.walks, (y.id ∉ r.walks → y ∈ u.walks) ∧ (y.id ∈ r.walks → isEngine y.who = false →
        (res = 1 → { y with parked := false } ∈ u.walks) ∧
        (res = 2 → ∀ core slot w, y.who = .warp core slot → s.warp? core slot = some w →
          (w.stopped = none → { y with failed := true, parked := true } ∈ u.walks) ∧
          ∀ q, w.stopped = some q → { y with failed := true, parked := true } ∉ u.walks ∧
            (y.id ∈ q.walks → ∃ v q', u.warp? core slot = some v ∧ v.stopped = some q' ∧ q'.walks = [])))) ∧
    (∀ fn v, ∃ u, exec (.translationConsumerWrite fn v) s = .next u ∧ u.reg (ctxReg fn 9) = v ∧
      Bar0Keeps [ctxReg fn 8, ctxReg fn 9] s u ∧ MemoryOutside s u (queueBase s fn) 8192 ∧ u.cores = s.cores)

/-- 25 R435, 17 R356: a hypervisor invalidation begins where none runs and remembers the walks begun before it; when
they have ended and the issuer's release is complete, every translation cache has lost the matching entries and kept the others, and it is over. -/
def Obligations.Invalidations : Prop :=
  ∀ s : State,
    let begins (i : Instr) (kind fn addr : Nat) : Prop := s.reg invalBusy = 0 → ∃ u, exec i s = .next u ∧ u.reg invalBusy = 1 ∧
      Bar0Keeps [invalBusy] s u ∧ { u with bar0 := s.bar0, invals := s.invals, nextId := s.nextId, waits := s.waits } = s ∧
      u.invals = s.invals ++ [{ id := s.nextId, kind := kind, fn := fn, addr := addr, who := none
                                walks := (s.walks.filter fun w => !w.parked).map (·.id) }]
    begins .hvInvalidateAll 0 0 0 ∧ (∀ fn, begins (.hvInvalidateVf fn) 1 fn 0) ∧ (∀ fn va, begins (.hvInvalidatePage fn va) 2 fn va) ∧
    (∀ fn gpa, begins (.hvInvalidateGpa fn gpa) 3 fn gpa) ∧
    ∀ id i, s.invals.find? (fun j => j.id == id) = some i → (∀ w ∈ s.walks, w.id ∈ i.walks → w.parked = true) →
      Settled s i.core i.rels →
      ∃ u, exec (.invalidationComplete id) s = .next u ∧ u.invals = s.invals.filter (·.id != id) ∧ u.mem = s.mem ∧ Bar0Keeps [invalBusy] s u ∧
        (∀ c, (u.core c).tlb = (s.core c).tlb.filter fun e => !i.drops e) ∧ (∀ c, (u.cluster c).tlb = (s.cluster c).tlb.filter fun e => !i.drops e) ∧
        (i.who = none → u.reg invalBusy = 0) ∧
        ∀ c sl w, i.who = some (c, sl) → s.warp? c sl = some w → ∃ v, u.warp? c sl = some v ∧ v.stores = w.stores - 1 ∧ v.regs = w.regs

/-! ### Faults, returns and ends (09, 02, 22) -/

/-- 09 R187, R191, 22 R394: a fault report writes the record's entry of 2,048 bytes into the launch's area, advances its write index, raises its
vector and marks the record; where the area is full it counts the report as dropped, and with no area it only marks it. Where no agent runs and no
other report is due, the launch's policy follows: the block ends, every warp of it with nothing in flight but stores, or the launch is aborted with all its blocks.
Rests on the model's own reading or choice of logs 11, 17 and 38 where the manual leaves that open. -/
def Obligations.FaultReports : Prop :=
  ∀ (s : State) (core slot : Nat) (w : Warp) (r : FaultRec), s.warp? core slot = some w → reportable w = some r →
    let b := s.block core w.block
    let sec := s.blockSecure core b
    let marked (u : State) : Prop := ∃ v, u.warp? core slot = some v ∧ v.stopped = some { r with reported := true } ∧ v.regs = w.regs
    let ended (u : State) (c bi : Nat) : Prop := ∀ sl x, s.warp? c sl = some x → x.block = bi → x.agent = false → ∃ v, u.warp? c sl = some v ∧
      v.exited = fullMask ∧ v.stopped = none ∧ v.trailer = none ∧ v.pend = [] ∧ v.copies = 0 ∧ (∀ o ∈ v.ops, opStands o = true ∧ o.dst = none)
    let held : Prop := nativeAgent s core = false ∨ (r.code = 0x16 ∧ b.debug = true)
    let last : Prop := ¬ held ∧ s.copies = [] ∧ (s.cores.map (·.1)).Nodup ∧ (∀ e ∈ s.cores, (e.2.warps.map (·.1)).Nodup) ∧
      ∀ e ∈ s.cores, ∀ x ∈ e.2.warps, (reportable x.2).isSome → e.1 = core ∧ x.1 = slot
    ((∀ l, s.launch? b.launch = some l → l.field 96 8 = 0) →
      (held → ∃ u, exec (.faultReport core slot) s = .next u ∧ marked u ∧ OnlyWarps core s u) ∧
      (∀ x ∈ (s.core core).warps, core < 512 → (s.cores.map (·.1)).Nodup → x.1 ≠ slot → x.2.block = w.block → b.saving = none → (reportable x.2).any (fun q => !debugStop b q) = true →
        ∃ u, exec (.faultReport core slot) s = .next u ∧ marked u ∧ OnlyWarps core s u) ∧
      (last → b.abortPol = false ∨ s.launch? b.launch = none → ∃ u, exec (.faultReport core slot) s = .next u ∧ u.mem = s.mem ∧ ended u core w.block) ∧
      (∀ l pa, last → core < 512 → b.abortPol = true → s.launch? b.launch = some l → l.aborted = false → l.pa = some pa → (smGet? (s.core core).blocks w.block).isSome →
        ∃ u, exec (.faultReport core slot) s = .next u ∧ u.memNat (pa + 128) 8 = s.memNat (pa + 128) 8 % 2 ^ 63 + 2 ^ 63 ∧ u.memNat (pa + 160) 4 = 0 ∧
          (∀ a, (a < pa + 128 ∨ pa + 136 ≤ a) → (a < pa + 160 ∨ pa + 164 ≤ a) → u.byte a = s.byte a) ∧
          u.launch? b.launch = some { l with aborted := true, opened := [] } ∧
          ∀ p ∈ launchBlocks s b.launch, ended u p.1 p.2)) ∧
    ∀ l pa, s.launch? b.launch = some l → l.field 96 8 ≠ 0 →
      EngineReads s core b.fn sec (reportId core slot) (l.field 96 8) 64 pa →
      let wi := s.memNat pa 8
      let e := s.memNat (pa + 8) 4
      let full : Prop := e ≤ (wi + 2 ^ 64 - s.memNat (pa + 16) 8) % 2 ^ 64
      (∀ pb pc, ¬ full → EngineWrites s core b.fn sec (reportId core slot) (l.field 96 8 + 64 + 2048 * (wi % e)) 2048 pb →
        EngineWrites s core b.fn sec (reportId core slot) (l.field 96 8) 8 pc → (pb + 2048 ≤ pc ∨ pc + 8 ≤ pb) → held ∨ (last ∧ b.abortPol = false) →
        ∃ u, exec (.faultReport core slot) s = .next u ∧ (held → marked u) ∧ (last → ended u core w.block) ∧ u.memNat pc 8 = (wi + 1) % 2 ^ 64 ∧
          (u.bytesAt pb 2048).take 32 = toBytes 8 l.addr ++ toBytes 4 b.x ++ toBytes 4 b.y ++ toBytes 4 b.z ++ toBytes 4 core ++ toBytes 8 0 ∧
          ((u.bytesAt pb 2048).drop 32).take 1344 = r.bytes ∧ (∀ a, (a < pb ∨ pb + 2048 ≤ a) → (a < pc ∨ pc + 8 ≤ a) → u.byte a = s.byte a) ∧
          u.out = s.out ++ (if l.field 104 2 = 0xFFFF then [] else [.msix l.fn (l.field 104 2)])) ∧
      ∀ pd, full → EngineWrites s core b.fn sec (reportId core slot) (l.field 96 8 + 12) 4 pd → held ∨ (last ∧ b.abortPol = false) →
        ∃ u, exec (.faultReport core slot) s = .next u ∧ (held → marked u) ∧ (last → ended u core w.block) ∧
          u.memNat pd 4 = (s.memNat (pa + 12) 4 + 1) % 2 ^ 32 ∧ MemoryOutside s u pd 4 ∧ u.out = s.out

/-- 09 R188, R189, R192, 17 R357: an XRET records its action, which the agent's trailer performs: a resolved record lets the
warp go on, at its replayed lanes after a translation fault, after a breakpoint behind it, its temporaries as they were;
a warp stopped by another fault stays stopped.
Rests on the model's own reading or choice of log 11 where the manual leaves that open. -/
def Obligations.ReturnFromFault : Prop :=
  (∀ (x : Z1) (s : State) (en : Entry), en.Fair → entry .xret x s = some en → en.c.e ≠ 0 → ∀ w0, en.s.warp? en.c.core en.c.slot = some w0 →
    Notes (.xret x) s en fun w => w.xret = w0.xret ++ [(fld x.mod 1 0, en.c.scal en.s x.a.toNat)]) ∧
  ∀ (s : State) (core slot sl : Nat) (w v : Warp) (t : Trailer) (b : Block) (n : Nat) (r : FaultRec), TrailerDue s core slot w t →
    w.xfer = none → w.loops = [] → w.xret = [(0, n)] → slot ≠ sl → w.gone = false →
    smGet? (s.core core).blocks (nfld n 3 0) = some b → b.slotOf (nfld n 8 4) = some sl → s.warp? core sl = some v →
    v.block = nfld n 3 0 → v.stopped = some r → r.resolved = false → r.group = [sl] →
    ∃ u y, exec (.trailerCommit core slot) s = .next u ∧ u.warp? core sl = some y ∧
      y.v = v.v ∧ y.s = v.s ∧ y.p = v.p ∧ u.mem = s.mem ∧
      (r.code = 0x0A ∨ r.code = 0x16 → y.stopped = none ∧ y.tmp = r.temps ∧ y.tmpW = r.tempsW) ∧
      (r.code = 0x0A → r.contrib ≠ [] → y.replay = some (r.lanes, r.contrib) ∧ y.pc = v.pc) ∧
      (r.code = 0x16 → v.stack = [] → v.serial = none → y.pc = v.pc + 8 ∧ y.pos = v.pos + 1 ∧ y.inRun = true) ∧
      (r.code ≠ 0x0A → r.code ≠ 0x16 → y = v)

/-- 02 R48, R49, 22 R388: a warp with nothing outstanding whose lanes have all ended gives up its slot and its
partition; a block whose warps and tasks are gone gives up its place and its matrix slots, and its launch counts it. -/
def Obligations.Retirement : Prop :=
  (∀ (s : State) (core slot : Nat) (w : Warp), s.warp? core slot = some w → warpDone s core slot = true →
    ∃ u, exec (.warpRetire core slot) s = .next u ∧ u.warp? core slot = none ∧ OnlyWarps core s u ∧
      (u.partn core (partOf slot)).holder ≠ some slot ∧
      (u.block core w.block).retired = (s.block core w.block).retired ++ [w.num] ∧
      ∀ sl, sl ≠ slot → (u.warp? core sl).map (fun x => { x with bar := none }) = (s.warp? core sl).map fun x => { x with bar := none }) ∧
  ∀ (s : State) (core bi pa : Nat) (l : Launch), blockDone s core bi = true → L1Clean s core → wbWaits s core = false → s.launch? (s.block core bi).launch = some l →
    l.pa = some pa → l.fin = none → l.aborted = false → (s.memNat (pa + 136) 8 + 1) % 2 ^ 64 ≠ l.blocks →
    ∃ u, exec (.blockRetire core bi) s = .next u ∧ smGet? (u.core core).blocks bi = none ∧
      (∀ (i : Nat) (m : MSlot), (s.core core).slots[i]? = some m → (u.core core).slots[i]? = some (if m.state ≠ 0 ∧ m.owner = bi then {} else m)) ∧
      (∀ c, c ≠ bi → smGet? (u.core core).blocks c = smGet? (s.core core).blocks c) ∧ (u.core core).warps = (s.core core).warps ∧
      u.memNat (pa + 136) 8 = (s.memNat (pa + 136) 8 + 1) % 2 ^ 64 ∧
      u.memNat (pa + 144) 8 = (if (s.block core bi).faulted then (s.memNat (pa + 144) 8 + 1) % 2 ^ 64 else s.memNat (pa + 144) 8) ∧
      MemoryOutside s u (pa + 136) 16 ∧ u.bar0 = s.bar0 ∧ u.launches = s.launches

/-! ### System instructions (17) -/

/-- 17 R348 to R352, R344, R345, 03 R56: SYSRD delivers the named register, RAND four words of Philox4x32-10, and a SYSWR or
NFSET takes effect 4 clk after its issue, a RAND or NFSET 2 clk later for a source in another member's pool share. -/
def Obligations.SystemRegisters : Prop :=
  ∀ (x : Z1) (s : State) (en : Entry), en.c.e ≠ 0 →
    let w (n : Nat) : Word := BitVec.ofNat 32 n
    let v := en.c.scal en.s x.a.toNat
    let writes (i : Instr) (L : Nat) (y : BWr) : Prop := ∃ t, exec i s = .next t ∧ OnlyWrite en t (en.s.now + L) y
    (entry .sysrd x s = some en → Gives (.sysrd x) s en 8 x.d.toNat 1
      (fun _ => [w (sysReg en.s en.c.core en.c.b en.c.w (fld (immOf x.ext) 11 0))]) [] 0) ∧
    (entry .rand x s = some en → Gives (.rand x) s en (clks en .rand x 16 16) x.d.toNat 4 (fun l =>
      philox 10 (w (en.c.reg en.s x.a.toNat l), w (en.c.reg en.s (x.a.toNat + 1) l), w l,
          match x.ext with | .imm i => i | _ => w (en.c.reg en.s x.b.toNat l))
        (w (en.c.scal en.s (1536 + 2 * fld x.mod 4 0)), w (en.c.scal en.s (1537 + 2 * fld x.mod 4 0)))) [] 0) ∧
    (entry .syswr x s = some en → (sysNum x = 0 → writes (.syswr x) 4 (.xflags en.c.slot (en.s.now + 4) (BitVec.ofNat 5 v))) ∧
      (sysNum x = 1 → writes (.syswr x) 4 (.xstat en.c.slot (BitVec.ofNat 2 v))) ∧
      (sysNum x = 0x30 → writes (.syswr x) 4 (.user 0 (w v) en.c.w.num)) ∧ (sysNum x = 0x31 → writes (.syswr x) 4 (.user 1 (w v) en.c.w.num)) ∧
      (sysNum x = 0x40 → writes (.syswr x) 4 (.ashape (BitVec.ofNat 4 v)))) ∧
    (entry .nfset x s = some en → writes (.nfset x) (clks en .nfset x 4 4) (.nf (fld x.mod 2 0)
      ((match x.ext with | .imm i => BitVec.ofNat 16 i.toNat | _ => BitVec.ofNat 16 (en.c.reg en.s x.a.toNat en.c.low)) &&& 0xFF7F) en.c.w.num))

/-- 17 R353 to R356, R358, R359: ENQ pushes its record's task and writes its status; TLBINV begins an invalidation;
CTXSAVE and CTXLOAD of a block begin the save and the restore, which the stores counter tracks.
Rests on the model's own reading or choice of logs 24 and 31 where the manual leaves that open. -/
def Obligations.AgentInstructions : Prop :=
  ∀ (x : Z1) (s : State) (en : Entry), en.Fair → en.c.e ≠ 0 →
    let sec := en.s.blockSecure en.c.core en.c.b
    let va := en.c.scalPair en.s x.a.toNat
    (entry .enq x s = some en → en.Settled → ∀ pa ps, va % 64 = 0 → en.c.members = [(en.c.slot, en.c.e)] →
      Pushable en.s en.c.core en.c.b.fn sec va (en.c.scal en.s x.b.toNat) pa ps false →
      ∃ t, exec (.enq x) s = .next t ∧ Pushed en.s t en.c.b.fn (en.c.scal en.s x.b.toNat) pa ps ∧ KeepsRegs en.c.core en.s t) ∧
    (entry .tlbinv x s = some en → ∃ t i, exec (.tlbinv x) s = .next t ∧ Raises en t .stores ∧ KeepsRegs en.c.core en.s t ∧ t.mem = en.s.mem ∧
      t.invals = en.s.invals ++ [i] ∧ i.kind = fld x.mod 1 0 ∧ i.who = some (en.c.core, en.c.slot) ∧
      (i.kind ≠ 0 → i.fn = nfld (en.c.scal en.s x.b.toNat) 6 0) ∧ (2 ≤ i.kind → i.addr = va) ∧
      i.walks = (en.s.walks.filter fun w => !w.parked).map (·.id) ∧ i.rels = relBounds en.s en.c.members) ∧
    (entry .ctxsave x s = some en →
      let area := en.c.scalPair en.s x.b.toNat
      let bi := en.c.scal en.s x.a.toNat % 16
      ∀ pa at' b, area % 4096 = 0 → warpXlate en.s en.c.core en.c.b en.c.w area 1 = some (.ok pa at') →
      smGet? (en.s.core en.c.core).blocks bi = some b → b.saving = none → b.secure = en.s.secureMem pa → Unheld en.s pa 4 →
      ∃ t, exec (.ctxsave x) s = .next t ∧ (t.block en.c.core bi).saving = some pa ∧ t.bytesAt pa 4 = toBytes 4 0 ∧ MemoryOutside en.s t pa 4 ∧
        (∃ op ∈ (t.core en.c.core).ctxops, op.who = some en.c.slot ∧ op.block = bi ∧ op.pa = pa ∧ op.load = false) ∧
        ∀ w, en.s.warp? en.c.core en.c.slot = some w → ∃ v, t.warp? en.c.core en.c.slot = some v ∧ v.stores = w.stores + 1) ∧
    (entry .ctxload x s = some en → ∀ pa at' b, va % 4096 = 0 → warpXlate en.s en.c.core en.c.b en.c.w va 1 = some (.ok pa at') →
      smGet? (en.s.core (savedAt en.s pa)).blocks 0 = some b → b.secure = en.s.secureMem pa → en.s.memNat pa 4 = 1 →
      ∃ t, exec (.ctxload x) s = .next t ∧ t.mem = en.s.mem ∧ KeepsRegs en.c.core en.s t ∧ Raises en t .stores ∧
        ∃ op ∈ (t.core en.c.core).ctxops, op.who = some en.c.slot ∧ op.pa = pa ∧ op.load = true)

/-! ### Matrix engine (07, 17) -/

/-- 07 R149, R151, 17 R335, R336, R346: MXRSV takes a free slot or finds its own and says so; MXREL queues the release
of a held slot; MXSTAT delivers the slot's status word and, where asked, clears its overflow mark. -/
def Obligations.MatrixReservations : Prop :=
  ∀ (x : Z1) (s : State) (en : Entry), en.Fair → en.c.e ≠ 0 → ∀ m : MSlot,
    (entry .mxrsv x s = some en → (en.s.core en.c.core).slots[fld x.mod 4 3]? = some m →
      ∃ t, exec (.mxrsv x) s = .next t ∧ t.mem = en.s.mem ∧ KeepsRegs en.c.core en.s t ∧
        PredResult en t 8 (fld x.mod 2 0) (fun _ => m.state == 0 || (m.state == 1 && m.owner == en.c.bi)) ∧
        (t.core en.c.core).slots[fld x.mod 4 3]? = some (if m.state = 0 then { state := 1, owner := en.c.bi } else m) ∧
        ∀ j, j ≠ fld x.mod 4 3 → (t.core en.c.core).slots[j]? = (en.s.core en.c.core).slots[j]?) ∧
    (entry .mxrel x s = some en → SlotReady en (fld x.mod 1 0) → ∃ t, exec (.mxrel x) s = .next t ∧
      TilePushed en t (fld x.mod 1 0) 1 .release false ∧ (t.mslot en.c.core (fld x.mod 1 0)).state = 2) ∧
    (entry .mxstat x s = some en → (en.s.core en.c.core).slots[fld x.mod 1 0]? = some m → m.owner = en.c.bi →
      m.state = 1 ∨ (m.state = 2 ∧ fld x.mod 2 2 = 0) →
      let bit (b : Bool) (k : Nat) : Nat := if b then 2 ^ k else 0
      ∃ t, exec (.mxstat x) s = .next t ∧ t.mem = en.s.mem ∧ KeepsRegs en.c.core en.s t ∧
        RegResult en t 8 x.d.toNat (fun _ => [BitVec.ofNat 32 (bit (accSeen m en.s.now) 0 + bit (m.state == 1) 1 + bit (m.state == 2) 2
          + bit m.ctx.isSome 3 + bit m.tileW.isNone 4 + min 32 (slotTasks en.s en.c.core (fld x.mod 1 0)) * 2 ^ 16
          + truncN 10 (m.tileW.getD 0) * 2 ^ 22)]) ∧
        (t.core en.c.core).slots[fld x.mod 1 0]? = some (if fld x.mod 2 2 = 1 then { m with accov := accCleared m en.s.now } else m))

/-- 07 R143, R144, R147, R150, 17 R337 to R343: WLOAD, MXMUL, MXDRAIN and ATBL with valid descriptors, aligned
addresses and rows within the scratchpad queue their task for a held slot; WLOAD sets the slot's context and MXMUL
its projected weight.
Rests on the model's own reading or choice of log 25 where the manual leaves that open. -/
def Obligations.MatrixTasks : Prop :=
  ∀ (x : Z1) (s : State) (en : Entry), en.Fair → en.c.e ≠ 0 → en.c.b = en.s.block en.c.core en.c.bi →
    let y := cmd0 x.ext
    let v := cmd1 x.ext
    let nf (k : Nat) : BitVec 16 := smGetD en.c.b.nf 0 k
    let origin := (fld y 19 0 + if x.a = 0 then 0 else en.c.scal en.s x.a.toNat % 2 ^ 20) % 2 ^ 20
    (entry .wload x s = some en →
      let w : WCtx := { id := en.s.nextId, page := fld y 22 16, len := fld v 15 0, k := fld y 7 0 + 1, n := fld y 15 8 + 1
                        nf := nf (fld y 25 23), addr := en.c.scalPair en.s x.a.toNat }
      SlotReady en (fld y 27 26) → nfValid w.nf = true → w.k ≤ (if nfBox w.nf ≤ 4 then 256 else 128) → 8 ≤ w.len → w.len ≤ 32896 →
      w.page + (w.len + 4095) / 4096 ≤ 128 → w.addr % 16 = 0 →
      ∃ t, exec (.wload x) s = .next t ∧ TilePushed en t (fld y 27 26) ((w.len + 63) / 64) (.wload w) true ∧
        (t.mslot en.c.core (fld y 27 26)).ctx = some w) ∧
    (entry .mxmul x s = some en →
      let i := fld v 24 23
      let act := nf (fld v 22 20)
      let m := fld y 31 26 + 1
      ∀ w, (en.s.mslot en.c.core i).ctx = some w → SlotReady en i → nfValid act = true → 1 ≤ w.k →
      w.k ≤ (if nfBox w.nf ≤ 4 ∧ nfBox act ≤ 4 then 256 else 128) →
      (fld v 25 25 = 1 ∨ (en.s.mslot en.c.core i).projW = none ∨ (en.s.mslot en.c.core i).projW = some (nfL act + nfL w.nf)) →
      origin % 16 = 0 → fld v 19 0 % 16 = 0 → (∀ r, r < m → origin + r * fld v 19 0 + (w.k * nfBox act + 7) / 8 ≤ en.c.b.scrSize) →
      ∃ t, exec (.mxmul x) s = .next t ∧
        TilePushed en t i (m * ((w.n + 63) / 64)) (.mxmul w origin (fld v 19 0) m (fld y 25 20) act (fld v 25 25 = 1)) true ∧
        (t.mslot en.c.core i).projW = some (nfL act + nfL w.nf)) ∧
    (entry .mxdrain x s = some en →
      let i := fld y 1 0
      let m := fld y 13 8 + 1
      let out := fld v 2 0
      let d := if out = 3 then nf (fld v 5 3) else 0
      let cw := if out = 0 then 32 else if out = 3 then nfBox d else 16
      ∀ k r, en.c.b.setOf en.c.w.num = some (k, r) → x.d.toNat - 512 + (m + 32 / cw - 1) / (32 / cw) ≤ r.size → SlotReady en i →
      badTile (en.s.mslot en.c.core i) en.c.e m (fld y 7 2) (32 * fld y 16 14) = false → (out = 3 → nfValid d = true) → (fld y 31 27 % 2 = 1 ∨ fld y 31 27 = 0) →
      ∃ t, exec (.mxdrain x) s = .next t ∧ TilePushed en t i m
        (.drain (x.d.toNat - 512) m (fld y 7 2) (32 * fld y 16 14) (fld y 31 27) out d (fld v 6 6 = 1)) false) ∧
    (entry .atbl x s = some en →
      let part := fld y 23 22
      let cnt := if part = 2 then 64 else fld v 15 8 + 1
      SlotReady en (fld y 21 20) → origin % 16 = 0 → origin + (if part = 2 then 512 else 4 * cnt) ≤ en.c.b.scrSize →
      ∃ t, exec (.atbl x) s = .next t ∧
        TilePushed en t (fld y 21 20) 1 (.atbl part origin (fld v 7 0) cnt (BitVec.ofNat 8 (fld v 7 0))) false)

/-- 07 R140, R151 to R154, 06 R130, R132: a startable task leaves the leaf for its unit; an MXMUL adds each row's products with
each column into the accumulators modulo 2^112, a drain packs the accumulators, through its stages and in its output's container, into the
set's pool, collects their flags, and may clear the tile (without stages it saturates them); ATBL brings the words of a table from scratchpad; a
release frees the slot, a staged WLOAD leaves the leaf; each lowers its members' tiles counters.
Rests on the model's own reading or choice of log 25 where the manual leaves that open. -/
def Obligations.TileTasks : Prop :=
  ∀ (s : State) (core : Nat),
    (∀ x u, tileStartable s core = some (x, u) → L1Clean s core → ∃ t, exec (.tileTaskStart core) s = .next t ∧ t.mem = s.mem ∧
      t.queue (towerOf core) true (matrixLeaf core) = (s.queue (towerOf core) true (matrixLeaf core)).drop 1 ∧
      (if isArray u then (t.core core).arrRun = some x ∧ (t.core core).drnRun = (s.core core).drnRun
        else (t.core core).drnRun = some x ∧ (t.core core).arrRun = (s.core core).arrRun) ∧
      (t.core core).warps = (s.core core).warps ∧ (t.core core).blocks = (s.core core).blocks) ∧
    ∀ (x : Task) (u : TileTask) (q : MSlot), x.body = .tile u → u.core = core → (s.core core).slots[u.slot]? = some q →
      let falls (t : State) : Prop := ∀ p ∈ u.members, ∀ w, (u.members.map (·.1)).Nodup → s.warp? core p.1 = some w →
        ∃ v, t.warp? core p.1 = some v ∧ v.tiles = w.tiles - 1 ∧ v.v = w.v ∧ v.s = w.s ∧ v.p = w.p
      let b := s.block core u.block
      ((s.core core).arrRun = some x → ∀ w o st m row0 act z, u.kind = .mxmul w o st m row0 act z → w.n ≤ 256 →
        (∀ g, parseBlock w (wbufRead s core u.slot w) = some g →
        ∃ t, exec (.tileTaskRetire core x.id) s = .next t ∧ falls t ∧ t.mem = s.mem ∧ (t.core core).arrRun = none ∧
          ∃ q1, (t.core core).slots[u.slot]? = some q1 ∧ q1.state = q.state ∧ q1.owner = q.owner ∧
            ∀ i n, n < 256 →
              let old : BitVec 112 := if z then 0 else smGetD q.tile 0 (256 * i + n)
              smGetD q1.tile 0 (256 * i + n) = if row0 ≤ i ∧ i < row0 + m ∧ n < w.n then
                  BitVec.ofInt 112 (old.toInt + dot (actRow b act w.k (o + (i - row0) * st)) (column w g n))
                else old)) ∧
      ((s.core core).arrRun = none → (s.core core).drnRun = some x →
        (u.kind = .release → ∃ t, exec (.tileTaskRetire core x.id) s = .next t ∧ falls t ∧ t.mem = s.mem ∧
          (t.core core).drnRun = none ∧ (t.core core).slots[u.slot]? = some {}) ∧
        (∀ d0 m row0 col0 nf r, u.kind = .drain d0 m row0 col0 0 0 nf false → (b.sets[u.set]?).getD none = some r → d0 + m ≤ r.size →
          ∃ t r1, exec (.tileTaskRetire core x.id) s = .next t ∧ falls t ∧ t.mem = s.mem ∧ (t.core core).drnRun = none ∧
            (t.core core).slots[u.slot]? = some q ∧ ((t.block core u.block).sets[u.set]?).getD none = some r1 ∧
            ∀ i l, i < m → inMask u.eOnce l → smGetD r1.pool 0 (32 * (d0 + i) + l) = BitVec.ofNat 32
              (truncN 32 (satI (smGetD q.tile 0 (256 * (row0 + i) + col0 + l)).toInt (-(2 ^ 31 : Nat)) ((2 ^ 31 - 1 : Nat) : Int)))) ∧
        (∀ d0 m row0 col0 st out nf z r, u.kind = .drain d0 m row0 col0 st out nf z → (b.sets[u.set]?).getD none = some r →
          let cw := if out = 0 then 32 else if out = 3 then nfBox nf else 16
          let k := 32 / cw
          let el (i l : Nat) : Nat × BitVec 5 :=
            drainOne q st out nf (smGetD q.tile 0 (256 * (row0 + i) + col0 + l)).toInt (col0 + l)
          d0 + ceilDiv m k ≤ r.size → ∃ t r1, exec (.tileTaskRetire core x.id) s = .next t ∧ falls t ∧ t.mem = s.mem ∧
            (t.core core).slots[u.slot]? = some (if z then { q with tile := [], tileW := none, bad := [] } else q) ∧
            ((t.block core u.block).sets[u.set]?).getD none = some r1 ∧
            (∀ i l, i < ceilDiv m k → inMask u.eOnce l → smGetD r1.pool 0 (32 * (d0 + i) + l) = BitVec.ofNat 32
              (((List.range k).filter fun j => decide (i * k + j < m)).map fun j => (el (i * k + j) l).1 * 2 ^ (j * cw)).sum) ∧
            ((u.members.map (·.1)).Nodup → ∀ p ∈ u.members, p.2 ≠ 0 → ∀ w, s.warp? core p.1 = some w → ∃ v, t.warp? core p.1 = some v ∧
              ∀ f, f < 5 → (v.xflags.getLsbD f = true ↔ w.xflags.getLsbD f = true ∨
                ∃ i l, i < m ∧ l < 32 ∧ inMask u.eOnce l ∧ (el i l).2.getLsbD f = true))) ∧
        (∀ o c0 cnt em, u.kind = .atbl 2 o c0 cnt em → ∃ t q1, exec (.tileTaskRetire core x.id) s = .next t ∧ falls t ∧ t.mem = s.mem ∧
          (t.core core).slots[u.slot]? = some q1 ∧ q1.tile = q.tile ∧ q1.emin = em ∧ ∀ i, i < 64 →
            smGetD q1.slope 0x3F800000 i = BitVec.ofNat 32 (ofBytes (scrBytes b (o + 8 * i) 4)) ∧
            smGetD q1.icpt 0 i = BitVec.ofNat 32 (ofBytes (scrBytes b (o + 8 * i + 4) 4))) ∧
        (∀ part o c0 cnt em, u.kind = .atbl part o c0 cnt em → part < 2 → ∃ t q1, exec (.tileTaskRetire core x.id) s = .next t ∧ falls t ∧ t.mem = s.mem ∧
          (t.core core).slots[u.slot]? = some q1 ∧ q1.tile = q.tile ∧ ∀ j, j < cnt →
            let word : Word := BitVec.ofNat 32 (ofBytes (scrBytes b (o + 4 * j) 4))
            if part = 0 then smGetD q1.bias 0 (c0 + j) = word else smGetD q1.scale 0x3F800000 (c0 + j) = word)) ∧
      ((s.core core).arrRun = none → (s.core core).drnRun = none → (s.queue (towerOf core) true (matrixLeaf core)).head? = some x →
        isWload u = true → x.staged = true → ∃ t, exec (.tileTaskRetire core x.id) s = .next t ∧ falls t ∧ t.mem = s.mem ∧
          t.queue (towerOf core) true (matrixLeaf core) = (s.queue (towerOf core) true (matrixLeaf core)).drop 1)

/-- 07 R144, R145, 23 R401, R407, R408: staging a WLOAD puts its well-formed block into the slot's pages and marks it staged; a
segment of a CPY is staged, its source lines in their homes, once the pages of its sources are known; a launch's
list is read whole first, and then each of its hints counts as done.
Rests on the model's own reading or choice of log 20 where the manual leaves that open. -/
def Obligations.Staging : Prop :=
  ∀ (s : State) (tower leaf : Nat) (x : Task), x ∈ stagingTasks s tower leaf → (∀ y ∈ stagingTasks s tower leaf, y.id = x.id → y = x) →
    let q (u : State) : List Task := u.queue tower true leaf
    let staged : List Task := (q s).map fun y => if y.id = x.id then { y with staged := true } else y
    (∀ id lo hi c n dS sS ps, x.body = .seg id lo hi → s.copy? id = some c → c.kind = .cpy n dS sS ps → NoWalk s x.id →
      (sS = true ∨ ∀ e ∈ elemsOf c lo hi, let a := ((ps[e]?).map (·.2)).getD 0
        a < 2 ^ 52 ∧ (s.tlbLookup c.core c.task.fn a 0).isSome) →
      ∃ u, exec (.stagingEntryDone tower leaf x.id) s = .next u ∧ u.mem = s.mem ∧ u.bar0 = s.bar0 ∧ q u = staged) ∧
    (∀ t w pa g, x.body = .tile t → t.kind = .wload w → tower = towerOf t.core → leaf = matrixLeaf t.core → pagesRead s t.core x t w = false →
      drained s t.core t.rels = true → L1Clean s t.core → EngineReads s t.core x.fn x.secure x.id w.addr w.len pa →
      parseBlock w (s.bytesAt pa w.len) = some g →
      ∃ u, exec (.stagingEntryDone tower leaf x.id) s = .next u ∧ u.mem = s.mem ∧ q u = staged ∧
        wbufRead u t.core t.slot w = s.bytesAt pa w.len ∧ (u.core t.core).warps = (s.core t.core).warps) ∧
    (∀ id l pa, x.body = .launch id → leaf = 0 → s.launch? id = some l → l.recd ≠ [] → x.stDone < x.stCount → x.stList = none →
      EngineReads s (512 + tower) x.fn x.secure x.id x.stAddr (32 * x.stCount) pa →
      ∃ u, exec (.stagingEntryDone tower leaf x.id) s = .next u ∧ u.mem = s.mem ∧ u.launches = s.launches ∧
        q u = (q s).map fun y => if y.id = x.id then { y with stList := some (s.bytesAt pa (32 * x.stCount)) } else y) ∧
    (∀ id l list pb, x.body = .launch id → leaf = 0 → s.launch? id = some l → l.recd ≠ [] → x.stDone < x.stCount → x.stList = some list →
      let e := (list.drop (32 * x.stDone)).take 32
      bytesField e 20 4 % 2 = 0 → EngineReads s (512 + tower) x.fn x.secure x.id (bytesField e 0 8) (bytesField e 16 4) pb →
      ∃ u, exec (.stagingEntryDone tower leaf x.id) s = .next u ∧ u.mem = s.mem ∧ u.launches = s.launches ∧
        q u = (q s).map fun y => if y.id = x.id then
          { y with stDone := y.stDone + 1, staged := decide (y.stCount ≤ y.stDone + 1) } else y)

/-! ### Copies, layouts and rings (08, 16) -/

/-- 08 R161 to R163, R166, R167, 16 R322 to R324: CPY and TCPY with aligned pieces inside the scratchpad and destinations
on local pages begin a copy whose first segment of at most 64 KiB waits in the copy leaf; LAYSET writes its record.
Rests on the model's own reading or choice of logs 26 and 43 where the manual leaves that open. -/
def Obligations.CopyInstructions : Prop :=
  ∀ (x : Z1) (s : State) (en : Entry), en.Fair → en.c.e ≠ 0 → en.c.b = en.s.block en.c.core en.c.bi →
    let lanes := maskLanes en.c.e
    let scrSize := en.c.b.scrSize
    let takes := LeafTakes en.s (towerOf en.c.core) (copyLeaf en.c.core) en.c.b.cls
    (entry .cpy x s = some en →
      let n := 4 * 2 ^ fld x.mod 1 0
      let dS : Bool := fld x.mod 2 2 = 1
      let sS : Bool := fld x.mod 3 3 = 1
      let d (l : Nat) : Nat := en.c.regN en.s x.a.toNat (if dS then 1 else 2) l
      let r (l : Nat) : Nat := en.c.regN en.s x.b.toNat (if sS then 1 else 2) l
      takes → (∀ l ∈ lanes, d l % n = 0 ∧ r l % n = 0 ∧ (dS = true → d l + n ≤ scrSize) ∧ (sS = true → r l + n ≤ scrSize)) →
      (dS = false → DestsCached en.s en.c.core en.c.b.fn (lanes.map d)) →
      ∃ t, exec (.cpy x) s = .next t ∧
        CopyBegun en t (.cpy n dS sS (lanes.map fun l => (d l, r l))) x.d.toNat (n * lanes.length) 65536) ∧
    (entry .tcpy x s = some en →
      let d := layOf en.c.b (fld x.mod 2 0)
      let u := layOf en.c.b (fld x.mod 5 3)
      let g := if fld x.mod 6 6 = 1 then some (layOf en.c.b (fld x.a 2 0)) else none
      takes → unpushed en.s en.c.core < 16 → tcpyOk d u g = true → (∀ l ∈ [d, u] ++ g.toList, l.scratch = true → l.inside scrSize = true) →
      (d.scratch = false → DestsCached en.s en.c.core en.c.b.fn ((List.range d.count).map fun e => d.addr (coordOf d.ext e))) →
      ∃ t, exec (.tcpy x) s = .next t ∧ CopyBegun en t (.tcpy d u g) x.d.toNat (d.count * d.size) (65536 / d.size * d.size)) ∧
    (entry .layset x s = some en →
      let w := cmd0 x.ext
      let a := x.a.toNat
      let rank := fld w 8 7 + 1
      let scr : Bool := fld w 3 3 = 1
      let ext (k : Nat) : Nat := en.c.scal en.s (a + 2 + k) % 2 ^ 25
      (∀ k, k < rank → 1 ≤ ext k ∧ ext k ≤ 2 ^ 24) →
      let y : Lay :=
        { written := true, scratch := scr, size := 2 ^ fld w 6 4, rank := rank
          ext := (List.range 4).map fun k => if k < rank then ext k else 1
          stride := (List.range 4).map fun k => if k < rank then sextN 32 (en.c.scal en.s (a + 6 + k)) else 0
          base := truncN (if scr then 32 else 64)
            (((if scr then en.c.scal en.s a else en.c.scalPair en.s a : Nat) : Int) + sextN 32 (cmd1 x.ext).toNat) }
      ∃ t, exec (.layset x) s = .next t ∧ BlockChanges en t (fun b => { b with lays := smPut b.lays (fld w 2 0) y }))

/-- 08 R162, R163, R167, R168, 16 R321, 23 R409, R410: the engine takes its leaf's head; a copy between scratchpad places puts
every piece's bytes as they stood at its destination, changes no others, and lands status 0x80000001; a segment told to stop returns
to its leaf behind 4 KiB of progress and is counted where a push stopped it.
Rests on the model's own reading or choice of logs 26 and 43 where the manual leaves that open. -/
def Obligations.CopySegments : Prop :=
  ∀ (s : State) (core : Nat),
    let leaf (u : State) : List Task := u.queue (towerOf core) true (copyLeaf core)
    (∀ x q c lo hi, leaf s = x :: q → x.body = .seg c lo hi → (s.core core).segs.length < 4 → taskSaving s core x = false →
      ∃ u, exec (.copySegmentStart core) s = .next u ∧ leaf u = q ∧ u.mem = s.mem ∧ u.copies = s.copies ∧
        (u.core core).segs = (s.core core).segs ++ [{ task := x, copy := c, lo := lo, hi := hi }] ∧
        (u.core core).warps = (s.core core).warps ∧ (u.core core).blocks = (s.core core).blocks) ∧
    (∀ bi n ps g c, ScratchCopy s core bi n ps g c → ∃ u, exec (.copySegmentRetire core g.task.id) s = .next u ∧ u.mem = s.mem ∧
      (∀ p ∈ ps, scrBytes (u.block core bi) p.1 n = scrBytes (s.block core bi) p.2 n) ∧
      (∀ a, (∀ p ∈ ps, a < p.1 ∨ p.1 + n ≤ a) → smGetD (u.block core bi).scr 0 a = smGetD (s.block core bi).scr 0 a) ∧
      (∀ d ∈ u.copies, d.id ≠ c.id) ∧ (∀ h ∈ (u.core core).segs, h.task.id ≠ g.task.id) ∧
      ∀ p ∈ c.members, (c.members.map (·.1)).Nodup → ∀ w, s.warp? core p.1 = some w → c.dst < privRegs (s.block core w.block) w → c.dst < 512 → (c.dst, c.id) ∈ w.outst →
        ∃ v, u.warp? core p.1 = some v ∧ (p.2 ≠ 0 → v.copies = w.copies - 1) ∧
          ∀ l, l < 32 → inMask p.2 l → smGetD v.v 0 (32 * c.dst + l) = 0x80000001) ∧
    (∀ g c s1, (s.core core).segs.find? (fun h => h.task.id == g.task.id && h.stop) = some g → s.copy? g.copy = some c → c.id = g.copy →
      c.dead = false → segReady s core g = true → g.lo + 4096 < g.hi → doChunk s c g = (true, s1) → (∀ d, s1.copy? g.copy = some d →
        d.retired + 4096 < d.bytes ∧ d.dead = false) → (s1.copy? g.copy).isSome →
      ∃ u, exec (.copySegmentBoundary core g.task.id) s = .next u ∧ u.mem = s1.mem ∧
        { g.task with body := .seg c.id (g.lo + 4096) g.hi, length := g.hi - (g.lo + 4096) } ∈ leaf u ∧
        u.reg (leafReg (towerOf core) (copyLeaf core) 6) =
          s1.reg (leafReg (towerOf core) (copyLeaf core) 6) + (if g.by'.isSome then 1 else 0) ∧
        (u.copy? g.copy).map (·.retired) = (s1.copy? g.copy).map fun d => d.retired + 4096)

/-- 08 R169 to R171, R175, 16 R325 to R327, 05 R109: RINIT makes an empty ring; RFILL.get claims the empty slot f, RTAKE the full slot
t, once the release of who handed it on is complete, and deliver its address with index and phase; RFILL and RTAKE.back hand the
oldest such slot on with their release and never wait; RINGADV, its release complete, moves an ingest ring's consumer
index to one between the old index and the producer's, and says whether it did. -/
def Obligations.Rings : Prop :=
  ∀ (x : Z1) (s : State) (en : Entry), en.Fair → en.c.e ≠ 0 → en.c.b = en.s.block en.c.core en.c.bi →
    let w0 := cmd0 x.ext
    let w1 := cmd1 x.ext
    let k := fld x.mod 5 2
    let key := if en.c.scope = .set then 100 + (en.c.b.setOf en.c.w.num).elim 8 (·.1) else en.c.w.num
    let word (r : Ring) (i : Nat) (ph : Bool) : Word :=
      BitVec.ofNat 32 ((r.base + i * r.size) % 2 ^ 20 + i * 2 ^ 20 + if ph then 2 ^ 24 else 0)
    let on (r : Ring) (i : Nat) : Nat := if i + 1 < r.n then i + 1 else 0
    (entry .rinit x s = some en → fld w0 19 0 + fld w1 24 20 * fld w1 16 0 ≤ en.c.b.scrSize →
      ∃ t, exec (.rinit x) s = .next t ∧ BlockChanges en t (withRing (fld w0 23 20)
        { base := fld w0 19 0, size := fld w1 16 0, n := fld w1 24 20, slots := List.replicate (fld w1 24 20) 0
          getQ := ((smGet? en.c.b.rings (fld w0 23 20)).map (·.getQ)).getD [], takeQ := ((smGet? en.c.b.rings (fld w0 23 20)).map (·.takeQ)).getD [] })) ∧
    (entry .ringadv x s = some en → en.Settled → en.s.advs = [] →
      let id := en.c.scal en.s x.a.toNat % 256
      let goal := en.c.scalPair en.s x.b.toNat
      let old := smGetD en.s.rings (0, 0) id
      let ctl := fld (en.s.reg (ringReg id 4)) 31 6 * 2 ^ 6 + fld (en.s.reg (ringReg id 5)) 15 0 * 2 ^ 32
      let ok := decide ((goal + 2 ^ 64 - old.2) % 2 ^ 64 ≤ (old.1 + 2 ^ 64 - old.2) % 2 ^ 64)
      en.c.b.ringBase ≤ id → id < en.c.b.ringBase + en.c.b.ringCount → Unheld en.s (ctl + 8) 8 →
      ∃ t, exec (.ringadv x) s = .next t ∧ PredResult en t 16 (fld x.mod 2 0) (fun _ => ok) ∧ KeepsRegs en.c.core en.s t ∧
        MemoryOutside en.s t (ctl + 8) 8 ∧ t.memNat (ctl + 8) 8 = (if ok then goal % 2 ^ 64 else en.s.memNat (ctl + 8) 8) ∧
        smGetD t.rings (0, 0) id = if ok then (old.1, goal) else old) ∧
    ∀ r, smGet? en.c.b.rings k = some r →
    let open' (i : Nat) : Prop := drained en.s en.c.core ((smGet? r.rel i).getD []) = true
    (entry .rfillGet x s = some en → r.getQ = [] → r.slots[r.f]? = some 0 → open' r.f → ∃ t, exec (.rfillGet x) s = .next t ∧
      BlockChanges en t (withRing k { r with slots := setAt r.slots r.f 1, f := on r r.f, fPhase := r.fPhase != decide (r.n ≤ r.f + 1)
                                             filling := r.filling ++ [r.f], getQ := [], rel := smDel r.rel r.f }) ∧
      RegResult en t 4 x.d.toNat (fun _ => [word r r.f r.fPhase])) ∧
    (entry .rfillGet x s = some en → r.getQ.head? = some key → r.slots[r.f]? = some 0 → open' r.f → ∃ t, exec (.rfillGet x) s = .next t ∧
      BlockChanges en t (withRing k { r with slots := setAt r.slots r.f 1, f := on r r.f, fPhase := r.fPhase != decide (r.n ≤ r.f + 1)
                                             filling := r.filling ++ [r.f], getQ := r.getQ.drop 1, rel := smDel r.rel r.f }) ∧
      RegResult en t 4 x.d.toNat (fun _ => [word r r.f r.fPhase])) ∧
    (entry .rtake x s = some en → r.takeQ = [] → r.slots[r.t]? = some 2 → open' r.t → ∃ t, exec (.rtake x) s = .next t ∧
      BlockChanges en t (withRing k { r with slots := setAt r.slots r.t 3, t := on r r.t, tPhase := r.tPhase != decide (r.n ≤ r.t + 1)
                                             taken := r.taken ++ [r.t], takeQ := [], rel := smDel r.rel r.t }) ∧
      RegResult en t 4 x.d.toNat (fun _ => [word r r.t r.tPhase])) ∧
    (entry .rfill x s = some en → r.filling = [] → ∃ t, exec (.rfill x) s = .next t ∧ KeepsRegs en.c.core en.s t) ∧
    (entry .rtakeBack x s = some en → r.taken = [] → ∃ t, exec (.rtakeBack x) s = .next t ∧ KeepsRegs en.c.core en.s t) ∧
    (entry .rfill x s = some en → ∀ i q, r.filling = i :: q → ∃ t, exec (.rfill x) s = .next t ∧
      BlockChanges en t (withRing k { r with slots := setAt r.slots i 2, filling := q, rel := smPut r.rel i (relBounds en.s en.c.members) })) ∧
    (entry .rtakeBack x s = some en → ∀ i q, r.taken = i :: q → ∃ t, exec (.rtakeBack x) s = .next t ∧
      BlockChanges en t (withRing k { r with slots := setAt r.slots i 0, taken := q, rel := smPut r.rel i (relBounds en.s en.c.members) }))

/-! ### Fabric (08, 16, 27) -/

/-- 08 R176, R177, 16 R328 to R330: FXW within the peer's window records its bytes with the pair and raises the pair's count by them;
FXFLAG records a flag that carries the count so far, each with the key of its own descriptor; on a failed pair it ends at once with status kind 4,
and a write of no bytes with kind 1.
Rests on the model's own reading or choice of log 27 where the manual leaves that open. -/
def Obligations.CountedWrites : Prop :=
  ∀ (x : Z1) (s : State) (en : Entry), en.Fair → en.c.e ≠ 0 →
    let sc (k : Nat) : Nat := en.c.scal en.s (x.a.toNat + k)
    let off := en.c.scalPair en.s x.a.toNat
    let peer := sc 5 % 4096
    let key := pairKey en.s peer (sc 6 % 2 ^ 14)
    let r := en.s.send key peer
    let open' (n : Nat) : Prop := sc 5 / 4096 = 0 ∧ en.s.peerOn peer = true ∧ n ≤ 2 ^ 22 ∧ off + n ≤ peerLimit en.s peer ∧
      sc 6 / 2 ^ 14 % 4 = 0 ∧ peerRecords en.s peer = true
    (entry .fxw x s = some en → open' (sc 4) →
      (en.s.sends.filter fun e => e.1 / 2 ^ 20 == en.s.homePort peer).foldl (fun a e => a + e.2.fxws.length) 0 < 16384 →
      ∃ t, exec (.fxw x) s = .next t ∧
        (sc 4 = 0 → Lands en.s t en.c.core en.c.members none x.d.toNat x.d.toNat 0x80000001 ∧
          (L1Clean en.s en.c.core → KeepsMemory en.c.core en.s t)) ∧
        (sc 4 ≠ 0 → KeepsMemory en.c.core en.s t ∧ Raises en t .copies ∧ KeepsRegs en.c.core en.s t ∧ ∃ r1 f, smGet? t.sends key = some r1 ∧ r1.peer = peer ∧
          r1.count = (r.count + sc 4) % 2 ^ 32 ∧ r1.fxws = r.fxws ++ [f] ∧ f.key = sc 6 / 2 ^ 16 ∧ f.off = off ∧ f.src = en.c.scalPair en.s (x.a.toNat + 2) ∧
          f.len = sc 4 ∧ f.dst = x.d.toNat ∧ f.members = en.c.members ∧ f.sent = 0)) ∧
    (entry .fxflag x s = some en → off % 4 = 0 → open' 4 → sc 4 ≠ 0xFFFFFFFF →
      ∃ t, exec (.fxflag x) s = .next t ∧
        (r.failed = true → Lands en.s t en.c.core en.c.members none x.d.toNat x.d.toNat (BitVec.ofNat 32 (2 ^ 31 + r.inc * 2 ^ 20 + 4)) ∧
          (L1Clean en.s en.c.core → KeepsMemory en.c.core en.s t)) ∧
        (r.failed = false → KeepsMemory en.c.core en.s t ∧ Raises en t .copies ∧ KeepsRegs en.c.core en.s t ∧ ∃ r1 f, smGet? t.sends key = some r1 ∧
          f ∈ r1.flags ∧ r1.count = r.count ∧ f.key = sc 6 / 2 ^ 16 ∧ f.off = off ∧ f.value = BitVec.ofNat 32 (sc 4) ∧ f.count = r.count ∧ f.resends = 0 ∧ f.dst = x.d.toNat ∧ f.members = en.c.members))

/-- 08 R180 to R182, 16 R331 to R333: FXRD begins a read of a peer's bytes into memory, FXATOM sends its operation and operands, each with
a tag of its own; ACWAIT delivers a granted counter's pair once the count is reached, with every other whose count is, and until then waits among the counter's 64 without having issued;
ACREAD delivers the pair at once.
Rests on the model's own reading or choice of logs 27, 28 and 44 where the manual leaves that open. -/
def Obligations.RemoteInstructions : Prop :=
  ∀ (x : Z1) (s : State) (en : Entry), en.Fair → en.c.e ≠ 0 →
    let sc (k : Nat) : Nat := en.c.scal en.s (x.a.toNat + k)
    let pair (k : Nat) : Nat := en.c.scalPair en.s (x.a.toNat + k)
    let open' (pw n : Nat) : Prop := pw / 4096 = 0 ∧ en.s.peerOn (pw % 4096) = true ∧ n ≤ 2 ^ 22 ∧ pair 0 + n ≤ peerLimit en.s (pw % 4096)
    let ctr := en.c.scal en.s x.a.toNat % 2 ^ 14
    (entry .fxrd x s = some en → open' (sc 5) (sc 4) →
      (sc 4 ≠ 0 → NoWalk en.s en.s.nextId ∧ DestsCached en.s en.c.core en.c.b.fn
        ((List.range (sc 4 / 128 + 2)).map fun i => if i = 0 then pair 2 else pair 2 + min (sc 4 - 1) (128 * (pair 2 / 128 + i) - pair 2))) →
      ∃ t, exec (.fxrd x) s = .next t ∧ KeepsMemory en.c.core en.s t ∧
        (sc 4 = 0 → Lands en.s t en.c.core en.c.members none x.d.toNat x.d.toNat 0x80000001) ∧
        (sc 4 ≠ 0 → Raises en t .copies ∧ KeepsRegs en.c.core en.s t ∧ ∃ c ∈ t.copies, c.kind = .fxrd (pair 2) (sc 4) (sc 5 % 4096) (pair 0) ∧
          c.dst = x.d.toNat ∧ c.members = en.c.members ∧ ∃ tag r, smGet? t.remote tag = some r ∧ r.who = .copy c.id ∧ r.peer = sc 5 % 4096 ∧
            r.req.tag = tag ∧ r.req.off = pair 0 ∧ r.req.len = sc 4)) ∧
    (entry .fxatom x s = some en →
      let n := x.ty.width / 8
      pair 0 % n = 0 → open' (sc 6) n →
      ∃ t, exec (.fxatom x) s = .next t ∧ KeepsMemory en.c.core en.s t ∧ Raises en t .copies ∧ KeepsRegs en.c.core en.s t ∧
        ∃ tag r, smGet? t.remote tag = some r ∧ r.who = .atom en.c.slot x.d.toNat en.c.low en.c.members (fld x.mod 3 3 = 1) ∧ r.peer = sc 6 % 4096 ∧
          r.req.tag = tag ∧ r.req.off = pair 0 ∧ r.req.len = 0 ∧ r.req.op.toNat = fld x.mod 2 0 ∧ r.req.ty = x.ty ∧
          r.req.a = (if n = 8 then pair 2 else sc 2) ∧ r.req.b = if n = 8 then pair 4 else sc 4) ∧
    (entry .acwait x s = some en → ctrGranted en.c.b ctr = true →
      let target := en.c.scal en.s x.b.toNat
      let old := (en.s.ctr ctr).waiters
      let met (v : Nat) : Bool := ctrMet (en.s.ctr ctr) v
      let gives (ws : List Word) (f : State → Prop) : Prop := ∃ t, exec (.acwait x) s = .next t ∧ KeepsMemory en.c.core en.s t ∧ Raises en t .loads ∧
        KeepsRegs en.c.core en.s t ∧ Queues en t (fun o => o.dst = some x.d.toNat ∧ o.kind = .value ∧ ∀ y ∈ o.accs, y.a = ws) ∧ f t
      (∀ v, en.c.w.acw = some v → gives [v.1, v.2] fun t => (t.ctr ctr).waiters = old) ∧
      (en.c.w.acw = none → met target = true → gives (ctrPair en.s ctr) fun t => (t.ctr ctr).released = false ∧
        (t.ctr ctr).waiters = old.filter (fun p => !met p.2.2) ∧
        ∀ p ∈ old, met p.2.2 = true → ¬ (p.1 = en.c.core ∧ p.2.1 = en.c.slot) → ∀ w, en.s.warp? p.1 p.2.1 = some w →
          ∃ v, t.warp? p.1 p.2.1 = some v ∧ v.acw.map (fun q => [q.1, q.2]) = some (ctrPair en.s ctr)) ∧
      (en.c.w.acw = none → met target = false → (∀ w ∈ old, ¬ (w.1 = en.c.core ∧ w.2.1 = en.c.slot)) → old.length < 64 →
        ∃ t, exec (.acwait x) s = .next t ∧ KeepsMemory en.c.core en.s t ∧ KeepsRegs en.c.core en.s t ∧
          (t.ctr ctr).waiters = old ++ [(en.c.core, en.c.slot, target)] ∧ (t.warp? en.c.core en.c.slot).map (·.pc) = (en.s.warp? en.c.core en.c.slot).map (·.pc))) ∧
    (entry .acread x s = some en → ctrGranted en.c.b ctr = true →
      ∃ t, exec (.acread x) s = .next t ∧ OnlyOps en.c.core en.s t ∧ Raises en t .loads ∧ Queues en t fun o => o.dst = some x.d.toNat ∧
        o.kind = .value ∧ ∀ y ∈ o.accs, y.a = ctrPair en.s ctr)

/-- 27 R457, R450, 08 R177: the port sends its head packet: the bytes of a counted write as memory holds them, with the entropy value of
their place in the burst, a flag with its count, a remote request; the packet leaves the queue and the frame is counted.
Rests on the model's own reading or choice of log 27 where the manual leaves that open. -/
def Obligations.EgressSends : Prop :=
  ∀ (s : State) (port : Nat) (x : Task) (q : List Task), egressReady s port = true → port < 12 →
    s.queue (port / 6) true (egressLeaf port) = x :: q →
    let sends (o : Out) (f : State → Prop) : Prop := ∃ u, exec (.egressPacketSend port) s = .next u ∧ u.out = s.out ++ [o] ∧ u.mem = s.mem ∧
      u.reg64 (portCtr port 0x80) = (s.reg64 (portCtr port 0x80) + 1) % 2 ^ 64 ∧ (∀ y ∈ u.queue (port / 6) true (egressLeaf port), y ∈ q) ∧ f u
    (∀ key f o n r w pa, x.body = .packet (.data key f o n) → findSend s key = some r → r.fxws.find? (fun v => v.id == f) = some w → L1Clean s w.core →
      EngineReads s w.core w.fn (s.portSecure port) w.id (w.src + o) n pa → w.sent + n < w.len → r.failed = false →
      let y := s.reg (portReg port 1)
      let burst := (w.off + o) / 4096 - w.off / 4096
      sends (.data port r.peer ((fld y 31 16 + burst % (fld y 15 8 + 1)) % 2 ^ 16)
          { src := port, counter := key % 16384, key := w.key, inc := r.inc, off := w.off + o, bytes := s.bytesAt pa n })
        fun u => ∃ r1, smGet? u.sends key = some r1 ∧ { r1 with fxws := r.fxws } = r ∧ r1.fxws.map (·.sent) = r.fxws.map fun v => if v.id = f then v.sent + n else v.sent) ∧
    (∀ key f r w, x.body = .packet (.flag key f) → findSend s key = some r → r.flags.find? (fun v => v.id == f) = some w → L1Clean s w.core → wbWaits s w.core = false →
      sends (.flag port r.peer { src := port, counter := key % 16384, key := w.key, inc := r.inc, count := w.count, off := w.off, value := w.value })
        fun u => ∃ r1, smGet? u.sends key = some r1 ∧ ∀ v ∈ r1.flags, v.id = f → v.due = some (s.now + 2 * tLostClk s)) ∧
    (∀ t r, x.body = .packet (.readReq t) ∨ x.body = .packet (.atomReq t) → smGet? s.remote t = some r → L1Clean s r.core →
      (r.share = 0 ∨ wbWaits s r.core = false) → sends (.remote port r.peer r.req) fun u => smGet? u.remote t = some { r with due := some (s.now + tLostClk s) })

/-- 08 R178, 27 R453, R454: a counted write that reaches its counter in order is written at its window's memory and counted; under a newer incarnation
the count begins anew; one with a wrong key, an old incarnation or outside the windows changes no memory and is counted at the port.
Rests on the model's own reading or choice of log 27 where the manual leaves that open. -/
def Obligations.CountedArrivals : Prop :=
  ∀ (s : State) (port : Nat) (p : DataPacket),
    (∀ pa, PacketLands s port p.counter p.key p.inc p.off p.bytes.length pa → flagParked s p.counter = false →
      ∃ u, exec (.fxwPacketArrive port p) s = .next u ∧ u.bytesAt pa p.bytes.length = p.bytes ∧ MemoryOutside s u pa p.bytes.length ∧ u.cores = s.cores ∧
        (u.ctr p.counter).inc = p.inc ∧ (u.ctr p.counter).failed = false ∧
        (u.ctr p.counter).count = ((if p.inc = (s.ctr p.counter).inc then (s.ctr p.counter).count else 0) + p.bytes.length) % 2 ^ 32) ∧
    (s.portOn port = true → ∀ off,
      let on : Prop := ctrOn s p.counter = true ∧ fld (s.reg (ctrReg p.counter 0)) 15 0 = p.key
      let new : Prop := p.inc = (s.ctr p.counter).inc ∨ newer p.inc (s.ctr p.counter).inc = true
      (off = 0x98 ∧ ¬ on) ∨ (off = 0x90 ∧ on ∧ (s.ctr p.counter).failed = false ∧ ¬ new) ∨
        (off = 0xA0 ∧ on ∧ (s.ctr p.counter).failed = false ∧ new ∧ inWindow s port p.off p.bytes.length = none) →
      ∃ u, exec (.fxwPacketArrive port p) s = .next u ∧ { u with bar0 := s.bar0 } = s ∧
        u.reg64 (portCtr port off) = (s.reg64 (portCtr port off) + 1) % 2 ^ 64 ∧
        Bar0Keeps [portCtr port 0x88, portCtr port 0x88 + 4, portCtr port off, portCtr port off + 4] s u)

/-- 08 R178, 27 R455: a flag whose count is reached is written and acknowledged, one whose count is not is parked with a timer; a failure notice fails its
counter and writes 0xFFFFFFFF; a timer that has run out asks the sender again; a waiting ACWAIT whose target is reached gets its pair.
Rests on the model's own reading or choice of logs 28, 44 and 55 where the manual leaves that open. -/
def Obligations.FlagsAndCounters : Prop :=
  ∀ s : State,
    (∀ port (p : FlagPacket) pa, PacketLands s port p.counter p.key p.inc p.off 4 pa → p.inc = (s.ctr p.counter).inc → (s.ctr p.counter).last ≠ some (p.count, p.off) →
      ∃ u, exec (.flagArrive port p) s = .next u ∧ u.cores = s.cores ∧
        (reached (s.ctr p.counter).count p.count = true → u.bytesAt pa 4 = toBytes 4 p.value.toNat ∧ MemoryOutside s u pa 4 ∧
          u.ctr p.counter = { s.ctr p.counter with released := true, last := some (p.count, p.off) } ∧
          u.out = s.out ++ [.ack port p.src { src := port, counter := p.counter, key := p.key, inc := p.inc, count := p.count, off := p.off }]) ∧
        (reached (s.ctr p.counter).count p.count = false → (∀ q ∈ s.parked, q.flag ≠ p) → s.parked.length < 4096 →
          u.mem = s.mem ∧ u.out = s.out ∧ u.parked = s.parked ++ [{ flag := p, port := port, due := s.now + tLostClk s }])) ∧
    (∀ port (p : CtlPacket) pa, s.portOn port = true → ctrOn s p.counter = true → fld (s.reg (ctrReg p.counter 0)) 15 0 = p.key → inWindow s port p.off 4 = some pa →
      Unheld s pa 4 → p.counter < 16384 → ∃ u, exec (.failureNoticeArrive port p) s = .next u ∧ u.bytesAt pa 4 = [0xFF, 0xFF, 0xFF, 0xFF] ∧ MemoryOutside s u pa 4 ∧ u.cores = s.cores ∧
        u.ctr p.counter = { s.ctr p.counter with failed := true } ∧ u.parked = s.parked.filter fun q => q.flag.counter != p.counter) ∧
    (∀ k, ∃ u, exec (.pendingFlagTimer k) s = .next u ∧ u.mem = s.mem ∧ u.cores = s.cores ∧ u.parked.map (·.flag) = s.parked.map (·.flag) ∧
      u.out = s.out ++ (s.parked.filter fun p => p.flag.counter == k && decide (p.due ≤ s.now) && s.portOn p.port).map fun p => .shortfall p.port p.flag.src
        { src := p.port, counter := k, key := p.flag.key, inc := (s.ctr k).inc, count := (s.ctr k).count, off := p.flag.off, want := p.flag.count }) ∧
    (∀ k core slot t w, (s.ctr k).waiters = [(core, slot, t)] → ctrMet (s.ctr k) t = true → s.warp? core slot = some w →
      ∃ u v, exec (.acwaitComplete k) s = .next u ∧ (u.ctr k).waiters = [] ∧ (u.ctr k).released = false ∧ u.mem = s.mem ∧ u.warp? core slot = some v ∧
        v.acw.map (fun p => [p.1, p.2]) = some (ctrPair s k) ∧ v.regs = w.regs)

/-- 16 R330, 27 R452: an acknowledgement ends its flag and the earlier ones with status kind 3; a shortfall begins the next incarnation with everything to send again;
a flag no answer reached is sent again alone; the third shortfall fails the pair. -/
def Obligations.SendersAnswers : Prop :=
  ∀ (s : State) (port key : Nat) (p : CtlPacket) (r : SendRec),
    (Answers s port key p r → ∀ f, r.flags.find? (fun g => g.count == p.count && g.off == p.off) = some f → ∃ u, exec (.flagAckArrive port p) s = .next u ∧ u.mem = s.mem ∧
      smGet? u.sends key = some { r with flags := r.flags.filter (fun g => decide (f.id < g.id)), fxws := r.fxws.filter fun w => decide (f.id < w.id) } ∧
      (r.flags = [f] → Lands s u f.core f.members (some f.id) f.dst f.dst (BitVec.ofNat 32 (2 ^ 31 + r.inc * 2 ^ 20 + f.resends * 2 ^ 16 + 3)))) ∧
    (Answers s port key p r → (∃ f ∈ r.flags, f.off = p.off ∧ f.count = p.want) → ∃ u r1, exec (.shortfallArrive port p) s = .next u ∧ u.mem = s.mem ∧ smGet? u.sends key = some r1 ∧
      ((∀ f ∈ r.flags, f.resends < 2) → r1.inc = (r.inc + 1) % 16 ∧ r1.count = r.fxws.foldl (fun a w => a + w.len) 0 % 2 ^ 32 ∧ r1.failed = false ∧
        r1.flags.map (·.resends) = r.flags.map (fun f => f.resends + 1) ∧ r1.fxws.map (·.sent) = r.fxws.map fun _ => 0) ∧
      ((∃ f ∈ r.flags, 2 ≤ f.resends) → r1.failed = true ∧ r1.flags = [])) ∧
    (smGet? s.sends key = some r → (∃ f ∈ r.flags, f.due.any (· ≤ s.now) = true) → ∃ u r1, exec (.flagResendTimer key) s = .next u ∧ u.mem = s.mem ∧
      smGet? u.sends key = some r1 ∧ r1.fxws = r.fxws ∧ r1.count = r.count ∧ r1.flags.map (·.value) = r.flags.map (·.value) ∧
      r1.flags.map (·.due) = r.flags.map fun f => if f.due.any (· ≤ s.now) then none else f.due)

/-- 05 R114, 08 R181, R182: a peer's read of bytes within one packet is answered with them; its atomic is applied once, and a reissue gets the first answer again.
Rests on the model's own reading or choice of log 27 where the manual leaves that open. -/
def Obligations.RemoteRequests : Prop :=
  ∀ (s : State) (port pa : Nat) (r : RemoteReq), s.portOn port = true → port < 12 →
    (0 < r.len → (r.off + r.len - 1) / 4096 = r.off / 4096 → inWindow s port r.off r.len = some pa → Clean s pa r.len → Unheld s pa r.len →
      ∃ u, exec (.remoteReadRequest port r) s = .next u ∧ u.mem = s.mem ∧ u.cores = s.cores ∧
        u.out = s.out ++ [.readReply port r.src r.tag 0 (fld (s.reg (portReg port 1)) 31 16) (s.bytesAt pa r.len)]) ∧
    (inWindow s port r.off (r.ty.width / 8) = some pa → s.poisoned pa = false → Unheld s pa (r.ty.width / 8) → (∀ q ∈ s.replyCache, ¬ (q.1 = r.src ∧ q.2.1 = r.tag)) →
      let n := r.ty.width / 8
      ∃ u, exec (.remoteAtomicRequest port r) s = .next u ∧ MemoryOutside s u pa n ∧ u.cores = s.cores ∧
        u.out = s.out ++ [.atomReply port r.src r.tag (s.memNat pa n)] ∧ (r.src, r.tag, s.memNat pa n, s.now + 4 * tLostClk s) ∈ u.replyCache ∧
        u.bytesAt pa n = (match atomNew r.op.toNat r.ty (s.memNat pa n) r.a r.b with | some v => toBytes n v | none => s.bytesAt pa n)) ∧
    (∀ q, s.replyCache.find? (fun q => q.1 == r.src && q.2.1 == r.tag) = some q → s.now < q.2.2.2 →
      ∃ u, exec (.remoteAtomicRequest port r) s = .next u ∧ u.mem = s.mem ∧ u.cores = s.cores ∧ u.out = s.out ++ [.atomReply port r.src r.tag q.2.2.1])

/-- 08 R181, R182, 16 R331, R333, 15 R318, 27 R456: a reply's bytes reach the lane that asked, an atomic's old value and status 1 the registers of an FXATOM; a request without a
reply is sent again up to three times, and an FXATOM then ends with status kind 6; an idle delivery context ends.
Rests on the model's own reading or choice of log 27 where the manual leaves that open. -/
def Obligations.RemoteReplies : Prop :=
  ∀ (s : State) (tag : Nat) (r : RemOut), smGet? s.remote tag = some r →
    let calm : Prop := (∀ e ∈ (s.core r.core).warps, e.2.fences = []) ∧ s.advs = []
    (∀ slot op lane va o d w data, calm → smSorted s.remote = true → partTags s r = [(tag, r)] → o.kind = .load → s.portOn r.port = true → r.who = .lane slot op lane va → r.got = [] → 0 < r.req.len → (r.req.off + r.req.len - 1) / 4096 = r.req.off / 4096 →
      data.length = r.req.len → findOp s r.core slot op = some o → o.id = op → o.dst = some d → o.members = [(slot, o.e)] → inMask o.e lane = true → lane < 32 →
      s.warp? r.core slot = some w → d + 4 ≤ privRegs (s.block r.core w.block) w → d + 4 ≤ 512 → (d, op) ∈ w.outst →
      ∃ u v, exec (.remoteReadReply ⟨r.port, tag⟩ 0 data) s = .next u ∧ smGet? u.remote tag = none ∧ u.mem = s.mem ∧ u.warp? r.core slot = some v ∧
        ∀ k x, (loadWords o.ty o.size data)[k]? = some x → k < 4 → smGetD v.v 0 (32 * (d + k) + lane) = x) ∧
    (∀ slot d low members acq old, s.portOn r.port = true → r.who = .atom slot d low members acq → r.req.len = 0 → calm →
      ∃ u, exec (.remoteAtomicReply ⟨r.port, tag⟩ old) s = .next u ∧ smGet? u.remote tag = none ∧ u.mem = s.mem ∧
        Lands s u r.core members (some tag) d (d + 2) 0x80000001 ∧ Lands s u r.core members (some tag) d (d + 3) 0 ∧
        (r.req.ty.width = 64 → Lands s u r.core members (some tag) d d (BitVec.ofNat 32 old) ∧
          Lands s u r.core members (some tag) d (d + 1) (BitVec.ofNat 32 (old % 2 ^ 64 / 2 ^ 32))) ∧
        (r.req.ty = .n32 ∨ r.req.ty = .b32 → Lands s u r.core members (some tag) d d (BitVec.ofNat 32 old))) ∧
    (∀ i, (i = .remoteReadRetransmit tag ∧ 0 < r.req.len) ∨ (i = .remoteAtomicReissue tag ∧ r.req.len = 0) → (∀ id, r.who ≠ .copy id) → calm → r.due.any (· ≤ s.now) = true →
      ∃ u, exec i s = .next u ∧ u.mem = s.mem ∧
        (r.tries < 3 → smGet? u.remote tag = some { r with tries := r.tries + 1, due := none }) ∧ (3 ≤ r.tries → smGet? u.remote tag = none) ∧
        ∀ slot d low members acq, r.who = .atom slot d low members acq → 3 ≤ r.tries → Lands s u r.core members (some tag) d (d + 2) 0x80000006) ∧
    (∀ k t, smGet? s.pdcs k = some t → t + clkOfUs (s.regN (timeReg 1)) ≤ s.now → ∃ u, exec (.deliveryContextTeardown k) s = .next u ∧
      smGet? u.pdcs k = none ∧ (∀ j, j ≠ k → smGet? u.pdcs j = smGet? s.pdcs j) ∧ { u with pdcs := s.pdcs } = s)
/-! ### The scheduling tree (23) -/

/-- 22 R384, 23 R399, R402 to R404, R416, R417, R419: a node's head moves to its child by rank, where the child has room, and else is offered again;
a window's push queues its record's task and is counted as accepted, one at an address that is no multiple of 64 as dropped; a push whose time has come is tried again; a descriptor is enabled where it passes its checks.
Rests on the model's own reading or choice of log 29 where the manual leaves that open. -/
def Obligations.TreePushes : Prop :=
  ∀ s : State,
    (∀ t n k leaf x, t < 2 → n < 512 → k < 512 → offerReady s t n = some x → s.jobs = [] → (s.reg (nodeReg t n 0)).getLsbD 10 = leaf →
      fld (s.reg (nodeReg t n 0)) 9 0 = k → (s.reg (nodeReg t n 2)).getLsbD 15 = false → (leaf = false → k ≠ n) →
      let takes : Prop := treeRoom s t leaf k = true ∧ (leaf = true → descOn s t true k = true)
      (takes → Plain s t leaf k → ∃ u, exec (.nodeOffer t n) s = .next u ∧ u.mem = s.mem ∧ u.bar0 = s.bar0 ∧
        u.queue t leaf k = placeIn (s.queue t leaf k) { x with rank := x.rank % 65536 } ∧
        u.queue t false n = (s.queue t false n).filter fun y => y.id != x.id) ∧
      (takes → (s.reg (descReg t leaf k 2)).getLsbD 31 = true → ∃ u j, exec (.nodeOffer t n) s = .next u ∧
        u.jobs = [j] ∧ j.task = x ∧ j.pc = fld (s.reg (descReg t leaf k 2)) 27 16 ∧ j.left = 32 ∧ j.q = [] ∧ u.queues = s.queues) ∧
      (¬ takes → ∃ u w, exec (.nodeOffer t n) s = .next u ∧ u.queues = s.queues ∧ u.waitq = s.waitq ++ [w] ∧ w.task = x ∧
        w.fin = .offer n ∧ w.retry = some (s.now + 16 * max 1 (fld (s.reg (descReg t leaf k 4)) 15 0)))) ∧
    (∀ fn target, isFn fn = true → target < 2 ^ 32 →
      let va := s.reg64 (winBase fn)
      (∀ pa ps, (s.reg (ctxReg fn 0)).getLsbD 31 = true → va % 64 = 0 → Pushable s 512 fn (s.fnSecure fn) va target pa ps true →
        ∃ u, exec (.submissionPush fn target) s = .next u ∧ Pushed s u fn target pa ps ∧ u.reg (winBase fn + 0x10) = s.reg (winBase fn + 0x10) + 1) ∧
      (va % 64 ≠ 0 → ∃ u, exec (.submissionPush fn target) s = .next u ∧ OnlyBar0 [winBase fn + 0x0C] { s with waits := u.waits } u ∧
        u.reg (winBase fn + 0x0C) = s.reg (winBase fn + 0x0C) + 1)) ∧
    (∀ w, s.waitq.find? (fun v => v.tower == w.tower && v.task.id == w.task.id && v.retry.any (· ≤ s.now)) = some w →
      (∀ n, w.fin = .offer n → ∃ u, exec (.pushRetryTimer w.tower w.task.id) s = .next u ∧ u.waitq = s.waitq.filter (· != w) ∧
        { u with waitq := s.waitq, waits := s.waits } = s) ∧
      (w.fin = .formed → (∀ u, w.task.body = .tile u → u.fresh = false) → s.jobs = [] → descOn s w.tower w.leaf w.target = true → treeRoom s w.tower w.leaf w.target = true →
        Plain s w.tower w.leaf w.target → (∀ id lo hi, w.task.body ≠ .seg id lo hi) →
        ∃ u, exec (.pushRetryTimer w.tower w.task.id) s = .next u ∧ u.waitq = s.waitq.filter (· != w) ∧ u.mem = s.mem ∧ u.bar0 = s.bar0 ∧
          u.queue w.tower w.leaf w.target = placeIn (s.queue w.tower w.leaf w.target) { w.task with rank := w.task.rank % 65536 })) ∧
    (∀ i leaf t k val, (i = .nodeEnable t k val ∧ leaf = false ∧ k < 512) ∨ (i = .leafEnable t k val ∧ leaf = true ∧ k ≤ 391) → t < 2 →
      let off := descReg t leaf k 0
      let m := descMask leaf k 0
      let s1 := s.setReg off ((s.reg off &&& ~~~m) ||| (val &&& m))
      let e := if leaf then leafCheck s1 t k else nodeCheck s1 t k
      ∃ u, exec i s = .next u ∧ Bar0Keeps [off, treeStatus t] s u ∧ { u with bar0 := s.bar0, waitq := s.waitq, waits := s.waits } = s ∧
        (descOn s t leaf k = false → val.getLsbD 31 = false → u.reg off = s1.reg off) ∧
        (descOn s t leaf k = false → val.getLsbD 31 = true → e = 0 → u.reg off = s1.reg off ||| 0x80000000) ∧
        (descOn s t leaf k = false → val.getLsbD 31 = true → e ≠ 0 → u.reg off = s1.reg off ∧
          u.reg (treeStatus t) = BitVec.ofNat 32 (e + (if leaf then 256 else 0) + 2 ^ 16 * k)) ∧
        (descOn s t leaf k = true → u.reg off = if val.getLsbD 31 then s.reg off else s.reg off &&& 0x7FFFFFFF))

/-- 23 R400, R405, R406, R411 to R415: each instruction of a rank program computes its register or its store and moves to the next word; a program reads its
own stores; EMIT makes the stores effective and places the task at the rank; REFUSE with a nonzero register ends the push, otherwise the program goes on. -/
def Obligations.RankPrograms : Prop :=
  ∀ (s : State) (j : RankJob) (js : List RankJob), s.jobs = j :: js →
    let q (r : Reg4) : Word := j.q' r
    let next (k : RankJob) : RankJob := { k with pc := j.pc + 1, left := j.left - 1 }
    (∀ d f, RankGives (.rankLdt d f) s j js d (BitVec.ofNat 32 (taskField j.task f.toNat))) ∧
    (∀ d w, RankGives (.rankLdn d w) s j js d ((smGet? j.stn w.toNat).getD (s.reg (stateReg j.tower j.leaf j.target w.toNat)))) ∧
    (∀ d a w, let i := (q a).toNat % 256
      RankGives (.rankLdf d a w) s j js d (if i < flowCount s j then (smGet? j.stf (flowAt s j i w.toNat)).getD (s.reg (flowAt s j i w.toNat)) else 0)) ∧
    (∀ a w, ∃ k, exec (.rankStn a w) s = .next { s with jobs := k :: js } ∧ smGet? k.stn w.toNat = some (q a) ∧
      (∀ v, v ≠ w.toNat → smGet? k.stn v = smGet? j.stn v) ∧ { k with stn := j.stn } = next j) ∧
    (∀ a b w, let i := (q a).toNat % 256
      ∃ k, exec (.rankStf a b w) s = .next { s with jobs := k :: js } ∧ { k with stf := j.stf } = next j ∧
        (i < flowCount s j → smGet? k.stf (flowAt s j i w.toNat) = some (q b)) ∧
        ∀ v, (i < flowCount s j → v ≠ flowAt s j i w.toNat) → smGet? k.stf v = smGet? j.stf v) ∧
    (∀ d a b, RankGives (.rankAdd d a b) s j js d (q a + q b) ∧ RankGives (.rankSub d a b) s j js d (q a - q b) ∧
      RankGives (.rankMul d a b) s j js d (q a * q b) ∧ RankGives (.rankAnd d a b) s j js d (q a &&& q b) ∧ RankGives (.rankOr d a b) s j js d (q a ||| q b)) ∧
    (∀ d a i, RankGives (.rankAddi d a i) s j js d (q a + i.signExtend 32)) ∧
    (∀ d a n, RankGives (.rankShl d a n) s j js d (q a <<< n.toNat) ∧ RankGives (.rankShr d a n) s j js d (q a >>> n.toNat)) ∧
    (∀ d a b, RankGives (.rankMin d a b false) s j js d (BitVec.ofNat 32 (min (q a).toNat (q b).toNat)) ∧
      RankGives (.rankMax d a b false) s j js d (BitVec.ofNat 32 (max (q a).toNat (q b).toNat)) ∧
      RankGives (.rankMin d a b true) s j js d (BitVec.ofInt 32 (min (q a).toInt (q b).toInt)) ∧
      RankGives (.rankMax d a b true) s j js d (BitVec.ofInt 32 (max (q a).toInt (q b).toInt)) ∧
      RankGives (.rankCmplt d a b false) s j js d (if (q a).toNat < (q b).toNat then 1 else 0) ∧
      RankGives (.rankCmplt d a b true) s j js d (if (q a).toInt < (q b).toInt then 1 else 0)) ∧
    (∀ d a b c, RankGives (.rankSel d a b c) s j js d (if q c = 0 then q b else q a)) ∧
    (∀ d, RankGives (.rankNow d 0) s j js d (BitVec.ofNat 32 j.nowNs) ∧ RankGives (.rankNow d 1) s j js d (BitVec.ofNat 32 (j.nowNs / 2 ^ 32)) ∧
      RankGives (.rankNow d 2) s j js d (BitVec.ofNat 32 j.nowClk)) ∧
    (∀ a, j.fin = .formed → (∀ u, j.task.body = .tile u → u.fresh = false) → j.leaf = false → (∀ id lo hi, j.task.body ≠ .seg id lo hi) → (j.stn.map (·.1)).Nodup → (j.stf.map (·.1)).Nodup →
      (∀ p ∈ j.stf, ∀ v ∈ j.stn, p.1 ≠ nodeState j.tower j.target v.1) →
      ∃ u, exec (.rankEmit a) s = .next u ∧ u.jobs = js ∧ u.mem = s.mem ∧
        u.queue j.tower false j.target = placeIn (s.queue j.tower false j.target) { j.task with rank := (q a).toNat % 65536 } ∧
        (∀ v ∈ j.stn, u.reg (nodeState j.tower j.target v.1) = v.2) ∧ (∀ p ∈ j.stf, u.reg p.1 = p.2) ∧
        Bar0Keeps (j.stn.map (fun v => nodeState j.tower j.target v.1) ++ j.stf.map (·.1)) s u) ∧
    ∀ a, (q a = 0 → exec (.rankRefuse a) s = .next { s with jobs := next j :: js }) ∧
      (q a ≠ 0 → (j.fin = .formed → ∃ u w, exec (.rankRefuse a) s = .next u ∧ u.jobs = js ∧ u.waitq = s.waitq ++ [w] ∧ w.task = j.task ∧ w.fin = .formed ∧
          w.retry = some (s.now + 16 * max 1 (fld (s.reg (descReg j.tower j.leaf j.target 4)) 15 0)) ∧
          { u with jobs := s.jobs, waitq := s.waitq } = s) ∧
        ∀ id pa, j.fin = .enq (some pa) none none → j.task.body = .launch id → Unheld s pa 4 → ∃ u, exec (.rankRefuse a) s = .next u ∧ u.jobs = js ∧
          u.launch? id = none ∧ u.queues = s.queues ∧ u.bar0 = s.bar0 ∧ u.bytesAt pa 4 = toBytes 4 2 ∧ MemoryOutside s u pa 4)

/-! ### Launches (22, 02) -/

/-- 22 R386, R387, R389, R393: a record whose two ends differ is read again after a pause that doubles to 64 microseconds; one that agrees is kept, and its
task is copied to the other tower where the record asks for both; an open launch's tower bit is set and its agents have the descriptor to read, with the
first one the ticket opens and the status reads 1; a record that breaks a rule completes with status 6.
Rests on the model's own reading or choice of log 30 where the manual leaves that open. -/
def Obligations.LaunchRecords : Prop :=
  ∀ (s : State) (id : Nat) (l : Launch), s.launch? id = some l → l.fin = none →
    (∀ i t x pa, i = .launchFetch id ∨ i = .launchFetchRetry id → l.recd = [] → l.due ≤ s.now → launchTask s id = some (t, x) →
      EngineReads s (512 + t) l.fn x.secure id l.addr 256 pa →
      let towers := nfld (bytesField (s.bytesAt pa 256) 36 2) 3 2
      (s.bytesAt pa 8 ≠ s.bytesAt (pa + 248) 8 → ∃ u, exec i s = .next u ∧ { u with launches := s.launches } = s ∧
        u.launch? id = some { l with tries := l.tries + 1, due := s.now + min 64 (2 ^ l.tries) * 850 }) ∧
      (s.bytesAt pa 8 = s.bytesAt (pa + 248) 8 → towers = t + 1 → ∃ u, exec i s = .next u ∧ { u with launches := s.launches, waits := s.waits } = s ∧
        u.launch? id = some { l with recd := s.bytesAt pa 256, pa := some pa }) ∧
      (s.bytesAt pa 8 = s.bytesAt (pa + 248) 8 → towers = 3 → l.opened = [] → LeafTakes s (1 - t) 0 0 → ∃ u, exec i s = .next u ∧ u.mem = s.mem ∧ u.bar0 = s.bar0 ∧
        u.launch? id = some { l with recd := s.bytesAt pa 256, pa := some pa } ∧ u.queue t true 0 = s.queue t true 0 ∧
        u.queue (1 - t) true 0 = placeIn (s.queue (1 - t) true 0) { x with id := s.nextId, rank := x.rank % 65536 })) ∧
    ∀ tower x pa, tower < 2 → openReady s tower = some (id, x) → l.pa = some pa → (s.reg (leafReg tower 0 2)).getLsbD 15 = false →
      (∀ l', Opens s tower id l l' → ∃ u, exec (.launchOpen tower) s = .next u ∧ u.bar0 = s.bar0 ∧
        (∀ c, { u.core c with descs := (s.core c).descs } = s.core c) ∧ (∀ e ∈ u.cores, towerOf e.1 = tower → smGet? e.2.descs id = none) ∧
        u.launch? id = some { l' with opened := l.opened ++ [(tower, x)] } ∧
        u.queue tower true 0 = ((s.queue tower true 0).filter fun y => y.id != x.id) ∧
        u.memNat (pa + 160) 4 = s.memNat (pa + 160) 4 ||| 2 ^ tower ∧ MemoryOutside s u (pa + 128) 36 ∧ u.memNat (pa + 136) 16 = s.memNat (pa + 136) 16 ∧
        (s.memNat (pa + 160) 4 % 4 = 0 → u.memNat (pa + 152) 4 = 1 ∧ u.memNat (pa + 128) 8 = s.memNat (pa + 128) 8 % 2 ^ 63) ∧
        (s.memNat (pa + 160) 4 % 4 ≠ 0 → u.memNat (pa + 152) 4 = s.memNat (pa + 152) 4 ∧ u.memNat (pa + 128) 8 = s.memNat (pa + 128) 8)) ∧
      (∀ pd, l.checked = false → EngineReads s (512 + tower) l.fn (s.fnSecure l.fn) id (l.field 8 8) 128 pd → initLen (s.bytesAt pd 128) = 0 →
        launchBad s { l with desc := s.bytesAt pd 128 } = true → l.field 80 8 = 0 → l.field 104 2 = 0xFFFF →
        ∃ u, exec (.launchOpen tower) s = .next u ∧ u.launch? id = none ∧ u.memNat (pa + 152) 4 = 6 ∧ MemoryOutside s u (pa + 152) 4 ∧
          u.cores = s.cores ∧ u.out = s.out ∧ ∀ t, t < 2 → ∀ y ∈ u.queue t true 0, y.body ≠ .launch id)

/-- 22 R390, 02 R19, R30, 18 R362, R363, 28 R466: an agent whose core may place blocks reads the kernel descriptor, and a launch whose descriptor breaks a
check ends with status 6; it then takes the next ticket of a launch that fits and reserves an index and slots for it; a ticket below the block count
becomes a block there with its place in the grid and its warps at the kernel's entry, once the core's leaves are enabled (28 R468); one past
it is given back, though its launch has completed meanwhile; one of a launch that has ended otherwise is let go.
Rests on the model's own reading or choice of logs 11, 30 and 47 where the manual leaves that open. -/
def Obligations.Claims : Prop :=
  ∀ (s : State) (core : Nat),
    ((s.core core).claim = none → agentOpen s core = true → coreFull s core = false →
      (∀ id base b l pa, claimable s core (openOrder s (towerOf core)) = some (id, some (base, b)) →
        s.launch? id = some l → l.pa = some pa → ∃ u c, exec (.agentClaim core) s = .next u ∧ (u.core core).claim = some c ∧ c.launch = id ∧ c.base = base ∧
          c.index = freeIndex s core ∧ c.slots = takeSlots s core base b.nwarps ∧
          c.value = s.memNat (pa + 128) 8 ∧ u.memNat (pa + 128) 8 = (s.memNat (pa + 128) 8 + 1) % 2 ^ 64 ∧ MemoryOutside s u (pa + 128) 8 ∧
          { u.core core with claim := none } = s.core core ∧ ∀ d, d ≠ core → u.core d = s.core d) ∧
      ∀ id l pd, claimable s core (openOrder s (towerOf core)) = some (id, none) → s.launch? id = some l →
        EngineReads s core l.fn (s.fnSecure l.fn) (descEngine core id) (l.field 8 8) 128 pd → initLen (s.bytesAt pd 128) = 0 →
        let bad := { l with desc := s.bytesAt pd 128 }.descBad
        ∃ u, exec (.agentClaim core) s = .next u ∧ (u.core core).claim = none ∧
          (bad = false → smGet? (u.core core).descs id = some (s.bytesAt pd 128) ∧ u.mem = s.mem ∧ u.launches = s.launches ∧
            { u.core core with descs := (s.core core).descs } = s.core core ∧ ∀ d, d ≠ core → u.core d = s.core d) ∧
          ∀ pa, bad = true → l.pa = some pa → l.field 80 8 = 0 → u.memNat (pa + 152) 4 = 6 ∧ MemoryOutside s u (pa + 152) 4 ∧ u.launch? id = none ∧ u.cores = s.cores) ∧
    (agentOpen s core = false → exec (.agentClaim core) s = .next s) ∧
    (∀ c, (s.core core).claim = some c → c.blocks ≤ c.value → s.launch? c.launch = none →
      ∃ u, exec (.claimReturn core) s = .next u ∧ (u.core core).claim = none ∧ u.memNat (c.pa + 128) 8 = (s.memNat (c.pa + 128) 8 + 2 ^ 64 - 1) % 2 ^ 64 ∧
        MemoryOutside s u (c.pa + 128) 8 ∧ (u.core core).warps = (s.core core).warps ∧ (u.core core).blocks = (s.core core).blocks ∧ u.launches = s.launches) ∧
    ∀ c l, (s.core core).claim = some c → s.launch? c.launch = some l → l.aborted = false → l.fin = none →
      let desc := (agentLaunch s core c.launch).getD l
      (c.value < 2 ^ 63 → c.value < c.blocks → leavesOn s core = false → exec (.claimReturn core) s = .next s) ∧
      (c.value < 2 ^ 63 → c.value < c.blocks → leavesOn s core = true → desc.dfield 118 1 = 0 → c.slots.Nodup → c.slots.length = l.nwarps →
        ∃ u b, exec (.claimReturn core) s = .next u ∧ u.mem = s.mem ∧ (u.core core).claim = none ∧
          smGet? (u.core core).blocks c.index = some b ∧ b.launch = c.launch ∧ b.slots = c.slots ∧ b.scr = [] ∧
          (0 < l.field 24 2 → 0 < l.field 26 2 → b.x = c.value % l.field 24 2 ∧ b.y = c.value / l.field 24 2 % l.field 26 2 ∧
            b.z = c.value / (l.field 24 2 * l.field 26 2)) ∧
          (∀ d, d ≠ c.index → smGet? (u.core core).blocks d = smGet? (s.core core).blocks d) ∧
          (∀ sl, sl ∉ c.slots → u.warp? core sl = s.warp? core sl) ∧
          ∀ n sl, c.slots[n]? = some sl → ∃ w, u.warp? core sl = some w ∧ w.block = c.index ∧ w.num = n ∧ w.pc = l.field 16 8 + desc.dfield 4 4 ∧
            w.agent = false ∧ w.s = [] ∧ w.xflags = 0 ∧
            ∀ k, k < 32 → (inMask w.path k = decide (32 * n + k < l.field 30 2 * l.field 32 2 * l.field 34 2) ∧ inMask w.absent k = !inMask w.path k)) ∧
      (c.blocks ≤ c.value → l.pa = some c.pa → openOrder s (towerOf core) = [c.launch] → s.memNat (c.pa + 136) 8 ≠ l.blocks →
        ∃ u, exec (.claimReturn core) s = .next u ∧ (u.core core).claim = none ∧ u.memNat (c.pa + 128) 8 = (s.memNat (c.pa + 128) 8 + 2 ^ 64 - 1) % 2 ^ 64 ∧
          MemoryOutside s u (c.pa + 128) 8 ∧ (u.core core).warps = (s.core core).warps ∧ (u.core core).blocks = (s.core core).blocks ∧ u.launches = s.launches)

/-- 02 R20: when a claim's block is placed, every private register of every lane of its warps, absent lanes among them, reads zero, and every
predicate p0 to p6 false. -/
def Obligations.WarpStart : Prop :=
  ∀ (s : State) (core : Nat) (c : Claim) (l : Launch), (s.core core).claim = some c → s.launch? c.launch = some l → l.aborted = false → l.fin = none →
    leavesOn s core = true → c.value < 2 ^ 63 → c.value < c.blocks → ((agentLaunch s core c.launch).getD l).dfield 118 1 = 0 → c.slots.Nodup →
    ∃ u, exec (.claimReturn core) s = .next u ∧ ∀ sl ∈ c.slots, ∃ w, u.warp? core sl = some w ∧ ∀ lane, lane < 32 →
      (∀ r, r < 512 → readReg u core (u.block core w.block) w r lane = 0) ∧ ∀ p, p < 7 → readPred w p lane = false

/-! ### Context save and restore (17, 09, 22) -/

/-- 17 R358, R359, 09 R194 to R196, 22 R395: a save that finishes writes the header and the parts of the image that the manual fixes to its area, frees the
block's place and writes status 1; a restore takes registers and scratchpad from the image in memory to a core that can hold them, with status 2, and otherwise
writes 4, and none comes onto a core while a partition change runs; the host's requests run over the areas of its list, and take none for a block of the other
world. The image stays good for another restore.
Rests on the model's own reading or choice of logs 3, 31 and 48 where the manual leaves that open. -/
def Obligations.ContextSwitches : Prop :=
  ∀ (s : State),
    (∀ core op, core < 512 → saveOp s core = some op → (s.block core op.block).saving = some op.pa → (s.block core op.block).bpend = [] →
      (∀ e ∈ blockWarps s core op.block, e.2.pend = []) → L1Clean s core → wbWaits s core = false → s.nextId < 2 ^ 64 →
      let n := imageSize s core op.block
      let parts := imageParts s core op.block
      (op.who.isSome = true ∨ op.pa + n ≤ s.ctxList + 8 ∨ s.ctxList + 12 ≤ op.pa) →
      (∀ k, 4096 * k < n → EngineWrites s core op.fn op.secure (areaEngine op) (op.va + 4096 * k) 4096 (op.pa + 4096 * k)) →
      let b := s.block core op.block
      ∃ u b1, exec (.ctxsaveDone core) s = .next u ∧ u.bytesAt op.pa 4 = toBytes 4 1 ∧
        u.bytesAt (op.pa + 4) 60 = (saveHeader s core op.block 0).take 60 ∧
        (∀ (i m : Nat) (bs : List Byte), parts[i]? = some (m, some bs) → u.bytesAt (op.pa + 4096 + ((parts.take i).map (·.1)).sum) bs.length = bs) ∧
        (op.who.isSome = true → MemoryOutside s u op.pa n) ∧
        smGet? (u.core core).blocks op.block = none ∧
        smGet? (u.core (savedAt u op.pa)).blocks 0 = some b1 ∧ b1.scr = b.scr ∧ b1.sets = b.sets ∧ b1.nf = b.nf ∧ b1.rings = b.rings ∧ b1.lays = b.lays ∧
        b1.launch = b.launch ∧ b1.slots = b.slots ∧ (∀ o ∈ (u.core core).ctxops, o ≠ op) ∧
        ∀ sl ∈ b.slots, ∀ w, s.warp? core sl = some w → w.block = op.block → w.agent = false →
          u.warp? core sl = none ∧ ∃ v, u.warp? (savedAt u op.pa) sl = some v ∧ v.regs = w.regs ∧ v.pc = w.pc) ∧
    (∀ core op b, core < 512 → (s.core core).ctxops.find? (·.load) = some op →
      let k := savedAt s op.pa
      smGet? (s.core k).blocks 0 = some b → Unheld s op.pa 4 → (partSt s ≠ 0 → exec (.ctxloadDone core) s = .next s) ∧
      (partSt s = 0 → (∀ q, s.testing = some q → q.1 ≠ core) →
      (loadBase s core op.pa = none → otherCore s core op = none → ∃ u, exec (.ctxloadDone core) s = .next u ∧ u.bytesAt op.pa 4 = toBytes 4 4 ∧ MemoryOutside s u op.pa 4 ∧
        u.core k = s.core k) ∧
      (∀ base, loadBase s core op.pa = some base → s.advs = [] → (s.core k).l1 = [] → weightsOf s k b = [] → openLoads s k = [] → (∀ c ∈ s.copies, c.held = none) → b.slots.Nodup →
        b.slots.length = b.nwarps → (takeSlots s core base b.nwarps).length = b.nwarps →
        (∀ e ∈ (s.core k).warps, e.2.stopped = none) → (∀ e ∈ (s.core core).warps, e.2.block ≠ freeIndex s core) →
        (∀ j, 1 ≤ j → 4096 * j < imageSize s k 0 → EngineReads s core op.fn op.secure (areaEngine op) (op.va + 4096 * j) 4096 (op.pa + 4096 * j)) →
        let at' (i : Nat) : Nat := op.pa + 4096 + (((imageParts s k 0).take i).map (·.1)).sum
        let ws := orderedWarps s k b
        ∃ u b1, exec (.ctxloadDone core) s = .next u ∧ u.bytesAt op.pa 4 = toBytes 4 2 ∧ MemoryOutside s u op.pa 4 ∧ (smGet? (u.core k).blocks 0).isSome = true ∧
          smGet? (u.core core).blocks (freeIndex s core) = some b1 ∧ (∀ a, a < b.scrSize → smGetD b1.scr 0 a = s.byte (at' 5 + a)) ∧
          b1.sets.map (Option.map fun r => (r.mask, r.size)) = b.sets.map (Option.map fun r => (r.mask, r.size)) ∧ b1.nf = b.nf ∧
          b1.rings.map (fun r => (r.1, { r.2 with rel := [] })) = b.rings.map (fun r => (r.1, { r.2 with rel := [] })) ∧
          b1.launch = b.launch ∧ b1.slots = takeSlots s core base b.nwarps ∧ b1.saving = none ∧
          ∀ (i j sl to' : Nat) (w : Warp), b.slots[i]? = some sl → (takeSlots s core base b.nwarps)[i]? = some to' → ws[j]? = some (sl, w) →
            w.block = 0 → w.agent = false → ∃ v, u.warp? core to' = some v ∧ v.pc = w.pc ∧ v.block = freeIndex s core ∧
              v.s = w.s ∧ v.p = w.p ∧ v.xflags = w.xflags ∧ v.xstat = w.xstat ∧ v.exited = w.exited ∧
              ∀ r, r < 1024 * b.quota w.role → smGetD v.v 0 r = BitVec.ofNat 32 (s.memNat (at' 0 + (((ws.take j).map fun e => 4096 * b.quota e.2.role).sum) + 4 * r) 4)))) ∧
    (∀ i val k, (i = .ctxSwitchSave val ∧ k = 1) ∨ (i = .ctxSwitchRestore val ∧ k = 2) → s.ctxsw ≠ some val →
      (s.reg (ctxswReg 3) = 1 ∨ fld val 8 7 ≠ k ∨ fld val 31 9 ≠ 0 → exec i s = .next s) ∧
      (s.reg (ctxswReg 3) ≠ 1 → fld val 8 7 = k → fld val 31 9 = 0 → (∀ e ∈ s.launches, e.2.opened = []) →
        ∃ u, exec i s = .next u ∧ u.reg (ctxswReg 3) = 1 ∧ u.ctxsw = some val ∧ u.mem = s.mem ∧ u.cores = s.cores ∧
          (k = 1 → fld val 6 0 ∈ u.frozen) ∧ (k = 2 → u.frozen = s.frozen))) ∧
    (∀ val pw n next l, s.ctxsw = some val → SaveList s pw n next l →
      let fn := fld val 6 0
      (fnClaims s fn = false → ∀ c bi a pa, (realCores s).flatMap (fun e =>
          (e.2.blocks.filter fun b => b.2.fn == fn && decide (b.1 < 16) && b.2.saving.isNone).map fun b => (e.1, b.1)) = [(c, bi)] →
        next < n → l[next]? = some a → a % 4096 = 0 → CacheHit s 512 0 (s.coreSecure c) a 1 pa → (pa + 4 ≤ pw + 4 ∨ pw + 8 ≤ pa) → Unheld s pa 4 →
        ((s.block c bi).secure ≠ s.secureMem pa → ∃ u, exec (.ctxSwitchSave val) s = .next u ∧ u.reg (ctxswReg 3) = 3 ∧ u.ctxsw = none ∧ u.cores = s.cores) ∧
        ((s.block c bi).secure = s.secureMem pa → ∃ u, exec (.ctxSwitchSave val) s = .next u ∧ (u.block c bi).saving = some pa ∧ u.memNat pa 4 = 0 ∧ u.ctxsw = none ∧
          u.memNat (pw + 4) 4 = (s.memNat (pw + 4) 4 + 1) % 2 ^ 32 ∧ ∃ op ∈ (u.core c).ctxops, op.who = none ∧ op.block = bi ∧ op.pa = pa ∧ op.load = false)) ∧
      (partSt s = 0 → (∀ e ∈ realCores s, ∀ o ∈ e.2.ctxops, o.who ≠ none) →
        (n ≤ next → ∃ u, exec (.ctxSwitchRestore val) s = .next u ∧ u.reg (ctxswReg 3) = 2 ∧ u.ctxsw = none ∧ u.mem = s.mem ∧
          u.frozen = s.frozen.filter (· != fn)) ∧
        (∀ a pa, next < n → l[next]? = some a → a % 4096 = 0 → CacheHit s 512 0 false a 1 pa ∨ (CacheHit s 512 0 true a 1 pa ∧ s.secureMem pa = true) →
          (pa + 72 ≤ pw + 4 ∨ pw + 8 ≤ pa) → Unheld s pa 4 → (∀ b, smGet? (s.core (savedAt s pa)).blocks 0 = some b → b.secure = s.secureMem pa) →
          ∃ u, exec (.ctxSwitchRestore val) s = .next u ∧ u.memNat (pw + 4) 4 = (s.memNat (pw + 4) 4 + 1) % 2 ^ 32 ∧
            (s.memNat pa 4 ≠ 1 → u.memNat pa 4 = 3 ∧ u.cores = s.cores) ∧
            (s.memNat pa 4 = 1 → loadCore s pa = none → u.memNat pa 4 = 4 ∧ u.cores = s.cores) ∧
            ∀ c, s.memNat pa 4 = 1 → loadCore s pa = some c → u.memNat pa 4 = 1 ∧ ∃ op ∈ (u.core c).ctxops, op.who = none ∧ op.pa = pa ∧ op.load = true)))

/-! ### The host's registers (07, 25, 27) -/

/-- 25 R425, R434, R436, R437, R441, R442, 27 R447, R449, R451 to R454, R459, R460, R463, 28 R464, R465, 29 R471, 30 R483, R484, 22 R384, R395, 23
R419, 07 R156, R157: a register takes the bits its table gives for the writer and the enable that stands, and no other register changes; a key is installed by its last word, reads as zero and is gone when zeroised; counters, rings, peers and ports begin and end with their enable bits;
a record that the port kept is taken as memory holds it; a
quote is written to the address given.
Rests on the model's own reading or choice of logs 9, 15 and 54 where the manual leaves that open. -/
def Obligations.HostRegisters : Prop :=
  ∀ s : State,
    let sets (src off : Nat) (v x : Word) : Prop := ∃ u, exec (.registerWrite src off v) s = .next u ∧ OnlyBar0 [off] { s with waits := u.waits } u ∧ u.reg off = x
    let holds (src off : Nat) (v : Word) : Prop := exec (.registerWrite src off v) s = .next s
    let put (off : Nat) (m v : Word) : Word := (s.reg off &&& ~~~m) ||| (v &&& m)
    let pair (w : Nat) : Word := if w % 2 = 0 then 0xFFFF0000 else 0xFFFF
    (s.hostq = [] →
      (∀ src off v, off % 4 ≠ 0 → holds src off v) ∧
      (∀ f w v, isFn f = true → 2 ≤ w → w ≤ 7 →
        ((s.reg (ctxReg f 0)).getLsbD 31 = false → sets 0 (ctxReg f w) v (put (ctxReg f w) (ctxMask w) v)) ∧
        ((s.reg (ctxReg f 0)).getLsbD 31 = true → holds 0 (ctxReg f w) v)) ∧
      (∀ f v, isFn f = true → sets 0 (ctxReg f 0) v (v &&& 0x80000000) ∧ sets 0 (ctxReg f 10) v (v &&& 0x7FF)) ∧
      (∀ f o v, isFn f = true → o = 0 ∨ o = 4 → ∃ u, exec (.registerWrite f o v) s = .next u ∧ OnlyBar0 [winBase f + o] s u ∧ u.reg (winBase f + o) = v) ∧
      (∀ v, sets 0 (ctxswReg 0) v (v &&& 0xFFFFFFC0) ∧ sets 0 (ctxswReg 1) v v) ∧
      (∀ p w v, p < 12 → 1 ≤ w → w ≤ 13 → (s.portOn p = false → sets 0 (portReg p w) v (put (portReg p w) (portMask w) v)) ∧
        (s.portOn p = true → holds 0 (portReg p w) v)) ∧
      (∀ v, (10 ≤ fld v 13 0 → fld v 13 0 ≤ 10000 → sets 0 (timeReg 0) v (v &&& 0x3FFF)) ∧
        (fld v 13 0 < 10 ∨ 10000 < fld v 13 0 → holds 0 (timeReg 0) v) ∧
        (fld v 15 0 ≠ 0 → sets 0 (timeReg 1) v (v &&& 0xFFFF)) ∧ (fld v 15 0 = 0 → holds 0 (timeReg 1) v)) ∧
      (∀ k v, k < 16384 → (ctrOn s k = false → sets 0 (ctrReg k 2) v (put (ctrReg k 2) 0x1FFF v)) ∧ (ctrOn s k = true → holds 0 (ctrReg k 2) v)) ∧
      (∀ i v, i < 64 → let on := (s.reg (winReg i 0)).getLsbD 31
        sets 0 (winReg i 0) v (put (winReg i 0) (if on then 0x80000000 else 0xC0000000) v) ∧
        ∀ w, 2 ≤ w → w ≤ 7 → (on = false → sets 0 (winReg i w) v (put (winReg i w) (pair w) v)) ∧ (on = true → holds 0 (winReg i w) v)) ∧
      (∀ r w v, r < 256 → 2 ≤ w → w ≤ 6 → (ringOn s r = false → sets 0 (ringReg r w) v (put (ringReg r w) (ringMask w) v)) ∧
        (ringOn s r = true → holds 0 (ringReg r w) v)) ∧
      (∀ i w v, i < 4096 → 1 ≤ w → w ≤ 5 → ((s.reg (peerReg i 0)).getLsbD 31 = false → sets 0 (peerReg i w) v v) ∧
        ((s.reg (peerReg i 0)).getLsbD 31 = true → holds 0 (peerReg i w) v)) ∧
      (∀ t i v, t < 2 → i < 8192 → sets 0 (flowMapReg t i 0) v (v &&& 0xFFE000FF) ∧ sets 0 (flowMapReg t i 1) v (v &&& 0x7FFFF)) ∧
      (∀ k w v, k < 1024 → w < 7 → (keySecure s k = false → sets 0 (keyReg k w) v v) ∧ (keySecure s k = true → holds 0 (keyReg k w) v) ∧
        sets secureFw (keyReg k w) v v) ∧
      (∀ src t w v, t < 2 → w < 15 → (src = secureFw → sets src (worldReg t w) v v) ∧ (src ≠ secureFw → holds src (worldReg t w) v)) ∧
      (∀ src t i w v, t < 2 → i < 16 → w = 0 ∨ (2 ≤ w ∧ w ≤ 5) →
        (src = secureFw → sets src (regionReg t i w) v (put (regionReg t i w) (if w = 0 then 0x80000000 else pair w) v)) ∧
        (src ≠ secureFw → holds src (regionReg t i w) v)) ∧
      (∀ w v, w < 8 ∨ w = 9 → sets 0 (quoteReg w) v v) ∧ (∀ v, sets 0 (quoteReg 8) v (v &&& 0xFFFFFFC0)) ∧
      (∀ v, sets 0 (partReq 1) v v ∧ sets 0 (partReq 2) v (v &&& 0xFFFFF000) ∧ sets 0 (partReq 3) v (v &&& 0xFFFF) ∧
        sets 0 (partReq 4) v (v &&& 0xFFFFF000) ∧ sets 0 (partReq 5) v (v &&& 0xFFFF)) ∧
      (∀ src t w v, src ≠ managementFw → t < 2 → w < 2 → holds src (thermReg t w) v) ∧
      (∀ v, (1800 ≤ fld v 11 0 → fld v 11 0 ≤ 3600 → sets 0 (powerReg 0) v (v &&& 0xFFF)) ∧
        (fld v 11 0 < 1800 ∨ 3600 < fld v 11 0 → holds 0 (powerReg 0) v) ∧ ∀ src, src ≠ powerFw → holds src (powerReg 1) v) ∧
      (∀ v, sets 0 testCtl v ((v &&& 0x80000000) ||| if fld v 15 0 = 0 then s.reg testCtl &&& 0xFFFF else v &&& 0xFFFF)) ∧
      (∀ v, sets 0 (fwReg 2) v (v &&& 0xFFFFFFC0) ∧ sets 0 (fwReg 3) v (v &&& 0xFFFF) ∧ sets 0 (fwReg 4) v v) ∧
      (∀ t leaf k w v, t < 2 → (leaf = false ∧ k < 512) ∨ (leaf = true ∧ k ≤ 391) → 1 ≤ w → w < 16 →
        (descOn s t leaf k = false → sets 0 (descReg t leaf k w) v (put (descReg t leaf k w) (descMask leaf k w) v)) ∧
        (descOn s t leaf k = true → ∃ u, exec (.registerWrite 0 (descReg t leaf k w) v) s = .next u ∧ OnlyBar0 [treeStatus t] s u ∧
          u.reg (treeStatus t) = if v &&& descMask leaf k w = s.reg (descReg t leaf k w) &&& descMask leaf k w then s.reg (treeStatus t)
            else BitVec.ofNat 32 (6 + (if leaf then 256 else 0) + 2 ^ 16 * k))) ∧
      (∀ src die v, die < 14 →
        (src ≠ sensorsFw → holds src (tempReg die) v) ∧
        (src = sensorsFw → let x := sextN 16 (fld v 15 0)
          ∃ u, exec (.registerWrite src (tempReg die) v) s = .next u ∧ u.reg (tempReg die) = v &&& 0xFFFF ∧ Bar0Keeps [tempReg die, powerReg 2] s u ∧
            u.reg (powerReg 2) = (if 1050 ≤ x then s.reg (powerReg 2) ||| BitVec.ofNat 32 (2 ^ (1 + die / 7)) else s.reg (powerReg 2)) ∧
            (x < 1150 → { u with bar0 := s.bar0 } = s) ∧
            (1150 ≤ x → u.off = some die ∧ u.out = s.out ++ [.powerOff die] ∧ { u with bar0 := s.bar0, off := s.off, out := s.out } = s)))) ∧
    (∀ k w, k < 1024 → w < 8 → hostReads s 0 (keyReg k w) = 0) ∧
    (∀ k v, k < 1024 →
      (keySecure s k = true → exec (.keyInstall k v) s = .next s ∧ exec (.keySlotZeroise k v) s = .next s) ∧
      (keySecure s k = false →
        (∃ u, exec (.keyInstall k v) s = .next u ∧ OnlyBar0 [keyReg k 7] { s with keys := u.keys } u ∧ u.reg (keyReg k 7) = v ∧
          smGet? u.keys k = some (((List.range 7).map fun i => s.regN (keyReg k i) * 2 ^ (32 * i)).sum + v.toNat * 2 ^ 224) ∧
          ∀ i, i ≠ k → smGet? u.keys i = smGet? s.keys i) ∧
        ∃ u, exec (.keySlotZeroise k v) s = .next u ∧ OnlyBar0 ((List.range 9).map (keyReg k)) { s with keys := u.keys } u ∧
          u.reg (keyReg k 8) = (v &&& 0x80000000) ∧ (∀ i, i ≠ k → smGet? u.keys i = smGet? s.keys i) ∧
          (v.getLsbD 31 = true → u.keys = s.keys ∧ ∀ i, i < 8 → u.reg (keyReg k i) = s.reg (keyReg k i)) ∧
          (v.getLsbD 31 = false → smGet? u.keys k = none ∧ ∀ i, i < 8 → u.reg (keyReg k i) = 0))) ∧
    (∀ k v, k < 16384 →
      (ctrOn s k = false → v.getLsbD 31 = true → ∃ u, exec (.counterEnable k v) s = .next u ∧ u.reg (ctrReg k 0) = (v &&& 0x8000FFFF) ∧ u.ctr k = { waiters := (s.ctr k).waiters } ∧
        u.mem = s.mem ∧ u.cores = s.cores ∧ Bar0Keeps [ctrReg k 0] s u ∧ ∀ i, i ≠ k → u.ctr i = s.ctr i) ∧
      (ctrOn s k = true → v.getLsbD 31 = false → (s.ctr k).waiters = [] → ∃ u, exec (.counterDisable k v) s = .next u ∧
        u.reg (ctrReg k 0) = (s.reg (ctrReg k 0) &&& 0x7FFFFFFF) ∧ u.ctr k = { s.ctr k with failed := true } ∧
        (u.parked = s.parked.filter fun p => p.flag.counter != k) ∧ u.mem = s.mem ∧ u.cores = s.cores ∧ Bar0Keeps [ctrReg k 0] s u)) ∧
    (∀ r v, r < 256 →
      (ringOn s r = false → v.getLsbD 31 = true → 16 ≤ fld v 4 0 → ∃ u, exec (.ingestRingEnable r v) s = .next u ∧
        OnlyBar0 [ringReg r 0] { s with rings := u.rings } u ∧ u.reg (ringReg r 0) = (v &&& 0x8000001F) ∧
        let get (a : Nat) : Nat := if (s.reg (ringReg r 6)).getLsbD 12 = true ∨ s.secureMem a = false then s.memNat a 8 else 0
        smGetD u.rings (0, 0) r = (get (ringCtl s r), get (ringCtl s r + 8))) ∧
      (ringOn s r = true → v.getLsbD 31 = false → ∃ u, exec (.ingestRingDisable r v) s = .next u ∧ OnlyBar0 [ringReg r 0] s u ∧
        u.reg (ringReg r 0) = (s.reg (ringReg r 0) &&& 0x7FFFFFFF))) ∧
    (∀ i v, i < 4096 →
      ((s.reg (peerReg i 0)).getLsbD 31 = false → v.getLsbD 31 = true → fld v 19 16 < 12 →
        (∀ j, j < 4096 → j ≠ i → s.peerOn j = true → (s.reg (peerReg j 0) &&& 0x000F003F) ≠ (v &&& 0x000F003F)) →
        ∃ u, exec (.peerEnable i v) s = .next u ∧ OnlyBar0 [peerReg i 0] { s with waits := u.waits } u ∧ u.reg (peerReg i 0) = (v &&& 0x000F803F) ||| 0x80000000) ∧
      ((s.reg (peerReg i 0)).getLsbD 31 = true → v.getLsbD 31 = false → ∃ u, exec (.peerEnable i v) s = .next u ∧ OnlyBar0 [peerReg i 0] s u ∧
        u.reg (peerReg i 0) = (s.reg (peerReg i 0) &&& 0x7FFFFFFF))) ∧
    (∀ p v, p < 12 →
      (s.portOn p = false → v.getLsbD 31 = true → ∃ u, exec (.portEnableWrite p v) s = .next u ∧ OnlyBar0 [portReg p 0] { s with waits := u.waits, sends := u.sends } u ∧
        u.reg (portReg p 0) = (if fld v 17 16 = 3 then v &&& 0x0003FFFF else (v &&& 0x0003FFFF) ||| 0x80000000) ∧
        (fld v 17 16 = 3 → u.sends = s.sends) ∧ ∀ key r, smGet? s.sends key = some r →
          let a := recordsBase s p + 16 * (key % 2 ^ 20)
          let b := s.memNat (a + 4) 1
          let same : Prop := s.memNat a 4 = r.count ∧ b % 16 = r.inc ∧ (b / 16 % 2 == 1) = r.failed
          (key / 2 ^ 20 ≠ p ∨ r.flushed = false → smGet? u.sends key = some r) ∧
          (key / 2 ^ 20 = p → r.flushed = true → fld v 17 16 ≠ 3 → s.portSecure p = true ∨ s.secureMem a = false →
            (same → smGet? u.sends key = some { r with flushed := false }) ∧
            (¬ same → smGet? u.sends key = some { peer := r.peer, count := s.memNat a 4, inc := b % 16, failed := b / 16 % 2 == 1
                                                  fxws := r.fxws.filter FxwRec.unsent, flags := r.flags }))) ∧
      (∀ key r, s.portOn p = true → v.getLsbD 31 = false → s.sends = [(key, r)] → key / 2 ^ 20 = p →
        let a := recordsBase s p + 16 * (key % 2 ^ 20)
        s.portSecure p = true ∨ s.secureMem a = false → ∃ u, exec (.portEnableWrite p v) s = .next u ∧ u.reg (portReg p 0) = (s.reg (portReg p 0) &&& 0x7FFFFFFF) ∧
          u.sends = (if r.fxws = [] ∧ r.flags = [] ∧ r.notice = false then [] else [(key, { r with flushed := true })]) ∧
          u.memNat a 4 = r.count % 2 ^ 32 ∧ u.memNat (a + 4) 1 = r.inc % 16 + (if r.failed then 16 else 0) ∧ MemoryOutside s u a 16 ∧
          Bar0Keeps [portReg p 0] s u ∧ u.cores = s.cores)) ∧
    (∀ c v, (s.isCompute c = true → fld v 3 0 ≠ 0 → ∃ u, exec (.ashapeHostWrite c v) s = .next u ∧ { u with cores := s.cores } = s ∧
        (u.core c).ashape = BitVec.ofNat 4 (fld v 3 0) ∧ { u.core c with ashape := (s.core c).ashape } = s.core c ∧ ∀ d, d ≠ c → u.core d = s.core d) ∧
      (fld v 3 0 = 0 ∨ s.isCompute c = false → exec (.ashapeHostWrite c v) s = .next s)) ∧
    (∀ c v, c < 512 → (1 ≤ fld v 4 0 → fld v 4 0 ≤ 16 → ∃ u, exec (.cadenceWrite c v) s = .next u ∧ { u with cores := s.cores } = s ∧
        (u.core c).cadReq.toNat = fld v 4 0 ∧ { u.core c with cadReq := (s.core c).cadReq } = s.core c ∧ ∀ d, d ≠ c → u.core d = s.core d) ∧
      (fld v 4 0 = 0 ∨ 16 < fld v 4 0 → exec (.cadenceWrite c v) s = .next s)) ∧
    (∀ v, (v = 1 → s.quote = false → ∃ u, exec (.quoteRequest v) s = .next u ∧ u.quote = true ∧ OnlyBar0 [quoteReg 10] { s with quote := true } u ∧
        u.reg (quoteReg 10) = 1) ∧ (v ≠ 1 ∨ s.quote = true → exec (.quoteRequest v) s = .next s)) ∧
    ∀ pa pb, let va := s.reg64 (quoteReg 8)
      let room := 2 ^ 16 - va % 2 ^ 16
      s.quote = true → NoWalk s quoteEngine → CacheHit s 512 0 (s.fnSecure 0) va 1 pa → CacheHit s 512 0 (s.fnSecure 0) (va + room) 1 pb →
      Unheld s pa (min (quoteBytes s).length room) → Unheld s pb ((quoteBytes s).length - room) →
      ∃ u, exec .quoteComplete s = .next u ∧ u.quote = false ∧ u.reg (quoteReg 10) = 0 ∧ Bar0Keeps [quoteReg 10] s u ∧ u.cores = s.cores ∧
        ((quoteBytes s).length ≤ room → u.bytesAt pa (quoteBytes s).length = quoteBytes s ∧ MemoryOutside s u pa (quoteBytes s).length)

/-- 22 R383, 25 R433, 28 R469, 08 R172 to R174, 27 R458 to R462: an aperture access reaches memory through stage 2, waits where the page is absent and is aborted while a
partition change runs; a datagram of a bound flow lands as a record behind its header and moves the producer index, is counted as dropped where the ring is
full, and where its flow is unknown is counted at the port.
Rests on the model's own reading or choice of logs 15 and 13 where the manual leaves that open. -/
def Obligations.AperturesAndIngest : Prop :=
  ∀ s : State,
    (∀ fn gpa a pa, ApertureFree s fn →
      (∀ len, ApertureAt s fn gpa 0 a pa → 0 < len → gpa % 2 ^ 16 + len ≤ 2 ^ 16 → Clean s pa len → Unheld s pa len →
        ∃ u, exec (.hostApertureRead fn gpa len) s = .next u ∧ u.out = s.out ++ [.hostRead fn gpa (u.bytesAt pa len)] ∧ MemoryOutside s u a 8 ∧
          { u with mem := s.mem, out := s.out, l2 := s.l2, hostMem := s.hostMem } = s) ∧
      (∀ bytes, ApertureAt s fn gpa 1 a pa → bytes ≠ [] → gpa % 2 ^ 16 + bytes.length ≤ 2 ^ 16 → Unheld s pa bytes.length →
        ∃ u, exec (.hostApertureWrite fn gpa bytes) s = .next u ∧ u.bytesAt pa bytes.length = bytes ∧ u.out = s.out ∧ u.bar0 = s.bar0 ∧ u.cores = s.cores ∧
          ∀ b, b < pa ∨ pa + bytes.length ≤ b → b < a ∨ a + 8 ≤ b → u.byte b = s.byte b)) ∧
    (∀ fn gpa l g i len bytes, ApertureFree s fn → isFn fn = true → NoWalk s (hostEngine fn gpa) → gpa < min (bar2Size s fn) (2 ^ 48) → runStage2 s (s.fnSecure fn) fn gpa = .stop 2 l g →
      (i = .hostApertureRead fn gpa len ∧ 0 < len) ∨ (i = .hostApertureWrite fn gpa bytes ∧ bytes ≠ []) →
      ∃ u, exec i s = .next u ∧ u.hostq = s.hostq ++ [i] ∧ u.cores = s.cores ∧ ∃ r ∈ u.reqs, r.fn = fn ∧ r.sub = 2 ∧ s.nextId ∈ r.walks) ∧
    (∀ fn gpa len bytes, isFn fn = true → partSt s ≠ 0 → exec (.hostApertureRead fn gpa len) s = .next (s.emit (.abort fn gpa)) ∧
      exec (.hostApertureWrite fn gpa bytes) s = .next (s.emit (.abort fn gpa))) ∧
    ∀ port bytes, s.portOn port = true → port < 12 → fld (s.reg (portReg port 10)) 15 0 ≠ 0 → 9 ≤ bytes.length → bytes.length ≤ maxDatagram →
      bytesField bytes 4 4 = 0 → s.landq = [] →
      let flow := bytesField bytes 0 4
      let e0 := s.reg (flowMapReg (port / 6) (flow % 8192) 0)
      let e1 := s.reg (flowMapReg (port / 6) (flow % 8192) 1)
      let ring := fld e0 7 0
      let pay := bytes.drop 8
      let size := 2 ^ fld (s.reg (ringReg ring 0)) 4 0
      let p := (smGetD s.rings (0, 0) ring).1
      let c := ringSeen s ring
      let rec64 := 64 * ((16 + pay.length + 63) / 64)
      let left := size - p % size
      let pad := if left < rec64 then left else 0
      let ctl := ringCtl s ring
      let base := ringBaseOf s ring
      (e0.getLsbD 31 = false ∨ fld e1 18 0 ≠ flow / 8192 → ∃ u, exec (.ingestDatagram port bytes) s = .next u ∧ { u with bar0 := s.bar0 } = s ∧
        u.reg64 (portCtr port 0xB0) = (s.reg64 (portCtr port 0xB0) + 1) % 2 ^ 64) ∧
      (e0.getLsbD 31 = true → fld e1 18 0 = flow / 8192 → e0.getLsbD 30 = false → ringOn s ring = true → (s.portSecure port = true ∨ ∀ a, s.secureMem a = false) → 16 ≤ fld (s.reg (ringReg ring 0)) 4 0 → p % 64 = 0 → Unheld s base size → Unheld s ctl 32 →
        ((p + 2 ^ 64 - c) % 2 ^ 64 + pad + rec64 ≤ size → ctl + 8 ≤ base ∨ base + size ≤ ctl →
          ∃ u, exec (.ingestDatagram port bytes) s = .next u ∧ u.cores = s.cores ∧
            u.bytesAt (base + (p + pad) % size) (16 + pay.length) = toBytes 2 pay.length ++ toBytes 2 0 ++ toBytes 4 flow ++ toBytes 8 s.ns ++ pay ∧
            u.memNat ctl 8 = (p + pad + rec64) % 2 ^ 64 ∧ smGetD u.rings (0, 0) ring = ((p + pad + rec64) % 2 ^ 64, (smGetD s.rings (0, 0) ring).2) ∧
            ∀ b, b < base ∨ base + size ≤ b → b < ctl ∨ ctl + 8 ≤ b → u.byte b = s.byte b) ∧
        (size < (p + 2 ^ 64 - c) % 2 ^ 64 + pad + rec64 → ∃ u, exec (.ingestDatagram port bytes) s = .next u ∧ u.cores = s.cores ∧ u.rings = s.rings ∧
          u.memNat (ctl + 16) 8 = (s.memNat (ctl + 16) 8 + 1) % 2 ^ 64 ∧ u.memNat (ctl + 24) 8 = (s.memNat (ctl + 24) 8 + pay.length) % 2 ^ 64 ∧
          MemoryOutside s u (ctl + 16) 16))

/-! ### Strata, power, reliability (28, 29, 30) -/

/-- 28 R465 to R467: a request with go set and no change in progress is checked and either rejected with its error, or closes the launches and waits, by its limit in
milliseconds, for the device to drain; the L1s and translation caches are emptied and the changing banks' bytes moved to the evacuation address; each changing
tower whose strata power up takes its roles, and its count of changes rises.
Rests on the model's own reading or choice of logs 10 and 32 where the manual leaves that open. -/
def Obligations.PartitionChanges : Prop :=
  ∀ s : State,
    let st (u : State) (a e : Nat) : Prop := partSt u = a ∧ fld (u.reg partState) 15 8 = e
    let v := BitVec.ofNat 32 s.part.target
    (∀ val, val.getLsbD 31 = true →
      (partSt s ≠ 0 → exec (.partitionChangeGo val) s = .next s) ∧
      (partSt s = 0 → changing s val 0 = false → changing s val 1 = false → ∃ u, exec (.partitionChangeGo val) s = .next u ∧ st u 0 0 ∧ u.roles 0 = s.roles 0 ∧
        u.roles 1 = s.roles 1 ∧ u.mem = s.mem ∧ u.cores = s.cores) ∧
      (partSt s = 0 → changing s val 0 = true ∨ changing s val 1 = true →
        (admitErr s val ≠ 0 → ∃ u, exec (.partitionChangeGo val) s = .next u ∧ st u 0 (admitErr s val) ∧ OnlyBar0 [partReq 0, partState] { s with waits := u.waits } u) ∧
        (admitErr s val = 0 → (∀ e ∈ s.launches, e.2.opened = []) → ∃ u, exec (.partitionChangeGo val) s = .next u ∧ st u 2 0 ∧
          u.part.due = s.now + s.regN (partReq 1) * 850000 ∧ u.part.target = val.toNat ∧ OnlyBar0 [partReq 0, partState] { s with part := u.part, waits := u.waits } u))) ∧
    (partSt s = 2 → (drainedAll s = true → ∃ u, exec .partitionQuiesceDone s = .next u ∧ st u 3 0 ∧ OnlyBar0 [partState] { s with waits := u.waits } u) ∧
      (drainedAll s = false → exec .partitionQuiesceDone s = .next s) ∧
      (s.part.due ≤ s.now → ∃ u, exec .partitionDrainTimeout s = .next u ∧ st u 0 5 ∧ OnlyBar0 [partState] { s with waits := u.waits } u)) ∧
    (∀ t, partSt s = 3 → t < 2 → changing s v t = true → changing s v (1 - t) = false → (∀ c, L1Clean s c) → Memory.wf s.mem = true →
      let base := (bankRange s t).1
      let size := (bankRange s t).2
      let to' := evacAddr s t
      (to' = 0 ∨ to' + size ≤ base ∨ base + size ≤ to') →
      ∃ u, exec .partitionFlushDone s = .next u ∧ st u 4 0 ∧ (∀ c, (u.core c).l1 = [] ∧ (u.core c).tlb = [] ∧ (u.cluster c).tlb = []) ∧
        (∀ i, i < size → u.byte (base + i) = 0) ∧ (to' ≠ 0 → ∀ i, i < size → u.byte (to' + i) = s.byte (base + i)) ∧
        ∀ b, b < base ∨ base + size ≤ b → to' = 0 ∨ b < to' ∨ to' + size ≤ b → u.byte b = s.byte b) ∧
    (partSt s = 4 →
      let ok (t : Nat) : Bool := changing s v t && powersUp s t (targetOf v t)
      ∃ u, exec .partitionReenumerateDone s = .next u ∧ u.mem = s.mem ∧
        st u 0 (if (changing s v 0 && !powersUp s 0 (targetOf v 0)) || (changing s v 1 && !powersUp s 1 (targetOf v 1)) then 6 else 0) ∧
        (∀ t, t < 2 → (ok t = true → u.roles t = targetOf v t ∧ fld (u.reg (mapReg t)) 31 16 = (fld (s.reg (mapReg t)) 31 16 + 1) % 2 ^ 16 ∧
            fld (u.reg (mapReg t)) 15 8 = popcount 6 (targetOf v t)) ∧
          (ok t = false → u.reg (mapReg t) = s.reg (mapReg t))) ∧
        (ok 0 = false → ok 1 = false → u.mlog = s.mlog ∧ u.measure = s.measure) ∧
        (ok 0 = true ∨ ok 1 = true → u.mlog.length = s.mlog.length + 1))

/-- 29 R471 to R477: a heartbeat arms the watchdog for 50 ms, and one that expires requests cadence 8 of every core; a tripped tower's cores run at cadence 16 until all its
dies read below 95 degrees; at 115 degrees power is removed; the limiter moves cadences by 1, and each release sets the next; energy
is booked in whole microjoules to 64-bit counters and the rest kept; an operating-point
request below the fused floor, or during a change, is denied and counted, and another runs its steps.
Rests on the model's own reading or choice of logs 4, 32 and 56 where the manual leaves that open. -/
def Obligations.PowerManagement : Prop :=
  ∀ s : State,
    (∀ v, ∃ u, exec (.heartbeatWrite v) s = .next u ∧ u.reg (powerReg 1) = v ∧ u.reg (powerReg 2) = (s.reg (powerReg 2) &&& ~~~8#32) ∧ u.wdArmed = true ∧
      u.wdDue = s.now + 50000 * 850 ∧ OnlyBar0 [powerReg 1, powerReg 2] { s with wdArmed := true, wdDue := u.wdDue } u) ∧
    (s.wdArmed = true → s.wdDue ≤ s.now → (s.reg (powerReg 2)).getLsbD 3 = false → ∃ u, exec .watchdogExpire s = .next u ∧
      u.reg (powerReg 2) = s.reg (powerReg 2) ||| 8 ∧ (∀ c, c < 512 → (u.core c).cadReq = 8 ∧ { u.core c with cadReq := (s.core c).cadReq } = s.core c) ∧
      { u with cores := s.cores, bar0 := s.bar0 } = s) ∧
    (∀ die, die < 14 →
      (∃ u, exec (.thermalTrip die) s = .next u ∧ OnlyBar0 [powerReg 2, tempReg die] s u ∧ u.reg (powerReg 2) = (s.reg (powerReg 2) ||| BitVec.ofNat 32 (2 ^ (1 + die / 7))) ∧
        ∀ c, c < 512 → towerOf c = die / 7 → u.effCadence c = 16) ∧
      ∃ u, exec (.thermalPowerOff die) s = .next u ∧ u.off = some die ∧ u.out = s.out ++ [.powerOff die] ∧ step u = .next u) ∧
    (∀ t, t < 2 → ((∀ r, r < 7 → tempOf s (7 * t + r) < 950) → ∃ u, exec (.thermalTripClear t) s = .next u ∧ OnlyBar0 [powerReg 2] s u ∧
        u.reg (powerReg 2) = (s.reg (powerReg 2) &&& ~~~(BitVec.ofNat 32 (2 ^ (1 + t))))) ∧
      (∀ r, r < 7 → 950 ≤ tempOf s (7 * t + r) → exec (.thermalTripClear t) s = .next s)) ∧
    (∀ l : List Nat, l.Nodup → (∀ c ∈ l, c < 512) → ∃ u, exec (.currentLimitRaise l) s = .next u ∧ { u with cores := s.cores, limDue := s.limDue } = s ∧
      u.limDue = (if limiting s then s.limDue else s.now + 10 * 850) ∧
      (∀ c ∈ l, (u.core c).limiter = min 16 (max (max (s.core c).cadReq.toNat (s.thermFloor (towerOf c))) (s.core c).limiter + 1) ∧
        { u.core c with limiter := (s.core c).limiter } = s.core c) ∧ (∀ c, c ∉ l → u.core c = s.core c) ∧
      (hostReads u 0 (powerReg 2)).getLsbD 0 = (realCores u).any fun e => limited u e.1) ∧
    ((s.cores.map (·.1)).Nodup → ∃ u, exec .currentLimitRelease s = .next u ∧ { u with cores := s.cores, limDue := s.limDue } = s ∧ u.limDue = s.now + 10 * 850 ∧
      ∀ c, c < 512 → (smGet? s.cores c).isSome → (u.core c).limiter = (if limited s c then (s.core c).limiter - 1 else 0) ∧
        { u.core c with limiter := (s.core c).limiter } = s.core c) ∧
    (∀ ballast, ∃ u, exec (.energyBooking ballast) s = .next u ∧ { u with bar0 := s.bar0, acts := s.acts, bookAt := s.bookAt } = s ∧ u.bookAt = s.now ∧
      let held := (s.act 1 9 (s.now - s.bookAt)).act 0 10 ballast
      ∀ n, n < 4098 → let a := if n = 0 then powerReg 4 else if n = 1 then powerReg 6 else energyReg (n - 2)
        let e := (held.acts.map fun p => if p.1 / 16 = n then (if p.1 % 16 = 15 then p.2 else p.2 * Config.actEnergy (p.1 % 16)) else 0).sum
        u.reg64 a = (s.reg64 a + e / 1000000) % 2 ^ 64 ∧ acctEnergy u n = e % 1000000) ∧
    (∀ c val, c < 128 → s.isCompute (4 * c) = true → 600 ≤ fld val 27 16 → fld val 27 16 ≤ 1000 → 100 ≤ fld val 11 0 → fld val 11 0 ≤ 850 →
      let denied (u : State) : Prop := fld (u.reg (opPoint c 2)) 31 16 = (fld (s.reg (opPoint c 2)) 31 16 + 1) % 2 ^ 16 ∧ u.out = s.out ++ [.msix 0 0] ∧
        u.reg (opPoint c 1) = s.reg (opPoint c 1)
      let running := opState s c = 1 ∨ (smGetD s.clusters {} c).step ≠ 0
      (running → ∃ u, exec (.operatingPointRequest c val) s = .next u ∧ denied u ∧ opState u c = 2 ∧ u.clusters = s.clusters) ∧
      (¬ running → ∃ u, exec (.operatingPointRequest c val) s = .next u ∧ u.reg (opPoint c 0) = (val &&& 0x0FFF0FFF) ∧
        u.reg (opPoint c 1) = s.reg (opPoint c 1) ∧
        (fld val 27 16 < Config.voltFloor c (fld val 11 0) → denied u ∧ opState u c = 2) ∧
        (Config.voltFloor c (fld val 11 0) ≤ fld val 27 16 → opState u c = 1 ∧ (smGetD u.clusters {} c).target = (val &&& 0x0FFF0FFF).toNat ∧
          (smGetD u.clusters {} c).step = (if fld (s.reg (opPoint c 1)) 11 0 < fld val 11 0 then 1 else if fld val 11 0 < fld (s.reg (opPoint c 1)) 11 0 then 2 else 3)))) ∧
    ∀ c, c < 128 → let k := smGetD s.clusters {} c
      let done (u : State) : Prop := (smGetD u.clusters {} c).step = 0 ∧ u.reg (opPoint c 1) = BitVec.ofNat 32 k.target ∧ opState u c = 0
      (k.step = 1 → ∃ u, exec (.voltageRampDone c) s = .next u ∧ smGetD u.clusters {} c = { k with step := 2, stopAt := s.now } ∧ { u with clusters := s.clusters } = s) ∧
      (k.step = 3 → ∃ u, exec (.voltageRampDone c) s = .next u ∧ done u ∧ u.cores = s.cores ∧ Bar0Keeps [opPoint c 1, opPoint c 2] s u) ∧
      (k.step = 2 → let n := ((s.now - k.stopAt) * fld (BitVec.ofNat 32 k.target) 11 0 + 849) / 850
        ∃ u, exec (.clockRelockDone (c / 64) (c % 64)) s = .next u ∧ u.mem = s.mem ∧ u.reg (stallReg c 1) = s.reg (stallReg c 1) + BitVec.ofNat 32 n ∧
        (smGetD u.clusters {} c).fill = k.fill + n - ((s.now - k.stopAt : Nat) : Int) ∧
        (fld (s.reg (opPoint c 1)) 11 0 < fld (BitVec.ofNat 32 k.target) 11 0 → done u) ∧
        (fld (BitVec.ofNat 32 k.target) 11 0 ≤ fld (s.reg (opPoint c 1)) 11 0 → (smGetD u.clusters {} c).step = 3))

/-- 30 R478 to R482, R484, 25 R439, 28 R464: a scrub read counts what it corrects and poisons what it cannot, and a line whose correction was dropped is read
again before its pass ends; a core is tested when it is idle, and one that fails is fenced
with its leaves disabled; a firmware action waits for its completion, stages into the inactive slot, activates, or raises the minimum version; a reset keeps the flash,
the fuses, memory outside the device's banks and, of the host's, what has reached the host, and every core, queue and launch is as at power-on.
Rests on the model's own reading or choice of logs 6, 9, 10 and 13 where the manual leaves that open. -/
def Obligations.Reliability : Prop :=
  ∀ s : State,
    (∀ a k, scrubbed s a = false → exec (.scrubRead a k) s = .next s) ∧
    (∀ a k, scrubbed s a = true →
      let line := lineOf a
      let again := match k with | .corrected raced _ => raced | _ => false
      let mine := if again then smPut s.rescrub line () else smDel s.rescrub line
      let next := if scrubLine s s.scrubAt = some line then line + 1 else s.scrubAt
      let ends := (scrubLine s next).isNone && mine.isEmpty
      let c := match s.kind a with | .hbm _ => relReg 0x08 | .tier _ => relReg 0x10 | _ => relReg 0x00
      let count (u : State) (r : Nat) : Prop := u.reg64 r = (s.reg64 r + 1) % 2 ^ 64
      ∃ u, exec (.scrubRead a k) s = .next u ∧ u.mem = s.mem ∧ u.cores = s.cores ∧ u.rescrub = mine ∧ u.scrubAt = (if ends then 0 else next) ∧
        (ends = true → count u (relReg 0x28)) ∧ (ends = false → u.reg64 (relReg 0x28) = s.reg64 (relReg 0x28)) ∧
        (k = .clean ∨ again = true → u.poison = s.poison ∧ Bar0Keeps [relReg 0x28, relReg 0x2C] s u) ∧
        (k = .uncorrected → u.poisoned a = true ∧ (∀ b, lineOf b ≠ line → u.poisoned b = s.poisoned b) ∧
          (s.poisoned a = false → count u (relReg 0x18))) ∧
        ∀ tile, k = .corrected false tile → u.poison = s.poison ∧ count u (if tile then relReg 0x00 else c)) ∧
    (∀ c, testEn s = true → s.testing = none → partSt s = 0 → s.testDue ≤ s.now → nextTest s = some c → ∃ u, exec .infieldTestSelect s = .next u ∧
      u.testing = some (c, false) ∧ u.lastTest = some c ∧ { u with testing := s.testing, lastTest := s.lastTest, testDue := s.testDue, waits := s.waits } = s) ∧
    (∀ c, s.testing = some (c, false) → (∀ b ∈ (s.core c).blocks, 16 ≤ b.1) → (s.core c).claim = none → partSt s = 0 → ∃ u, exec .infieldTestRun s = .next u ∧
      u.testing = some (c, true) ∧ u.reg64 (relReg 0x30) = (s.reg64 (relReg 0x30) + 1) % 2 ^ 64 ∧ { u with testing := s.testing, bar0 := s.bar0, acts := s.acts } = s) ∧
    (∀ c g, s.testing = some (c, true) → s.isCompute c = true → ∃ u, exec (.infieldTestEnd g) s = .next u ∧ u.testing = none ∧ u.cores = s.cores ∧ u.mem = s.mem ∧
      (Config.testPasses c g.toNat = true → u.bar0 = s.bar0) ∧
      (Config.testPasses c g.toNat = false → u.fenced c = true ∧ u.reg64 (relReg 0x38) = (s.reg64 (relReg 0x38) + 1) % 2 ^ 64 ∧
        descOn u (towerOf c) true (matrixLeaf c) = false ∧ descOn u (towerOf c) true (copyLeaf c) = false)) ∧
    (∀ i val, i = .fwStage val ∨ i = .fwActivatePower val ∨ i = .fwRaiseMinimum val →
      (val.getLsbD 31 = true → fwState s = 0 ∨ fwState s = 2 → ∃ u, exec i s = .next u ∧ u.reg (fwReg 0) = (val &&& 0xFF) ∧ fwState u = 1 ∧
        u.fwBusy = some (fld val 7 4, fld val 3 0) ∧ OnlyBar0 [fwReg 0, fwReg 5] { s with fwBusy := u.fwBusy } u) ∧
      (val.getLsbD 31 = true → fwState s ≠ 0 → fwState s ≠ 2 → exec i s = .next s)) ∧
    (∀ a k, s.fwBusy = some (a, k) →
      let ends (u : State) (st r : Nat) : Prop := fwState u = st ∧ fld (u.reg (fwReg 5)) 15 8 = r ∧ u.fwBusy = none ∧ u.mem = s.mem ∧ u.cores = s.cores
      let at' := fld (s.reg (fwReg 2)) 31 6 * 64 + fld (s.reg (fwReg 3)) 15 0 * 2 ^ 32
      let n := s.regN (fwReg 4)
      let img := s.bytesAt at' n
      let inside : Prop := (s.cfg.hbm0 ≤ at' ∧ at' + n ≤ s.cfg.hbm0 + s.cfg.hbmSize) ∨ (s.cfg.hbm1 ≤ at' ∧ at' + n ≤ s.cfg.hbm1 + s.cfg.hbmSize)
      (2 < a ∨ 5 < k → ∃ u, exec .fwActionComplete s = .next u ∧ ends u 3 5 ∧ u.flash = s.flash) ∧
      (a = 0 → k ≤ 5 → n ≤ 2 ^ 24 → inside → ∃ u, exec .fwActionComplete s = .next u ∧
        (imageErr s k img = 0 → s.flashBad = true → ends u 3 6 ∧ u.flash = s.flash) ∧
        (imageErr s k img = 0 → s.flashBad = false → ends u 2 0 ∧ flashAt u k (1 - activeSlot s k) = img ∧ activeSlot u k = activeSlot s k ∧ fwPending u k = true) ∧
        (imageErr s k img ≠ 0 → ends u 3 (imageErr s k img) ∧ u.flash = s.flash)) ∧
      (a = 0 → k ≤ 5 → 2 ^ 24 < n ∨ ¬ inside → ∃ u, exec .fwActionComplete s = .next u ∧ ends u 3 (if 2 ^ 24 < n then 4 else 5) ∧ u.flash = s.flash) ∧
      (a = 1 → k ≤ 5 → ∃ u, exec .fwActionComplete s = .next u ∧ u.flash = s.flash ∧
        (k = 3 → fwPending s 3 = true → s.mlog.length < 16 → ends u 2 0 ∧ activeSlot u 3 = 1 - activeSlot s 3 ∧ fwPending u 3 = false ∧ u.mlog.length = s.mlog.length + 1 ∧ u.fellBack.testBit 3 = false) ∧
        (k ≠ 3 ∨ fwPending s 3 = false ∨ 16 ≤ s.mlog.length → ends u 3 5 ∧ u.mlog = s.mlog)) ∧
      (a = 2 → k ≤ 5 → s.minVer.length = 6 → ∃ u, exec .fwActionComplete s = .next u ∧
        let booted : Prop := s.fellBack.testBit k = false ∧ ∃ e ∈ s.mlog, e.1 = k
        (booted → ends u 2 0 ∧ u.minVer[k]? = some (max ((s.minVer[k]?).getD 0) (Config.imageVersion (activeImage s k)))) ∧
        (¬ booted → ends u 3 5 ∧ u.minVer = s.minVer))) ∧
    ∃ u, exec .deviceReset s = .next u ∧ u.flash = s.flash ∧ u.minVer = s.minVer ∧ u.cfg = s.cfg ∧ u.cores = [] ∧ u.queues = [] ∧ u.launches = [] ∧ u.walks = [] ∧
      u.keys = [] ∧ u.now = 0 ∧ u.hostMem = s.hostMem ∧ (smSorted s.hostMem = true → (∀ c ∈ s.hostMem, s.kind c.1 = .host) →
        ∀ a, u.byte a = if (s.kind a).isBank then 0 else if s.kind a = .host then smGetD s.hostMem memDefault a else s.byte a) ∧ ∀ f w, f < 128 → w < 16 → u.reg (ctxReg f w) = 0

/-! ### The machine as a whole -/

/-- 11 R211 to R225, 23 R412 to R414: decoding the bytes of a well-formed instruction gives it back with its length, whatever follows; and bytes that decode to an
instruction are the bytes it encodes to, so no two instructions share an encoding and none drops a bit.
Rests on the model's own reading or choice of log 16 where the manual leaves that open. -/
def Obligations.EncodeDecode : Prop :=
  (∀ (i : Instr) (o : Op) (x : Z1) (bs rest : List Byte), i.z1? = some (o, x) → i.wf = true → encode i = some bs → decodeBytes (bs ++ rest) = .ok i bs.length) ∧
  (∀ (i : Instr) (bs : List Byte), i.z1? = none → i.wf = true → encode i = some bs → bs.length = 4 ∧ decodeRank (ofBytes bs) = some i) ∧
  (∀ (bs : List Byte) (i : Instr) (n : Nat), decodeBytes bs = .ok i n → i.wf = true ∧ (n = 8 ∨ n = 12 ∨ n = 16) ∧ encode i = some (bs.take n)) ∧
  ∀ (w : Nat) (i : Instr), w < 2 ^ 32 → decodeRank w = some i → i.wf = true ∧ encode i = some (toBytes 4 w)

/-- The model's memory is a list of bytes in one canonical form: addresses strictly rising and no byte listed that reads as an unlisted one does (zero, log
6). Every step keeps that form, from every state.
Rests on the model's own reading or choice of log 6 where the manual leaves that open. -/
def Obligations.MemoryStaysCanonical : Prop :=
  ∀ s t : State, Memory.wf s.mem = true → step s = .next t → Memory.wf t.mem = true

/-- 28 R464, 29 R471, R475, 27 R447, R449, R460, 30 R481, 07 R156: the values the register tables state for reset; no launch, queue or warp exists; memory has its canonical
form (its bytes read zero: log 6).
Rests on the model's own reading or choice of logs 6 and 7 where the manual leaves that open. -/
def Obligations.ResetValues : Prop :=
  let s := State.reset
  Memory.wf s.mem = true ∧ s.cores = [] ∧ s.launches = [] ∧ s.queues = [] ∧ s.jobs = [] ∧ s.now = 0 ∧ s.off = none ∧
  (∀ t, t < 2 → s.reg (mapReg t) = 0x0000041E ∧ s.reg (thermReg t 0) = 0x001F001C ∧ s.reg (thermReg t 1) = 0x00010101) ∧
  s.reg (powerReg 0) = 3600 ∧ s.reg (timeReg 0) = 100 ∧ s.reg (timeReg 1) = 1000 ∧ s.reg testCtl = 0x80000258 ∧ partSt s = 0 ∧
  (∀ c, c < 128 → s.reg (opPoint c 0) = 0x03520352 ∧ s.reg (opPoint c 1) = 0x03520352) ∧ (∀ p, p < 12 → s.reg (portReg p 0) = 4793) ∧
  (∀ r, r < 256 → s.reg (ringReg r 0) = 16) ∧ ∀ c, (s.core c).ashape = 0xF ∧ (s.core c).cadReq = 4

/-- 02 R34, 11 R212 to R214, R225, 23 R411, 29 R472: where the device has nothing else to do and a warp is the next to issue, a step executes the instruction that the bytes at its program
counter decode to; where a rank program runs, a step executes its next word; what the outside does is executed when its time has come; a device without power stays.
Rests on the model's own reading or choice of logs 2, 36 and 45 where the manual leaves that open. -/
def Obligations.StepRunsTheInstruction : Prop :=
  (∀ s : State, s.off.isSome = true → step s = .next s) ∧
  (∀ (s : State) (j : RankJob) (js : List RankJob) (i : Instr), s.off = none → (landAll s).jobs = j :: js → 0 < j.left → j.pc < 4096 →
    decodeRank ((landAll s).regN (progReg j.tower j.pc)) = some i → step s = exec i (landAll s)) ∧
  (∀ (s : State) (t : Nat) (i : Instr) (l : List (Nat × Instr)), s.off = none → (landAll s).jobs = [] → (landAll s).agenda = (t, i) :: l → t ≤ (landAll s).now →
    step s = match exec i { landAll s with agenda := l, waits := [] } with
      | .next u => (match u.firing with | some f => exec f.instr u | none => .next u)
      | r => r) ∧
  ∀ (s : State) (c : Cand) (core slot : Nat) (w : Warp) (pa n : Nat) (a : Attr) (i : Instr) (bytes : List Byte), s.off = none →
    let t := landAll s
    let u := landAll (t.tick c.time)
    t.jobs = [] → t.redo = [] → (∀ e ∈ t.agenda, t.now < e.1) → (∀ e ∈ t.inputs, t.now < e.1) → haltDue (t.tick c.time) = false → (t.auto = true → nextEvent t = none ∧ hostNext t = none) → nextCand t = some c →
    (∀ d, nextDue t = some d → c.time < d ∨ c.time ≤ t.now) → c.what = .issue core slot → u.warp? core slot = some w →
    w.skip = false → (w.xfer = none ∧ w.pos < 24 ∨ ∃ x, i = .runend x) → w.pc % 4 = 0 → w.pc % 32 + 8 ≤ 32 →
    warpXlate u core (u.block core w.block) w w.pc 2 = some (.ok pa a) → a.fabric = false → pa % 32 = w.pc % 32 →
    ((smGet? (u.core core).icache (pa / 32) = none ∧ bytes = u.bytesAt pa (32 - w.pc % 32)) ∨
      ∃ x, smGet? (u.core core).icache (pa / 32) = some x ∧ bytes = blockBytes x w.pc) →
    decodeBytes bytes = .ok i n →
    ∃ k, step s = exec i { (u.updCore core fun z => { z with icache := k }) with cur := some (core, slot) }

/-- 11 R224, 03 R72, 10, 12 R238, 13 R269, 16 R325, R328, 23 R413: words that the manual writes out decode to the instructions they stand for. -/
def Obligations.ManualWords : Prop :=
  let base : Z1 := { ext := .none, scope := .lane, giveWay := false, gap := 0, guardP := 7, guardNeg := false, ty := .b32, d := 0, a := 0, b := 0, mod := 0 }
  decodeTableWord 64 0x0000000000001700 = some (.nop base) ∧
  decodeTableWord 64 0x0200000004002700 = some (.runend { base with d := 4, mod := 1 }) ∧
  decodeTableWord 96 0x00000001020000080031C701 = some (.icmp { base with ext := .imm 1, ty := .i32, a := 1, mod := 1 }) ∧
  decodeTableWord 64 0x6800001005F56700 = some (.f2n { base with ty := .nf, d := 5, a := 2, mod := 0x34 }) ∧
  decodeTableWord 128 0x00001000402000000000C01004C43702 = some (.ffma { base with ext := .opnd false 2 0 0x40200000, ty := .f32, d := 4, a := 2, b := 3 }) ∧
  decodeTableWord 96 0x00002442040000000006970D = some (.regqImm { base with ext := .imm 0x2442, scope := .block, mod := 2 }) ∧
  decodeTableWord 64 0x0000000000000700 = none ∧ decodeTableWord 64 0x000000000000E700 = none ∧
  decodeTableWord 64 0x00003046140A0704 = some (.fxw { base with scope := .warp, d := 1556, a := 1544 }) ∧
  decodeTableWord 32 0x08800006 = some (.rankLdt 1 6) ∧ decodeTableWord 32 0x5888000A = some (.rankShr 1 1 10) ∧ decodeTableWord 32 0x98080000 = some (.rankEmit 1)

/-- 09 R183, R185, 11 R225: a fault found at issue stops the warp at the instruction, with its code, its lanes and its place in the run, before any effect, and its set, or for a block-scope
instruction its block, stops with it; the checks stand in the
manual's order: a run of more than 24, an encoding, a scope, a transfer without its trailer, a set's member, a role, a privilege, a register, a value of the
run that is still to come.
Rests on the model's own reading or choice of logs 17, 21 and 50 where the manual leaves that open. -/
def Obligations.IssueFaults : Prop :=
  (∀ (i : Instr) (o : Op) (x : Z1) (s : State) (core slot code : Nat) (w : Warp), i.z1? = some (o, x) → s.firing = none → s.cur = some (core, slot) →
    (s.warp? core slot).isSome = true → (landWarp s core slot).warp? core slot = some w → w.replay = none → w.stopped = none → w.trailer = none →
    let t := landWarp s core slot
    let b := t.block core w.block
    issueCheck b w (if isXfer o then peekWord t core b w (w.pc + (8 + 4 * x.ext.lenCode)) else none) o x = some code →
    ∃ u v r, exec i s = .next u ∧ u.mem = s.mem ∧ u.bar0 = s.bar0 ∧ u.warp? core slot = some v ∧ v.pc = w.pc ∧ v.stopped = some r ∧ r.code = code ∧ r.instr = w.pc ∧
      r.lanes = execMask w x ∧ r.pos = w.pos ∧ r.resolved = decide (code = 0) ∧ (u.partn core (partOf slot)).holder ≠ some slot ∧
      ∀ sl ∈ stopsWith t core w.block w.num (x.scope == .block), sl ∈ r.group ∧ (sl ≠ slot → (u.warp? core sl).any (fun q => q.halt.isSome || q.stopped.isSome) = true)) ∧
  ∀ (b : Block) (w : Warp) (n : Option Nat) (o : Op) (x : Z1),
    let check := issueCheck b w n o x
    (24 ≤ w.pos → o ≠ .runend → check = some 0x06) ∧
    (w.pos < 24 ∨ o = .runend →
      let encodes : Prop := o.legal x = true ∧ (o = .bar → fld x.mod 3 0 < b.barCount)
      let inScope : Prop := o.scopes.contains x.scope = true ∧ (poolDst (dstsOf o x) = true → x.scope = .set)
      let placed : Prop := isXfer o = true → ∀ v, n = some v → opcodeOf v = 2
      let member : Prop := x.scope = .set → (b.setOf w.num).isSome = true
      let role : Prop := roleOk b w.role o = true
      let priv : Prop := privOk w.agent o x = true
      let regs : Prop := regsOk b w o x = true
      let free : Prop := ∀ r ∈ regsNamed b o x, r ∉ w.fills
      (¬ encodes → check = some 0x02) ∧ (encodes → ¬ inScope → check = some 0x04) ∧ (encodes → inScope → ¬ placed → check = some 0x14) ∧
      (encodes → inScope → placed → ¬ member → check = some 0x0E) ∧ (encodes → inScope → placed → member → ¬ role → check = some 0x05) ∧
      (encodes → inScope → placed → member → role → ¬ priv → check = some 0x10) ∧
      (encodes → inScope → placed → member → role → priv → ¬ regs → check = some 0x03) ∧
      (encodes → inScope → placed → member → role → priv → regs → ¬ free → check = some 0x07) ∧
      (encodes → inScope → placed → member → role → priv → regs → free → check = none))
end

