-- ==== Sys2Proof/Laws/Sparse.lean ====
section
/-!
SUPPORT. The sorted tables: reading after putting and removing, and the canonical form they keep.
-/
namespace Sys2Proof

@[simp] theorem smGet?_smPut_self {α : Type} (m : Sparse α) (i : Nat) (v : α) : smGet? (smPut m i v) i = some v := by
  induction m with
  | nil => simp [smPut, smGet?]
  | cons p m ih =>
    obtain ⟨k, w⟩ := p
    by_cases h : i = k
    · simp [smPut, smGet?, h]
    · by_cases h2 : i < k
      · simp [smPut, smGet?, h, h2]
      · simp [smPut, smGet?, h, h2, ih]

theorem smGet?_smPut_ne {α : Type} (m : Sparse α) {i j : Nat} (v : α) (h : j ≠ i) :
    smGet? (smPut m i v) j = smGet? m j := by
  induction m with
  | nil => simp [smPut, smGet?, h]
  | cons p m ih =>
    obtain ⟨k, w⟩ := p
    by_cases h1 : i = k
    · subst h1; simp [smPut, smGet?, h]
    · by_cases h2 : i < k
      · simp [smPut, smGet?, h1, h2, h]
      · simp [smPut, smGet?, h1, h2, ih]

theorem smGet?_smPut {α : Type} (m : Sparse α) (i j : Nat) (v : α) :
    smGet? (smPut m i v) j = if j = i then some v else smGet? m j := by
  by_cases h : j = i
  · subst h; simp
  · simp [h, smGet?_smPut_ne]

theorem smGet?_smDel_ne {α : Type} (m : Sparse α) {i j : Nat} (h : j ≠ i) : smGet? (smDel m i) j = smGet? m j := by
  induction m with
  | nil => rfl
  | cons p m ih =>
    obtain ⟨k, w⟩ := p
    by_cases h1 : i = k
    · subst h1; simp [smDel, smGet?, h, ih]
    · simp [smDel, smGet?, h1, ih]

theorem smSorted_lt {α : Type} {k : Nat} {w : α} {m : Sparse α} (hs : smSorted ((k, w) :: m) = true) :
    ∀ p ∈ m, k < p.1 := by
  induction m generalizing k w with
  | nil => simp
  | cons q m ih =>
    obtain ⟨k', w'⟩ := q
    simp only [smSorted, Bool.and_eq_true, decide_eq_true_eq] at hs
    intro p hp
    rcases List.mem_cons.1 hp with rfl | hp
    · exact hs.1
    · exact Nat.lt_trans hs.1 (ih (k := k') (w := w') (by simp [smSorted, hs.2]) p hp)

theorem smSorted_tail {α : Type} {p : Nat × α} {m : Sparse α} (hs : smSorted (p :: m) = true) : smSorted m = true := by
  obtain ⟨k, w⟩ := p
  simp only [smSorted, Bool.and_eq_true] at hs
  exact hs.2

theorem smSorted_cons {α : Type} {k : Nat} {w : α} {m : Sparse α} (h : ∀ p ∈ m, k < p.1) (hs : smSorted m = true) :
    smSorted ((k, w) :: m) = true := by
  cases m with
  | nil => rfl
  | cons q m => simp [smSorted, h q (by simp)] at *; exact hs

theorem smGet?_eq_none_of_ne {α : Type} (m : Sparse α) (i : Nat) (h : ∀ p ∈ m, i ≠ p.1) : smGet? m i = none := by
  induction m with
  | nil => rfl
  | cons p m ih =>
    obtain ⟨k, w⟩ := p
    have := h (k, w) (by simp)
    simp [smGet?, this, ih fun p hp => h p (by simp [hp])]

theorem smGet?_smDel_self {α : Type} (m : Sparse α) (i : Nat) : smGet? (smDel m i) i = none := by
  induction m with
  | nil => rfl
  | cons p m ih =>
    obtain ⟨k, w⟩ := p
    by_cases h1 : i = k
    · subst h1; simpa [smDel] using ih
    · simp [smDel, smGet?, h1, ih]

theorem smGet?_smDel {α : Type} (m : Sparse α) (i j : Nat) : smGet? (smDel m i) j = if j = i then none else smGet? m j := by
  by_cases h : j = i
  · subst h; simp [smGet?_smDel_self]
  · simp [h, smGet?_smDel_ne]

theorem mem_smPut {α : Type} {m : Sparse α} {i : Nat} {v : α} {p : Nat × α} (h : p ∈ smPut m i v) :
    p = (i, v) ∨ p ∈ m := by
  induction m with
  | nil => simp [smPut] at h; exact .inl h
  | cons q m ih =>
    obtain ⟨k, w⟩ := q
    simp only [smPut] at h
    split at h
    · rcases List.mem_cons.1 h with h | h
      · exact .inl h
      · exact .inr (by simp [h])
    · split at h
      · rcases List.mem_cons.1 h with h | h
        · exact .inl h
        · exact .inr h
      · rcases List.mem_cons.1 h with h | h
        · exact .inr (by simp [h])
        · rcases ih h with h | h
          · exact .inl h
          · exact .inr (by simp [h])

theorem mem_smDel {α : Type} {m : Sparse α} {i : Nat} {p : Nat × α} (h : p ∈ smDel m i) : p ∈ m := by
  induction m with
  | nil => simp [smDel] at h
  | cons q m ih =>
    obtain ⟨k, w⟩ := q
    simp only [smDel] at h
    split at h
    · exact List.mem_cons_of_mem _ (ih h)
    · rcases List.mem_cons.1 h with h | h
      · simp [h]
      · exact List.mem_cons_of_mem _ (ih h)

theorem smSorted_smPut {α : Type} {m : Sparse α} (i : Nat) (v : α) (hs : smSorted m = true) :
    smSorted (smPut m i v) = true := by
  induction m with
  | nil => rfl
  | cons q m ih =>
    obtain ⟨k, w⟩ := q
    simp only [smPut]
    split
    · rename_i h; subst h; exact smSorted_cons (smSorted_lt hs) (smSorted_tail hs)
    · split
      · rename_i h1 h2
        exact smSorted_cons (fun p hp => by
          rcases List.mem_cons.1 hp with rfl | hp
          · exact h2
          · exact Nat.lt_trans h2 (smSorted_lt hs p hp)) hs
      · rename_i h1 h2
        exact smSorted_cons (fun p hp => by
          rcases mem_smPut hp with rfl | hp
          · show k < i; omega
          · exact smSorted_lt hs p hp) (ih (smSorted_tail hs))

theorem smSorted_smDel {α : Type} {m : Sparse α} (i : Nat) (hs : smSorted m = true) : smSorted (smDel m i) = true := by
  induction m with
  | nil => rfl
  | cons q m ih =>
    obtain ⟨k, w⟩ := q
    simp only [smDel]
    split
    · exact ih (smSorted_tail hs)
    · exact smSorted_cons (fun p hp => smSorted_lt hs p (mem_smDel hp)) (ih (smSorted_tail hs))

theorem smSorted_filter {α : Type} {m : Sparse α} (f : Nat × α → Bool) (hs : smSorted m = true) :
    smSorted (m.filter f) = true := by
  induction m with
  | nil => rfl
  | cons q m ih =>
    obtain ⟨k, w⟩ := q
    simp only [List.filter_cons]
    split
    · exact smSorted_cons (fun p hp => smSorted_lt hs p ((List.mem_filter.1 hp).1)) (ih (smSorted_tail hs))
    · exact ih (smSorted_tail hs)

theorem smWf_iff {α : Type} [DecidableEq α] {d : α} {m : Sparse α} :
    smWf d m = true ↔ smSorted m = true ∧ ∀ p ∈ m, p.2 ≠ d := by
  simp [smWf]

/-- Storing a value, the default among them, keeps the canonical form. -/
theorem smWf_smSetD {α : Type} [DecidableEq α] {d : α} {m : Sparse α} (i : Nat) (v : α) (h : smWf d m = true) :
    smWf d (smSetD m d i v) = true := by
  rw [smWf_iff] at h ⊢
  unfold smSetD
  split
  · exact ⟨smSorted_smDel i h.1, fun p hp => h.2 p (mem_smDel hp)⟩
  · rename_i hv
    exact ⟨smSorted_smPut i v h.1, fun p hp => by
      rcases mem_smPut hp with rfl | hp
      · exact hv
      · exact h.2 p hp⟩

theorem smWf_filter {α : Type} [DecidableEq α] {d : α} {m : Sparse α} (f : Nat × α → Bool) (h : smWf d m = true) :
    smWf d (m.filter f) = true := by
  rw [smWf_iff] at h ⊢
  exact ⟨smSorted_filter f h.1, fun p hp => h.2 p ((List.mem_filter.1 hp).1)⟩

@[simp] theorem smGetD_smSetD_self {α : Type} [DecidableEq α] {d : α} {m : Sparse α} (i : Nat) (v : α) :
    smGetD (smSetD m d i v) d i = v := by
  unfold smGetD smSetD
  split
  · rename_i hv; rw [smGet?_smDel_self m i, hv]; rfl
  · simp

theorem smGetD_smSetD_ne {α : Type} [DecidableEq α] {d : α} {m : Sparse α} {i j : Nat} (v : α) (hj : j ≠ i) :
    smGetD (smSetD m d i v) d j = smGetD m d j := by
  unfold smGetD smSetD
  split
  · rw [smGet?_smDel_ne m hj]
  · rw [smGet?_smPut_ne m v hj]

theorem smGetD_smSetD {α : Type} [DecidableEq α] {d : α} {m : Sparse α} (i j : Nat) (v : α) :
    smGetD (smSetD m d i v) d j = if j = i then v else smGetD m d j := by
  by_cases h : j = i
  · subst h; simp
  · simp [h, smGetD_smSetD_ne]

/-- Two tables in canonical form that read the same are the same list. -/
theorem smWf_ext {α : Type} [DecidableEq α] {d : α} {m n : Sparse α} (hm : smWf d m = true) (hn : smWf d n = true)
    (h : ∀ i, smGetD m d i = smGetD n d i) : m = n := by
  rw [smWf_iff] at hm hn
  induction m generalizing n with
  | nil =>
    cases n with
    | nil => rfl
    | cons q n =>
      have h0 := h q.1
      have := hn.2 q (by simp)
      simp [smGetD, smGet?] at h0
      exact absurd h0.symm this
  | cons p m ih =>
    obtain ⟨k, w⟩ := p
    cases n with
    | nil =>
      have h0 := h k
      have := hm.2 (k, w) (by simp)
      simp [smGetD, smGet?] at h0
      exact absurd h0 this
    | cons q n =>
      obtain ⟨k', w'⟩ := q
      have hw := hm.2 (k, w) (by simp)
      have hw' := hn.2 (k', w') (by simp)
      have hk : k = k' := by
        have h1 := h k
        have h2 := h k'
        simp [smGetD, smGet?] at h1 h2
        rcases Nat.lt_trichotomy k k' with hlt | heq | hgt
        · rw [if_neg (by omega), smGet?_eq_none_of_ne n k fun p hp => by have := smSorted_lt hn.1 p hp; omega] at h1
          exact absurd h1 hw
        · exact heq
        · rw [if_neg (by omega), smGet?_eq_none_of_ne m k' fun p hp => by have := smSorted_lt hm.1 p hp; omega] at h2
          exact absurd h2.symm hw'
      subst hk
      have hv : w = w' := by have h1 := h k; simpa [smGetD, smGet?] using h1
      subst hv
      congr 1
      refine ih ⟨smSorted_tail hm.1, fun p hp => hm.2 p (by simp [hp])⟩ ⟨smSorted_tail hn.1, fun p hp => hn.2 p (by simp [hp])⟩ fun i => ?_
      by_cases hi : k < i
      · have h1 := h i
        simp only [smGetD, smGet?, if_neg (show i ≠ k by omega)] at h1
        exact h1
      · have a := smGet?_eq_none_of_ne m i fun p hp => by have := smSorted_lt hm.1 p hp; omega
        have b := smGet?_eq_none_of_ne n i fun p hp => by have := smSorted_lt hn.1 p hp; omega
        simp [smGetD, a, b]

end Sys2Proof
end

