-- ==== Sys2Proof/Laws/State.lean ====
section
/-!
SUPPORT. What each plain update of State leaves: one lemma for each field and update.
-/
namespace Sys2Proof.Machine

@[simp] theorem State.setCore_agenda (s : State) (c : Nat) (k : Core) : (s.setCore c k).agenda = s.agenda := rfl
@[simp] theorem State.setCore_inputs (s : State) (c : Nat) (k : Core) : (s.setCore c k).inputs = s.inputs := rfl
@[simp] theorem State.setCore_auto (s : State) (c : Nat) (k : Core) : (s.setCore c k).auto = s.auto := rfl
@[simp] theorem State.setCore_cur (s : State) (c : Nat) (k : Core) : (s.setCore c k).cur = s.cur := rfl
@[simp] theorem State.setCore_present (s : State) (c : Nat) (k : Core) : (s.setCore c k).present = s.present := rfl
@[simp] theorem State.setCore_place (s : State) (c : Nat) (k : Core) : (s.setCore c k).place = s.place := rfl
@[simp] theorem State.setCore_firing (s : State) (c : Nat) (k : Core) : (s.setCore c k).firing = s.firing := rfl
@[simp] theorem State.setCore_waits (s : State) (c : Nat) (k : Core) : (s.setCore c k).waits = s.waits := rfl
@[simp] theorem State.setCore_jobs (s : State) (c : Nat) (k : Core) : (s.setCore c k).jobs = s.jobs := rfl
@[simp] theorem State.setCore_waitq (s : State) (c : Nat) (k : Core) : (s.setCore c k).waitq = s.waitq := rfl
@[simp] theorem State.setCore_pushes (s : State) (c : Nat) (k : Core) : (s.setCore c k).pushes = s.pushes := rfl
@[simp] theorem State.setCore_busy (s : State) (c : Nat) (k : Core) : (s.setCore c k).busy = s.busy := rfl
@[simp] theorem State.setCore_free (s : State) (c : Nat) (k : Core) : (s.setCore c k).free = s.free := rfl
@[simp] theorem State.setCore_nextId (s : State) (c : Nat) (k : Core) : (s.setCore c k).nextId = s.nextId := rfl
@[simp] theorem State.setCore_out (s : State) (c : Nat) (k : Core) : (s.setCore c k).out = s.out := rfl
@[simp] theorem State.setCore_cfg (s : State) (c : Nat) (k : Core) : (s.setCore c k).cfg = s.cfg := rfl
@[simp] theorem State.setCore_now (s : State) (c : Nat) (k : Core) : (s.setCore c k).now = s.now := rfl
@[simp] theorem State.setCore_nsBase (s : State) (c : Nat) (k : Core) : (s.setCore c k).nsBase = s.nsBase := rfl
@[simp] theorem State.setCore_mem (s : State) (c : Nat) (k : Core) : (s.setCore c k).mem = s.mem := rfl
@[simp] theorem State.setCore_poison (s : State) (c : Nat) (k : Core) : (s.setCore c k).poison = s.poison := rfl
@[simp] theorem State.setCore_hostMem (s : State) (c : Nat) (k : Core) : (s.setCore c k).hostMem = s.hostMem := rfl
@[simp] theorem State.setCore_l2 (s : State) (c : Nat) (k : Core) : (s.setCore c k).l2 = s.l2 := rfl
@[simp] theorem State.setCore_redo (s : State) (c : Nat) (k : Core) : (s.setCore c k).redo = s.redo := rfl
@[simp] theorem State.setCore_owners (s : State) (c : Nat) (k : Core) : (s.setCore c k).owners = s.owners := rfl
@[simp] theorem State.setCore_bar0 (s : State) (c : Nat) (k : Core) : (s.setCore c k).bar0 = s.bar0 := rfl
@[simp] theorem State.setCore_clusters (s : State) (c : Nat) (k : Core) : (s.setCore c k).clusters = s.clusters := rfl
@[simp] theorem State.setCore_walks (s : State) (c : Nat) (k : Core) : (s.setCore c k).walks = s.walks := rfl
@[simp] theorem State.setCore_reqs (s : State) (c : Nat) (k : Core) : (s.setCore c k).reqs = s.reqs := rfl
@[simp] theorem State.setCore_invals (s : State) (c : Nat) (k : Core) : (s.setCore c k).invals = s.invals := rfl
@[simp] theorem State.setCore_queues (s : State) (c : Nat) (k : Core) : (s.setCore c k).queues = s.queues := rfl
@[simp] theorem State.setCore_blame (s : State) (c : Nat) (k : Core) : (s.setCore c k).blame = s.blame := rfl
@[simp] theorem State.setCore_launches (s : State) (c : Nat) (k : Core) : (s.setCore c k).launches = s.launches := rfl
@[simp] theorem State.setCore_copies (s : State) (c : Nat) (k : Core) : (s.setCore c k).copies = s.copies := rfl
@[simp] theorem State.setCore_sends (s : State) (c : Nat) (k : Core) : (s.setCore c k).sends = s.sends := rfl
@[simp] theorem State.setCore_ctrs (s : State) (c : Nat) (k : Core) : (s.setCore c k).ctrs = s.ctrs := rfl
@[simp] theorem State.setCore_parked (s : State) (c : Nat) (k : Core) : (s.setCore c k).parked = s.parked := rfl
@[simp] theorem State.setCore_remote (s : State) (c : Nat) (k : Core) : (s.setCore c k).remote = s.remote := rfl
@[simp] theorem State.setCore_replyCache (s : State) (c : Nat) (k : Core) : (s.setCore c k).replyCache = s.replyCache := rfl
@[simp] theorem State.setCore_pdcs (s : State) (c : Nat) (k : Core) : (s.setCore c k).pdcs = s.pdcs := rfl
@[simp] theorem State.setCore_rings (s : State) (c : Nat) (k : Core) : (s.setCore c k).rings = s.rings := rfl
@[simp] theorem State.setCore_advs (s : State) (c : Nat) (k : Core) : (s.setCore c k).advs = s.advs := rfl
@[simp] theorem State.setCore_landq (s : State) (c : Nat) (k : Core) : (s.setCore c k).landq = s.landq := rfl
@[simp] theorem State.setCore_keys (s : State) (c : Nat) (k : Core) : (s.setCore c k).keys = s.keys := rfl
@[simp] theorem State.setCore_measure (s : State) (c : Nat) (k : Core) : (s.setCore c k).measure = s.measure := rfl
@[simp] theorem State.setCore_mlog (s : State) (c : Nat) (k : Core) : (s.setCore c k).mlog = s.mlog := rfl
@[simp] theorem State.setCore_flash (s : State) (c : Nat) (k : Core) : (s.setCore c k).flash = s.flash := rfl
@[simp] theorem State.setCore_minVer (s : State) (c : Nat) (k : Core) : (s.setCore c k).minVer = s.minVer := rfl
@[simp] theorem State.setCore_fellBack (s : State) (c : Nat) (k : Core) : (s.setCore c k).fellBack = s.fellBack := rfl
@[simp] theorem State.setCore_bootErr (s : State) (c : Nat) (k : Core) : (s.setCore c k).bootErr = s.bootErr := rfl
@[simp] theorem State.setCore_quote (s : State) (c : Nat) (k : Core) : (s.setCore c k).quote = s.quote := rfl
@[simp] theorem State.setCore_ctxsw (s : State) (c : Nat) (k : Core) : (s.setCore c k).ctxsw = s.ctxsw := rfl
@[simp] theorem State.setCore_ctxEnd (s : State) (c : Nat) (k : Core) : (s.setCore c k).ctxEnd = s.ctxEnd := rfl
@[simp] theorem State.setCore_ctxList (s : State) (c : Nat) (k : Core) : (s.setCore c k).ctxList = s.ctxList := rfl
@[simp] theorem State.setCore_frozen (s : State) (c : Nat) (k : Core) : (s.setCore c k).frozen = s.frozen := rfl
@[simp] theorem State.setCore_part (s : State) (c : Nat) (k : Core) : (s.setCore c k).part = s.part := rfl
@[simp] theorem State.setCore_wdArmed (s : State) (c : Nat) (k : Core) : (s.setCore c k).wdArmed = s.wdArmed := rfl
@[simp] theorem State.setCore_wdDue (s : State) (c : Nat) (k : Core) : (s.setCore c k).wdDue = s.wdDue := rfl
@[simp] theorem State.setCore_testing (s : State) (c : Nat) (k : Core) : (s.setCore c k).testing = s.testing := rfl
@[simp] theorem State.setCore_lastTest (s : State) (c : Nat) (k : Core) : (s.setCore c k).lastTest = s.lastTest := rfl
@[simp] theorem State.setCore_testDue (s : State) (c : Nat) (k : Core) : (s.setCore c k).testDue = s.testDue := rfl
@[simp] theorem State.setCore_scrubAt (s : State) (c : Nat) (k : Core) : (s.setCore c k).scrubAt = s.scrubAt := rfl
@[simp] theorem State.setCore_rescrub (s : State) (c : Nat) (k : Core) : (s.setCore c k).rescrub = s.rescrub := rfl
@[simp] theorem State.setCore_latch (s : State) (c : Nat) (k : Core) : (s.setCore c k).latch = s.latch := rfl
@[simp] theorem State.setCore_acts (s : State) (c : Nat) (k : Core) : (s.setCore c k).acts = s.acts := rfl
@[simp] theorem State.setCore_bookAt (s : State) (c : Nat) (k : Core) : (s.setCore c k).bookAt = s.bookAt := rfl
@[simp] theorem State.setCore_limDue (s : State) (c : Nat) (k : Core) : (s.setCore c k).limDue = s.limDue := rfl
@[simp] theorem State.setCore_flashBad (s : State) (c : Nat) (k : Core) : (s.setCore c k).flashBad = s.flashBad := rfl
@[simp] theorem State.setCore_fwBusy (s : State) (c : Nat) (k : Core) : (s.setCore c k).fwBusy = s.fwBusy := rfl
@[simp] theorem State.setCore_hostq (s : State) (c : Nat) (k : Core) : (s.setCore c k).hostq = s.hostq := rfl
@[simp] theorem State.setCore_off (s : State) (c : Nat) (k : Core) : (s.setCore c k).off = s.off := rfl

@[simp] theorem State.updCore_agenda (s : State) (c : Nat) (f : Core → Core) : (s.updCore c f).agenda = s.agenda := rfl
@[simp] theorem State.updCore_inputs (s : State) (c : Nat) (f : Core → Core) : (s.updCore c f).inputs = s.inputs := rfl
@[simp] theorem State.updCore_auto (s : State) (c : Nat) (f : Core → Core) : (s.updCore c f).auto = s.auto := rfl
@[simp] theorem State.updCore_cur (s : State) (c : Nat) (f : Core → Core) : (s.updCore c f).cur = s.cur := rfl
@[simp] theorem State.updCore_present (s : State) (c : Nat) (f : Core → Core) : (s.updCore c f).present = s.present := rfl
@[simp] theorem State.updCore_place (s : State) (c : Nat) (f : Core → Core) : (s.updCore c f).place = s.place := rfl
@[simp] theorem State.updCore_firing (s : State) (c : Nat) (f : Core → Core) : (s.updCore c f).firing = s.firing := rfl
@[simp] theorem State.updCore_waits (s : State) (c : Nat) (f : Core → Core) : (s.updCore c f).waits = s.waits := rfl
@[simp] theorem State.updCore_jobs (s : State) (c : Nat) (f : Core → Core) : (s.updCore c f).jobs = s.jobs := rfl
@[simp] theorem State.updCore_waitq (s : State) (c : Nat) (f : Core → Core) : (s.updCore c f).waitq = s.waitq := rfl
@[simp] theorem State.updCore_pushes (s : State) (c : Nat) (f : Core → Core) : (s.updCore c f).pushes = s.pushes := rfl
@[simp] theorem State.updCore_busy (s : State) (c : Nat) (f : Core → Core) : (s.updCore c f).busy = s.busy := rfl
@[simp] theorem State.updCore_free (s : State) (c : Nat) (f : Core → Core) : (s.updCore c f).free = s.free := rfl
@[simp] theorem State.updCore_nextId (s : State) (c : Nat) (f : Core → Core) : (s.updCore c f).nextId = s.nextId := rfl
@[simp] theorem State.updCore_out (s : State) (c : Nat) (f : Core → Core) : (s.updCore c f).out = s.out := rfl
@[simp] theorem State.updCore_cfg (s : State) (c : Nat) (f : Core → Core) : (s.updCore c f).cfg = s.cfg := rfl
@[simp] theorem State.updCore_now (s : State) (c : Nat) (f : Core → Core) : (s.updCore c f).now = s.now := rfl
@[simp] theorem State.updCore_nsBase (s : State) (c : Nat) (f : Core → Core) : (s.updCore c f).nsBase = s.nsBase := rfl
@[simp] theorem State.updCore_mem (s : State) (c : Nat) (f : Core → Core) : (s.updCore c f).mem = s.mem := rfl
@[simp] theorem State.updCore_poison (s : State) (c : Nat) (f : Core → Core) : (s.updCore c f).poison = s.poison := rfl
@[simp] theorem State.updCore_hostMem (s : State) (c : Nat) (f : Core → Core) : (s.updCore c f).hostMem = s.hostMem := rfl
@[simp] theorem State.updCore_l2 (s : State) (c : Nat) (f : Core → Core) : (s.updCore c f).l2 = s.l2 := rfl
@[simp] theorem State.updCore_redo (s : State) (c : Nat) (f : Core → Core) : (s.updCore c f).redo = s.redo := rfl
@[simp] theorem State.updCore_owners (s : State) (c : Nat) (f : Core → Core) : (s.updCore c f).owners = s.owners := rfl
@[simp] theorem State.updCore_bar0 (s : State) (c : Nat) (f : Core → Core) : (s.updCore c f).bar0 = s.bar0 := rfl
@[simp] theorem State.updCore_clusters (s : State) (c : Nat) (f : Core → Core) : (s.updCore c f).clusters = s.clusters := rfl
@[simp] theorem State.updCore_walks (s : State) (c : Nat) (f : Core → Core) : (s.updCore c f).walks = s.walks := rfl
@[simp] theorem State.updCore_reqs (s : State) (c : Nat) (f : Core → Core) : (s.updCore c f).reqs = s.reqs := rfl
@[simp] theorem State.updCore_invals (s : State) (c : Nat) (f : Core → Core) : (s.updCore c f).invals = s.invals := rfl
@[simp] theorem State.updCore_queues (s : State) (c : Nat) (f : Core → Core) : (s.updCore c f).queues = s.queues := rfl
@[simp] theorem State.updCore_blame (s : State) (c : Nat) (f : Core → Core) : (s.updCore c f).blame = s.blame := rfl
@[simp] theorem State.updCore_launches (s : State) (c : Nat) (f : Core → Core) : (s.updCore c f).launches = s.launches := rfl
@[simp] theorem State.updCore_copies (s : State) (c : Nat) (f : Core → Core) : (s.updCore c f).copies = s.copies := rfl
@[simp] theorem State.updCore_sends (s : State) (c : Nat) (f : Core → Core) : (s.updCore c f).sends = s.sends := rfl
@[simp] theorem State.updCore_ctrs (s : State) (c : Nat) (f : Core → Core) : (s.updCore c f).ctrs = s.ctrs := rfl
@[simp] theorem State.updCore_parked (s : State) (c : Nat) (f : Core → Core) : (s.updCore c f).parked = s.parked := rfl
@[simp] theorem State.updCore_remote (s : State) (c : Nat) (f : Core → Core) : (s.updCore c f).remote = s.remote := rfl
@[simp] theorem State.updCore_replyCache (s : State) (c : Nat) (f : Core → Core) : (s.updCore c f).replyCache = s.replyCache := rfl
@[simp] theorem State.updCore_pdcs (s : State) (c : Nat) (f : Core → Core) : (s.updCore c f).pdcs = s.pdcs := rfl
@[simp] theorem State.updCore_rings (s : State) (c : Nat) (f : Core → Core) : (s.updCore c f).rings = s.rings := rfl
@[simp] theorem State.updCore_advs (s : State) (c : Nat) (f : Core → Core) : (s.updCore c f).advs = s.advs := rfl
@[simp] theorem State.updCore_landq (s : State) (c : Nat) (f : Core → Core) : (s.updCore c f).landq = s.landq := rfl
@[simp] theorem State.updCore_keys (s : State) (c : Nat) (f : Core → Core) : (s.updCore c f).keys = s.keys := rfl
@[simp] theorem State.updCore_measure (s : State) (c : Nat) (f : Core → Core) : (s.updCore c f).measure = s.measure := rfl
@[simp] theorem State.updCore_mlog (s : State) (c : Nat) (f : Core → Core) : (s.updCore c f).mlog = s.mlog := rfl
@[simp] theorem State.updCore_flash (s : State) (c : Nat) (f : Core → Core) : (s.updCore c f).flash = s.flash := rfl
@[simp] theorem State.updCore_minVer (s : State) (c : Nat) (f : Core → Core) : (s.updCore c f).minVer = s.minVer := rfl
@[simp] theorem State.updCore_fellBack (s : State) (c : Nat) (f : Core → Core) : (s.updCore c f).fellBack = s.fellBack := rfl
@[simp] theorem State.updCore_bootErr (s : State) (c : Nat) (f : Core → Core) : (s.updCore c f).bootErr = s.bootErr := rfl
@[simp] theorem State.updCore_quote (s : State) (c : Nat) (f : Core → Core) : (s.updCore c f).quote = s.quote := rfl
@[simp] theorem State.updCore_ctxsw (s : State) (c : Nat) (f : Core → Core) : (s.updCore c f).ctxsw = s.ctxsw := rfl
@[simp] theorem State.updCore_ctxEnd (s : State) (c : Nat) (f : Core → Core) : (s.updCore c f).ctxEnd = s.ctxEnd := rfl
@[simp] theorem State.updCore_ctxList (s : State) (c : Nat) (f : Core → Core) : (s.updCore c f).ctxList = s.ctxList := rfl
@[simp] theorem State.updCore_frozen (s : State) (c : Nat) (f : Core → Core) : (s.updCore c f).frozen = s.frozen := rfl
@[simp] theorem State.updCore_part (s : State) (c : Nat) (f : Core → Core) : (s.updCore c f).part = s.part := rfl
@[simp] theorem State.updCore_wdArmed (s : State) (c : Nat) (f : Core → Core) : (s.updCore c f).wdArmed = s.wdArmed := rfl
@[simp] theorem State.updCore_wdDue (s : State) (c : Nat) (f : Core → Core) : (s.updCore c f).wdDue = s.wdDue := rfl
@[simp] theorem State.updCore_testing (s : State) (c : Nat) (f : Core → Core) : (s.updCore c f).testing = s.testing := rfl
@[simp] theorem State.updCore_lastTest (s : State) (c : Nat) (f : Core → Core) : (s.updCore c f).lastTest = s.lastTest := rfl
@[simp] theorem State.updCore_testDue (s : State) (c : Nat) (f : Core → Core) : (s.updCore c f).testDue = s.testDue := rfl
@[simp] theorem State.updCore_scrubAt (s : State) (c : Nat) (f : Core → Core) : (s.updCore c f).scrubAt = s.scrubAt := rfl
@[simp] theorem State.updCore_rescrub (s : State) (c : Nat) (f : Core → Core) : (s.updCore c f).rescrub = s.rescrub := rfl
@[simp] theorem State.updCore_latch (s : State) (c : Nat) (f : Core → Core) : (s.updCore c f).latch = s.latch := rfl
@[simp] theorem State.updCore_acts (s : State) (c : Nat) (f : Core → Core) : (s.updCore c f).acts = s.acts := rfl
@[simp] theorem State.updCore_bookAt (s : State) (c : Nat) (f : Core → Core) : (s.updCore c f).bookAt = s.bookAt := rfl
@[simp] theorem State.updCore_limDue (s : State) (c : Nat) (f : Core → Core) : (s.updCore c f).limDue = s.limDue := rfl
@[simp] theorem State.updCore_flashBad (s : State) (c : Nat) (f : Core → Core) : (s.updCore c f).flashBad = s.flashBad := rfl
@[simp] theorem State.updCore_fwBusy (s : State) (c : Nat) (f : Core → Core) : (s.updCore c f).fwBusy = s.fwBusy := rfl
@[simp] theorem State.updCore_hostq (s : State) (c : Nat) (f : Core → Core) : (s.updCore c f).hostq = s.hostq := rfl
@[simp] theorem State.updCore_off (s : State) (c : Nat) (f : Core → Core) : (s.updCore c f).off = s.off := rfl

@[simp] theorem State.setWarp_agenda (s : State) (c w : Nat) (x : Warp) : (s.setWarp c w x).agenda = s.agenda := rfl
@[simp] theorem State.setWarp_inputs (s : State) (c w : Nat) (x : Warp) : (s.setWarp c w x).inputs = s.inputs := rfl
@[simp] theorem State.setWarp_auto (s : State) (c w : Nat) (x : Warp) : (s.setWarp c w x).auto = s.auto := rfl
@[simp] theorem State.setWarp_cur (s : State) (c w : Nat) (x : Warp) : (s.setWarp c w x).cur = s.cur := rfl
@[simp] theorem State.setWarp_present (s : State) (c w : Nat) (x : Warp) : (s.setWarp c w x).present = s.present := rfl
@[simp] theorem State.setWarp_place (s : State) (c w : Nat) (x : Warp) : (s.setWarp c w x).place = s.place := rfl
@[simp] theorem State.setWarp_firing (s : State) (c w : Nat) (x : Warp) : (s.setWarp c w x).firing = s.firing := rfl
@[simp] theorem State.setWarp_waits (s : State) (c w : Nat) (x : Warp) : (s.setWarp c w x).waits = s.waits := rfl
@[simp] theorem State.setWarp_jobs (s : State) (c w : Nat) (x : Warp) : (s.setWarp c w x).jobs = s.jobs := rfl
@[simp] theorem State.setWarp_waitq (s : State) (c w : Nat) (x : Warp) : (s.setWarp c w x).waitq = s.waitq := rfl
@[simp] theorem State.setWarp_pushes (s : State) (c w : Nat) (x : Warp) : (s.setWarp c w x).pushes = s.pushes := rfl
@[simp] theorem State.setWarp_busy (s : State) (c w : Nat) (x : Warp) : (s.setWarp c w x).busy = s.busy := rfl
@[simp] theorem State.setWarp_free (s : State) (c w : Nat) (x : Warp) : (s.setWarp c w x).free = s.free := rfl
@[simp] theorem State.setWarp_nextId (s : State) (c w : Nat) (x : Warp) : (s.setWarp c w x).nextId = s.nextId := rfl
@[simp] theorem State.setWarp_out (s : State) (c w : Nat) (x : Warp) : (s.setWarp c w x).out = s.out := rfl
@[simp] theorem State.setWarp_cfg (s : State) (c w : Nat) (x : Warp) : (s.setWarp c w x).cfg = s.cfg := rfl
@[simp] theorem State.setWarp_now (s : State) (c w : Nat) (x : Warp) : (s.setWarp c w x).now = s.now := rfl
@[simp] theorem State.setWarp_nsBase (s : State) (c w : Nat) (x : Warp) : (s.setWarp c w x).nsBase = s.nsBase := rfl
@[simp] theorem State.setWarp_mem (s : State) (c w : Nat) (x : Warp) : (s.setWarp c w x).mem = s.mem := rfl
@[simp] theorem State.setWarp_poison (s : State) (c w : Nat) (x : Warp) : (s.setWarp c w x).poison = s.poison := rfl
@[simp] theorem State.setWarp_hostMem (s : State) (c w : Nat) (x : Warp) : (s.setWarp c w x).hostMem = s.hostMem := rfl
@[simp] theorem State.setWarp_l2 (s : State) (c w : Nat) (x : Warp) : (s.setWarp c w x).l2 = s.l2 := rfl
@[simp] theorem State.setWarp_redo (s : State) (c w : Nat) (x : Warp) : (s.setWarp c w x).redo = s.redo := rfl
@[simp] theorem State.setWarp_owners (s : State) (c w : Nat) (x : Warp) : (s.setWarp c w x).owners = s.owners := rfl
@[simp] theorem State.setWarp_bar0 (s : State) (c w : Nat) (x : Warp) : (s.setWarp c w x).bar0 = s.bar0 := rfl
@[simp] theorem State.setWarp_clusters (s : State) (c w : Nat) (x : Warp) : (s.setWarp c w x).clusters = s.clusters := rfl
@[simp] theorem State.setWarp_walks (s : State) (c w : Nat) (x : Warp) : (s.setWarp c w x).walks = s.walks := rfl
@[simp] theorem State.setWarp_reqs (s : State) (c w : Nat) (x : Warp) : (s.setWarp c w x).reqs = s.reqs := rfl
@[simp] theorem State.setWarp_invals (s : State) (c w : Nat) (x : Warp) : (s.setWarp c w x).invals = s.invals := rfl
@[simp] theorem State.setWarp_queues (s : State) (c w : Nat) (x : Warp) : (s.setWarp c w x).queues = s.queues := rfl
@[simp] theorem State.setWarp_blame (s : State) (c w : Nat) (x : Warp) : (s.setWarp c w x).blame = s.blame := rfl
@[simp] theorem State.setWarp_launches (s : State) (c w : Nat) (x : Warp) : (s.setWarp c w x).launches = s.launches := rfl
@[simp] theorem State.setWarp_copies (s : State) (c w : Nat) (x : Warp) : (s.setWarp c w x).copies = s.copies := rfl
@[simp] theorem State.setWarp_sends (s : State) (c w : Nat) (x : Warp) : (s.setWarp c w x).sends = s.sends := rfl
@[simp] theorem State.setWarp_ctrs (s : State) (c w : Nat) (x : Warp) : (s.setWarp c w x).ctrs = s.ctrs := rfl
@[simp] theorem State.setWarp_parked (s : State) (c w : Nat) (x : Warp) : (s.setWarp c w x).parked = s.parked := rfl
@[simp] theorem State.setWarp_remote (s : State) (c w : Nat) (x : Warp) : (s.setWarp c w x).remote = s.remote := rfl
@[simp] theorem State.setWarp_replyCache (s : State) (c w : Nat) (x : Warp) : (s.setWarp c w x).replyCache = s.replyCache := rfl
@[simp] theorem State.setWarp_pdcs (s : State) (c w : Nat) (x : Warp) : (s.setWarp c w x).pdcs = s.pdcs := rfl
@[simp] theorem State.setWarp_rings (s : State) (c w : Nat) (x : Warp) : (s.setWarp c w x).rings = s.rings := rfl
@[simp] theorem State.setWarp_advs (s : State) (c w : Nat) (x : Warp) : (s.setWarp c w x).advs = s.advs := rfl
@[simp] theorem State.setWarp_landq (s : State) (c w : Nat) (x : Warp) : (s.setWarp c w x).landq = s.landq := rfl
@[simp] theorem State.setWarp_keys (s : State) (c w : Nat) (x : Warp) : (s.setWarp c w x).keys = s.keys := rfl
@[simp] theorem State.setWarp_measure (s : State) (c w : Nat) (x : Warp) : (s.setWarp c w x).measure = s.measure := rfl
@[simp] theorem State.setWarp_mlog (s : State) (c w : Nat) (x : Warp) : (s.setWarp c w x).mlog = s.mlog := rfl
@[simp] theorem State.setWarp_flash (s : State) (c w : Nat) (x : Warp) : (s.setWarp c w x).flash = s.flash := rfl
@[simp] theorem State.setWarp_minVer (s : State) (c w : Nat) (x : Warp) : (s.setWarp c w x).minVer = s.minVer := rfl
@[simp] theorem State.setWarp_fellBack (s : State) (c w : Nat) (x : Warp) : (s.setWarp c w x).fellBack = s.fellBack := rfl
@[simp] theorem State.setWarp_bootErr (s : State) (c w : Nat) (x : Warp) : (s.setWarp c w x).bootErr = s.bootErr := rfl
@[simp] theorem State.setWarp_quote (s : State) (c w : Nat) (x : Warp) : (s.setWarp c w x).quote = s.quote := rfl
@[simp] theorem State.setWarp_ctxsw (s : State) (c w : Nat) (x : Warp) : (s.setWarp c w x).ctxsw = s.ctxsw := rfl
@[simp] theorem State.setWarp_ctxEnd (s : State) (c w : Nat) (x : Warp) : (s.setWarp c w x).ctxEnd = s.ctxEnd := rfl
@[simp] theorem State.setWarp_ctxList (s : State) (c w : Nat) (x : Warp) : (s.setWarp c w x).ctxList = s.ctxList := rfl
@[simp] theorem State.setWarp_frozen (s : State) (c w : Nat) (x : Warp) : (s.setWarp c w x).frozen = s.frozen := rfl
@[simp] theorem State.setWarp_part (s : State) (c w : Nat) (x : Warp) : (s.setWarp c w x).part = s.part := rfl
@[simp] theorem State.setWarp_wdArmed (s : State) (c w : Nat) (x : Warp) : (s.setWarp c w x).wdArmed = s.wdArmed := rfl
@[simp] theorem State.setWarp_wdDue (s : State) (c w : Nat) (x : Warp) : (s.setWarp c w x).wdDue = s.wdDue := rfl
@[simp] theorem State.setWarp_testing (s : State) (c w : Nat) (x : Warp) : (s.setWarp c w x).testing = s.testing := rfl
@[simp] theorem State.setWarp_lastTest (s : State) (c w : Nat) (x : Warp) : (s.setWarp c w x).lastTest = s.lastTest := rfl
@[simp] theorem State.setWarp_testDue (s : State) (c w : Nat) (x : Warp) : (s.setWarp c w x).testDue = s.testDue := rfl
@[simp] theorem State.setWarp_scrubAt (s : State) (c w : Nat) (x : Warp) : (s.setWarp c w x).scrubAt = s.scrubAt := rfl
@[simp] theorem State.setWarp_rescrub (s : State) (c w : Nat) (x : Warp) : (s.setWarp c w x).rescrub = s.rescrub := rfl
@[simp] theorem State.setWarp_latch (s : State) (c w : Nat) (x : Warp) : (s.setWarp c w x).latch = s.latch := rfl
@[simp] theorem State.setWarp_acts (s : State) (c w : Nat) (x : Warp) : (s.setWarp c w x).acts = s.acts := rfl
@[simp] theorem State.setWarp_bookAt (s : State) (c w : Nat) (x : Warp) : (s.setWarp c w x).bookAt = s.bookAt := rfl
@[simp] theorem State.setWarp_limDue (s : State) (c w : Nat) (x : Warp) : (s.setWarp c w x).limDue = s.limDue := rfl
@[simp] theorem State.setWarp_flashBad (s : State) (c w : Nat) (x : Warp) : (s.setWarp c w x).flashBad = s.flashBad := rfl
@[simp] theorem State.setWarp_fwBusy (s : State) (c w : Nat) (x : Warp) : (s.setWarp c w x).fwBusy = s.fwBusy := rfl
@[simp] theorem State.setWarp_hostq (s : State) (c w : Nat) (x : Warp) : (s.setWarp c w x).hostq = s.hostq := rfl
@[simp] theorem State.setWarp_off (s : State) (c w : Nat) (x : Warp) : (s.setWarp c w x).off = s.off := rfl

@[simp] theorem State.setBlock_agenda (s : State) (c b : Nat) (x : Block) : (s.setBlock c b x).agenda = s.agenda := rfl
@[simp] theorem State.setBlock_inputs (s : State) (c b : Nat) (x : Block) : (s.setBlock c b x).inputs = s.inputs := rfl
@[simp] theorem State.setBlock_auto (s : State) (c b : Nat) (x : Block) : (s.setBlock c b x).auto = s.auto := rfl
@[simp] theorem State.setBlock_cur (s : State) (c b : Nat) (x : Block) : (s.setBlock c b x).cur = s.cur := rfl
@[simp] theorem State.setBlock_present (s : State) (c b : Nat) (x : Block) : (s.setBlock c b x).present = s.present := rfl
@[simp] theorem State.setBlock_place (s : State) (c b : Nat) (x : Block) : (s.setBlock c b x).place = s.place := rfl
@[simp] theorem State.setBlock_firing (s : State) (c b : Nat) (x : Block) : (s.setBlock c b x).firing = s.firing := rfl
@[simp] theorem State.setBlock_waits (s : State) (c b : Nat) (x : Block) : (s.setBlock c b x).waits = s.waits := rfl
@[simp] theorem State.setBlock_jobs (s : State) (c b : Nat) (x : Block) : (s.setBlock c b x).jobs = s.jobs := rfl
@[simp] theorem State.setBlock_waitq (s : State) (c b : Nat) (x : Block) : (s.setBlock c b x).waitq = s.waitq := rfl
@[simp] theorem State.setBlock_pushes (s : State) (c b : Nat) (x : Block) : (s.setBlock c b x).pushes = s.pushes := rfl
@[simp] theorem State.setBlock_busy (s : State) (c b : Nat) (x : Block) : (s.setBlock c b x).busy = s.busy := rfl
@[simp] theorem State.setBlock_free (s : State) (c b : Nat) (x : Block) : (s.setBlock c b x).free = s.free := rfl
@[simp] theorem State.setBlock_nextId (s : State) (c b : Nat) (x : Block) : (s.setBlock c b x).nextId = s.nextId := rfl
@[simp] theorem State.setBlock_out (s : State) (c b : Nat) (x : Block) : (s.setBlock c b x).out = s.out := rfl
@[simp] theorem State.setBlock_cfg (s : State) (c b : Nat) (x : Block) : (s.setBlock c b x).cfg = s.cfg := rfl
@[simp] theorem State.setBlock_now (s : State) (c b : Nat) (x : Block) : (s.setBlock c b x).now = s.now := rfl
@[simp] theorem State.setBlock_nsBase (s : State) (c b : Nat) (x : Block) : (s.setBlock c b x).nsBase = s.nsBase := rfl
@[simp] theorem State.setBlock_mem (s : State) (c b : Nat) (x : Block) : (s.setBlock c b x).mem = s.mem := rfl
@[simp] theorem State.setBlock_poison (s : State) (c b : Nat) (x : Block) : (s.setBlock c b x).poison = s.poison := rfl
@[simp] theorem State.setBlock_hostMem (s : State) (c b : Nat) (x : Block) : (s.setBlock c b x).hostMem = s.hostMem := rfl
@[simp] theorem State.setBlock_l2 (s : State) (c b : Nat) (x : Block) : (s.setBlock c b x).l2 = s.l2 := rfl
@[simp] theorem State.setBlock_redo (s : State) (c b : Nat) (x : Block) : (s.setBlock c b x).redo = s.redo := rfl
@[simp] theorem State.setBlock_owners (s : State) (c b : Nat) (x : Block) : (s.setBlock c b x).owners = s.owners := rfl
@[simp] theorem State.setBlock_bar0 (s : State) (c b : Nat) (x : Block) : (s.setBlock c b x).bar0 = s.bar0 := rfl
@[simp] theorem State.setBlock_clusters (s : State) (c b : Nat) (x : Block) : (s.setBlock c b x).clusters = s.clusters := rfl
@[simp] theorem State.setBlock_walks (s : State) (c b : Nat) (x : Block) : (s.setBlock c b x).walks = s.walks := rfl
@[simp] theorem State.setBlock_reqs (s : State) (c b : Nat) (x : Block) : (s.setBlock c b x).reqs = s.reqs := rfl
@[simp] theorem State.setBlock_invals (s : State) (c b : Nat) (x : Block) : (s.setBlock c b x).invals = s.invals := rfl
@[simp] theorem State.setBlock_queues (s : State) (c b : Nat) (x : Block) : (s.setBlock c b x).queues = s.queues := rfl
@[simp] theorem State.setBlock_blame (s : State) (c b : Nat) (x : Block) : (s.setBlock c b x).blame = s.blame := rfl
@[simp] theorem State.setBlock_launches (s : State) (c b : Nat) (x : Block) : (s.setBlock c b x).launches = s.launches := rfl
@[simp] theorem State.setBlock_copies (s : State) (c b : Nat) (x : Block) : (s.setBlock c b x).copies = s.copies := rfl
@[simp] theorem State.setBlock_sends (s : State) (c b : Nat) (x : Block) : (s.setBlock c b x).sends = s.sends := rfl
@[simp] theorem State.setBlock_ctrs (s : State) (c b : Nat) (x : Block) : (s.setBlock c b x).ctrs = s.ctrs := rfl
@[simp] theorem State.setBlock_parked (s : State) (c b : Nat) (x : Block) : (s.setBlock c b x).parked = s.parked := rfl
@[simp] theorem State.setBlock_remote (s : State) (c b : Nat) (x : Block) : (s.setBlock c b x).remote = s.remote := rfl
@[simp] theorem State.setBlock_replyCache (s : State) (c b : Nat) (x : Block) : (s.setBlock c b x).replyCache = s.replyCache := rfl
@[simp] theorem State.setBlock_pdcs (s : State) (c b : Nat) (x : Block) : (s.setBlock c b x).pdcs = s.pdcs := rfl
@[simp] theorem State.setBlock_rings (s : State) (c b : Nat) (x : Block) : (s.setBlock c b x).rings = s.rings := rfl
@[simp] theorem State.setBlock_advs (s : State) (c b : Nat) (x : Block) : (s.setBlock c b x).advs = s.advs := rfl
@[simp] theorem State.setBlock_landq (s : State) (c b : Nat) (x : Block) : (s.setBlock c b x).landq = s.landq := rfl
@[simp] theorem State.setBlock_keys (s : State) (c b : Nat) (x : Block) : (s.setBlock c b x).keys = s.keys := rfl
@[simp] theorem State.setBlock_measure (s : State) (c b : Nat) (x : Block) : (s.setBlock c b x).measure = s.measure := rfl
@[simp] theorem State.setBlock_mlog (s : State) (c b : Nat) (x : Block) : (s.setBlock c b x).mlog = s.mlog := rfl
@[simp] theorem State.setBlock_flash (s : State) (c b : Nat) (x : Block) : (s.setBlock c b x).flash = s.flash := rfl
@[simp] theorem State.setBlock_minVer (s : State) (c b : Nat) (x : Block) : (s.setBlock c b x).minVer = s.minVer := rfl
@[simp] theorem State.setBlock_fellBack (s : State) (c b : Nat) (x : Block) : (s.setBlock c b x).fellBack = s.fellBack := rfl
@[simp] theorem State.setBlock_bootErr (s : State) (c b : Nat) (x : Block) : (s.setBlock c b x).bootErr = s.bootErr := rfl
@[simp] theorem State.setBlock_quote (s : State) (c b : Nat) (x : Block) : (s.setBlock c b x).quote = s.quote := rfl
@[simp] theorem State.setBlock_ctxsw (s : State) (c b : Nat) (x : Block) : (s.setBlock c b x).ctxsw = s.ctxsw := rfl
@[simp] theorem State.setBlock_ctxEnd (s : State) (c b : Nat) (x : Block) : (s.setBlock c b x).ctxEnd = s.ctxEnd := rfl
@[simp] theorem State.setBlock_ctxList (s : State) (c b : Nat) (x : Block) : (s.setBlock c b x).ctxList = s.ctxList := rfl
@[simp] theorem State.setBlock_frozen (s : State) (c b : Nat) (x : Block) : (s.setBlock c b x).frozen = s.frozen := rfl
@[simp] theorem State.setBlock_part (s : State) (c b : Nat) (x : Block) : (s.setBlock c b x).part = s.part := rfl
@[simp] theorem State.setBlock_wdArmed (s : State) (c b : Nat) (x : Block) : (s.setBlock c b x).wdArmed = s.wdArmed := rfl
@[simp] theorem State.setBlock_wdDue (s : State) (c b : Nat) (x : Block) : (s.setBlock c b x).wdDue = s.wdDue := rfl
@[simp] theorem State.setBlock_testing (s : State) (c b : Nat) (x : Block) : (s.setBlock c b x).testing = s.testing := rfl
@[simp] theorem State.setBlock_lastTest (s : State) (c b : Nat) (x : Block) : (s.setBlock c b x).lastTest = s.lastTest := rfl
@[simp] theorem State.setBlock_testDue (s : State) (c b : Nat) (x : Block) : (s.setBlock c b x).testDue = s.testDue := rfl
@[simp] theorem State.setBlock_scrubAt (s : State) (c b : Nat) (x : Block) : (s.setBlock c b x).scrubAt = s.scrubAt := rfl
@[simp] theorem State.setBlock_rescrub (s : State) (c b : Nat) (x : Block) : (s.setBlock c b x).rescrub = s.rescrub := rfl
@[simp] theorem State.setBlock_latch (s : State) (c b : Nat) (x : Block) : (s.setBlock c b x).latch = s.latch := rfl
@[simp] theorem State.setBlock_acts (s : State) (c b : Nat) (x : Block) : (s.setBlock c b x).acts = s.acts := rfl
@[simp] theorem State.setBlock_bookAt (s : State) (c b : Nat) (x : Block) : (s.setBlock c b x).bookAt = s.bookAt := rfl
@[simp] theorem State.setBlock_limDue (s : State) (c b : Nat) (x : Block) : (s.setBlock c b x).limDue = s.limDue := rfl
@[simp] theorem State.setBlock_flashBad (s : State) (c b : Nat) (x : Block) : (s.setBlock c b x).flashBad = s.flashBad := rfl
@[simp] theorem State.setBlock_fwBusy (s : State) (c b : Nat) (x : Block) : (s.setBlock c b x).fwBusy = s.fwBusy := rfl
@[simp] theorem State.setBlock_hostq (s : State) (c b : Nat) (x : Block) : (s.setBlock c b x).hostq = s.hostq := rfl
@[simp] theorem State.setBlock_off (s : State) (c b : Nat) (x : Block) : (s.setBlock c b x).off = s.off := rfl

@[simp] theorem State.updBlock_agenda (s : State) (c b : Nat) (f : Block → Block) : (s.updBlock c b f).agenda = s.agenda := rfl
@[simp] theorem State.updBlock_inputs (s : State) (c b : Nat) (f : Block → Block) : (s.updBlock c b f).inputs = s.inputs := rfl
@[simp] theorem State.updBlock_auto (s : State) (c b : Nat) (f : Block → Block) : (s.updBlock c b f).auto = s.auto := rfl
@[simp] theorem State.updBlock_cur (s : State) (c b : Nat) (f : Block → Block) : (s.updBlock c b f).cur = s.cur := rfl
@[simp] theorem State.updBlock_present (s : State) (c b : Nat) (f : Block → Block) : (s.updBlock c b f).present = s.present := rfl
@[simp] theorem State.updBlock_place (s : State) (c b : Nat) (f : Block → Block) : (s.updBlock c b f).place = s.place := rfl
@[simp] theorem State.updBlock_firing (s : State) (c b : Nat) (f : Block → Block) : (s.updBlock c b f).firing = s.firing := rfl
@[simp] theorem State.updBlock_waits (s : State) (c b : Nat) (f : Block → Block) : (s.updBlock c b f).waits = s.waits := rfl
@[simp] theorem State.updBlock_jobs (s : State) (c b : Nat) (f : Block → Block) : (s.updBlock c b f).jobs = s.jobs := rfl
@[simp] theorem State.updBlock_waitq (s : State) (c b : Nat) (f : Block → Block) : (s.updBlock c b f).waitq = s.waitq := rfl
@[simp] theorem State.updBlock_pushes (s : State) (c b : Nat) (f : Block → Block) : (s.updBlock c b f).pushes = s.pushes := rfl
@[simp] theorem State.updBlock_busy (s : State) (c b : Nat) (f : Block → Block) : (s.updBlock c b f).busy = s.busy := rfl
@[simp] theorem State.updBlock_free (s : State) (c b : Nat) (f : Block → Block) : (s.updBlock c b f).free = s.free := rfl
@[simp] theorem State.updBlock_nextId (s : State) (c b : Nat) (f : Block → Block) : (s.updBlock c b f).nextId = s.nextId := rfl
@[simp] theorem State.updBlock_out (s : State) (c b : Nat) (f : Block → Block) : (s.updBlock c b f).out = s.out := rfl
@[simp] theorem State.updBlock_cfg (s : State) (c b : Nat) (f : Block → Block) : (s.updBlock c b f).cfg = s.cfg := rfl
@[simp] theorem State.updBlock_now (s : State) (c b : Nat) (f : Block → Block) : (s.updBlock c b f).now = s.now := rfl
@[simp] theorem State.updBlock_nsBase (s : State) (c b : Nat) (f : Block → Block) : (s.updBlock c b f).nsBase = s.nsBase := rfl
@[simp] theorem State.updBlock_mem (s : State) (c b : Nat) (f : Block → Block) : (s.updBlock c b f).mem = s.mem := rfl
@[simp] theorem State.updBlock_poison (s : State) (c b : Nat) (f : Block → Block) : (s.updBlock c b f).poison = s.poison := rfl
@[simp] theorem State.updBlock_hostMem (s : State) (c b : Nat) (f : Block → Block) : (s.updBlock c b f).hostMem = s.hostMem := rfl
@[simp] theorem State.updBlock_l2 (s : State) (c b : Nat) (f : Block → Block) : (s.updBlock c b f).l2 = s.l2 := rfl
@[simp] theorem State.updBlock_redo (s : State) (c b : Nat) (f : Block → Block) : (s.updBlock c b f).redo = s.redo := rfl
@[simp] theorem State.updBlock_owners (s : State) (c b : Nat) (f : Block → Block) : (s.updBlock c b f).owners = s.owners := rfl
@[simp] theorem State.updBlock_bar0 (s : State) (c b : Nat) (f : Block → Block) : (s.updBlock c b f).bar0 = s.bar0 := rfl
@[simp] theorem State.updBlock_clusters (s : State) (c b : Nat) (f : Block → Block) : (s.updBlock c b f).clusters = s.clusters := rfl
@[simp] theorem State.updBlock_walks (s : State) (c b : Nat) (f : Block → Block) : (s.updBlock c b f).walks = s.walks := rfl
@[simp] theorem State.updBlock_reqs (s : State) (c b : Nat) (f : Block → Block) : (s.updBlock c b f).reqs = s.reqs := rfl
@[simp] theorem State.updBlock_invals (s : State) (c b : Nat) (f : Block → Block) : (s.updBlock c b f).invals = s.invals := rfl
@[simp] theorem State.updBlock_queues (s : State) (c b : Nat) (f : Block → Block) : (s.updBlock c b f).queues = s.queues := rfl
@[simp] theorem State.updBlock_blame (s : State) (c b : Nat) (f : Block → Block) : (s.updBlock c b f).blame = s.blame := rfl
@[simp] theorem State.updBlock_launches (s : State) (c b : Nat) (f : Block → Block) : (s.updBlock c b f).launches = s.launches := rfl
@[simp] theorem State.updBlock_copies (s : State) (c b : Nat) (f : Block → Block) : (s.updBlock c b f).copies = s.copies := rfl
@[simp] theorem State.updBlock_sends (s : State) (c b : Nat) (f : Block → Block) : (s.updBlock c b f).sends = s.sends := rfl
@[simp] theorem State.updBlock_ctrs (s : State) (c b : Nat) (f : Block → Block) : (s.updBlock c b f).ctrs = s.ctrs := rfl
@[simp] theorem State.updBlock_parked (s : State) (c b : Nat) (f : Block → Block) : (s.updBlock c b f).parked = s.parked := rfl
@[simp] theorem State.updBlock_remote (s : State) (c b : Nat) (f : Block → Block) : (s.updBlock c b f).remote = s.remote := rfl
@[simp] theorem State.updBlock_replyCache (s : State) (c b : Nat) (f : Block → Block) : (s.updBlock c b f).replyCache = s.replyCache := rfl
@[simp] theorem State.updBlock_pdcs (s : State) (c b : Nat) (f : Block → Block) : (s.updBlock c b f).pdcs = s.pdcs := rfl
@[simp] theorem State.updBlock_rings (s : State) (c b : Nat) (f : Block → Block) : (s.updBlock c b f).rings = s.rings := rfl
@[simp] theorem State.updBlock_advs (s : State) (c b : Nat) (f : Block → Block) : (s.updBlock c b f).advs = s.advs := rfl
@[simp] theorem State.updBlock_landq (s : State) (c b : Nat) (f : Block → Block) : (s.updBlock c b f).landq = s.landq := rfl
@[simp] theorem State.updBlock_keys (s : State) (c b : Nat) (f : Block → Block) : (s.updBlock c b f).keys = s.keys := rfl
@[simp] theorem State.updBlock_measure (s : State) (c b : Nat) (f : Block → Block) : (s.updBlock c b f).measure = s.measure := rfl
@[simp] theorem State.updBlock_mlog (s : State) (c b : Nat) (f : Block → Block) : (s.updBlock c b f).mlog = s.mlog := rfl
@[simp] theorem State.updBlock_flash (s : State) (c b : Nat) (f : Block → Block) : (s.updBlock c b f).flash = s.flash := rfl
@[simp] theorem State.updBlock_minVer (s : State) (c b : Nat) (f : Block → Block) : (s.updBlock c b f).minVer = s.minVer := rfl
@[simp] theorem State.updBlock_fellBack (s : State) (c b : Nat) (f : Block → Block) : (s.updBlock c b f).fellBack = s.fellBack := rfl
@[simp] theorem State.updBlock_bootErr (s : State) (c b : Nat) (f : Block → Block) : (s.updBlock c b f).bootErr = s.bootErr := rfl
@[simp] theorem State.updBlock_quote (s : State) (c b : Nat) (f : Block → Block) : (s.updBlock c b f).quote = s.quote := rfl
@[simp] theorem State.updBlock_ctxsw (s : State) (c b : Nat) (f : Block → Block) : (s.updBlock c b f).ctxsw = s.ctxsw := rfl
@[simp] theorem State.updBlock_ctxEnd (s : State) (c b : Nat) (f : Block → Block) : (s.updBlock c b f).ctxEnd = s.ctxEnd := rfl
@[simp] theorem State.updBlock_ctxList (s : State) (c b : Nat) (f : Block → Block) : (s.updBlock c b f).ctxList = s.ctxList := rfl
@[simp] theorem State.updBlock_frozen (s : State) (c b : Nat) (f : Block → Block) : (s.updBlock c b f).frozen = s.frozen := rfl
@[simp] theorem State.updBlock_part (s : State) (c b : Nat) (f : Block → Block) : (s.updBlock c b f).part = s.part := rfl
@[simp] theorem State.updBlock_wdArmed (s : State) (c b : Nat) (f : Block → Block) : (s.updBlock c b f).wdArmed = s.wdArmed := rfl
@[simp] theorem State.updBlock_wdDue (s : State) (c b : Nat) (f : Block → Block) : (s.updBlock c b f).wdDue = s.wdDue := rfl
@[simp] theorem State.updBlock_testing (s : State) (c b : Nat) (f : Block → Block) : (s.updBlock c b f).testing = s.testing := rfl
@[simp] theorem State.updBlock_lastTest (s : State) (c b : Nat) (f : Block → Block) : (s.updBlock c b f).lastTest = s.lastTest := rfl
@[simp] theorem State.updBlock_testDue (s : State) (c b : Nat) (f : Block → Block) : (s.updBlock c b f).testDue = s.testDue := rfl
@[simp] theorem State.updBlock_scrubAt (s : State) (c b : Nat) (f : Block → Block) : (s.updBlock c b f).scrubAt = s.scrubAt := rfl
@[simp] theorem State.updBlock_rescrub (s : State) (c b : Nat) (f : Block → Block) : (s.updBlock c b f).rescrub = s.rescrub := rfl
@[simp] theorem State.updBlock_latch (s : State) (c b : Nat) (f : Block → Block) : (s.updBlock c b f).latch = s.latch := rfl
@[simp] theorem State.updBlock_acts (s : State) (c b : Nat) (f : Block → Block) : (s.updBlock c b f).acts = s.acts := rfl
@[simp] theorem State.updBlock_bookAt (s : State) (c b : Nat) (f : Block → Block) : (s.updBlock c b f).bookAt = s.bookAt := rfl
@[simp] theorem State.updBlock_limDue (s : State) (c b : Nat) (f : Block → Block) : (s.updBlock c b f).limDue = s.limDue := rfl
@[simp] theorem State.updBlock_flashBad (s : State) (c b : Nat) (f : Block → Block) : (s.updBlock c b f).flashBad = s.flashBad := rfl
@[simp] theorem State.updBlock_fwBusy (s : State) (c b : Nat) (f : Block → Block) : (s.updBlock c b f).fwBusy = s.fwBusy := rfl
@[simp] theorem State.updBlock_hostq (s : State) (c b : Nat) (f : Block → Block) : (s.updBlock c b f).hostq = s.hostq := rfl
@[simp] theorem State.updBlock_off (s : State) (c b : Nat) (f : Block → Block) : (s.updBlock c b f).off = s.off := rfl

@[simp] theorem State.updPart_agenda (s : State) (c p : Nat) (f : Part → Part) : (s.updPart c p f).agenda = s.agenda := rfl
@[simp] theorem State.updPart_inputs (s : State) (c p : Nat) (f : Part → Part) : (s.updPart c p f).inputs = s.inputs := rfl
@[simp] theorem State.updPart_auto (s : State) (c p : Nat) (f : Part → Part) : (s.updPart c p f).auto = s.auto := rfl
@[simp] theorem State.updPart_cur (s : State) (c p : Nat) (f : Part → Part) : (s.updPart c p f).cur = s.cur := rfl
@[simp] theorem State.updPart_present (s : State) (c p : Nat) (f : Part → Part) : (s.updPart c p f).present = s.present := rfl
@[simp] theorem State.updPart_place (s : State) (c p : Nat) (f : Part → Part) : (s.updPart c p f).place = s.place := rfl
@[simp] theorem State.updPart_firing (s : State) (c p : Nat) (f : Part → Part) : (s.updPart c p f).firing = s.firing := rfl
@[simp] theorem State.updPart_waits (s : State) (c p : Nat) (f : Part → Part) : (s.updPart c p f).waits = s.waits := rfl
@[simp] theorem State.updPart_jobs (s : State) (c p : Nat) (f : Part → Part) : (s.updPart c p f).jobs = s.jobs := rfl
@[simp] theorem State.updPart_waitq (s : State) (c p : Nat) (f : Part → Part) : (s.updPart c p f).waitq = s.waitq := rfl
@[simp] theorem State.updPart_pushes (s : State) (c p : Nat) (f : Part → Part) : (s.updPart c p f).pushes = s.pushes := rfl
@[simp] theorem State.updPart_busy (s : State) (c p : Nat) (f : Part → Part) : (s.updPart c p f).busy = s.busy := rfl
@[simp] theorem State.updPart_free (s : State) (c p : Nat) (f : Part → Part) : (s.updPart c p f).free = s.free := rfl
@[simp] theorem State.updPart_nextId (s : State) (c p : Nat) (f : Part → Part) : (s.updPart c p f).nextId = s.nextId := rfl
@[simp] theorem State.updPart_out (s : State) (c p : Nat) (f : Part → Part) : (s.updPart c p f).out = s.out := rfl
@[simp] theorem State.updPart_cfg (s : State) (c p : Nat) (f : Part → Part) : (s.updPart c p f).cfg = s.cfg := rfl
@[simp] theorem State.updPart_now (s : State) (c p : Nat) (f : Part → Part) : (s.updPart c p f).now = s.now := rfl
@[simp] theorem State.updPart_nsBase (s : State) (c p : Nat) (f : Part → Part) : (s.updPart c p f).nsBase = s.nsBase := rfl
@[simp] theorem State.updPart_mem (s : State) (c p : Nat) (f : Part → Part) : (s.updPart c p f).mem = s.mem := rfl
@[simp] theorem State.updPart_poison (s : State) (c p : Nat) (f : Part → Part) : (s.updPart c p f).poison = s.poison := rfl
@[simp] theorem State.updPart_hostMem (s : State) (c p : Nat) (f : Part → Part) : (s.updPart c p f).hostMem = s.hostMem := rfl
@[simp] theorem State.updPart_l2 (s : State) (c p : Nat) (f : Part → Part) : (s.updPart c p f).l2 = s.l2 := rfl
@[simp] theorem State.updPart_redo (s : State) (c p : Nat) (f : Part → Part) : (s.updPart c p f).redo = s.redo := rfl
@[simp] theorem State.updPart_owners (s : State) (c p : Nat) (f : Part → Part) : (s.updPart c p f).owners = s.owners := rfl
@[simp] theorem State.updPart_bar0 (s : State) (c p : Nat) (f : Part → Part) : (s.updPart c p f).bar0 = s.bar0 := rfl
@[simp] theorem State.updPart_clusters (s : State) (c p : Nat) (f : Part → Part) : (s.updPart c p f).clusters = s.clusters := rfl
@[simp] theorem State.updPart_walks (s : State) (c p : Nat) (f : Part → Part) : (s.updPart c p f).walks = s.walks := rfl
@[simp] theorem State.updPart_reqs (s : State) (c p : Nat) (f : Part → Part) : (s.updPart c p f).reqs = s.reqs := rfl
@[simp] theorem State.updPart_invals (s : State) (c p : Nat) (f : Part → Part) : (s.updPart c p f).invals = s.invals := rfl
@[simp] theorem State.updPart_queues (s : State) (c p : Nat) (f : Part → Part) : (s.updPart c p f).queues = s.queues := rfl
@[simp] theorem State.updPart_blame (s : State) (c p : Nat) (f : Part → Part) : (s.updPart c p f).blame = s.blame := rfl
@[simp] theorem State.updPart_launches (s : State) (c p : Nat) (f : Part → Part) : (s.updPart c p f).launches = s.launches := rfl
@[simp] theorem State.updPart_copies (s : State) (c p : Nat) (f : Part → Part) : (s.updPart c p f).copies = s.copies := rfl
@[simp] theorem State.updPart_sends (s : State) (c p : Nat) (f : Part → Part) : (s.updPart c p f).sends = s.sends := rfl
@[simp] theorem State.updPart_ctrs (s : State) (c p : Nat) (f : Part → Part) : (s.updPart c p f).ctrs = s.ctrs := rfl
@[simp] theorem State.updPart_parked (s : State) (c p : Nat) (f : Part → Part) : (s.updPart c p f).parked = s.parked := rfl
@[simp] theorem State.updPart_remote (s : State) (c p : Nat) (f : Part → Part) : (s.updPart c p f).remote = s.remote := rfl
@[simp] theorem State.updPart_replyCache (s : State) (c p : Nat) (f : Part → Part) : (s.updPart c p f).replyCache = s.replyCache := rfl
@[simp] theorem State.updPart_pdcs (s : State) (c p : Nat) (f : Part → Part) : (s.updPart c p f).pdcs = s.pdcs := rfl
@[simp] theorem State.updPart_rings (s : State) (c p : Nat) (f : Part → Part) : (s.updPart c p f).rings = s.rings := rfl
@[simp] theorem State.updPart_advs (s : State) (c p : Nat) (f : Part → Part) : (s.updPart c p f).advs = s.advs := rfl
@[simp] theorem State.updPart_landq (s : State) (c p : Nat) (f : Part → Part) : (s.updPart c p f).landq = s.landq := rfl
@[simp] theorem State.updPart_keys (s : State) (c p : Nat) (f : Part → Part) : (s.updPart c p f).keys = s.keys := rfl
@[simp] theorem State.updPart_measure (s : State) (c p : Nat) (f : Part → Part) : (s.updPart c p f).measure = s.measure := rfl
@[simp] theorem State.updPart_mlog (s : State) (c p : Nat) (f : Part → Part) : (s.updPart c p f).mlog = s.mlog := rfl
@[simp] theorem State.updPart_flash (s : State) (c p : Nat) (f : Part → Part) : (s.updPart c p f).flash = s.flash := rfl
@[simp] theorem State.updPart_minVer (s : State) (c p : Nat) (f : Part → Part) : (s.updPart c p f).minVer = s.minVer := rfl
@[simp] theorem State.updPart_fellBack (s : State) (c p : Nat) (f : Part → Part) : (s.updPart c p f).fellBack = s.fellBack := rfl
@[simp] theorem State.updPart_bootErr (s : State) (c p : Nat) (f : Part → Part) : (s.updPart c p f).bootErr = s.bootErr := rfl
@[simp] theorem State.updPart_quote (s : State) (c p : Nat) (f : Part → Part) : (s.updPart c p f).quote = s.quote := rfl
@[simp] theorem State.updPart_ctxsw (s : State) (c p : Nat) (f : Part → Part) : (s.updPart c p f).ctxsw = s.ctxsw := rfl
@[simp] theorem State.updPart_ctxEnd (s : State) (c p : Nat) (f : Part → Part) : (s.updPart c p f).ctxEnd = s.ctxEnd := rfl
@[simp] theorem State.updPart_ctxList (s : State) (c p : Nat) (f : Part → Part) : (s.updPart c p f).ctxList = s.ctxList := rfl
@[simp] theorem State.updPart_frozen (s : State) (c p : Nat) (f : Part → Part) : (s.updPart c p f).frozen = s.frozen := rfl
@[simp] theorem State.updPart_part (s : State) (c p : Nat) (f : Part → Part) : (s.updPart c p f).part = s.part := rfl
@[simp] theorem State.updPart_wdArmed (s : State) (c p : Nat) (f : Part → Part) : (s.updPart c p f).wdArmed = s.wdArmed := rfl
@[simp] theorem State.updPart_wdDue (s : State) (c p : Nat) (f : Part → Part) : (s.updPart c p f).wdDue = s.wdDue := rfl
@[simp] theorem State.updPart_testing (s : State) (c p : Nat) (f : Part → Part) : (s.updPart c p f).testing = s.testing := rfl
@[simp] theorem State.updPart_lastTest (s : State) (c p : Nat) (f : Part → Part) : (s.updPart c p f).lastTest = s.lastTest := rfl
@[simp] theorem State.updPart_testDue (s : State) (c p : Nat) (f : Part → Part) : (s.updPart c p f).testDue = s.testDue := rfl
@[simp] theorem State.updPart_scrubAt (s : State) (c p : Nat) (f : Part → Part) : (s.updPart c p f).scrubAt = s.scrubAt := rfl
@[simp] theorem State.updPart_rescrub (s : State) (c p : Nat) (f : Part → Part) : (s.updPart c p f).rescrub = s.rescrub := rfl
@[simp] theorem State.updPart_latch (s : State) (c p : Nat) (f : Part → Part) : (s.updPart c p f).latch = s.latch := rfl
@[simp] theorem State.updPart_acts (s : State) (c p : Nat) (f : Part → Part) : (s.updPart c p f).acts = s.acts := rfl
@[simp] theorem State.updPart_bookAt (s : State) (c p : Nat) (f : Part → Part) : (s.updPart c p f).bookAt = s.bookAt := rfl
@[simp] theorem State.updPart_limDue (s : State) (c p : Nat) (f : Part → Part) : (s.updPart c p f).limDue = s.limDue := rfl
@[simp] theorem State.updPart_flashBad (s : State) (c p : Nat) (f : Part → Part) : (s.updPart c p f).flashBad = s.flashBad := rfl
@[simp] theorem State.updPart_fwBusy (s : State) (c p : Nat) (f : Part → Part) : (s.updPart c p f).fwBusy = s.fwBusy := rfl
@[simp] theorem State.updPart_hostq (s : State) (c p : Nat) (f : Part → Part) : (s.updPart c p f).hostq = s.hostq := rfl
@[simp] theorem State.updPart_off (s : State) (c p : Nat) (f : Part → Part) : (s.updPart c p f).off = s.off := rfl

@[simp] theorem State.updCluster_agenda (s : State) (c : Nat) (f : Cluster → Cluster) : (s.updCluster c f).agenda = s.agenda := rfl
@[simp] theorem State.updCluster_inputs (s : State) (c : Nat) (f : Cluster → Cluster) : (s.updCluster c f).inputs = s.inputs := rfl
@[simp] theorem State.updCluster_auto (s : State) (c : Nat) (f : Cluster → Cluster) : (s.updCluster c f).auto = s.auto := rfl
@[simp] theorem State.updCluster_cur (s : State) (c : Nat) (f : Cluster → Cluster) : (s.updCluster c f).cur = s.cur := rfl
@[simp] theorem State.updCluster_present (s : State) (c : Nat) (f : Cluster → Cluster) : (s.updCluster c f).present = s.present := rfl
@[simp] theorem State.updCluster_place (s : State) (c : Nat) (f : Cluster → Cluster) : (s.updCluster c f).place = s.place := rfl
@[simp] theorem State.updCluster_firing (s : State) (c : Nat) (f : Cluster → Cluster) : (s.updCluster c f).firing = s.firing := rfl
@[simp] theorem State.updCluster_waits (s : State) (c : Nat) (f : Cluster → Cluster) : (s.updCluster c f).waits = s.waits := rfl
@[simp] theorem State.updCluster_jobs (s : State) (c : Nat) (f : Cluster → Cluster) : (s.updCluster c f).jobs = s.jobs := rfl
@[simp] theorem State.updCluster_waitq (s : State) (c : Nat) (f : Cluster → Cluster) : (s.updCluster c f).waitq = s.waitq := rfl
@[simp] theorem State.updCluster_pushes (s : State) (c : Nat) (f : Cluster → Cluster) : (s.updCluster c f).pushes = s.pushes := rfl
@[simp] theorem State.updCluster_busy (s : State) (c : Nat) (f : Cluster → Cluster) : (s.updCluster c f).busy = s.busy := rfl
@[simp] theorem State.updCluster_free (s : State) (c : Nat) (f : Cluster → Cluster) : (s.updCluster c f).free = s.free := rfl
@[simp] theorem State.updCluster_nextId (s : State) (c : Nat) (f : Cluster → Cluster) : (s.updCluster c f).nextId = s.nextId := rfl
@[simp] theorem State.updCluster_out (s : State) (c : Nat) (f : Cluster → Cluster) : (s.updCluster c f).out = s.out := rfl
@[simp] theorem State.updCluster_cfg (s : State) (c : Nat) (f : Cluster → Cluster) : (s.updCluster c f).cfg = s.cfg := rfl
@[simp] theorem State.updCluster_now (s : State) (c : Nat) (f : Cluster → Cluster) : (s.updCluster c f).now = s.now := rfl
@[simp] theorem State.updCluster_nsBase (s : State) (c : Nat) (f : Cluster → Cluster) : (s.updCluster c f).nsBase = s.nsBase := rfl
@[simp] theorem State.updCluster_mem (s : State) (c : Nat) (f : Cluster → Cluster) : (s.updCluster c f).mem = s.mem := rfl
@[simp] theorem State.updCluster_poison (s : State) (c : Nat) (f : Cluster → Cluster) : (s.updCluster c f).poison = s.poison := rfl
@[simp] theorem State.updCluster_hostMem (s : State) (c : Nat) (f : Cluster → Cluster) : (s.updCluster c f).hostMem = s.hostMem := rfl
@[simp] theorem State.updCluster_l2 (s : State) (c : Nat) (f : Cluster → Cluster) : (s.updCluster c f).l2 = s.l2 := rfl
@[simp] theorem State.updCluster_redo (s : State) (c : Nat) (f : Cluster → Cluster) : (s.updCluster c f).redo = s.redo := rfl
@[simp] theorem State.updCluster_owners (s : State) (c : Nat) (f : Cluster → Cluster) : (s.updCluster c f).owners = s.owners := rfl
@[simp] theorem State.updCluster_bar0 (s : State) (c : Nat) (f : Cluster → Cluster) : (s.updCluster c f).bar0 = s.bar0 := rfl
@[simp] theorem State.updCluster_cores (s : State) (c : Nat) (f : Cluster → Cluster) : (s.updCluster c f).cores = s.cores := rfl
@[simp] theorem State.updCluster_walks (s : State) (c : Nat) (f : Cluster → Cluster) : (s.updCluster c f).walks = s.walks := rfl
@[simp] theorem State.updCluster_reqs (s : State) (c : Nat) (f : Cluster → Cluster) : (s.updCluster c f).reqs = s.reqs := rfl
@[simp] theorem State.updCluster_invals (s : State) (c : Nat) (f : Cluster → Cluster) : (s.updCluster c f).invals = s.invals := rfl
@[simp] theorem State.updCluster_queues (s : State) (c : Nat) (f : Cluster → Cluster) : (s.updCluster c f).queues = s.queues := rfl
@[simp] theorem State.updCluster_blame (s : State) (c : Nat) (f : Cluster → Cluster) : (s.updCluster c f).blame = s.blame := rfl
@[simp] theorem State.updCluster_launches (s : State) (c : Nat) (f : Cluster → Cluster) : (s.updCluster c f).launches = s.launches := rfl
@[simp] theorem State.updCluster_copies (s : State) (c : Nat) (f : Cluster → Cluster) : (s.updCluster c f).copies = s.copies := rfl
@[simp] theorem State.updCluster_sends (s : State) (c : Nat) (f : Cluster → Cluster) : (s.updCluster c f).sends = s.sends := rfl
@[simp] theorem State.updCluster_ctrs (s : State) (c : Nat) (f : Cluster → Cluster) : (s.updCluster c f).ctrs = s.ctrs := rfl
@[simp] theorem State.updCluster_parked (s : State) (c : Nat) (f : Cluster → Cluster) : (s.updCluster c f).parked = s.parked := rfl
@[simp] theorem State.updCluster_remote (s : State) (c : Nat) (f : Cluster → Cluster) : (s.updCluster c f).remote = s.remote := rfl
@[simp] theorem State.updCluster_replyCache (s : State) (c : Nat) (f : Cluster → Cluster) : (s.updCluster c f).replyCache = s.replyCache := rfl
@[simp] theorem State.updCluster_pdcs (s : State) (c : Nat) (f : Cluster → Cluster) : (s.updCluster c f).pdcs = s.pdcs := rfl
@[simp] theorem State.updCluster_rings (s : State) (c : Nat) (f : Cluster → Cluster) : (s.updCluster c f).rings = s.rings := rfl
@[simp] theorem State.updCluster_advs (s : State) (c : Nat) (f : Cluster → Cluster) : (s.updCluster c f).advs = s.advs := rfl
@[simp] theorem State.updCluster_landq (s : State) (c : Nat) (f : Cluster → Cluster) : (s.updCluster c f).landq = s.landq := rfl
@[simp] theorem State.updCluster_keys (s : State) (c : Nat) (f : Cluster → Cluster) : (s.updCluster c f).keys = s.keys := rfl
@[simp] theorem State.updCluster_measure (s : State) (c : Nat) (f : Cluster → Cluster) : (s.updCluster c f).measure = s.measure := rfl
@[simp] theorem State.updCluster_mlog (s : State) (c : Nat) (f : Cluster → Cluster) : (s.updCluster c f).mlog = s.mlog := rfl
@[simp] theorem State.updCluster_flash (s : State) (c : Nat) (f : Cluster → Cluster) : (s.updCluster c f).flash = s.flash := rfl
@[simp] theorem State.updCluster_minVer (s : State) (c : Nat) (f : Cluster → Cluster) : (s.updCluster c f).minVer = s.minVer := rfl
@[simp] theorem State.updCluster_fellBack (s : State) (c : Nat) (f : Cluster → Cluster) : (s.updCluster c f).fellBack = s.fellBack := rfl
@[simp] theorem State.updCluster_bootErr (s : State) (c : Nat) (f : Cluster → Cluster) : (s.updCluster c f).bootErr = s.bootErr := rfl
@[simp] theorem State.updCluster_quote (s : State) (c : Nat) (f : Cluster → Cluster) : (s.updCluster c f).quote = s.quote := rfl
@[simp] theorem State.updCluster_ctxsw (s : State) (c : Nat) (f : Cluster → Cluster) : (s.updCluster c f).ctxsw = s.ctxsw := rfl
@[simp] theorem State.updCluster_ctxEnd (s : State) (c : Nat) (f : Cluster → Cluster) : (s.updCluster c f).ctxEnd = s.ctxEnd := rfl
@[simp] theorem State.updCluster_ctxList (s : State) (c : Nat) (f : Cluster → Cluster) : (s.updCluster c f).ctxList = s.ctxList := rfl
@[simp] theorem State.updCluster_frozen (s : State) (c : Nat) (f : Cluster → Cluster) : (s.updCluster c f).frozen = s.frozen := rfl
@[simp] theorem State.updCluster_part (s : State) (c : Nat) (f : Cluster → Cluster) : (s.updCluster c f).part = s.part := rfl
@[simp] theorem State.updCluster_wdArmed (s : State) (c : Nat) (f : Cluster → Cluster) : (s.updCluster c f).wdArmed = s.wdArmed := rfl
@[simp] theorem State.updCluster_wdDue (s : State) (c : Nat) (f : Cluster → Cluster) : (s.updCluster c f).wdDue = s.wdDue := rfl
@[simp] theorem State.updCluster_testing (s : State) (c : Nat) (f : Cluster → Cluster) : (s.updCluster c f).testing = s.testing := rfl
@[simp] theorem State.updCluster_lastTest (s : State) (c : Nat) (f : Cluster → Cluster) : (s.updCluster c f).lastTest = s.lastTest := rfl
@[simp] theorem State.updCluster_testDue (s : State) (c : Nat) (f : Cluster → Cluster) : (s.updCluster c f).testDue = s.testDue := rfl
@[simp] theorem State.updCluster_scrubAt (s : State) (c : Nat) (f : Cluster → Cluster) : (s.updCluster c f).scrubAt = s.scrubAt := rfl
@[simp] theorem State.updCluster_rescrub (s : State) (c : Nat) (f : Cluster → Cluster) : (s.updCluster c f).rescrub = s.rescrub := rfl
@[simp] theorem State.updCluster_latch (s : State) (c : Nat) (f : Cluster → Cluster) : (s.updCluster c f).latch = s.latch := rfl
@[simp] theorem State.updCluster_acts (s : State) (c : Nat) (f : Cluster → Cluster) : (s.updCluster c f).acts = s.acts := rfl
@[simp] theorem State.updCluster_bookAt (s : State) (c : Nat) (f : Cluster → Cluster) : (s.updCluster c f).bookAt = s.bookAt := rfl
@[simp] theorem State.updCluster_limDue (s : State) (c : Nat) (f : Cluster → Cluster) : (s.updCluster c f).limDue = s.limDue := rfl
@[simp] theorem State.updCluster_flashBad (s : State) (c : Nat) (f : Cluster → Cluster) : (s.updCluster c f).flashBad = s.flashBad := rfl
@[simp] theorem State.updCluster_fwBusy (s : State) (c : Nat) (f : Cluster → Cluster) : (s.updCluster c f).fwBusy = s.fwBusy := rfl
@[simp] theorem State.updCluster_hostq (s : State) (c : Nat) (f : Cluster → Cluster) : (s.updCluster c f).hostq = s.hostq := rfl
@[simp] theorem State.updCluster_off (s : State) (c : Nat) (f : Cluster → Cluster) : (s.updCluster c f).off = s.off := rfl

@[simp] theorem State.setByte_agenda (s : State) (a : Nat) (b : Byte) : (s.setByte a b).agenda = s.agenda := rfl
@[simp] theorem State.setByte_inputs (s : State) (a : Nat) (b : Byte) : (s.setByte a b).inputs = s.inputs := rfl
@[simp] theorem State.setByte_auto (s : State) (a : Nat) (b : Byte) : (s.setByte a b).auto = s.auto := rfl
@[simp] theorem State.setByte_cur (s : State) (a : Nat) (b : Byte) : (s.setByte a b).cur = s.cur := rfl
@[simp] theorem State.setByte_present (s : State) (a : Nat) (b : Byte) : (s.setByte a b).present = s.present := rfl
@[simp] theorem State.setByte_place (s : State) (a : Nat) (b : Byte) : (s.setByte a b).place = s.place := rfl
@[simp] theorem State.setByte_firing (s : State) (a : Nat) (b : Byte) : (s.setByte a b).firing = s.firing := rfl
@[simp] theorem State.setByte_waits (s : State) (a : Nat) (b : Byte) : (s.setByte a b).waits = s.waits := rfl
@[simp] theorem State.setByte_jobs (s : State) (a : Nat) (b : Byte) : (s.setByte a b).jobs = s.jobs := rfl
@[simp] theorem State.setByte_waitq (s : State) (a : Nat) (b : Byte) : (s.setByte a b).waitq = s.waitq := rfl
@[simp] theorem State.setByte_pushes (s : State) (a : Nat) (b : Byte) : (s.setByte a b).pushes = s.pushes := rfl
@[simp] theorem State.setByte_busy (s : State) (a : Nat) (b : Byte) : (s.setByte a b).busy = s.busy := rfl
@[simp] theorem State.setByte_free (s : State) (a : Nat) (b : Byte) : (s.setByte a b).free = s.free := rfl
@[simp] theorem State.setByte_nextId (s : State) (a : Nat) (b : Byte) : (s.setByte a b).nextId = s.nextId := rfl
@[simp] theorem State.setByte_out (s : State) (a : Nat) (b : Byte) : (s.setByte a b).out = s.out := rfl
@[simp] theorem State.setByte_cfg (s : State) (a : Nat) (b : Byte) : (s.setByte a b).cfg = s.cfg := rfl
@[simp] theorem State.setByte_now (s : State) (a : Nat) (b : Byte) : (s.setByte a b).now = s.now := rfl
@[simp] theorem State.setByte_nsBase (s : State) (a : Nat) (b : Byte) : (s.setByte a b).nsBase = s.nsBase := rfl
@[simp] theorem State.setByte_poison (s : State) (a : Nat) (b : Byte) : (s.setByte a b).poison = s.poison := rfl
@[simp] theorem State.setByte_hostMem (s : State) (a : Nat) (b : Byte) : (s.setByte a b).hostMem = s.hostMem := rfl
@[simp] theorem State.setByte_l2 (s : State) (a : Nat) (b : Byte) : (s.setByte a b).l2 = s.l2 := rfl
@[simp] theorem State.setByte_redo (s : State) (a : Nat) (b : Byte) : (s.setByte a b).redo = s.redo := rfl
@[simp] theorem State.setByte_owners (s : State) (a : Nat) (b : Byte) : (s.setByte a b).owners = s.owners := rfl
@[simp] theorem State.setByte_bar0 (s : State) (a : Nat) (b : Byte) : (s.setByte a b).bar0 = s.bar0 := rfl
@[simp] theorem State.setByte_clusters (s : State) (a : Nat) (b : Byte) : (s.setByte a b).clusters = s.clusters := rfl
@[simp] theorem State.setByte_cores (s : State) (a : Nat) (b : Byte) : (s.setByte a b).cores = s.cores := rfl
@[simp] theorem State.setByte_walks (s : State) (a : Nat) (b : Byte) : (s.setByte a b).walks = s.walks := rfl
@[simp] theorem State.setByte_reqs (s : State) (a : Nat) (b : Byte) : (s.setByte a b).reqs = s.reqs := rfl
@[simp] theorem State.setByte_invals (s : State) (a : Nat) (b : Byte) : (s.setByte a b).invals = s.invals := rfl
@[simp] theorem State.setByte_queues (s : State) (a : Nat) (b : Byte) : (s.setByte a b).queues = s.queues := rfl
@[simp] theorem State.setByte_blame (s : State) (a : Nat) (b : Byte) : (s.setByte a b).blame = s.blame := rfl
@[simp] theorem State.setByte_launches (s : State) (a : Nat) (b : Byte) : (s.setByte a b).launches = s.launches := rfl
@[simp] theorem State.setByte_copies (s : State) (a : Nat) (b : Byte) : (s.setByte a b).copies = s.copies := rfl
@[simp] theorem State.setByte_sends (s : State) (a : Nat) (b : Byte) : (s.setByte a b).sends = s.sends := rfl
@[simp] theorem State.setByte_ctrs (s : State) (a : Nat) (b : Byte) : (s.setByte a b).ctrs = s.ctrs := rfl
@[simp] theorem State.setByte_parked (s : State) (a : Nat) (b : Byte) : (s.setByte a b).parked = s.parked := rfl
@[simp] theorem State.setByte_remote (s : State) (a : Nat) (b : Byte) : (s.setByte a b).remote = s.remote := rfl
@[simp] theorem State.setByte_replyCache (s : State) (a : Nat) (b : Byte) : (s.setByte a b).replyCache = s.replyCache := rfl
@[simp] theorem State.setByte_pdcs (s : State) (a : Nat) (b : Byte) : (s.setByte a b).pdcs = s.pdcs := rfl
@[simp] theorem State.setByte_rings (s : State) (a : Nat) (b : Byte) : (s.setByte a b).rings = s.rings := rfl
@[simp] theorem State.setByte_advs (s : State) (a : Nat) (b : Byte) : (s.setByte a b).advs = s.advs := rfl
@[simp] theorem State.setByte_landq (s : State) (a : Nat) (b : Byte) : (s.setByte a b).landq = s.landq := rfl
@[simp] theorem State.setByte_keys (s : State) (a : Nat) (b : Byte) : (s.setByte a b).keys = s.keys := rfl
@[simp] theorem State.setByte_measure (s : State) (a : Nat) (b : Byte) : (s.setByte a b).measure = s.measure := rfl
@[simp] theorem State.setByte_mlog (s : State) (a : Nat) (b : Byte) : (s.setByte a b).mlog = s.mlog := rfl
@[simp] theorem State.setByte_flash (s : State) (a : Nat) (b : Byte) : (s.setByte a b).flash = s.flash := rfl
@[simp] theorem State.setByte_minVer (s : State) (a : Nat) (b : Byte) : (s.setByte a b).minVer = s.minVer := rfl
@[simp] theorem State.setByte_fellBack (s : State) (a : Nat) (b : Byte) : (s.setByte a b).fellBack = s.fellBack := rfl
@[simp] theorem State.setByte_bootErr (s : State) (a : Nat) (b : Byte) : (s.setByte a b).bootErr = s.bootErr := rfl
@[simp] theorem State.setByte_quote (s : State) (a : Nat) (b : Byte) : (s.setByte a b).quote = s.quote := rfl
@[simp] theorem State.setByte_ctxsw (s : State) (a : Nat) (b : Byte) : (s.setByte a b).ctxsw = s.ctxsw := rfl
@[simp] theorem State.setByte_ctxEnd (s : State) (a : Nat) (b : Byte) : (s.setByte a b).ctxEnd = s.ctxEnd := rfl
@[simp] theorem State.setByte_ctxList (s : State) (a : Nat) (b : Byte) : (s.setByte a b).ctxList = s.ctxList := rfl
@[simp] theorem State.setByte_frozen (s : State) (a : Nat) (b : Byte) : (s.setByte a b).frozen = s.frozen := rfl
@[simp] theorem State.setByte_part (s : State) (a : Nat) (b : Byte) : (s.setByte a b).part = s.part := rfl
@[simp] theorem State.setByte_wdArmed (s : State) (a : Nat) (b : Byte) : (s.setByte a b).wdArmed = s.wdArmed := rfl
@[simp] theorem State.setByte_wdDue (s : State) (a : Nat) (b : Byte) : (s.setByte a b).wdDue = s.wdDue := rfl
@[simp] theorem State.setByte_testing (s : State) (a : Nat) (b : Byte) : (s.setByte a b).testing = s.testing := rfl
@[simp] theorem State.setByte_lastTest (s : State) (a : Nat) (b : Byte) : (s.setByte a b).lastTest = s.lastTest := rfl
@[simp] theorem State.setByte_testDue (s : State) (a : Nat) (b : Byte) : (s.setByte a b).testDue = s.testDue := rfl
@[simp] theorem State.setByte_scrubAt (s : State) (a : Nat) (b : Byte) : (s.setByte a b).scrubAt = s.scrubAt := rfl
@[simp] theorem State.setByte_rescrub (s : State) (a : Nat) (b : Byte) : (s.setByte a b).rescrub = s.rescrub := rfl
@[simp] theorem State.setByte_latch (s : State) (a : Nat) (b : Byte) : (s.setByte a b).latch = s.latch := rfl
@[simp] theorem State.setByte_acts (s : State) (a : Nat) (b : Byte) : (s.setByte a b).acts = s.acts := rfl
@[simp] theorem State.setByte_bookAt (s : State) (a : Nat) (b : Byte) : (s.setByte a b).bookAt = s.bookAt := rfl
@[simp] theorem State.setByte_limDue (s : State) (a : Nat) (b : Byte) : (s.setByte a b).limDue = s.limDue := rfl
@[simp] theorem State.setByte_flashBad (s : State) (a : Nat) (b : Byte) : (s.setByte a b).flashBad = s.flashBad := rfl
@[simp] theorem State.setByte_fwBusy (s : State) (a : Nat) (b : Byte) : (s.setByte a b).fwBusy = s.fwBusy := rfl
@[simp] theorem State.setByte_hostq (s : State) (a : Nat) (b : Byte) : (s.setByte a b).hostq = s.hostq := rfl
@[simp] theorem State.setByte_off (s : State) (a : Nat) (b : Byte) : (s.setByte a b).off = s.off := rfl

@[simp] theorem State.setReg_agenda (s : State) (off : Nat) (v : Word) : (s.setReg off v).agenda = s.agenda := rfl
@[simp] theorem State.setReg_inputs (s : State) (off : Nat) (v : Word) : (s.setReg off v).inputs = s.inputs := rfl
@[simp] theorem State.setReg_auto (s : State) (off : Nat) (v : Word) : (s.setReg off v).auto = s.auto := rfl
@[simp] theorem State.setReg_cur (s : State) (off : Nat) (v : Word) : (s.setReg off v).cur = s.cur := rfl
@[simp] theorem State.setReg_present (s : State) (off : Nat) (v : Word) : (s.setReg off v).present = s.present := rfl
@[simp] theorem State.setReg_place (s : State) (off : Nat) (v : Word) : (s.setReg off v).place = s.place := rfl
@[simp] theorem State.setReg_firing (s : State) (off : Nat) (v : Word) : (s.setReg off v).firing = s.firing := rfl
@[simp] theorem State.setReg_waits (s : State) (off : Nat) (v : Word) : (s.setReg off v).waits = s.waits := rfl
@[simp] theorem State.setReg_jobs (s : State) (off : Nat) (v : Word) : (s.setReg off v).jobs = s.jobs := rfl
@[simp] theorem State.setReg_waitq (s : State) (off : Nat) (v : Word) : (s.setReg off v).waitq = s.waitq := rfl
@[simp] theorem State.setReg_pushes (s : State) (off : Nat) (v : Word) : (s.setReg off v).pushes = s.pushes := rfl
@[simp] theorem State.setReg_busy (s : State) (off : Nat) (v : Word) : (s.setReg off v).busy = s.busy := rfl
@[simp] theorem State.setReg_free (s : State) (off : Nat) (v : Word) : (s.setReg off v).free = s.free := rfl
@[simp] theorem State.setReg_nextId (s : State) (off : Nat) (v : Word) : (s.setReg off v).nextId = s.nextId := rfl
@[simp] theorem State.setReg_out (s : State) (off : Nat) (v : Word) : (s.setReg off v).out = s.out := rfl
@[simp] theorem State.setReg_cfg (s : State) (off : Nat) (v : Word) : (s.setReg off v).cfg = s.cfg := rfl
@[simp] theorem State.setReg_now (s : State) (off : Nat) (v : Word) : (s.setReg off v).now = s.now := rfl
@[simp] theorem State.setReg_nsBase (s : State) (off : Nat) (v : Word) : (s.setReg off v).nsBase = s.nsBase := rfl
@[simp] theorem State.setReg_mem (s : State) (off : Nat) (v : Word) : (s.setReg off v).mem = s.mem := rfl
@[simp] theorem State.setReg_poison (s : State) (off : Nat) (v : Word) : (s.setReg off v).poison = s.poison := rfl
@[simp] theorem State.setReg_hostMem (s : State) (off : Nat) (v : Word) : (s.setReg off v).hostMem = s.hostMem := rfl
@[simp] theorem State.setReg_l2 (s : State) (off : Nat) (v : Word) : (s.setReg off v).l2 = s.l2 := rfl
@[simp] theorem State.setReg_redo (s : State) (off : Nat) (v : Word) : (s.setReg off v).redo = s.redo := rfl
@[simp] theorem State.setReg_owners (s : State) (off : Nat) (v : Word) : (s.setReg off v).owners = s.owners := rfl
@[simp] theorem State.setReg_clusters (s : State) (off : Nat) (v : Word) : (s.setReg off v).clusters = s.clusters := rfl
@[simp] theorem State.setReg_cores (s : State) (off : Nat) (v : Word) : (s.setReg off v).cores = s.cores := rfl
@[simp] theorem State.setReg_walks (s : State) (off : Nat) (v : Word) : (s.setReg off v).walks = s.walks := rfl
@[simp] theorem State.setReg_reqs (s : State) (off : Nat) (v : Word) : (s.setReg off v).reqs = s.reqs := rfl
@[simp] theorem State.setReg_invals (s : State) (off : Nat) (v : Word) : (s.setReg off v).invals = s.invals := rfl
@[simp] theorem State.setReg_queues (s : State) (off : Nat) (v : Word) : (s.setReg off v).queues = s.queues := rfl
@[simp] theorem State.setReg_blame (s : State) (off : Nat) (v : Word) : (s.setReg off v).blame = s.blame := rfl
@[simp] theorem State.setReg_launches (s : State) (off : Nat) (v : Word) : (s.setReg off v).launches = s.launches := rfl
@[simp] theorem State.setReg_copies (s : State) (off : Nat) (v : Word) : (s.setReg off v).copies = s.copies := rfl
@[simp] theorem State.setReg_sends (s : State) (off : Nat) (v : Word) : (s.setReg off v).sends = s.sends := rfl
@[simp] theorem State.setReg_ctrs (s : State) (off : Nat) (v : Word) : (s.setReg off v).ctrs = s.ctrs := rfl
@[simp] theorem State.setReg_parked (s : State) (off : Nat) (v : Word) : (s.setReg off v).parked = s.parked := rfl
@[simp] theorem State.setReg_remote (s : State) (off : Nat) (v : Word) : (s.setReg off v).remote = s.remote := rfl
@[simp] theorem State.setReg_replyCache (s : State) (off : Nat) (v : Word) : (s.setReg off v).replyCache = s.replyCache := rfl
@[simp] theorem State.setReg_pdcs (s : State) (off : Nat) (v : Word) : (s.setReg off v).pdcs = s.pdcs := rfl
@[simp] theorem State.setReg_rings (s : State) (off : Nat) (v : Word) : (s.setReg off v).rings = s.rings := rfl
@[simp] theorem State.setReg_advs (s : State) (off : Nat) (v : Word) : (s.setReg off v).advs = s.advs := rfl
@[simp] theorem State.setReg_landq (s : State) (off : Nat) (v : Word) : (s.setReg off v).landq = s.landq := rfl
@[simp] theorem State.setReg_keys (s : State) (off : Nat) (v : Word) : (s.setReg off v).keys = s.keys := rfl
@[simp] theorem State.setReg_measure (s : State) (off : Nat) (v : Word) : (s.setReg off v).measure = s.measure := rfl
@[simp] theorem State.setReg_mlog (s : State) (off : Nat) (v : Word) : (s.setReg off v).mlog = s.mlog := rfl
@[simp] theorem State.setReg_flash (s : State) (off : Nat) (v : Word) : (s.setReg off v).flash = s.flash := rfl
@[simp] theorem State.setReg_minVer (s : State) (off : Nat) (v : Word) : (s.setReg off v).minVer = s.minVer := rfl
@[simp] theorem State.setReg_fellBack (s : State) (off : Nat) (v : Word) : (s.setReg off v).fellBack = s.fellBack := rfl
@[simp] theorem State.setReg_bootErr (s : State) (off : Nat) (v : Word) : (s.setReg off v).bootErr = s.bootErr := rfl
@[simp] theorem State.setReg_quote (s : State) (off : Nat) (v : Word) : (s.setReg off v).quote = s.quote := rfl
@[simp] theorem State.setReg_ctxsw (s : State) (off : Nat) (v : Word) : (s.setReg off v).ctxsw = s.ctxsw := rfl
@[simp] theorem State.setReg_ctxEnd (s : State) (off : Nat) (v : Word) : (s.setReg off v).ctxEnd = s.ctxEnd := rfl
@[simp] theorem State.setReg_ctxList (s : State) (off : Nat) (v : Word) : (s.setReg off v).ctxList = s.ctxList := rfl
@[simp] theorem State.setReg_frozen (s : State) (off : Nat) (v : Word) : (s.setReg off v).frozen = s.frozen := rfl
@[simp] theorem State.setReg_part (s : State) (off : Nat) (v : Word) : (s.setReg off v).part = s.part := rfl
@[simp] theorem State.setReg_wdArmed (s : State) (off : Nat) (v : Word) : (s.setReg off v).wdArmed = s.wdArmed := rfl
@[simp] theorem State.setReg_wdDue (s : State) (off : Nat) (v : Word) : (s.setReg off v).wdDue = s.wdDue := rfl
@[simp] theorem State.setReg_testing (s : State) (off : Nat) (v : Word) : (s.setReg off v).testing = s.testing := rfl
@[simp] theorem State.setReg_lastTest (s : State) (off : Nat) (v : Word) : (s.setReg off v).lastTest = s.lastTest := rfl
@[simp] theorem State.setReg_testDue (s : State) (off : Nat) (v : Word) : (s.setReg off v).testDue = s.testDue := rfl
@[simp] theorem State.setReg_scrubAt (s : State) (off : Nat) (v : Word) : (s.setReg off v).scrubAt = s.scrubAt := rfl
@[simp] theorem State.setReg_rescrub (s : State) (off : Nat) (v : Word) : (s.setReg off v).rescrub = s.rescrub := rfl
@[simp] theorem State.setReg_latch (s : State) (off : Nat) (v : Word) : (s.setReg off v).latch = s.latch := rfl
@[simp] theorem State.setReg_acts (s : State) (off : Nat) (v : Word) : (s.setReg off v).acts = s.acts := rfl
@[simp] theorem State.setReg_bookAt (s : State) (off : Nat) (v : Word) : (s.setReg off v).bookAt = s.bookAt := rfl
@[simp] theorem State.setReg_limDue (s : State) (off : Nat) (v : Word) : (s.setReg off v).limDue = s.limDue := rfl
@[simp] theorem State.setReg_flashBad (s : State) (off : Nat) (v : Word) : (s.setReg off v).flashBad = s.flashBad := rfl
@[simp] theorem State.setReg_fwBusy (s : State) (off : Nat) (v : Word) : (s.setReg off v).fwBusy = s.fwBusy := rfl
@[simp] theorem State.setReg_hostq (s : State) (off : Nat) (v : Word) : (s.setReg off v).hostq = s.hostq := rfl
@[simp] theorem State.setReg_off (s : State) (off : Nat) (v : Word) : (s.setReg off v).off = s.off := rfl

@[simp] theorem State.emit_agenda (s : State) (o : Out) : (s.emit o).agenda = s.agenda := rfl
@[simp] theorem State.emit_inputs (s : State) (o : Out) : (s.emit o).inputs = s.inputs := rfl
@[simp] theorem State.emit_auto (s : State) (o : Out) : (s.emit o).auto = s.auto := rfl
@[simp] theorem State.emit_cur (s : State) (o : Out) : (s.emit o).cur = s.cur := rfl
@[simp] theorem State.emit_present (s : State) (o : Out) : (s.emit o).present = s.present := rfl
@[simp] theorem State.emit_place (s : State) (o : Out) : (s.emit o).place = s.place := rfl
@[simp] theorem State.emit_firing (s : State) (o : Out) : (s.emit o).firing = s.firing := rfl
@[simp] theorem State.emit_waits (s : State) (o : Out) : (s.emit o).waits = s.waits := rfl
@[simp] theorem State.emit_jobs (s : State) (o : Out) : (s.emit o).jobs = s.jobs := rfl
@[simp] theorem State.emit_waitq (s : State) (o : Out) : (s.emit o).waitq = s.waitq := rfl
@[simp] theorem State.emit_pushes (s : State) (o : Out) : (s.emit o).pushes = s.pushes := rfl
@[simp] theorem State.emit_busy (s : State) (o : Out) : (s.emit o).busy = s.busy := rfl
@[simp] theorem State.emit_free (s : State) (o : Out) : (s.emit o).free = s.free := rfl
@[simp] theorem State.emit_nextId (s : State) (o : Out) : (s.emit o).nextId = s.nextId := rfl
@[simp] theorem State.emit_cfg (s : State) (o : Out) : (s.emit o).cfg = s.cfg := rfl
@[simp] theorem State.emit_now (s : State) (o : Out) : (s.emit o).now = s.now := rfl
@[simp] theorem State.emit_nsBase (s : State) (o : Out) : (s.emit o).nsBase = s.nsBase := rfl
@[simp] theorem State.emit_mem (s : State) (o : Out) : (s.emit o).mem = s.mem := rfl
@[simp] theorem State.emit_poison (s : State) (o : Out) : (s.emit o).poison = s.poison := rfl
@[simp] theorem State.emit_hostMem (s : State) (o : Out) : (s.emit o).hostMem = s.hostMem := rfl
@[simp] theorem State.emit_l2 (s : State) (o : Out) : (s.emit o).l2 = s.l2 := rfl
@[simp] theorem State.emit_redo (s : State) (o : Out) : (s.emit o).redo = s.redo := rfl
@[simp] theorem State.emit_owners (s : State) (o : Out) : (s.emit o).owners = s.owners := rfl
@[simp] theorem State.emit_bar0 (s : State) (o : Out) : (s.emit o).bar0 = s.bar0 := rfl
@[simp] theorem State.emit_clusters (s : State) (o : Out) : (s.emit o).clusters = s.clusters := rfl
@[simp] theorem State.emit_cores (s : State) (o : Out) : (s.emit o).cores = s.cores := rfl
@[simp] theorem State.emit_walks (s : State) (o : Out) : (s.emit o).walks = s.walks := rfl
@[simp] theorem State.emit_reqs (s : State) (o : Out) : (s.emit o).reqs = s.reqs := rfl
@[simp] theorem State.emit_invals (s : State) (o : Out) : (s.emit o).invals = s.invals := rfl
@[simp] theorem State.emit_queues (s : State) (o : Out) : (s.emit o).queues = s.queues := rfl
@[simp] theorem State.emit_blame (s : State) (o : Out) : (s.emit o).blame = s.blame := rfl
@[simp] theorem State.emit_launches (s : State) (o : Out) : (s.emit o).launches = s.launches := rfl
@[simp] theorem State.emit_copies (s : State) (o : Out) : (s.emit o).copies = s.copies := rfl
@[simp] theorem State.emit_sends (s : State) (o : Out) : (s.emit o).sends = s.sends := rfl
@[simp] theorem State.emit_ctrs (s : State) (o : Out) : (s.emit o).ctrs = s.ctrs := rfl
@[simp] theorem State.emit_parked (s : State) (o : Out) : (s.emit o).parked = s.parked := rfl
@[simp] theorem State.emit_remote (s : State) (o : Out) : (s.emit o).remote = s.remote := rfl
@[simp] theorem State.emit_replyCache (s : State) (o : Out) : (s.emit o).replyCache = s.replyCache := rfl
@[simp] theorem State.emit_pdcs (s : State) (o : Out) : (s.emit o).pdcs = s.pdcs := rfl
@[simp] theorem State.emit_rings (s : State) (o : Out) : (s.emit o).rings = s.rings := rfl
@[simp] theorem State.emit_advs (s : State) (o : Out) : (s.emit o).advs = s.advs := rfl
@[simp] theorem State.emit_landq (s : State) (o : Out) : (s.emit o).landq = s.landq := rfl
@[simp] theorem State.emit_keys (s : State) (o : Out) : (s.emit o).keys = s.keys := rfl
@[simp] theorem State.emit_measure (s : State) (o : Out) : (s.emit o).measure = s.measure := rfl
@[simp] theorem State.emit_mlog (s : State) (o : Out) : (s.emit o).mlog = s.mlog := rfl
@[simp] theorem State.emit_flash (s : State) (o : Out) : (s.emit o).flash = s.flash := rfl
@[simp] theorem State.emit_minVer (s : State) (o : Out) : (s.emit o).minVer = s.minVer := rfl
@[simp] theorem State.emit_fellBack (s : State) (o : Out) : (s.emit o).fellBack = s.fellBack := rfl
@[simp] theorem State.emit_bootErr (s : State) (o : Out) : (s.emit o).bootErr = s.bootErr := rfl
@[simp] theorem State.emit_quote (s : State) (o : Out) : (s.emit o).quote = s.quote := rfl
@[simp] theorem State.emit_ctxsw (s : State) (o : Out) : (s.emit o).ctxsw = s.ctxsw := rfl
@[simp] theorem State.emit_ctxEnd (s : State) (o : Out) : (s.emit o).ctxEnd = s.ctxEnd := rfl
@[simp] theorem State.emit_ctxList (s : State) (o : Out) : (s.emit o).ctxList = s.ctxList := rfl
@[simp] theorem State.emit_frozen (s : State) (o : Out) : (s.emit o).frozen = s.frozen := rfl
@[simp] theorem State.emit_part (s : State) (o : Out) : (s.emit o).part = s.part := rfl
@[simp] theorem State.emit_wdArmed (s : State) (o : Out) : (s.emit o).wdArmed = s.wdArmed := rfl
@[simp] theorem State.emit_wdDue (s : State) (o : Out) : (s.emit o).wdDue = s.wdDue := rfl
@[simp] theorem State.emit_testing (s : State) (o : Out) : (s.emit o).testing = s.testing := rfl
@[simp] theorem State.emit_lastTest (s : State) (o : Out) : (s.emit o).lastTest = s.lastTest := rfl
@[simp] theorem State.emit_testDue (s : State) (o : Out) : (s.emit o).testDue = s.testDue := rfl
@[simp] theorem State.emit_scrubAt (s : State) (o : Out) : (s.emit o).scrubAt = s.scrubAt := rfl
@[simp] theorem State.emit_rescrub (s : State) (o : Out) : (s.emit o).rescrub = s.rescrub := rfl
@[simp] theorem State.emit_latch (s : State) (o : Out) : (s.emit o).latch = s.latch := rfl
@[simp] theorem State.emit_acts (s : State) (o : Out) : (s.emit o).acts = s.acts := rfl
@[simp] theorem State.emit_bookAt (s : State) (o : Out) : (s.emit o).bookAt = s.bookAt := rfl
@[simp] theorem State.emit_limDue (s : State) (o : Out) : (s.emit o).limDue = s.limDue := rfl
@[simp] theorem State.emit_flashBad (s : State) (o : Out) : (s.emit o).flashBad = s.flashBad := rfl
@[simp] theorem State.emit_fwBusy (s : State) (o : Out) : (s.emit o).fwBusy = s.fwBusy := rfl
@[simp] theorem State.emit_hostq (s : State) (o : Out) : (s.emit o).hostq = s.hostq := rfl
@[simp] theorem State.emit_off (s : State) (o : Out) : (s.emit o).off = s.off := rfl

@[simp] theorem State.clearPoison_agenda (s : State) (l : Nat) : (s.clearPoison l).agenda = s.agenda := rfl
@[simp] theorem State.clearPoison_inputs (s : State) (l : Nat) : (s.clearPoison l).inputs = s.inputs := rfl
@[simp] theorem State.clearPoison_auto (s : State) (l : Nat) : (s.clearPoison l).auto = s.auto := rfl
@[simp] theorem State.clearPoison_cur (s : State) (l : Nat) : (s.clearPoison l).cur = s.cur := rfl
@[simp] theorem State.clearPoison_present (s : State) (l : Nat) : (s.clearPoison l).present = s.present := rfl
@[simp] theorem State.clearPoison_place (s : State) (l : Nat) : (s.clearPoison l).place = s.place := rfl
@[simp] theorem State.clearPoison_firing (s : State) (l : Nat) : (s.clearPoison l).firing = s.firing := rfl
@[simp] theorem State.clearPoison_waits (s : State) (l : Nat) : (s.clearPoison l).waits = s.waits := rfl
@[simp] theorem State.clearPoison_jobs (s : State) (l : Nat) : (s.clearPoison l).jobs = s.jobs := rfl
@[simp] theorem State.clearPoison_waitq (s : State) (l : Nat) : (s.clearPoison l).waitq = s.waitq := rfl
@[simp] theorem State.clearPoison_pushes (s : State) (l : Nat) : (s.clearPoison l).pushes = s.pushes := rfl
@[simp] theorem State.clearPoison_busy (s : State) (l : Nat) : (s.clearPoison l).busy = s.busy := rfl
@[simp] theorem State.clearPoison_free (s : State) (l : Nat) : (s.clearPoison l).free = s.free := rfl
@[simp] theorem State.clearPoison_nextId (s : State) (l : Nat) : (s.clearPoison l).nextId = s.nextId := rfl
@[simp] theorem State.clearPoison_out (s : State) (l : Nat) : (s.clearPoison l).out = s.out := rfl
@[simp] theorem State.clearPoison_cfg (s : State) (l : Nat) : (s.clearPoison l).cfg = s.cfg := rfl
@[simp] theorem State.clearPoison_now (s : State) (l : Nat) : (s.clearPoison l).now = s.now := rfl
@[simp] theorem State.clearPoison_nsBase (s : State) (l : Nat) : (s.clearPoison l).nsBase = s.nsBase := rfl
@[simp] theorem State.clearPoison_mem (s : State) (l : Nat) : (s.clearPoison l).mem = s.mem := rfl
@[simp] theorem State.clearPoison_hostMem (s : State) (l : Nat) : (s.clearPoison l).hostMem = s.hostMem := rfl
@[simp] theorem State.clearPoison_l2 (s : State) (l : Nat) : (s.clearPoison l).l2 = s.l2 := rfl
@[simp] theorem State.clearPoison_redo (s : State) (l : Nat) : (s.clearPoison l).redo = s.redo := rfl
@[simp] theorem State.clearPoison_owners (s : State) (l : Nat) : (s.clearPoison l).owners = s.owners := rfl
@[simp] theorem State.clearPoison_bar0 (s : State) (l : Nat) : (s.clearPoison l).bar0 = s.bar0 := rfl
@[simp] theorem State.clearPoison_clusters (s : State) (l : Nat) : (s.clearPoison l).clusters = s.clusters := rfl
@[simp] theorem State.clearPoison_cores (s : State) (l : Nat) : (s.clearPoison l).cores = s.cores := rfl
@[simp] theorem State.clearPoison_walks (s : State) (l : Nat) : (s.clearPoison l).walks = s.walks := rfl
@[simp] theorem State.clearPoison_reqs (s : State) (l : Nat) : (s.clearPoison l).reqs = s.reqs := rfl
@[simp] theorem State.clearPoison_invals (s : State) (l : Nat) : (s.clearPoison l).invals = s.invals := rfl
@[simp] theorem State.clearPoison_queues (s : State) (l : Nat) : (s.clearPoison l).queues = s.queues := rfl
@[simp] theorem State.clearPoison_blame (s : State) (l : Nat) : (s.clearPoison l).blame = s.blame := rfl
@[simp] theorem State.clearPoison_launches (s : State) (l : Nat) : (s.clearPoison l).launches = s.launches := rfl
@[simp] theorem State.clearPoison_copies (s : State) (l : Nat) : (s.clearPoison l).copies = s.copies := rfl
@[simp] theorem State.clearPoison_sends (s : State) (l : Nat) : (s.clearPoison l).sends = s.sends := rfl
@[simp] theorem State.clearPoison_ctrs (s : State) (l : Nat) : (s.clearPoison l).ctrs = s.ctrs := rfl
@[simp] theorem State.clearPoison_parked (s : State) (l : Nat) : (s.clearPoison l).parked = s.parked := rfl
@[simp] theorem State.clearPoison_remote (s : State) (l : Nat) : (s.clearPoison l).remote = s.remote := rfl
@[simp] theorem State.clearPoison_replyCache (s : State) (l : Nat) : (s.clearPoison l).replyCache = s.replyCache := rfl
@[simp] theorem State.clearPoison_pdcs (s : State) (l : Nat) : (s.clearPoison l).pdcs = s.pdcs := rfl
@[simp] theorem State.clearPoison_rings (s : State) (l : Nat) : (s.clearPoison l).rings = s.rings := rfl
@[simp] theorem State.clearPoison_advs (s : State) (l : Nat) : (s.clearPoison l).advs = s.advs := rfl
@[simp] theorem State.clearPoison_landq (s : State) (l : Nat) : (s.clearPoison l).landq = s.landq := rfl
@[simp] theorem State.clearPoison_keys (s : State) (l : Nat) : (s.clearPoison l).keys = s.keys := rfl
@[simp] theorem State.clearPoison_measure (s : State) (l : Nat) : (s.clearPoison l).measure = s.measure := rfl
@[simp] theorem State.clearPoison_mlog (s : State) (l : Nat) : (s.clearPoison l).mlog = s.mlog := rfl
@[simp] theorem State.clearPoison_flash (s : State) (l : Nat) : (s.clearPoison l).flash = s.flash := rfl
@[simp] theorem State.clearPoison_minVer (s : State) (l : Nat) : (s.clearPoison l).minVer = s.minVer := rfl
@[simp] theorem State.clearPoison_fellBack (s : State) (l : Nat) : (s.clearPoison l).fellBack = s.fellBack := rfl
@[simp] theorem State.clearPoison_bootErr (s : State) (l : Nat) : (s.clearPoison l).bootErr = s.bootErr := rfl
@[simp] theorem State.clearPoison_quote (s : State) (l : Nat) : (s.clearPoison l).quote = s.quote := rfl
@[simp] theorem State.clearPoison_ctxsw (s : State) (l : Nat) : (s.clearPoison l).ctxsw = s.ctxsw := rfl
@[simp] theorem State.clearPoison_ctxEnd (s : State) (l : Nat) : (s.clearPoison l).ctxEnd = s.ctxEnd := rfl
@[simp] theorem State.clearPoison_ctxList (s : State) (l : Nat) : (s.clearPoison l).ctxList = s.ctxList := rfl
@[simp] theorem State.clearPoison_frozen (s : State) (l : Nat) : (s.clearPoison l).frozen = s.frozen := rfl
@[simp] theorem State.clearPoison_part (s : State) (l : Nat) : (s.clearPoison l).part = s.part := rfl
@[simp] theorem State.clearPoison_wdArmed (s : State) (l : Nat) : (s.clearPoison l).wdArmed = s.wdArmed := rfl
@[simp] theorem State.clearPoison_wdDue (s : State) (l : Nat) : (s.clearPoison l).wdDue = s.wdDue := rfl
@[simp] theorem State.clearPoison_testing (s : State) (l : Nat) : (s.clearPoison l).testing = s.testing := rfl
@[simp] theorem State.clearPoison_lastTest (s : State) (l : Nat) : (s.clearPoison l).lastTest = s.lastTest := rfl
@[simp] theorem State.clearPoison_testDue (s : State) (l : Nat) : (s.clearPoison l).testDue = s.testDue := rfl
@[simp] theorem State.clearPoison_scrubAt (s : State) (l : Nat) : (s.clearPoison l).scrubAt = s.scrubAt := rfl
@[simp] theorem State.clearPoison_rescrub (s : State) (l : Nat) : (s.clearPoison l).rescrub = s.rescrub := rfl
@[simp] theorem State.clearPoison_latch (s : State) (l : Nat) : (s.clearPoison l).latch = s.latch := rfl
@[simp] theorem State.clearPoison_acts (s : State) (l : Nat) : (s.clearPoison l).acts = s.acts := rfl
@[simp] theorem State.clearPoison_bookAt (s : State) (l : Nat) : (s.clearPoison l).bookAt = s.bookAt := rfl
@[simp] theorem State.clearPoison_limDue (s : State) (l : Nat) : (s.clearPoison l).limDue = s.limDue := rfl
@[simp] theorem State.clearPoison_flashBad (s : State) (l : Nat) : (s.clearPoison l).flashBad = s.flashBad := rfl
@[simp] theorem State.clearPoison_fwBusy (s : State) (l : Nat) : (s.clearPoison l).fwBusy = s.fwBusy := rfl
@[simp] theorem State.clearPoison_hostq (s : State) (l : Nat) : (s.clearPoison l).hostq = s.hostq := rfl
@[simp] theorem State.clearPoison_off (s : State) (l : Nat) : (s.clearPoison l).off = s.off := rfl

@[simp] theorem State.addBpend_agenda (s : State) (c b d : Nat) (x : BWr) : (s.addBpend c b d x).agenda = s.agenda := rfl
@[simp] theorem State.addBpend_inputs (s : State) (c b d : Nat) (x : BWr) : (s.addBpend c b d x).inputs = s.inputs := rfl
@[simp] theorem State.addBpend_auto (s : State) (c b d : Nat) (x : BWr) : (s.addBpend c b d x).auto = s.auto := rfl
@[simp] theorem State.addBpend_cur (s : State) (c b d : Nat) (x : BWr) : (s.addBpend c b d x).cur = s.cur := rfl
@[simp] theorem State.addBpend_present (s : State) (c b d : Nat) (x : BWr) : (s.addBpend c b d x).present = s.present := rfl
@[simp] theorem State.addBpend_place (s : State) (c b d : Nat) (x : BWr) : (s.addBpend c b d x).place = s.place := rfl
@[simp] theorem State.addBpend_firing (s : State) (c b d : Nat) (x : BWr) : (s.addBpend c b d x).firing = s.firing := rfl
@[simp] theorem State.addBpend_waits (s : State) (c b d : Nat) (x : BWr) : (s.addBpend c b d x).waits = s.waits := rfl
@[simp] theorem State.addBpend_jobs (s : State) (c b d : Nat) (x : BWr) : (s.addBpend c b d x).jobs = s.jobs := rfl
@[simp] theorem State.addBpend_waitq (s : State) (c b d : Nat) (x : BWr) : (s.addBpend c b d x).waitq = s.waitq := rfl
@[simp] theorem State.addBpend_pushes (s : State) (c b d : Nat) (x : BWr) : (s.addBpend c b d x).pushes = s.pushes := rfl
@[simp] theorem State.addBpend_busy (s : State) (c b d : Nat) (x : BWr) : (s.addBpend c b d x).busy = s.busy := rfl
@[simp] theorem State.addBpend_free (s : State) (c b d : Nat) (x : BWr) : (s.addBpend c b d x).free = s.free := rfl
@[simp] theorem State.addBpend_nextId (s : State) (c b d : Nat) (x : BWr) : (s.addBpend c b d x).nextId = s.nextId := rfl
@[simp] theorem State.addBpend_out (s : State) (c b d : Nat) (x : BWr) : (s.addBpend c b d x).out = s.out := rfl
@[simp] theorem State.addBpend_cfg (s : State) (c b d : Nat) (x : BWr) : (s.addBpend c b d x).cfg = s.cfg := rfl
@[simp] theorem State.addBpend_now (s : State) (c b d : Nat) (x : BWr) : (s.addBpend c b d x).now = s.now := rfl
@[simp] theorem State.addBpend_nsBase (s : State) (c b d : Nat) (x : BWr) : (s.addBpend c b d x).nsBase = s.nsBase := rfl
@[simp] theorem State.addBpend_mem (s : State) (c b d : Nat) (x : BWr) : (s.addBpend c b d x).mem = s.mem := rfl
@[simp] theorem State.addBpend_poison (s : State) (c b d : Nat) (x : BWr) : (s.addBpend c b d x).poison = s.poison := rfl
@[simp] theorem State.addBpend_hostMem (s : State) (c b d : Nat) (x : BWr) : (s.addBpend c b d x).hostMem = s.hostMem := rfl
@[simp] theorem State.addBpend_l2 (s : State) (c b d : Nat) (x : BWr) : (s.addBpend c b d x).l2 = s.l2 := rfl
@[simp] theorem State.addBpend_redo (s : State) (c b d : Nat) (x : BWr) : (s.addBpend c b d x).redo = s.redo := rfl
@[simp] theorem State.addBpend_owners (s : State) (c b d : Nat) (x : BWr) : (s.addBpend c b d x).owners = s.owners := rfl
@[simp] theorem State.addBpend_bar0 (s : State) (c b d : Nat) (x : BWr) : (s.addBpend c b d x).bar0 = s.bar0 := rfl
@[simp] theorem State.addBpend_clusters (s : State) (c b d : Nat) (x : BWr) : (s.addBpend c b d x).clusters = s.clusters := rfl
@[simp] theorem State.addBpend_walks (s : State) (c b d : Nat) (x : BWr) : (s.addBpend c b d x).walks = s.walks := rfl
@[simp] theorem State.addBpend_reqs (s : State) (c b d : Nat) (x : BWr) : (s.addBpend c b d x).reqs = s.reqs := rfl
@[simp] theorem State.addBpend_invals (s : State) (c b d : Nat) (x : BWr) : (s.addBpend c b d x).invals = s.invals := rfl
@[simp] theorem State.addBpend_queues (s : State) (c b d : Nat) (x : BWr) : (s.addBpend c b d x).queues = s.queues := rfl
@[simp] theorem State.addBpend_blame (s : State) (c b d : Nat) (x : BWr) : (s.addBpend c b d x).blame = s.blame := rfl
@[simp] theorem State.addBpend_launches (s : State) (c b d : Nat) (x : BWr) : (s.addBpend c b d x).launches = s.launches := rfl
@[simp] theorem State.addBpend_copies (s : State) (c b d : Nat) (x : BWr) : (s.addBpend c b d x).copies = s.copies := rfl
@[simp] theorem State.addBpend_sends (s : State) (c b d : Nat) (x : BWr) : (s.addBpend c b d x).sends = s.sends := rfl
@[simp] theorem State.addBpend_ctrs (s : State) (c b d : Nat) (x : BWr) : (s.addBpend c b d x).ctrs = s.ctrs := rfl
@[simp] theorem State.addBpend_parked (s : State) (c b d : Nat) (x : BWr) : (s.addBpend c b d x).parked = s.parked := rfl
@[simp] theorem State.addBpend_remote (s : State) (c b d : Nat) (x : BWr) : (s.addBpend c b d x).remote = s.remote := rfl
@[simp] theorem State.addBpend_replyCache (s : State) (c b d : Nat) (x : BWr) : (s.addBpend c b d x).replyCache = s.replyCache := rfl
@[simp] theorem State.addBpend_pdcs (s : State) (c b d : Nat) (x : BWr) : (s.addBpend c b d x).pdcs = s.pdcs := rfl
@[simp] theorem State.addBpend_rings (s : State) (c b d : Nat) (x : BWr) : (s.addBpend c b d x).rings = s.rings := rfl
@[simp] theorem State.addBpend_advs (s : State) (c b d : Nat) (x : BWr) : (s.addBpend c b d x).advs = s.advs := rfl
@[simp] theorem State.addBpend_landq (s : State) (c b d : Nat) (x : BWr) : (s.addBpend c b d x).landq = s.landq := rfl
@[simp] theorem State.addBpend_keys (s : State) (c b d : Nat) (x : BWr) : (s.addBpend c b d x).keys = s.keys := rfl
@[simp] theorem State.addBpend_measure (s : State) (c b d : Nat) (x : BWr) : (s.addBpend c b d x).measure = s.measure := rfl
@[simp] theorem State.addBpend_mlog (s : State) (c b d : Nat) (x : BWr) : (s.addBpend c b d x).mlog = s.mlog := rfl
@[simp] theorem State.addBpend_flash (s : State) (c b d : Nat) (x : BWr) : (s.addBpend c b d x).flash = s.flash := rfl
@[simp] theorem State.addBpend_minVer (s : State) (c b d : Nat) (x : BWr) : (s.addBpend c b d x).minVer = s.minVer := rfl
@[simp] theorem State.addBpend_fellBack (s : State) (c b d : Nat) (x : BWr) : (s.addBpend c b d x).fellBack = s.fellBack := rfl
@[simp] theorem State.addBpend_bootErr (s : State) (c b d : Nat) (x : BWr) : (s.addBpend c b d x).bootErr = s.bootErr := rfl
@[simp] theorem State.addBpend_quote (s : State) (c b d : Nat) (x : BWr) : (s.addBpend c b d x).quote = s.quote := rfl
@[simp] theorem State.addBpend_ctxsw (s : State) (c b d : Nat) (x : BWr) : (s.addBpend c b d x).ctxsw = s.ctxsw := rfl
@[simp] theorem State.addBpend_ctxEnd (s : State) (c b d : Nat) (x : BWr) : (s.addBpend c b d x).ctxEnd = s.ctxEnd := rfl
@[simp] theorem State.addBpend_ctxList (s : State) (c b d : Nat) (x : BWr) : (s.addBpend c b d x).ctxList = s.ctxList := rfl
@[simp] theorem State.addBpend_frozen (s : State) (c b d : Nat) (x : BWr) : (s.addBpend c b d x).frozen = s.frozen := rfl
@[simp] theorem State.addBpend_part (s : State) (c b d : Nat) (x : BWr) : (s.addBpend c b d x).part = s.part := rfl
@[simp] theorem State.addBpend_wdArmed (s : State) (c b d : Nat) (x : BWr) : (s.addBpend c b d x).wdArmed = s.wdArmed := rfl
@[simp] theorem State.addBpend_wdDue (s : State) (c b d : Nat) (x : BWr) : (s.addBpend c b d x).wdDue = s.wdDue := rfl
@[simp] theorem State.addBpend_testing (s : State) (c b d : Nat) (x : BWr) : (s.addBpend c b d x).testing = s.testing := rfl
@[simp] theorem State.addBpend_lastTest (s : State) (c b d : Nat) (x : BWr) : (s.addBpend c b d x).lastTest = s.lastTest := rfl
@[simp] theorem State.addBpend_testDue (s : State) (c b d : Nat) (x : BWr) : (s.addBpend c b d x).testDue = s.testDue := rfl
@[simp] theorem State.addBpend_scrubAt (s : State) (c b d : Nat) (x : BWr) : (s.addBpend c b d x).scrubAt = s.scrubAt := rfl
@[simp] theorem State.addBpend_rescrub (s : State) (c b d : Nat) (x : BWr) : (s.addBpend c b d x).rescrub = s.rescrub := rfl
@[simp] theorem State.addBpend_latch (s : State) (c b d : Nat) (x : BWr) : (s.addBpend c b d x).latch = s.latch := rfl
@[simp] theorem State.addBpend_acts (s : State) (c b d : Nat) (x : BWr) : (s.addBpend c b d x).acts = s.acts := rfl
@[simp] theorem State.addBpend_bookAt (s : State) (c b d : Nat) (x : BWr) : (s.addBpend c b d x).bookAt = s.bookAt := rfl
@[simp] theorem State.addBpend_limDue (s : State) (c b d : Nat) (x : BWr) : (s.addBpend c b d x).limDue = s.limDue := rfl
@[simp] theorem State.addBpend_flashBad (s : State) (c b d : Nat) (x : BWr) : (s.addBpend c b d x).flashBad = s.flashBad := rfl
@[simp] theorem State.addBpend_fwBusy (s : State) (c b d : Nat) (x : BWr) : (s.addBpend c b d x).fwBusy = s.fwBusy := rfl
@[simp] theorem State.addBpend_hostq (s : State) (c b d : Nat) (x : BWr) : (s.addBpend c b d x).hostq = s.hostq := rfl
@[simp] theorem State.addBpend_off (s : State) (c b d : Nat) (x : BWr) : (s.addBpend c b d x).off = s.off := rfl

theorem State.updWarp_eq (s : State) (c w : Nat) (f : Warp → Warp) :
    s.updWarp c w f = match s.warp? c w with | some x => s.setWarp c w (f x) | none => s := rfl

@[simp] theorem State.updWarp_agenda (s : State) (c w : Nat) (f : Warp → Warp) : (s.updWarp c w f).agenda = s.agenda := by
  unfold State.updWarp; split <;> rfl
@[simp] theorem State.updWarp_inputs (s : State) (c w : Nat) (f : Warp → Warp) : (s.updWarp c w f).inputs = s.inputs := by
  unfold State.updWarp; split <;> rfl
@[simp] theorem State.updWarp_auto (s : State) (c w : Nat) (f : Warp → Warp) : (s.updWarp c w f).auto = s.auto := by
  unfold State.updWarp; split <;> rfl
@[simp] theorem State.updWarp_cur (s : State) (c w : Nat) (f : Warp → Warp) : (s.updWarp c w f).cur = s.cur := by
  unfold State.updWarp; split <;> rfl
@[simp] theorem State.updWarp_present (s : State) (c w : Nat) (f : Warp → Warp) : (s.updWarp c w f).present = s.present := by
  unfold State.updWarp; split <;> rfl
@[simp] theorem State.updWarp_place (s : State) (c w : Nat) (f : Warp → Warp) : (s.updWarp c w f).place = s.place := by
  unfold State.updWarp; split <;> rfl
@[simp] theorem State.updWarp_firing (s : State) (c w : Nat) (f : Warp → Warp) : (s.updWarp c w f).firing = s.firing := by
  unfold State.updWarp; split <;> rfl
@[simp] theorem State.updWarp_waits (s : State) (c w : Nat) (f : Warp → Warp) : (s.updWarp c w f).waits = s.waits := by
  unfold State.updWarp; split <;> rfl
@[simp] theorem State.updWarp_jobs (s : State) (c w : Nat) (f : Warp → Warp) : (s.updWarp c w f).jobs = s.jobs := by
  unfold State.updWarp; split <;> rfl
@[simp] theorem State.updWarp_waitq (s : State) (c w : Nat) (f : Warp → Warp) : (s.updWarp c w f).waitq = s.waitq := by
  unfold State.updWarp; split <;> rfl
@[simp] theorem State.updWarp_pushes (s : State) (c w : Nat) (f : Warp → Warp) : (s.updWarp c w f).pushes = s.pushes := by
  unfold State.updWarp; split <;> rfl
@[simp] theorem State.updWarp_busy (s : State) (c w : Nat) (f : Warp → Warp) : (s.updWarp c w f).busy = s.busy := by
  unfold State.updWarp; split <;> rfl
@[simp] theorem State.updWarp_free (s : State) (c w : Nat) (f : Warp → Warp) : (s.updWarp c w f).free = s.free := by
  unfold State.updWarp; split <;> rfl
@[simp] theorem State.updWarp_nextId (s : State) (c w : Nat) (f : Warp → Warp) : (s.updWarp c w f).nextId = s.nextId := by
  unfold State.updWarp; split <;> rfl
@[simp] theorem State.updWarp_out (s : State) (c w : Nat) (f : Warp → Warp) : (s.updWarp c w f).out = s.out := by
  unfold State.updWarp; split <;> rfl
@[simp] theorem State.updWarp_cfg (s : State) (c w : Nat) (f : Warp → Warp) : (s.updWarp c w f).cfg = s.cfg := by
  unfold State.updWarp; split <;> rfl
@[simp] theorem State.updWarp_now (s : State) (c w : Nat) (f : Warp → Warp) : (s.updWarp c w f).now = s.now := by
  unfold State.updWarp; split <;> rfl
@[simp] theorem State.updWarp_nsBase (s : State) (c w : Nat) (f : Warp → Warp) : (s.updWarp c w f).nsBase = s.nsBase := by
  unfold State.updWarp; split <;> rfl
@[simp] theorem State.updWarp_mem (s : State) (c w : Nat) (f : Warp → Warp) : (s.updWarp c w f).mem = s.mem := by
  unfold State.updWarp; split <;> rfl
@[simp] theorem State.updWarp_poison (s : State) (c w : Nat) (f : Warp → Warp) : (s.updWarp c w f).poison = s.poison := by
  unfold State.updWarp; split <;> rfl
@[simp] theorem State.updWarp_hostMem (s : State) (c w : Nat) (f : Warp → Warp) : (s.updWarp c w f).hostMem = s.hostMem := by
  unfold State.updWarp; split <;> rfl
@[simp] theorem State.updWarp_l2 (s : State) (c w : Nat) (f : Warp → Warp) : (s.updWarp c w f).l2 = s.l2 := by
  unfold State.updWarp; split <;> rfl
@[simp] theorem State.updWarp_redo (s : State) (c w : Nat) (f : Warp → Warp) : (s.updWarp c w f).redo = s.redo := by
  unfold State.updWarp; split <;> rfl
@[simp] theorem State.updWarp_owners (s : State) (c w : Nat) (f : Warp → Warp) : (s.updWarp c w f).owners = s.owners := by
  unfold State.updWarp; split <;> rfl
@[simp] theorem State.updWarp_bar0 (s : State) (c w : Nat) (f : Warp → Warp) : (s.updWarp c w f).bar0 = s.bar0 := by
  unfold State.updWarp; split <;> rfl
@[simp] theorem State.updWarp_clusters (s : State) (c w : Nat) (f : Warp → Warp) : (s.updWarp c w f).clusters = s.clusters := by
  unfold State.updWarp; split <;> rfl
@[simp] theorem State.updWarp_walks (s : State) (c w : Nat) (f : Warp → Warp) : (s.updWarp c w f).walks = s.walks := by
  unfold State.updWarp; split <;> rfl
@[simp] theorem State.updWarp_reqs (s : State) (c w : Nat) (f : Warp → Warp) : (s.updWarp c w f).reqs = s.reqs := by
  unfold State.updWarp; split <;> rfl
@[simp] theorem State.updWarp_invals (s : State) (c w : Nat) (f : Warp → Warp) : (s.updWarp c w f).invals = s.invals := by
  unfold State.updWarp; split <;> rfl
@[simp] theorem State.updWarp_queues (s : State) (c w : Nat) (f : Warp → Warp) : (s.updWarp c w f).queues = s.queues := by
  unfold State.updWarp; split <;> rfl
@[simp] theorem State.updWarp_blame (s : State) (c w : Nat) (f : Warp → Warp) : (s.updWarp c w f).blame = s.blame := by
  unfold State.updWarp; split <;> rfl
@[simp] theorem State.updWarp_launches (s : State) (c w : Nat) (f : Warp → Warp) : (s.updWarp c w f).launches = s.launches := by
  unfold State.updWarp; split <;> rfl
@[simp] theorem State.updWarp_copies (s : State) (c w : Nat) (f : Warp → Warp) : (s.updWarp c w f).copies = s.copies := by
  unfold State.updWarp; split <;> rfl
@[simp] theorem State.updWarp_sends (s : State) (c w : Nat) (f : Warp → Warp) : (s.updWarp c w f).sends = s.sends := by
  unfold State.updWarp; split <;> rfl
@[simp] theorem State.updWarp_ctrs (s : State) (c w : Nat) (f : Warp → Warp) : (s.updWarp c w f).ctrs = s.ctrs := by
  unfold State.updWarp; split <;> rfl
@[simp] theorem State.updWarp_parked (s : State) (c w : Nat) (f : Warp → Warp) : (s.updWarp c w f).parked = s.parked := by
  unfold State.updWarp; split <;> rfl
@[simp] theorem State.updWarp_remote (s : State) (c w : Nat) (f : Warp → Warp) : (s.updWarp c w f).remote = s.remote := by
  unfold State.updWarp; split <;> rfl
@[simp] theorem State.updWarp_replyCache (s : State) (c w : Nat) (f : Warp → Warp) : (s.updWarp c w f).replyCache = s.replyCache := by
  unfold State.updWarp; split <;> rfl
@[simp] theorem State.updWarp_pdcs (s : State) (c w : Nat) (f : Warp → Warp) : (s.updWarp c w f).pdcs = s.pdcs := by
  unfold State.updWarp; split <;> rfl
@[simp] theorem State.updWarp_rings (s : State) (c w : Nat) (f : Warp → Warp) : (s.updWarp c w f).rings = s.rings := by
  unfold State.updWarp; split <;> rfl
@[simp] theorem State.updWarp_advs (s : State) (c w : Nat) (f : Warp → Warp) : (s.updWarp c w f).advs = s.advs := by
  unfold State.updWarp; split <;> rfl
@[simp] theorem State.updWarp_landq (s : State) (c w : Nat) (f : Warp → Warp) : (s.updWarp c w f).landq = s.landq := by
  unfold State.updWarp; split <;> rfl
@[simp] theorem State.updWarp_keys (s : State) (c w : Nat) (f : Warp → Warp) : (s.updWarp c w f).keys = s.keys := by
  unfold State.updWarp; split <;> rfl
@[simp] theorem State.updWarp_measure (s : State) (c w : Nat) (f : Warp → Warp) : (s.updWarp c w f).measure = s.measure := by
  unfold State.updWarp; split <;> rfl
@[simp] theorem State.updWarp_mlog (s : State) (c w : Nat) (f : Warp → Warp) : (s.updWarp c w f).mlog = s.mlog := by
  unfold State.updWarp; split <;> rfl
@[simp] theorem State.updWarp_flash (s : State) (c w : Nat) (f : Warp → Warp) : (s.updWarp c w f).flash = s.flash := by
  unfold State.updWarp; split <;> rfl
@[simp] theorem State.updWarp_minVer (s : State) (c w : Nat) (f : Warp → Warp) : (s.updWarp c w f).minVer = s.minVer := by
  unfold State.updWarp; split <;> rfl
@[simp] theorem State.updWarp_fellBack (s : State) (c w : Nat) (f : Warp → Warp) : (s.updWarp c w f).fellBack = s.fellBack := by
  unfold State.updWarp; split <;> rfl
@[simp] theorem State.updWarp_bootErr (s : State) (c w : Nat) (f : Warp → Warp) : (s.updWarp c w f).bootErr = s.bootErr := by
  unfold State.updWarp; split <;> rfl
@[simp] theorem State.updWarp_quote (s : State) (c w : Nat) (f : Warp → Warp) : (s.updWarp c w f).quote = s.quote := by
  unfold State.updWarp; split <;> rfl
@[simp] theorem State.updWarp_ctxsw (s : State) (c w : Nat) (f : Warp → Warp) : (s.updWarp c w f).ctxsw = s.ctxsw := by
  unfold State.updWarp; split <;> rfl
@[simp] theorem State.updWarp_ctxEnd (s : State) (c w : Nat) (f : Warp → Warp) : (s.updWarp c w f).ctxEnd = s.ctxEnd := by
  unfold State.updWarp; split <;> rfl
@[simp] theorem State.updWarp_ctxList (s : State) (c w : Nat) (f : Warp → Warp) : (s.updWarp c w f).ctxList = s.ctxList := by
  unfold State.updWarp; split <;> rfl
@[simp] theorem State.updWarp_frozen (s : State) (c w : Nat) (f : Warp → Warp) : (s.updWarp c w f).frozen = s.frozen := by
  unfold State.updWarp; split <;> rfl
@[simp] theorem State.updWarp_part (s : State) (c w : Nat) (f : Warp → Warp) : (s.updWarp c w f).part = s.part := by
  unfold State.updWarp; split <;> rfl
@[simp] theorem State.updWarp_wdArmed (s : State) (c w : Nat) (f : Warp → Warp) : (s.updWarp c w f).wdArmed = s.wdArmed := by
  unfold State.updWarp; split <;> rfl
@[simp] theorem State.updWarp_wdDue (s : State) (c w : Nat) (f : Warp → Warp) : (s.updWarp c w f).wdDue = s.wdDue := by
  unfold State.updWarp; split <;> rfl
@[simp] theorem State.updWarp_testing (s : State) (c w : Nat) (f : Warp → Warp) : (s.updWarp c w f).testing = s.testing := by
  unfold State.updWarp; split <;> rfl
@[simp] theorem State.updWarp_lastTest (s : State) (c w : Nat) (f : Warp → Warp) : (s.updWarp c w f).lastTest = s.lastTest := by
  unfold State.updWarp; split <;> rfl
@[simp] theorem State.updWarp_testDue (s : State) (c w : Nat) (f : Warp → Warp) : (s.updWarp c w f).testDue = s.testDue := by
  unfold State.updWarp; split <;> rfl
@[simp] theorem State.updWarp_scrubAt (s : State) (c w : Nat) (f : Warp → Warp) : (s.updWarp c w f).scrubAt = s.scrubAt := by
  unfold State.updWarp; split <;> rfl
@[simp] theorem State.updWarp_rescrub (s : State) (c w : Nat) (f : Warp → Warp) : (s.updWarp c w f).rescrub = s.rescrub := by
  unfold State.updWarp; split <;> rfl
@[simp] theorem State.updWarp_latch (s : State) (c w : Nat) (f : Warp → Warp) : (s.updWarp c w f).latch = s.latch := by
  unfold State.updWarp; split <;> rfl
@[simp] theorem State.updWarp_acts (s : State) (c w : Nat) (f : Warp → Warp) : (s.updWarp c w f).acts = s.acts := by
  unfold State.updWarp; split <;> rfl
@[simp] theorem State.updWarp_bookAt (s : State) (c w : Nat) (f : Warp → Warp) : (s.updWarp c w f).bookAt = s.bookAt := by
  unfold State.updWarp; split <;> rfl
@[simp] theorem State.updWarp_limDue (s : State) (c w : Nat) (f : Warp → Warp) : (s.updWarp c w f).limDue = s.limDue := by
  unfold State.updWarp; split <;> rfl
@[simp] theorem State.updWarp_flashBad (s : State) (c w : Nat) (f : Warp → Warp) : (s.updWarp c w f).flashBad = s.flashBad := by
  unfold State.updWarp; split <;> rfl
@[simp] theorem State.updWarp_fwBusy (s : State) (c w : Nat) (f : Warp → Warp) : (s.updWarp c w f).fwBusy = s.fwBusy := by
  unfold State.updWarp; split <;> rfl
@[simp] theorem State.updWarp_hostq (s : State) (c w : Nat) (f : Warp → Warp) : (s.updWarp c w f).hostq = s.hostq := by
  unfold State.updWarp; split <;> rfl
@[simp] theorem State.updWarp_off (s : State) (c w : Nat) (f : Warp → Warp) : (s.updWarp c w f).off = s.off := by
  unfold State.updWarp; split <;> rfl

end Sys2Proof.Machine
end

