-- ==== Sys2Proof/Laws/Cores.lean ====
section
/-!
SUPPORT. Reading a core, a warp, a block after the plain updates of cores.
-/
namespace Sys2Proof.Machine

theorem State.core_setCore (s : State) (c d : Nat) (k : Core) : (s.setCore c k).core d = if d = c then k else s.core d := by
  simp only [State.core, State.setCore, smGetD, smGet?_smPut]
  split <;> rfl

@[simp] theorem State.core_setCore_self (s : State) (c : Nat) (k : Core) : (s.setCore c k).core c = k := by
  simp [State.core_setCore]

theorem State.core_updCore (s : State) (c d : Nat) (f : Core → Core) :
    (s.updCore c f).core d = if d = c then f (s.core d) else s.core d := by
  unfold State.updCore
  rw [State.core_setCore]
  by_cases h : d = c
  · subst h; simp
  · simp [h]

@[simp] theorem State.core_updCore_self (s : State) (c : Nat) (f : Core → Core) : (s.updCore c f).core c = f (s.core c) := by
  simp [State.core_updCore]

theorem State.warp?_setWarp (s : State) (c w d v : Nat) (x : Warp) :
    (s.setWarp c w x).warp? d v = if d = c ∧ v = w then some x else s.warp? d v := by
  unfold State.warp? State.setWarp
  rw [State.core_updCore]
  by_cases h : d = c
  · subst h; simp [smGet?_smPut]
  · simp [h]

@[simp] theorem State.warp?_setWarp_self (s : State) (c w : Nat) (x : Warp) : (s.setWarp c w x).warp? c w = some x := by
  simp [State.warp?_setWarp]

/-- Updating a warp changes that warp alone. -/
theorem State.warp?_updWarp (s : State) (c w d v : Nat) (f : Warp → Warp) :
    (s.updWarp c w f).warp? d v = if d = c ∧ v = w then (s.warp? d v).map f else s.warp? d v := by
  unfold State.updWarp
  split
  · rename_i x hx
    rw [State.warp?_setWarp]
    split
    · rename_i h; rw [h.1, h.2, hx]; rfl
    · rfl
  · rename_i hx
    split
    · rename_i h; rw [h.1, h.2, hx]; rfl
    · rfl

@[simp] theorem State.warp?_updWarp_self (s : State) (c w : Nat) (f : Warp → Warp) :
    (s.updWarp c w f).warp? c w = (s.warp? c w).map f := by
  simp [State.warp?_updWarp]

theorem State.core_setWarp_ne (s : State) {c d : Nat} (w : Nat) (x : Warp) (h : d ≠ c) : (s.setWarp c w x).core d = s.core d := by
  simp [State.setWarp, State.core_updCore, h]

theorem State.core_updWarp_ne (s : State) {c d : Nat} (w : Nat) (f : Warp → Warp) (h : d ≠ c) : (s.updWarp c w f).core d = s.core d := by
  unfold State.updWarp
  split
  · exact State.core_setWarp_ne s w _ h
  · rfl

/-- The core of an updated warp, but for its warps. -/
theorem State.core_updWarp (s : State) (c w : Nat) (f : Warp → Warp) :
    (s.updWarp c w f).core c = { s.core c with warps := ((s.updWarp c w f).core c).warps } := by
  unfold State.updWarp
  split
  · simp [State.setWarp]
  · rfl

theorem State.block_updCore (s : State) (c d b : Nat) (f : Core → Core) (h : ∀ k, (f k).blocks = k.blocks) :
    (s.updCore c f).block d b = s.block d b := by
  unfold State.block
  rw [State.core_updCore]
  split
  · rename_i e; subst e; rw [h]
  · rfl

@[simp] theorem State.block_setWarp (s : State) (c w d b : Nat) (x : Warp) : (s.setWarp c w x).block d b = s.block d b :=
  State.block_updCore s c d b _ fun _ => rfl

@[simp] theorem State.block_updWarp (s : State) (c w d b : Nat) (f : Warp → Warp) : (s.updWarp c w f).block d b = s.block d b := by
  unfold State.updWarp
  split <;> simp

@[simp] theorem State.block_updPart (s : State) (c p d b : Nat) (f : Part → Part) : (s.updPart c p f).block d b = s.block d b :=
  State.block_updCore s c d b _ fun _ => rfl

theorem State.warp?_updCore (s : State) (c d w : Nat) (f : Core → Core) (h : ∀ k, (f k).warps = k.warps) :
    (s.updCore c f).warp? d w = s.warp? d w := by
  unfold State.warp?
  rw [State.core_updCore]
  split
  · rename_i e; subst e; rw [h]
  · rfl

@[simp] theorem State.warp?_updPart (s : State) (c p d w : Nat) (f : Part → Part) : (s.updPart c p f).warp? d w = s.warp? d w :=
  State.warp?_updCore s c d w _ fun _ => rfl

@[simp] theorem State.warp?_setBlock (s : State) (c b d w : Nat) (x : Block) : (s.setBlock c b x).warp? d w = s.warp? d w :=
  State.warp?_updCore s c d w _ fun _ => rfl

@[simp] theorem State.warp?_updBlock (s : State) (c b d w : Nat) (f : Block → Block) : (s.updBlock c b f).warp? d w = s.warp? d w :=
  State.warp?_setBlock s c b d w _

theorem State.block_setBlock (s : State) (c b d e : Nat) (x : Block) :
    (s.setBlock c b x).block d e = if d = c ∧ e = b then x else s.block d e := by
  unfold State.block State.setBlock
  rw [State.core_updCore]
  by_cases h : d = c
  · subst h
    by_cases h2 : e = b
    · subst h2; simp [smGetD]
    · simp [smGetD, smGet?_smPut, h2]
  · simp [h]

theorem State.block_updBlock (s : State) (c b d e : Nat) (f : Block → Block) :
    (s.updBlock c b f).block d e = if d = c ∧ e = b then f (s.block d e) else s.block d e := by
  unfold State.updBlock
  rw [State.block_setBlock]
  split
  · rename_i h; rw [h.1, h.2]
  · rfl

@[simp] theorem State.core_setReg (s : State) (o d : Nat) (v : Word) : (s.setReg o v).core d = s.core d := rfl
@[simp] theorem State.core_setByte (s : State) (a d : Nat) (b : Byte) : (s.setByte a b).core d = s.core d := rfl
@[simp] theorem State.warp?_setReg (s : State) (o d w : Nat) (v : Word) : (s.setReg o v).warp? d w = s.warp? d w := rfl
@[simp] theorem State.warp?_setByte (s : State) (a d w : Nat) (b : Byte) : (s.setByte a b).warp? d w = s.warp? d w := rfl

end Sys2Proof.Machine
end

