-- ==== Sys2Proof/Laws/Issue.lean ====
section
/-!
SUPPORT. The issue of a Z1 instruction: what it answers once the effect is known, and that the advance of the
warps and the freeing of a latch change nothing but places.
-/
namespace Sys2Proof.Machine

/-! ### One equation for the issue -/

/-- An execution takes place as it stands, where no source has an uncorrected error; then its meaning is asked. -/
theorem Entry.of_sound {o : Op} {x : Z1} {en en' : Entry} (h : Entry.sound o x en = some en') :
    en' = en ∧ ∀ body s, guarded o x body en.c s = body en.c s := by
  unfold Entry.sound at h
  split at h
  · rename_i hb
    exact ⟨(Option.some.inj h).symm, fun body s => by unfold guarded; simp [hb]⟩
  · cases h

/-- What an execution does where its meaning is done. -/
theorem perform_done {o : Op} {x : Z1} {body : Ctx → State → Act} {t : State} {en en' : Entry} (h : Entry.sound o x en = some en')
    (hb : body en.c en.s = .done t) : perform en.s o x body en.c en.all en.key = finish o x en t := by
  unfold perform
  dsimp only
  rw [(Entry.of_sound h).2, hb]
  rfl

/-- An execution whose effect is done answers the finished state. -/
theorem issue_done {o : Op} {x : Z1} {body : Ctx → State → Act} {s t : State} {en : Entry}
    (h : entry o x s = some en) (hb : body en.c en.s = .done t) : issue o x body s = .next (finish o x en t) := by
  unfold entry at h
  unfold issue
  split at h
  · rename_i f hf
    dsimp only at h
    split at h
    · cases h
    · rename_i hw
      have he := (Entry.of_sound h).1
      subst he
      simp only [hf, fireIssue, hw, if_false, Bool.false_eq_true]
      exact congrArg Host.Outcome.next (perform_done h hb)
  · rename_i hf
    split at h
    · cases h
    · rename_i core slot hc
      split at h
      · rename_i w0 w h0 hw
        simp only [hf, hc, h0, warpIssue, hw]
        dsimp only at h
        split at h
        · rename_i lanes contrib hr
          split at h
          · rename_i hp
            have he := (Entry.of_sound h).1
            subst he
            simp only [hr, hp, Bool.not_true, Bool.false_eq_true, if_false]
            exact congrArg Host.Outcome.next (perform_done h hb)
          · cases h
        · rename_i hr
          simp only [Option.ite_none_right_eq_some, Bool.and_eq_true, Option.isNone_iff_eq_none, Bool.not_eq_true'] at h
          obtain ⟨⟨⟨hi, hm⟩, hj⟩, h⟩ := h
          have he := (Entry.of_sound h).1
          subst he
          simp only [hr, hi, hm, hj, Bool.false_eq_true, if_false]
          exact congrArg Host.Outcome.next (perform_done h hb)
      · cases h

/-! ### What only moves places -/

theorem OnlyCore.refl (core : Nat) (s : State) : OnlyCore core s s := ⟨rfl, fun _ _ => rfl, rfl⟩

theorem OnlyCore.trans {core : Nat} {s t u : State} (h : OnlyCore core s t) (k : OnlyCore core t u) : OnlyCore core s u := by
  refine ⟨?_, fun d hd => (k.2.1 d hd).trans (h.2.1 d hd), ?_⟩
  · have h1 := h.1
    rw [← k.1] at h1
    exact h1
  · have h2 := h.2.2
    rw [← k.2.2] at h2
    exact h2

theorem OnlyPlace.refl (core : Nat) (s : State) : OnlyPlace core s s := ⟨OnlyCore.refl core s, fun _ => rfl, fun _ => rfl⟩

theorem OnlyPlace.trans {core : Nat} {s t u : State} (h : OnlyPlace core s t) (k : OnlyPlace core t u) : OnlyPlace core s u :=
  ⟨h.1.trans k.1, fun sl => (k.2.1 sl).trans (h.2.1 sl), fun b => (k.2.2 b).trans (h.2.2 b)⟩

theorem OnlyIssue.refl (core : Nat) (s : State) : OnlyIssue core s s := ⟨OnlyCore.refl core s, fun _ => rfl, fun _ => rfl⟩

theorem OnlyIssue.trans {core : Nat} {s t u : State} (h : OnlyIssue core s t) (k : OnlyIssue core t u) : OnlyIssue core s u :=
  ⟨h.1.trans k.1, fun sl => (k.2.1 sl).trans (h.2.1 sl), fun b => (k.2.2 b).trans (h.2.2 b)⟩

theorem OnlyPlace.issue {core : Nat} {s t : State} (h : OnlyPlace core s t) : OnlyIssue core s t := by
  refine ⟨h.1, fun sl => ?_, fun b => ?_⟩
  · have := congrArg (Option.map Prod.fst) (h.2.1 sl)
    simpa [Option.map_map, Function.comp_def] using this
  · exact congrArg Prod.fst (h.2.2 b)

/-- The results on their way to a warp are the same. -/
theorem OnlyPlace.pend {core : Nat} {s t : State} (h : OnlyPlace core s t) {slot : Nat} {w : Warp}
    (hw : t.warp? core slot = some w) : ∃ w0, s.warp? core slot = some w0 ∧ w0.pend = w.pend := by
  have h1 := h.2.1 slot
  rw [hw] at h1
  cases h2 : s.warp? core slot with
  | none => simp [h2] at h1
  | some w0 => simp [h2] at h1; exact ⟨w0, rfl, h1.2.1.symm⟩

theorem OnlyPlace.pend' {core : Nat} {s t : State} (h : OnlyPlace core s t) {slot : Nat} {w : Warp}
    (hw : s.warp? core slot = some w) : ∃ w1, t.warp? core slot = some w1 ∧ w1.pend = w.pend := by
  have h1 := h.2.1 slot
  rw [hw] at h1
  cases h2 : t.warp? core slot with
  | none => simp [h2] at h1
  | some w0 => simp [h2] at h1; exact ⟨w0, rfl, h1.2.1⟩

theorem OnlyPlace.resAt {core : Nat} {s t : State} (h : OnlyPlace core s t) {slot : Nat} {w : Warp}
    (hw : t.warp? core slot = some w) : ∃ w0, s.warp? core slot = some w0 ∧ w0.pend = w.pend ∧ w0.resAt = w.resAt := by
  have h1 := h.2.1 slot
  rw [hw] at h1
  cases h2 : s.warp? core slot with
  | none => simp [h2] at h1
  | some w0 => simp [h2] at h1; exact ⟨w0, rfl, h1.2.1.symm, h1.2.2.symm⟩

theorem OnlyPlace.lands {core : Nat} {s t : State} (h : OnlyPlace core s t) {slot due : Nat} {y : Wr}
    (hl : LandsAt s core slot due y) : LandsAt t core slot due y := by
  obtain ⟨w, hw, hp⟩ := hl
  obtain ⟨w1, h1, h2⟩ := h.pend' hw
  exact ⟨w1, h1, h2 ▸ hp⟩

/-- Anything done to the issue's own marks. -/
theorem onlyPlace_marks (core : Nat) (s : State) (a : List (Nat × Nat)) (b : Option (Nat × Nat)) (c : Option Firing) (d : List Nat) :
    OnlyPlace core s { s with waits := a, cur := b, firing := c, busy := d } :=
  ⟨⟨rfl, fun _ _ => rfl, rfl⟩, fun _ => rfl, fun _ => rfl⟩

theorem onlyCore_updCore (s : State) (core : Nat) (f : Core → Core)
    (h : ∀ k, { f k with parts := k.parts, warps := k.warps, blocks := k.blocks } = k) : OnlyCore core s (s.updCore core f) := by
  refine ⟨rfl, fun d hd => ?_, ?_⟩
  · rw [State.core_updCore, if_neg hd]
  · rw [State.core_updCore_self]; exact h _

theorem onlyCore_updWarp (s : State) (core sl : Nat) (f : Warp → Warp) : OnlyCore core s (s.updWarp core sl f) := by
  unfold State.updWarp
  split
  · exact onlyCore_updCore s core _ fun _ => rfl
  · exact OnlyCore.refl _ _

theorem onlyPlace_updWarp (s : State) (core sl : Nat) (f : Warp → Warp)
    (h : ∀ w, (f w).still = w.still ∧ (f w).pend = w.pend ∧ (f w).resAt = w.resAt) : OnlyPlace core s (s.updWarp core sl f) := by
  refine ⟨onlyCore_updWarp s core sl f, fun slot => ?_, fun b => by simp⟩
  rw [State.warp?_updWarp]
  split
  · rw [Option.map_map]
    congr 1
    funext w
    simp [h w]
  · rfl

theorem onlyPlace_updPart (s : State) (core p : Nat) (f : Part → Part) : OnlyPlace core s (s.updPart core p f) :=
  ⟨onlyCore_updCore s core _ fun _ => rfl, fun slot => by simp, fun b => by simp⟩

theorem onlyPlace_updBlock (s : State) (core bi : Nat) (f : Block → Block)
    (h : ∀ b, (f b).still = b.still ∧ (f b).bpend = b.bpend) : OnlyPlace core s (s.updBlock core bi f) := by
  refine ⟨onlyCore_updCore s core _ fun _ => rfl, fun slot => by simp, fun b => ?_⟩
  rw [State.block_updBlock]
  split
  · simp [h]
  · rfl

theorem onlyPlace_foldl {α : Type} (core : Nat) (f : State → α → State) (h : ∀ s a, OnlyPlace core s (f s a)) (l : List α) (s : State) :
    OnlyPlace core s (l.foldl f s) := by
  induction l generalizing s with
  | nil => exact OnlyPlace.refl _ _
  | cons a l ih => exact (h s a).trans (ih _)

/-! ### The advance of a warp -/

theorem still_pend_take (w : Warp) (m : Mask) : (w.take m).still = w.still ∧ (w.take m).pend = w.pend ∧ (w.take m).resAt = w.resAt := ⟨rfl, rfl, rfl⟩

theorem stackStep_still (w : Warp) (t : StackEnt) (rest : List StackEnt) :
    (stackStep w t rest).still = w.still ∧ (stackStep w t rest).pend = w.pend ∧ (stackStep w t rest).resAt = w.resAt := by
  unfold stackStep
  repeat' split
  all_goals exact ⟨rfl, rfl, rfl⟩

theorem serialStep_still (w : Warp) (z : Serial) : (serialStep w z).still = w.still ∧ (serialStep w z).pend = w.pend ∧ (serialStep w z).resAt = w.resAt := by
  unfold serialStep
  repeat' split
  all_goals exact ⟨rfl, rfl, rfl⟩

theorem settleFuel_still (n : Nat) (w : Warp) : (settleFuel n w).still = w.still ∧ (settleFuel n w).pend = w.pend ∧ (settleFuel n w).resAt = w.resAt := by
  induction n generalizing w with
  | zero => exact ⟨rfl, rfl, rfl⟩
  | succ n ih =>
    simp only [settleFuel]
    split
    · rename_i z _
      split
      · exact ⟨(ih _).1.trans (serialStep_still w z).1, (ih _).2.1.trans (serialStep_still w z).2.1, (ih _).2.2.trans (serialStep_still w z).2.2⟩
      · exact ⟨rfl, rfl, rfl⟩
    · split
      · exact ⟨rfl, rfl, rfl⟩
      · rename_i t rest _
        split
        · exact ⟨(ih _).1.trans (stackStep_still w t rest).1, (ih _).2.1.trans (stackStep_still w t rest).2.1, (ih _).2.2.trans (stackStep_still w t rest).2.2⟩
        · exact ⟨rfl, rfl, rfl⟩

theorem advance_still (w : Warp) (now addr len gap : Nat) (tmp : BitVec 8) :
    (w.advance now addr len gap tmp).still = w.still ∧ (w.advance now addr len gap tmp).pend = w.pend ∧ (w.advance now addr len gap tmp).resAt = w.resAt := by
  unfold Warp.advance
  dsimp only
  split
  · exact ⟨rfl, rfl, rfl⟩
  · exact settleFuel_still _ _

theorem onlyPlace_holdPart (s : State) (core slot : Nat) : OnlyPlace core s (holdPart s core slot) :=
  onlyPlace_updPart _ _ _ _

theorem onlyPlace_advanceAll (s : State) (l : List (Nat × Mask)) (core addr len gap : Nat) (tmp : BitVec 8) :
    OnlyPlace core s (advanceAll s l core addr len gap tmp) := by
  unfold advanceAll
  dsimp only
  refine (onlyPlace_foldl core _ (fun s p => ?_) l s).trans (onlyPlace_marks core _ _ _ _ _)
  split
  · exact OnlyPlace.refl _ _
  · exact (onlyPlace_holdPart _ _ _).trans (onlyPlace_updWarp _ _ _ _ fun _ => advance_still _ _ _ _ _ _)

theorem onlyPlace_setWarp {s : State} {core sl : Nat} {w w1 : Warp} (hw : s.warp? core sl = some w)
    (h : w1.still = w.still ∧ w1.pend = w.pend ∧ w1.resAt = w.resAt) : OnlyPlace core s (s.setWarp core sl w1) := by
  have e : s.setWarp core sl w1 = s.updWarp core sl fun _ => w1 := by simp [State.updWarp, hw]
  rw [e]
  refine ⟨onlyCore_updWarp s core sl _, fun slot => ?_, fun b => by simp⟩
  rw [State.warp?_updWarp]
  split
  · rename_i hs; rw [hs.2, hw]; simp [h]
  · rfl

theorem onlyPlace_countArrival (s : State) (core bi slot : Nat) : OnlyPlace core s (countArrival s core bi slot) := by
  unfold countArrival
  split
  · exact OnlyPlace.refl _ _
  · rename_i w hw
    split
    · exact OnlyPlace.refl _ _
    · dsimp only
      split
      · rename_i r _ _
        have hu (l : Latch) : OnlyPlace core s (s.updBlock core bi fun b => { b with latches := smPut b.latches r.key l }) :=
          onlyPlace_updBlock s core bi _ fun _ => ⟨rfl, rfl⟩
        refine (hu _).trans (onlyPlace_setWarp (w := w) ?_ ⟨rfl, rfl, rfl⟩)
        rw [State.warp?_updBlock]; exact hw
      · exact OnlyPlace.refl _ _

theorem onlyPlace_freeLatch (s : State) (core bi key : Nat) : OnlyPlace core s (freeLatch s core bi key) := by
  unfold freeLatch
  dsimp only
  refine OnlyPlace.trans ?_ (onlyPlace_foldl core _ (fun s n => ?_) _ _)
  · exact onlyPlace_updBlock s core bi (fun b => { b with latches := smPut b.latches key {} }) fun _ => ⟨rfl, rfl⟩
  · repeat' split
    all_goals first | exact onlyPlace_countArrival _ _ _ _ | exact OnlyPlace.refl _ _

/-- Finishing an execution moves places only. -/
theorem onlyPlace_finish (o : Op) (x : Z1) (en : Entry) (t : State) : OnlyPlace en.c.core t (finish o x en t) := by
  unfold finish
  dsimp only
  split
  · exact (onlyPlace_advanceAll _ _ _ _ _ _ _).trans (onlyPlace_freeLatch _ _ _ _)
  · exact onlyPlace_advanceAll _ _ _ _ _ _ _

end Sys2Proof.Machine
end

