-- ==== Sys2Proof/Laws/Result.lean ====
section
/-!
SUPPORT. The delivery of a fixed-latency result: the writes that are on their way afterwards, and that nothing
else is.
-/
namespace Sys2Proof.Machine

theorem mem_insertBefore {α : Type} (p : α → Bool) (v x : α) (l : List α) : x ∈ insertBefore p v l ↔ x = v ∨ x ∈ l := by
  induction l with
  | nil => simp [insertBefore]
  | cons y l ih =>
    simp only [insertBefore]
    split
    · simp
    · simp only [List.mem_cons, ih]
      constructor
      · rintro (h | h | h)
        · exact .inr (.inl h)
        · exact .inl h
        · exact .inr (.inr h)
      · rintro (h | h | h)
        · exact .inr (.inl h)
        · exact .inl h
        · exact .inr (.inr h)

theorem sublist_insertBefore {α : Type} (p : α → Bool) (v : α) (l : List α) : l.Sublist (insertBefore p v l) := by
  induction l with
  | nil => simp [insertBefore]
  | cons y l ih =>
    simp only [insertBefore]
    split
    · exact List.sublist_cons_self _ _
    · exact ih.cons_cons y

theorem mem_laneList {l : Nat} : l ∈ laneList ↔ l < 32 := by
  constructor
  · intro h
    simp only [laneList, List.mem_cons, List.not_mem_nil, or_false] at h
    omega
  · intro h
    have : ∀ l, l < 32 → l ∈ laneList := by decide
    exact this l h

theorem mem_maskLanes {m : Mask} {l : Nat} : l ∈ maskLanes m ↔ l < 32 ∧ inMask m l = true := by
  simp [maskLanes, List.mem_filter, mem_laneList]

/-! ### The writes of a result -/

theorem mem_laneWrs {d l : Nat} {ws : List Word} {y : Wr} :
    y ∈ laneWrs d l ws ↔ ∃ k v, ws[k]? = some v ∧ y = .lane (d + k) l v := by
  induction ws generalizing d with
  | nil => simp [laneWrs]
  | cons x xs ih =>
    simp only [laneWrs, List.mem_cons, ih]
    constructor
    · rintro (rfl | ⟨k, v, h, rfl⟩)
      · exact ⟨0, x, rfl, rfl⟩
      · exact ⟨k + 1, v, by simpa using h, by congr 1; omega⟩
    · rintro ⟨k, v, h, rfl⟩
      cases k with
      | zero => left; simp at h; subst h; rfl
      | succ k => right; exact ⟨k, v, by simpa using h, by congr 1; omega⟩

theorem mem_scalWrs {d : Nat} {ws : List Word} {y : Wr} :
    y ∈ scalWrs d ws ↔ ∃ k v, ws[k]? = some v ∧ y = .scal (d + k) v := by
  induction ws generalizing d with
  | nil => simp [scalWrs]
  | cons x xs ih =>
    simp only [scalWrs, List.mem_cons, ih]
    constructor
    · rintro (rfl | ⟨k, v, h, rfl⟩)
      · exact ⟨0, x, rfl, rfl⟩
      · exact ⟨k + 1, v, by simpa using h, by congr 1; omega⟩
    · rintro ⟨k, v, h, rfl⟩
      cases k with
      | zero => left; simp at h; subst h; rfl
      | succ k => right; exact ⟨k, v, by simpa using h, by congr 1; omega⟩

theorem mem_poolWrs {d l : Nat} {ws : List Word} {y : Nat × Nat × Word} :
    y ∈ poolWrs d l ws ↔ ∃ k v, ws[k]? = some v ∧ y = (d + k, l, v) := by
  induction ws generalizing d with
  | nil => simp [poolWrs]
  | cons x xs ih =>
    simp only [poolWrs, List.mem_cons, ih]
    constructor
    · rintro (rfl | ⟨k, v, h, rfl⟩)
      · exact ⟨0, x, rfl, rfl⟩
      · exact ⟨k + 1, v, by simpa using h, by congr 1; omega⟩
    · rintro ⟨k, v, h, rfl⟩
      cases k with
      | zero => left; simp at h; subst h; rfl
      | succ k => right; exact ⟨k, v, by simpa using h, by congr 1; omega⟩

/-! ### Adding results on their way -/

theorem mem_addPend {w : Warp} {due : Nat} {l : List Wr} {p : Pend} :
    p ∈ (w.addPend due l).pend ↔ (l ≠ [] ∧ p = ⟨due, l⟩) ∨ p ∈ w.pend := by
  unfold Warp.addPend
  cases l with
  | nil => simp
  | cons a l => simp [mem_insertBefore]

theorem sublist_addPend (w : Warp) (due : Nat) (l : List Wr) : w.pend.Sublist (w.addPend due l).pend := by
  unfold Warp.addPend
  split
  · exact List.Sublist.refl _
  · exact sublist_insertBefore _ _ _

theorem addPend_resAt (w : Warp) (due : Nat) (l : List Wr) : (w.addPend due l).resAt = w.resAt := by
  unfold Warp.addPend
  split <;> rfl

theorem addPend_still (w : Warp) (due : Nat) (l : List Wr) : (w.addPend due l).still = w.still := by
  unfold Warp.addPend
  split <;> rfl

theorem onlyIssue_updWarp (s : State) (core sl : Nat) (f : Warp → Warp) (h : ∀ w, (f w).still = w.still) :
    OnlyIssue core s (s.updWarp core sl f) := by
  refine ⟨onlyCore_updWarp s core sl f, fun slot => ?_, fun b => by simp⟩
  rw [State.warp?_updWarp]
  split
  · rw [Option.map_map]
    congr 1
    funext w
    exact h w
  · rfl

theorem onlyIssue_foldl {α : Type} (core : Nat) (f : State → α → State) (h : ∀ s a, OnlyIssue core s (f s a)) (l : List α) (s : State) :
    OnlyIssue core s (l.foldl f s) := by
  induction l generalizing s with
  | nil => exact OnlyIssue.refl _ _
  | cons a l ih => exact (h s a).trans (ih _)

theorem onlyIssue_addBpend (s : State) (core bi due : Nat) (x : BWr) : OnlyIssue core s (s.addBpend core bi due x) := by
  refine ⟨onlyCore_updCore s core _ fun _ => rfl, fun slot => ?_, fun b => ?_⟩
  · simp [State.addBpend]
  · unfold State.addBpend
    rw [State.block_updBlock]
    split
    · rfl
    · rfl

theorem mem_bpend_addBpend {s : State} {core bi due b : Nat} {x : BWr} {y : Nat × BWr} :
    y ∈ ((s.addBpend core bi due x).block core b).bpend ↔ (b = bi ∧ y = (due, x)) ∨ y ∈ (s.block core b).bpend := by
  unfold State.addBpend
  rw [State.block_updBlock]
  by_cases h : b = bi
  · subst h; simp [mem_insertBefore]
  · simp [h]

theorem sublist_addBpend (s : State) (core bi due b : Nat) (x : BWr) :
    (s.block core b).bpend.Sublist ((s.addBpend core bi due x).block core b).bpend := by
  unfold State.addBpend
  rw [State.block_updBlock]
  by_cases h : b = bi
  · subst h; simp [sublist_insertBefore]
  · simp [h]

/-- Add the writes of g, by mask, to every member with lanes. -/
def addAll (core due : Nat) (g : Mask → List Wr) (ms : List (Nat × Mask)) (s : State) : State :=
  ms.foldl (fun s p => if p.2 = 0 then s else s.updWarp core p.1 fun w => w.addPend due (g p.2)) s

/-- The pool writes that follow. -/
def poolAll (core bi due i : Nat) (l : List (Nat × Nat × Word)) (s : State) : State :=
  l.foldl (fun s x => s.addBpend core bi due (.pool i x.1 x.2.1 x.2.2)) s

/-- The members' additions: what is on its way to a warp afterwards. -/
theorem pend_foldl_addPend (core due : Nat) (g : Mask → List Wr) (ms : List (Nat × Mask)) (s : State) (slot : Nat) :
    ∀ w, (addAll core due g ms s).warp? core slot = some w →
      ∃ w0, s.warp? core slot = some w0 ∧ w0.pend.Sublist w.pend ∧ w.resAt = w0.resAt ∧
        (∀ p, p ∈ w.pend ↔ p ∈ w0.pend ∨ ∃ q ∈ ms, q.1 = slot ∧ q.2 ≠ 0 ∧ g q.2 ≠ [] ∧ p = ⟨due, g q.2⟩) := by
  induction ms generalizing s with
  | nil => intro w hw; exact ⟨w, hw, List.Sublist.refl _, rfl, fun p => by simp⟩
  | cons q ms ih =>
    intro w hw
    rw [addAll, List.foldl_cons] at hw
    obtain ⟨w1, h1, hs, ha, h2⟩ := ih _ w hw
    split at h1
    · rename_i hq
      refine ⟨w1, h1, hs, ha, fun p => ?_⟩
      rw [h2]
      constructor
      · rintro (h | ⟨r, hr, h⟩)
        · exact .inl h
        · exact .inr ⟨r, List.mem_cons_of_mem _ hr, h⟩
      · rintro (h | ⟨r, hr, h⟩)
        · exact .inl h
        · rcases List.mem_cons.1 hr with rfl | hr
          · exact absurd hq h.2.1
          · exact .inr ⟨r, hr, h⟩
    · rename_i hq
      rw [State.warp?_updWarp] at h1
      split at h1
      · rename_i hc
        obtain ⟨w0, h0, rfl⟩ := Option.map_eq_some_iff.1 h1
        refine ⟨w0, h0, (sublist_addPend _ _ _).trans hs, ha.trans (addPend_resAt _ _ _), fun p => ?_⟩
        rw [h2, mem_addPend]
        constructor
        · rintro ((⟨h, e⟩ | h) | ⟨r, hr, h⟩)
          · exact .inr ⟨q, by simp, hc.2.symm, hq, h, e⟩
          · exact .inl h
          · exact .inr ⟨r, List.mem_cons_of_mem _ hr, h⟩
        · rintro (h | ⟨r, hr, h⟩)
          · exact .inl (.inr h)
          · rcases List.mem_cons.1 hr with rfl | hr
            · exact .inl (.inl ⟨h.2.2.1, h.2.2.2⟩)
            · exact .inr ⟨r, hr, h⟩
      · rename_i hc
        refine ⟨w1, h1, hs, ha, fun p => ?_⟩
        rw [h2]
        constructor
        · rintro (h | ⟨r, hr, h⟩)
          · exact .inl h
          · exact .inr ⟨r, List.mem_cons_of_mem _ hr, h⟩
        · rintro (h | ⟨r, hr, h⟩)
          · exact .inl h
          · rcases List.mem_cons.1 hr with rfl | hr
            · exact absurd ⟨rfl, h.1.symm⟩ hc
            · exact .inr ⟨r, hr, h⟩

theorem isSome_foldl_addPend (core due : Nat) (g : Mask → List Wr) (ms : List (Nat × Mask)) (s : State) (slot : Nat) :
    ((addAll core due g ms s).warp? core slot).isSome
      = (s.warp? core slot).isSome := by
  induction ms generalizing s with
  | nil => rfl
  | cons q ms ih =>
    rw [addAll, List.foldl_cons]
    refine (ih _).trans ?_
    split
    · rfl
    · rw [State.warp?_updWarp]
      split <;> simp

theorem block_foldl_addPend (core due : Nat) (g : Mask → List Wr) (ms : List (Nat × Mask)) (s : State) (d b : Nat) :
    (addAll core due g ms s).block d b = s.block d b := by
  induction ms generalizing s with
  | nil => rfl
  | cons q ms ih =>
    rw [addAll, List.foldl_cons]
    refine (ih _).trans ?_
    split <;> simp

theorem warp?_foldl_addBpend (core bi due i : Nat) (l : List (Nat × Nat × Word)) (s : State) (d sl : Nat) :
    (poolAll core bi due i l s).warp? d sl = s.warp? d sl := by
  induction l generalizing s with
  | nil => rfl
  | cons q l ih => rw [poolAll, List.foldl_cons]; refine (ih _).trans ?_; simp [State.addBpend]

theorem sublist_bpend_poolAll (core bi due i : Nat) (l : List (Nat × Nat × Word)) (s : State) (b : Nat) :
    (s.block core b).bpend.Sublist ((poolAll core bi due i l s).block core b).bpend := by
  induction l generalizing s with
  | nil => exact List.Sublist.refl _
  | cons q l ih => rw [poolAll, List.foldl_cons]; exact (sublist_addBpend _ _ _ _ _ _).trans (ih _)

theorem mem_bpend_foldl_addBpend (core bi due i : Nat) (l : List (Nat × Nat × Word)) (s : State) (b : Nat) (y : Nat × BWr) :
    y ∈ ((poolAll core bi due i l s).block core b).bpend ↔
      (b = bi ∧ ∃ x ∈ l, y = (due, BWr.pool i x.1 x.2.1 x.2.2)) ∨ y ∈ (s.block core b).bpend := by
  induction l generalizing s with
  | nil => simp [poolAll]
  | cons q l ih =>
    rw [poolAll, List.foldl_cons]
    refine (ih _).trans ?_
    rw [mem_bpend_addBpend]
    constructor
    · rintro (⟨h, x, hx, e⟩ | ⟨h, e⟩ | h)
      · exact .inl ⟨h, x, List.mem_cons_of_mem _ hx, e⟩
      · exact .inl ⟨h, q, by simp, e⟩
      · exact .inr h
    · rintro (⟨h, x, hx, e⟩ | h)
      · rcases List.mem_cons.1 hx with rfl | hx
        · exact .inr (.inl ⟨h, e⟩)
        · exact .inl ⟨h, x, hx, e⟩
      · exact .inr (.inr h)

/-! ### The result -/

/-- The writes one member is sent. -/
def memberWrs (c : Ctx) (d : Option Nat) (f : Nat → List Word) (ps : List (Nat × (Nat → Bool))) (m : Mask) : List Wr :=
  (match d with
   | some d => if decide (512 ≤ d) && decide (d < 1536) then [] else destWrs c d f m
   | none => [])
  ++ ps.flatMap fun p => predWrs p.1 p.2 m

def poolOf (c : Ctx) (d : Option Nat) (f : Nat → List Word) : List (Nat × Nat × Word) :=
  match d with
  | some d => if decide (512 ≤ d) && decide (d < 1536) then (maskLanes c.e).flatMap fun l => poolWrs (d - 512) l (f l) else []
  | none => []

theorem result_eq (c : Ctx) (s : State) (L : Nat) (d : Option Nat) (f : Nat → List Word) (ps : List (Nat × (Nat → Bool)))
    (flags : BitVec 5) (he : c.e ≠ 0) :
    c.result s L d f ps flags = c.deliver s (s.now + L) (memberWrs c d f ps) (poolOf c d f) flags := by
  unfold Ctx.result
  rw [if_neg he]
  unfold memberWrs poolOf
  cases d <;> rfl

/-- The writes a member is sent, with the flags. -/
def sentWrs (g : Mask → List Wr) (flags : BitVec 5) (m : Mask) : List Wr := g m ++ if flags = 0 then [] else [.flags flags]

theorem deliver_eq (c : Ctx) (s : State) (due : Nat) (g : Mask → List Wr) (pool : List (Nat × Nat × Word)) (flags : BitVec 5) :
    c.deliver s due g pool flags = match c.b.setOf c.w.num with
      | some (i, _) => if pool.isEmpty then addAll c.core due (sentWrs g flags) c.members s
          else c.arriveAt (poolAll c.core c.bi (due + 2) i pool (addAll c.core due (sentWrs g flags) c.members s)) (due + 2)
      | none => addAll c.core due (sentWrs g flags) c.members s := rfl

/-- From s to t nothing moved but the clk a trailer waits for, and none waits longer than to a clk. -/
def OnlyRes (core due : Nat) (s t : State) : Prop :=
  OnlyIssue core s t ∧
  (∀ slot w, t.warp? core slot = some w → ∃ w0, s.warp? core slot = some w0 ∧ w0.pend = w.pend ∧
    w0.resAt ≤ w.resAt ∧ w.resAt ≤ max w0.resAt due) ∧
  ∀ b, (t.block core b).bpend = (s.block core b).bpend

theorem OnlyPlace.isSome {core : Nat} {s t : State} (h : OnlyPlace core s t) (slot : Nat) : (t.warp? core slot).isSome = (s.warp? core slot).isSome := by
  have e := congrArg Option.isSome (h.2.1 slot)
  simpa using e

theorem OnlyPlace.bpend {core : Nat} {s t : State} (h : OnlyPlace core s t) (b : Nat) : (t.block core b).bpend = (s.block core b).bpend :=
  congrArg Prod.snd (h.2.2 b)

theorem OnlyPlace.onlyRes {core : Nat} {s t : State} (h : OnlyPlace core s t) (due : Nat) : OnlyRes core due s t := by
  refine ⟨h.issue, fun slot w hw => ?_, h.bpend⟩
  obtain ⟨w0, h0, hp, hr⟩ := h.resAt hw
  exact ⟨w0, h0, hp, by omega, by omega⟩

theorem OnlyRes.trans {core due : Nat} {s t u : State} (h : OnlyRes core due s t) (k : OnlyRes core due t u) : OnlyRes core due s u := by
  refine ⟨h.1.trans k.1, fun slot w hw => ?_, fun b => (k.2.2 b).trans (h.2.2 b)⟩
  obtain ⟨w1, h1, p1, a1, b1⟩ := k.2.1 slot w hw
  obtain ⟨w0, h0, p0, a0, b0⟩ := h.2.1 slot w1 h1
  exact ⟨w0, h0, p0.trans p1, by omega, by omega⟩

theorem OnlyIssue.isSome {core : Nat} {s t : State} (h : OnlyIssue core s t) (slot : Nat) : (t.warp? core slot).isSome = (s.warp? core slot).isSome := by
  have e := congrArg Option.isSome (h.2.1 slot)
  simpa using e

theorem OnlyRes.pend {core due : Nat} {s t : State} (h : OnlyRes core due s t) {slot : Nat} {w : Warp}
    (hw : t.warp? core slot = some w) : ∃ w0, s.warp? core slot = some w0 ∧ w0.pend = w.pend := by
  obtain ⟨w0, h0, hp, _⟩ := h.2.1 slot w hw
  exact ⟨w0, h0, hp⟩

/-- The trailers wait for a result of the members; nothing else moves. -/
theorem onlyRes_arriveAt (c : Ctx) (s : State) (due : Nat) : OnlyRes c.core due s (c.arriveAt s due) := by
  unfold Ctx.arriveAt
  generalize c.members = ms, c.core = core
  induction ms generalizing s with
  | nil => exact (OnlyPlace.refl _ _).onlyRes _
  | cons q ms ih =>
    rw [List.foldl_cons]
    refine OnlyRes.trans (t := s.updWarp core q.1 fun w => { w with resAt := max w.resAt due })
      ⟨onlyIssue_updWarp _ _ _ _ fun _ => rfl, fun slot w hw => ?_, fun b => by simp⟩ (ih _)
    rw [State.warp?_updWarp] at hw
    split at hw
    · obtain ⟨w0, h0, rfl⟩ := Option.map_eq_some_iff.1 hw
      exact ⟨w0, h0, rfl, by dsimp only; omega, by dsimp only; omega⟩
    · exact ⟨w, hw, rfl, by omega, by omega⟩

/-- A delivery, but for what the trailers wait for: the writes to the members and those to the pool. -/
theorem deliver_place (c : Ctx) (s : State) (due : Nat) (g : Mask → List Wr) (pool : List (Nat × Nat × Word)) (flags : BitVec 5) :
    OnlyRes c.core (due + 2) (match c.b.setOf c.w.num with
      | some (i, _) => poolAll c.core c.bi (due + 2) i pool (addAll c.core due (sentWrs g flags) c.members s)
      | none => addAll c.core due (sentWrs g flags) c.members s) (c.deliver s due g pool flags) := by
  rw [deliver_eq]
  split
  · split
    · rename_i h
      rw [List.isEmpty_iff.1 h]
      exact (OnlyPlace.refl _ _).onlyRes _
    · exact onlyRes_arriveAt _ _ _
  · exact (OnlyPlace.refl _ _).onlyRes _

theorem onlyIssue_addAll (core due : Nat) (g : Mask → List Wr) (ms : List (Nat × Mask)) (s : State) :
    OnlyIssue core s (addAll core due g ms s) := by
  refine onlyIssue_foldl core _ (fun s p => ?_) _ _
  split
  · exact OnlyIssue.refl _ _
  · exact onlyIssue_updWarp _ _ _ _ fun w => addPend_still _ _ _

theorem onlyIssue_poolAll (core bi due i : Nat) (l : List (Nat × Nat × Word)) (s : State) :
    OnlyIssue core s (poolAll core bi due i l s) :=
  onlyIssue_foldl core _ (fun _ _ => onlyIssue_addBpend _ _ _ _ _) _ _

theorem onlyIssue_deliver (c : Ctx) (s : State) (due : Nat) (g : Mask → List Wr) (pool : List (Nat × Nat × Word)) (flags : BitVec 5) :
    OnlyIssue c.core s (c.deliver s due g pool flags) := by
  refine OnlyIssue.trans ?_ (deliver_place c s due g pool flags).1
  split
  · exact (onlyIssue_addAll _ _ _ _ _).trans (onlyIssue_poolAll _ _ _ _ _ _)
  · exact onlyIssue_addAll _ _ _ _ _

theorem onlyIssue_result (c : Ctx) (s : State) (L : Nat) (d : Option Nat) (f : Nat → List Word) (ps : List (Nat × (Nat → Bool)))
    (flags : BitVec 5) : OnlyIssue c.core s (c.result s L d f ps flags) := by
  by_cases he : c.e = 0
  · unfold Ctx.result; rw [if_pos he]; exact OnlyIssue.refl _ _
  · rw [result_eq c s L d f ps flags he]; exact onlyIssue_deliver _ _ _ _ _ _

/-- What is on its way to a warp after a delivery. -/
theorem deliver_pend (c : Ctx) (s : State) (due : Nat) (g : Mask → List Wr) (pool : List (Nat × Nat × Word)) (flags : BitVec 5)
    (slot : Nat) (w : Warp) (hw : (c.deliver s due g pool flags).warp? c.core slot = some w) :
    ∃ w0, s.warp? c.core slot = some w0 ∧ w0.pend.Sublist w.pend ∧ w0.resAt ≤ w.resAt ∧ w.resAt ≤ max w0.resAt (due + 2) ∧
      ∀ p, p ∈ w.pend ↔ p ∈ w0.pend ∨
        ∃ q ∈ c.members, q.1 = slot ∧ q.2 ≠ 0 ∧ sentWrs g flags q.2 ≠ [] ∧ p = ⟨due, sentWrs g flags q.2⟩ := by
  obtain ⟨w1, hw1, hp, h1, h2⟩ := (deliver_place c s due g pool flags).2.1 slot w hw
  obtain ⟨w0, h0, hs, ha, hm⟩ := pend_foldl_addPend c.core due (sentWrs g flags) c.members s slot w1 (by
    split at hw1
    · rwa [warp?_foldl_addBpend] at hw1
    · exact hw1)
  rw [← hp]
  exact ⟨w0, h0, hs, by omega, by omega, hm⟩

theorem deliver_isSome (c : Ctx) (s : State) (due : Nat) (g : Mask → List Wr) (pool : List (Nat × Nat × Word)) (flags : BitVec 5)
    (slot : Nat) : ((c.deliver s due g pool flags).warp? c.core slot).isSome = (s.warp? c.core slot).isSome := by
  rw [(deliver_place c s due g pool flags).1.isSome]
  split
  · rw [warp?_foldl_addBpend, isSome_foldl_addPend]
  · rw [isSome_foldl_addPend]

theorem deliver_bpend (c : Ctx) (s : State) (due : Nat) (g : Mask → List Wr) (pool : List (Nat × Nat × Word)) (flags : BitVec 5)
    (b : Nat) (y : Nat × BWr) : y ∈ ((c.deliver s due g pool flags).block c.core b).bpend ↔
      (b = c.bi ∧ ∃ i r, c.b.setOf c.w.num = some (i, r) ∧ ∃ x ∈ pool, y = (due + 2, BWr.pool i x.1 x.2.1 x.2.2)) ∨
        y ∈ (s.block c.core b).bpend := by
  rw [(deliver_place c s due g pool flags).2.2 b]
  cases h : c.b.setOf c.w.num with
  | some p =>
    obtain ⟨i, r⟩ := p
    dsimp only
    rw [mem_bpend_foldl_addBpend, block_foldl_addPend]
    constructor
    · rintro (⟨e, x, hx, rfl⟩ | h')
      · exact .inl ⟨e, i, r, rfl, x, hx, rfl⟩
      · exact .inr h'
    · rintro (⟨e, i', r', h', x, hx, rfl⟩ | h')
      · obtain ⟨rfl, rfl⟩ := Prod.mk.inj (Option.some.inj h')
        exact .inl ⟨e, x, hx, rfl⟩
      · exact .inr h'
  | none =>
    dsimp only
    rw [block_foldl_addPend]
    constructor
    · exact .inr
    · rintro (⟨e, i', r', h', _⟩ | h')
      · cases h'
      · exact h'

theorem sublist_bpend_deliver (c : Ctx) (s : State) (due : Nat) (g : Mask → List Wr) (pool : List (Nat × Nat × Word)) (flags : BitVec 5)
    (b : Nat) : (s.block c.core b).bpend.Sublist ((c.deliver s due g pool flags).block c.core b).bpend := by
  rw [(deliver_place c s due g pool flags).2.2 b]
  split
  · refine List.Sublist.trans ?_ (sublist_bpend_poolAll _ _ _ _ _ _ _)
    simp only [block_foldl_addPend, List.Sublist.refl]
  · simp only [block_foldl_addPend, List.Sublist.refl]

/-- A member's write is on its way. -/
theorem deliver_lands {c : Ctx} {s : State} {due : Nat} {g : Mask → List Wr} {pool : List (Nat × Nat × Word)} {flags : BitVec 5}
    {q : Nat × Mask} {y : Wr} (hq : q ∈ c.members) (h0 : q.2 ≠ 0) (hs : (s.warp? c.core q.1).isSome)
    (hy : y ∈ sentWrs g flags q.2) : LandsAt (c.deliver s due g pool flags) c.core q.1 due y := by
  rw [← deliver_isSome c s due g pool flags] at hs
  obtain ⟨w, hw⟩ := Option.isSome_iff_exists.1 hs
  obtain ⟨w0, _, _, _, _, h2⟩ := deliver_pend c s due g pool flags q.1 w hw
  refine ⟨w, hw, _, (h2 _).2 (.inr ⟨q, hq, rfl, h0, ?_, rfl⟩), rfl, hy⟩
  intro e
  rw [e] at hy
  cases hy

/-- What a member is sent is the result. -/
theorem sends_memberWrs {en : Entry} {d : Option Nat} {f : Nat → List Word} {ps : List (Nat × (Nat → Bool))} {flags : BitVec 5} {m : Mask}
    {y : Wr} (hy : y ∈ sentWrs (memberWrs en.c d f ps) flags m) : Sends en d f ps flags m y := by
  rcases List.mem_append.1 (show y ∈ _ ++ _ from hy) with hy | hy
  · rcases List.mem_append.1 (show y ∈ _ ++ _ from hy) with hy | hy
    · cases d with
      | none => cases hy
      | some d =>
        dsimp only at hy
        split at hy
        · cases hy
        · rename_i hd
          simp only [Bool.and_eq_true, decide_eq_true_eq, not_and, Nat.not_lt] at hd
          unfold destWrs at hy
          split at hy
          · rename_i h1
            obtain ⟨k, v, h, rfl⟩ := mem_scalWrs.1 hy
            exact ⟨d, k, rfl, h1.1, h1.2, rfl, h⟩
          · rename_i h1
            obtain ⟨l, hl, h2⟩ := List.mem_flatMap.1 hy
            obtain ⟨k, v, h, rfl⟩ := mem_laneWrs.1 h2
            obtain ⟨h3, h4⟩ := mem_maskLanes.1 hl
            exact ⟨d, k, rfl, by omega, rfl, h3, h4, h⟩
    · obtain ⟨p, hp, hy⟩ := List.mem_flatMap.1 hy
      unfold predWrs at hy
      split at hy
      · cases hy
      · obtain ⟨l, hl, rfl⟩ := List.mem_map.1 hy
        obtain ⟨h3, h4⟩ := mem_maskLanes.1 hl
        exact ⟨by omega, h3, h4, p.2, hp, rfl⟩
  · split at hy
    · cases hy
    · simp only [List.mem_singleton] at hy; subst hy; exact rfl

/-- A register result is on its way to each member. -/
theorem result_reg (en : Entry) (L d : Nat) (f : Nat → List Word) (ps : List (Nat × (Nat → Bool))) (flags : BitVec 5) :
    RegResult en (en.c.result en.s L (some d) f ps flags) L d f := by
  intro he q hq h0 hs k v
  rw [result_eq _ _ _ _ _ _ _ he]
  refine ⟨fun hd hv => deliver_lands hq h0 hs ?_, fun l hl hm hv hd => deliver_lands hq h0 hs ?_, fun l i r hl hm hv hd hset => ?_⟩
  · refine List.mem_append_left _ (List.mem_append_left _ ?_)
    have : ¬ d < 1536 := by omega
    simp only [this, decide_false, Bool.and_false, Bool.false_eq_true, if_false, destWrs, if_pos hd]
    exact mem_scalWrs.2 ⟨k, v, hv, rfl⟩
  · refine List.mem_append_left _ (List.mem_append_left _ ?_)
    have h1 : (decide (512 ≤ d) && decide (d < 1536)) = false := by
      simp only [Bool.and_eq_false_iff, decide_eq_false_iff_not]
      omega
    simp only [h1, Bool.false_eq_true, if_false, destWrs]
    rw [if_neg (by omega)]
    exact List.mem_flatMap.2 ⟨l, mem_maskLanes.2 ⟨hl, hm⟩, mem_laneWrs.2 ⟨k, v, hv, rfl⟩⟩
  · rw [deliver_bpend]
    refine .inl ⟨rfl, i, r, hset, (d - 512 + k, l, v), ?_, rfl⟩
    simp only [poolOf, hd, decide_true, Bool.and_self, if_true]
    exact List.mem_flatMap.2 ⟨l, mem_maskLanes.2 ⟨hl, hm⟩, mem_poolWrs.2 ⟨k, v, hv, rfl⟩⟩

theorem result_pred (en : Entry) (L : Nat) (d : Option Nat) (f : Nat → List Word) (ps : List (Nat × (Nat → Bool))) (flags : BitVec 5)
    {p : Nat} {g : Nat → Bool} (hp : (p, g) ∈ ps) : PredResult en (en.c.result en.s L d f ps flags) L p g := by
  intro he h7 q hq h0 hs l hl hm
  rw [result_eq _ _ _ _ _ _ _ he]
  refine deliver_lands hq h0 hs (List.mem_append_left _ (List.mem_append_right _ ?_))
  refine List.mem_flatMap.2 ⟨(p, g), hp, ?_⟩
  simp only [predWrs]
  rw [if_neg (by omega)]
  exact List.mem_map.2 ⟨l, mem_maskLanes.2 ⟨hl, hm⟩, rfl⟩

theorem result_flags (en : Entry) (L : Nat) (d : Option Nat) (f : Nat → List Word) (ps : List (Nat × (Nat → Bool))) (flags : BitVec 5) :
    FlagResult en (en.c.result en.s L d f ps flags) L flags := by
  intro he hf q hq h0 hs
  rw [result_eq _ _ _ _ _ _ _ he]
  refine deliver_lands hq h0 hs (List.mem_append_right _ ?_)
  rw [if_neg hf]
  exact List.mem_singleton.2 rfl

theorem OnlyDest.refl (en : Entry) (L : Nat) (d : Option Nat) (f : Nat → List Word) (ps : List (Nat × (Nat → Bool))) (flags : BitVec 5) :
    OnlyDest en en.s L d f ps flags :=
  ⟨fun _ w hw => ⟨w, hw, List.Sublist.refl _, fun _ h => .inl h, by omega, by omega⟩, fun _ => ⟨List.Sublist.refl _, fun _ h => .inl h⟩⟩

/-- After a result nothing else is on its way. -/
theorem result_onlyDest (en : Entry) (L : Nat) (d : Option Nat) (f : Nat → List Word) (ps : List (Nat × (Nat → Bool))) (flags : BitVec 5) :
    OnlyDest en (en.c.result en.s L d f ps flags) L d f ps flags := by
  by_cases he : en.c.e = 0
  · unfold Ctx.result
    rw [if_pos he]
    exact OnlyDest.refl _ _ _ _ _ _
  · rw [result_eq _ _ _ _ _ _ _ he]
    refine ⟨fun sl w hw => ?_, fun b => ⟨sublist_bpend_deliver _ _ _ _ _ _ _, fun y hy => ?_⟩⟩
    · obtain ⟨w0, h1, hs, ha, hb, h2⟩ := deliver_pend en.c en.s _ _ _ _ sl w hw
      refine ⟨w0, h1, hs, fun p hp => ?_, ha, hb⟩
      rcases (h2 p).1 hp with h | ⟨q, hq, he', h0, _, rfl⟩
      · exact .inl h
      · exact .inr ⟨he, rfl, q, hq, he', h0, fun y hy => sends_memberWrs hy⟩
    · rw [deliver_bpend] at hy
      rcases hy with ⟨hb, i, r, hset, x, hx, rfl⟩ | hy
      · refine .inr ⟨hb, ?_⟩
        unfold poolOf at hx
        cases d with
        | none => cases hx
        | some d =>
          dsimp only at hx
          split at hx
          · rename_i hd
            simp only [Bool.and_eq_true, decide_eq_true_eq] at hd
            obtain ⟨l, hl, h3⟩ := List.mem_flatMap.1 hx
            obtain ⟨k, v, h, rfl⟩ := mem_poolWrs.1 h3
            obtain ⟨h4, h5⟩ := mem_maskLanes.1 hl
            exact ⟨i, r, d, k, l, v, hset, rfl, hd.1, hd.2, h4, h5, h, rfl⟩
          · cases hx
      · exact .inl hy

/-! ### After the issue is finished -/

theorem RegResult.place {en : Entry} {t u : State} {L d : Nat} {f : Nat → List Word} (h : RegResult en t L d f)
    (k : OnlyPlace en.c.core t u) : RegResult en u L d f := by
  intro he q hq h0 hs i v
  obtain ⟨a, b, c⟩ := h he q hq h0 hs i v
  refine ⟨fun x y => k.lands (a x y), fun l x y z w => k.lands (b l x y z w), fun l j r x y z w e => ?_⟩
  have hb := congrArg Prod.snd (k.2.2 en.c.bi)
  dsimp only at hb
  rw [hb]
  exact c l j r x y z w e

theorem PredResult.place {en : Entry} {t u : State} {L p : Nat} {f : Nat → Bool} (h : PredResult en t L p f)
    (k : OnlyPlace en.c.core t u) : PredResult en u L p f :=
  fun he h7 q hq h0 hs l hl hm => k.lands (h he h7 q hq h0 hs l hl hm)

theorem FlagResult.place {en : Entry} {t u : State} {L : Nat} {f : BitVec 5} (h : FlagResult en t L f)
    (k : OnlyPlace en.c.core t u) : FlagResult en u L f :=
  fun he hf q hq h0 hs => k.lands (h he hf q hq h0 hs)

theorem OnlyDest.place {en : Entry} {t u : State} {L : Nat} {d : Option Nat} {f : Nat → List Word} {ps : List (Nat × (Nat → Bool))}
    {flags : BitVec 5} (h : OnlyDest en t L d f ps flags) (k : OnlyPlace en.c.core t u) : OnlyDest en u L d f ps flags := by
  refine ⟨fun sl w hw => ?_, fun b => ?_⟩
  · obtain ⟨w1, h1, hp, hr⟩ := k.resAt hw
    obtain ⟨w0, h0, hs, hm, ha, hb⟩ := h.1 sl w1 h1
    rw [← hp, ← hr]
    exact ⟨w0, h0, hs, hm, ha, hb⟩
  · rw [k.bpend b]
    exact h.2 b

/-- An issue whose effect is one register result, with predicates and flags. -/
theorem issue_result {o : Op} {x : Z1} {body : Ctx → State → Act} {s : State} {en : Entry} {L d : Nat} {f : Nat → List Word}
    {ps : List (Nat × (Nat → Bool))} {flags : BitVec 5} (h : entry o x s = some en)
    (hb : body en.c en.s = .done (en.c.result en.s L (some d) f ps flags)) :
    ∃ t, issue o x body s = .next t ∧ RegResult en t L d f ∧ (∀ p g, (p, g) ∈ ps → PredResult en t L p g) ∧
      FlagResult en t L flags ∧ OnlyDest en t L (some d) f ps flags ∧ OnlyIssue en.c.core en.s t := by
  have k := onlyPlace_finish o x en (en.c.result en.s L (some d) f ps flags)
  exact ⟨_, issue_done h hb, (result_reg en L d f ps flags).place k, fun p g hp => (result_pred en L _ f ps flags hp).place k,
    (result_flags en L _ f ps flags).place k, (result_onlyDest en L _ f ps flags).place k,
    (onlyIssue_result en.c en.s L _ f ps flags).trans k.issue⟩

/-- An issue whose effect is predicates alone. -/
theorem issue_preds {o : Op} {x : Z1} {body : Ctx → State → Act} {s : State} {en : Entry} {L : Nat} {f : Nat → List Word}
    {ps : List (Nat × (Nat → Bool))} {flags : BitVec 5} (h : entry o x s = some en)
    (hb : body en.c en.s = .done (en.c.result en.s L none f ps flags)) :
    ∃ t, issue o x body s = .next t ∧ (∀ p g, (p, g) ∈ ps → PredResult en t L p g) ∧
      FlagResult en t L flags ∧ OnlyDest en t L none f ps flags ∧ OnlyIssue en.c.core en.s t := by
  have k := onlyPlace_finish o x en (en.c.result en.s L none f ps flags)
  exact ⟨_, issue_done h hb, fun p g hp => (result_pred en L _ f ps flags hp).place k,
    (result_flags en L _ f ps flags).place k, (result_onlyDest en L _ f ps flags).place k,
    (onlyIssue_result en.c en.s L _ f ps flags).trans k.issue⟩

end Sys2Proof.Machine
end

