-- ==== Sys2Proof/Laws/Gives.lean ====
section
/-!
SUPPORT. The shared shapes of the arithmetic meanings (typed, plain, preds, fpWords): each completes with its
values on their way and nothing else changed.
-/
namespace Sys2Proof.Machine

theorem wrT_length (t : Ty) (z : Int) : (wrT t z).length ≤ words t := by
  unfold wrT words
  split
  · simp [halves]
  · split <;> simp

theorem gives_typed {i : Instr} {o : Op} {x : Z1} {s : State} {en : Entry} {L : Nat} {f : Ctx → State → Nat → Int}
    {g : Nat → List Word} (he : exec i s = issue o x (typed o x f) s) (h : entry o x s = some en)
    (hl : latOf en.c o x = L) (hf : ∀ l, wrT x.ty (f en.c en.s l) = g l) : Gives i s en L x.d.toNat (words x.ty) g [] 0 := by
  obtain ⟨t, h1, h2, h3, h4, h5, h6⟩ := issue_result (body := typed o x f) h rfl
  rw [hl] at h2 h3 h4 h5
  rw [show (fun l => wrT x.ty (f en.c en.s l)) = g from funext hf] at h2 h5
  exact ⟨t, he.trans h1, h2, h3, h4, h5, fun l => hf l ▸ wrT_length _ _, h6⟩

theorem gives_plain {i : Instr} {o : Op} {x : Z1} {s : State} {en : Entry} {L : Nat} {f : Ctx → State → Nat → Nat}
    {g : Nat → List Word} (he : exec i s = issue o x (plain o x f) s) (h : entry o x s = some en)
    (hl : latOf en.c o x = L) (hf : ∀ l, [BitVec.ofNat 32 (f en.c en.s l)] = g l) : Gives i s en L x.d.toNat 1 g [] 0 := by
  obtain ⟨t, h1, h2, h3, h4, h5, h6⟩ := issue_result (body := plain o x f) h rfl
  rw [hl] at h2 h3 h4 h5
  rw [show (fun l => [BitVec.ofNat 32 (f en.c en.s l)]) = g from funext hf] at h2 h5
  exact ⟨t, he.trans h1, h2, h3, h4, h5, fun l => hf l ▸ by simp, h6⟩

theorem gives_preds {i : Instr} {o : Op} {x : Z1} {s : State} {en : Entry} {L : Nat}
    {f : Ctx → State → List (Nat × (Nat → Bool))} {g : List (Nat × (Nat → Bool))}
    (he : exec i s = issue o x (Machine.preds o x f) s) (h : entry o x s = some en)
    (hl : latOf en.c o x = L) (hf : f en.c en.s = g) : GivesPreds i s en L g 0 := by
  obtain ⟨t, h1, h3, h4, h5, h6⟩ := issue_preds (body := Machine.preds o x f) h rfl
  rw [hl, hf] at h3 h5
  rw [hl] at h4
  exact ⟨t, he.trans h1, h3, h4, h5, h6⟩

/-! ### Tables of the lanes that compute -/

theorem tableAt_map {α : Type} (f : Nat → α) (ls : List Nat) (l : Nat) : tableAt f (ls.map fun k => (k, f k)) l = f l := by
  unfold tableAt
  split
  · rename_i p hp
    obtain ⟨k, _, rfl⟩ := List.mem_map.1 (List.mem_of_find?_eq_some hp)
    have := List.find?_some hp
    simp only [beq_iff_eq] at this
    exact congrArg f this
  · rfl

@[simp] theorem tableAt_laneTable {α : Type} (c : Ctx) (f : Nat → α) (l : Nat) : tableAt f (laneTable c f) l = f l :=
  tableAt_map f (computing c) l

theorem foldl_laneTable {α : Type} (c : Ctx) (f : Nat → α) (g : α → BitVec 5) :
    (laneTable c f).foldl (fun a p => a ||| g p.2) 0 = flagsOf c fun l => g (f l) := by
  simp [laneTable, flagsOf, List.foldl_map]

/-- The state an issue without an effect leaves. -/
theorem issue_nothing {o : Op} {x : Z1} {body : Ctx → State → Act} {s : State} {en : Entry} (L d : Nat)
    (f : Nat → List Word) (he : en.c.e = 0) (h : entry o x s = some en) (hb : body en.c en.s = .done en.s) :
    ∃ t, issue o x body s = .next t ∧ RegResult en t L d f ∧ (∀ p g, (p, g) ∈ ([] : List (Nat × (Nat → Bool))) → PredResult en t L p g) ∧
      FlagResult en t L 0 ∧ OnlyDest en t L (some d) f [] 0 ∧ OnlyIssue en.c.core en.s t := by
  have k := onlyPlace_finish o x en en.s
  refine ⟨_, issue_done h hb, fun h0 => absurd he h0, fun _ _ h => (List.not_mem_nil h).elim, fun h0 => absurd he h0, ?_, k.issue⟩
  exact OnlyDest.place (OnlyDest.refl _ _ _ _ _ _) k

theorem gives_fpWords {i : Instr} {o : Op} {x : Z1} {s : State} {en : Entry} {L : Nat}
    {f : Ctx → State → Nat → List Word × BitVec 5} {g : Nat → Nat × BitVec 5}
    (he : exec i s = issue o x (fpWords o x f) s) (h : entry o x s = some en)
    (hl : latOf en.c o x = L) (hf : ∀ l, f en.c en.s l = one (g l)) : GivesFp i s en x L g := by
  by_cases h0 : en.c.e = 0
  · obtain ⟨t, h1, h2, h3, h4, h5, h6⟩ := issue_nothing (body := fpWords o x f) L x.d.toNat
      (fun l => [BitVec.ofNat 32 (g (srcLane en.c l)).1]) h0 h (by simp [fpWords, h0])
    rw [← if_pos (c := en.c.e = 0) (t := (0 : BitVec 5)) (e := flagsOf en.c fun l => (g l).2) h0] at h4 h5
    exact ⟨t, he.trans h1, h2, h3, h4, h5, fun l => by simp, h6⟩
  · have hb : fpWords o x f en.c en.s = .done (en.c.result en.s L (some x.d.toNat)
        (fun l => [BitVec.ofNat 32 (g (srcLane en.c l)).1]) [] (flagsOf en.c fun l => (g l).2)) := by
      have e : f en.c en.s = fun l => one (g l) := funext hf
      simp only [fpWords, if_neg h0, e, tableAt_laneTable, hl, one]
      rw [foldl_laneTable en.c (fun l => ([BitVec.ofNat 32 (g l).1], (g l).2)) fun p => p.2]
    obtain ⟨t, h1, h2, h3, h4, h5, h6⟩ := issue_result (body := fpWords o x f) h hb
    rw [← if_neg (c := en.c.e = 0) (t := (0 : BitVec 5)) (e := flagsOf en.c fun l => (g l).2) h0] at h4 h5
    exact ⟨t, he.trans h1, h2, h3, h4, h5, fun l => by simp, h6⟩

end Sys2Proof.Machine
end

