-- ==== Sys2Proof/Laws/Memory.lean ====
section
/-!
SUPPORT. Physical memory: what each operation that writes it leaves of every byte, and that each keeps the canonical
form. State.mem is written by State.setByte, evacuate and resetKeep alone.
-/
namespace Sys2Proof.Machine

theorem State.byte_setByte (s : State) (a b : Nat) (v : Byte) : (s.setByte a v).byte b = if b = a then v else s.byte b :=
  smGetD_smSetD a b v

theorem wf_setByte {s : State} (a : Nat) (v : Byte) (h : Memory.wf s.mem = true) : Memory.wf (s.setByte a v).mem = true :=
  smWf_smSetD a v h

/-- A byte after a range is written: the byte written there, or as before. -/
theorem byte_writeBytes (bs : List Byte) (s : State) (a b : Nat) :
    (writeBytes s a bs).byte b = if a ≤ b then (bs[b - a]?).getD (s.byte b) else s.byte b := by
  induction bs generalizing s a with
  | nil => simp [writeBytes]
  | cons x xs ih =>
    rw [writeBytes, ih, State.byte_setByte]
    by_cases h : b = a
    · subst h; simp [Nat.not_succ_le_self]
    · by_cases h2 : a ≤ b
      · have h3 : a + 1 ≤ b := by omega
        obtain ⟨k, rfl⟩ : ∃ k, b = a + 1 + k := ⟨b - (a + 1), by omega⟩
        simp only [h3, h2, if_true, if_neg h]
        rw [show a + 1 + k - (a + 1) = k by omega, show a + 1 + k - a = k + 1 by omega, List.getElem?_cons_succ]
      · simp only [h, h2, if_false, show ¬ a + 1 ≤ b by omega]

/-- Memory outside the bytes written reads as before. -/
theorem byte_writeBytes_of_outside {bs : List Byte} (s : State) {a b : Nat} (h : b < a ∨ a + bs.length ≤ b) : (writeBytes s a bs).byte b = s.byte b := by
  rw [byte_writeBytes]
  split
  · rw [List.getElem?_eq_none (by omega)]; rfl
  · rfl

theorem readBytes_eq (s : State) (a n : Nat) : readBytes s a n = (List.range n).map fun i => s.byte (a + i) := by
  induction n generalizing a with
  | zero => rfl
  | succ n ih =>
    rw [readBytes, ih, List.range_succ_eq_map, List.map_cons, List.map_map]
    congr 1
    exact List.map_congr_left fun i _ => congrArg s.byte (by simp only [Nat.succ_eq_add_one]; omega)

@[simp] theorem length_readBytes (s : State) (a n : Nat) : (readBytes s a n).length = n := by simp [readBytes_eq]

/-- Read after write. -/
theorem readBytes_writeBytes (s : State) (a : Nat) (bs : List Byte) : readBytes (writeBytes s a bs) a bs.length = bs := by
  rw [readBytes_eq]
  refine List.ext_getElem (by simp) fun i h1 h2 => ?_
  simp only [List.getElem_map, List.getElem_range, byte_writeBytes]
  rw [if_pos (by omega), show a + i - a = i by omega, List.getElem?_eq_getElem h2]
  rfl

/-- A read of a range that a write does not touch. -/
theorem readBytes_writeBytes_of_outside {bs : List Byte} (s : State) {a b n : Nat} (h : b + n ≤ a ∨ a + bs.length ≤ b) :
    readBytes (writeBytes s a bs) b n = readBytes s b n := by
  rw [readBytes_eq, readBytes_eq]
  refine List.map_congr_left fun i hi => byte_writeBytes_of_outside s ?_
  have := List.mem_range.1 hi
  omega

theorem wf_writeBytes {s : State} (a : Nat) (bs : List Byte) (h : Memory.wf s.mem = true) : Memory.wf (writeBytes s a bs).mem = true := by
  induction bs generalizing s a with
  | nil => exact h
  | cons x xs ih => exact ih (a + 1) (wf_setByte a x h)

/-- Nothing but memory changes. -/
theorem writeBytes_mem_only (bs : List Byte) (s : State) (a : Nat) : { writeBytes s a bs with mem := s.mem } = s := by
  induction bs generalizing s a with
  | nil => rfl
  | cons x xs ih =>
    have h := ih (s.setByte a x) (a + 1)
    rw [writeBytes]
    exact congrArg (fun t : State => { t with mem := s.mem }) h

/-- What is written depends on the memory written to alone. -/
theorem writeBytes_mem_congr (bs : List Byte) {s t : State} (a : Nat) (h : s.mem = t.mem) : (writeBytes s a bs).mem = (writeBytes t a bs).mem := by
  induction bs generalizing s t a with
  | nil => exact h
  | cons x xs ih => exact ih (a + 1) (congrArg (smSetD · memDefault a x) h)

theorem writeBytes_append (xs ys : List Byte) (s : State) (a : Nat) :
    writeBytes s a (xs ++ ys) = writeBytes (writeBytes s a xs) (a + xs.length) ys := by
  induction xs generalizing s a with
  | nil => rfl
  | cons x xs ih => rw [List.cons_append, writeBytes, ih, writeBytes, List.length_cons, Nat.add_assoc, Nat.add_comm 1]

/-! The L2 tiles hold no bytes of their own: what passes through them leaves memory as the operation writes it. -/

@[simp] theorem hostPut_mem (bs : List Byte) (s : State) (a : Nat) : (hostPut s a bs).mem = s.mem := by
  induction bs generalizing s a with
  | nil => rfl
  | cons x xs ih => exact ih _ _

@[simp] theorem State.toMemory_mem (s : State) (a : Nat) (bs : List Byte) : (s.toMemory a bs).mem = s.mem := by
  unfold State.toMemory; split <;> simp

@[simp] theorem State.l2Clean_mem (s : State) (line : Nat) : (s.l2Clean line).mem = s.mem := by
  unfold State.l2Clean; split
  · split <;> simp
  · rfl

@[simp] theorem State.l2Drop_mem (s : State) (line : Nat) : (s.l2Drop line).mem = s.mem := State.l2Clean_mem s line

@[simp] theorem State.l2Room_mem (s : State) (line : Nat) : (s.l2Room line).mem = s.mem := by
  unfold State.l2Room; dsimp only; split
  · rfl
  · split <;> simp

@[simp] theorem State.l2Use_mem (s : State) (a alloc prio : Nat) (dirty : Bool) : (s.l2Use a alloc prio dirty).mem = s.mem := by
  unfold State.l2Use; dsimp only; repeat' split
  all_goals simp

theorem State.homePut_mem (s : State) (a : Nat) (bs : List Byte) (at' : Attr) : (s.homePut a bs at').mem = (writeBytes s a bs).mem := by
  unfold State.homePut; dsimp only
  split <;> (try rw [State.clearPoison_mem]) <;> rw [State.l2Use_mem] <;> split <;> simp

theorem foldl_homePut_mem (at' : Attr) (k : Nat) (bs : List Byte) (s : State) (a : Nat) (h : a % 128 + bs.length ≤ 128 * k) :
    ((lineCuts k a bs).foldl (fun s p => s.homePut p.1 p.2 at') s).mem = (writeBytes s a bs).mem := by
  induction k generalizing bs s a with
  | zero =>
    have : bs = [] := List.eq_nil_of_length_eq_zero (by omega)
    subst this; rfl
  | succ k ih =>
    unfold lineCuts; dsimp only
    split
    · rename_i h0
      rw [List.isEmpty_iff.1 h0]; rfl
    · rw [List.foldl_cons]
      by_cases hl : bs.length ≤ 128 - a % 128
      · rw [List.drop_eq_nil_of_le hl, List.take_of_length_le hl]
        cases k with
        | zero => exact State.homePut_mem s a bs at'
        | succ k => exact State.homePut_mem s a bs at'
      · rw [ih _ _ _ (by rw [List.length_drop]; omega)]
        conv => rhs; rw [← List.take_append_drop (128 - a % 128) bs, writeBytes_append, List.length_take, Nat.min_eq_left (by omega)]
        exact writeBytes_mem_congr _ _ (State.homePut_mem s a _ at')

/-- A store at the homes writes its bytes and no others, whatever line each falls in. -/
theorem State.homeStore_mem (s : State) (a : Nat) (bs : List Byte) (at' : Attr) : (s.homeStore a bs at').mem = (writeBytes s a bs).mem :=
  foldl_homePut_mem at' _ bs s a (by omega)

theorem homeWrite_mem (s : State) (a : Nat) (bs : List Byte) : (s.homeWrite a bs).mem = (writeBytes s a bs).mem :=
  State.homeStore_mem s a bs _

theorem wf_homeStore {s : State} (a : Nat) (bs : List Byte) (at' : Attr) (h : Memory.wf s.mem = true) : Memory.wf (s.homeStore a bs at').mem = true := by
  rw [State.homeStore_mem]
  exact wf_writeBytes a bs h

theorem wf_homeWrite {s : State} (a : Nat) (bs : List Byte) (h : Memory.wf s.mem = true) : Memory.wf (s.homeWrite a bs).mem = true := by
  rw [homeWrite_mem]
  exact wf_writeBytes a bs h

theorem wf_setMemNat {s : State} (a n v : Nat) (h : Memory.wf s.mem = true) : Memory.wf (s.setMemNat a n v).mem = true :=
  wf_writeBytes a _ h

theorem wf_foldl_setByte {α : Type} (f : α → Nat) (g : α → Byte) (l : List α) {s : State} (h : Memory.wf s.mem = true) :
    Memory.wf (l.foldl (fun s c => s.setByte (f c) (g c)) s).mem = true := by
  induction l generalizing s with
  | nil => exact h
  | cons c l ih => exact ih (wf_setByte _ _ h)

theorem wf_evacuate {s : State} (base size to' : Nat) (h : Memory.wf s.mem = true) : Memory.wf (evacuate s base size to').mem = true := by
  unfold evacuate
  simp only
  split
  · exact smWf_filter _ h
  · exact wf_foldl_setByte (fun c : Nat × Byte => c.1 - base + to') (fun c => c.2) _ (smWf_filter _ h)

theorem setReg_mem (s : State) (off : Nat) (v : Word) : (s.setReg off v).mem = s.mem := rfl

theorem foldl_setReg_mem {α : Type} (f : α → Nat) (g : α → Word) (l : List α) (s : State) :
    (l.foldl (fun r x => r.setReg (f x) (g x)) s).mem = s.mem := by
  induction l generalizing s with
  | nil => rfl
  | cons x l ih => exact ih _

theorem wf_hostView (s : State) {m : List Host.Cell} (h : Memory.wf m = true) : Memory.wf (hostView s m) = true := by
  unfold hostView
  have h0 : Memory.wf (m.filter fun c => s.kind c.1 != .host) = true := smWf_filter _ h
  generalize m.filter (fun c => s.kind c.1 != .host) = m0 at h0
  induction s.hostMem generalizing m0 with
  | nil => exact h0
  | cons c l ih => exact ih _ (smWf_smSetD c.1 c.2 h0)

theorem wf_resetKeep {s : State} (h : Memory.wf s.mem = true) : Memory.wf (resetKeep s).mem = true := by
  unfold resetKeep
  simp only [List.foldl_cons, List.foldl_nil, foldl_setReg_mem, setReg_mem]
  exact wf_hostView s (smWf_filter _ h)

/-- The memory of the reset state lists nothing. -/
theorem wf_reset : Memory.wf State.reset.mem = true := rfl

end Sys2Proof.Machine
end

