-- ==== Sys2Proof/Laws/PerInstr.lean ====
section
/-!
SUPPORT. A statement about every instruction as syntax: taking a Z1 instruction apart into its operation and fields
and putting it together again gives it back. One lemma per constructor.
-/
namespace Sys2Proof.Laws.OfOp

/-- A Z1 instruction is the one its operation and fields make. -/
def Statement (i : Instr) : Prop := ∀ o w, i.z1? = some (o, w) → Instr.ofOp o w = i

theorem nop (w : Z1) : Statement (.nop w) := fun _ _ h => by cases h; rfl
theorem runend (w : Z1) : Statement (.runend w) := fun _ _ h => by cases h; rfl
theorem trailerCommit (core slot : Nat) : Statement (.trailerCommit core slot) := fun _ _ h => by cases h
theorem runSelect (core part : Nat) : Statement (.runSelect core part) := fun _ _ h => by cases h
theorem rendezvousFire (core block latch : Nat) : Statement (.rendezvousFire core block latch) := fun _ _ h => by cases h
theorem bra (w : Z1) : Statement (.bra w) := fun _ _ h => by cases h; rfl
theorem brx (w : Z1) : Statement (.brx w) := fun _ _ h => by cases h; rfl
theorem call (w : Z1) : Statement (.call w) := fun _ _ h => by cases h; rfl
theorem ret (w : Z1) : Statement (.ret w) := fun _ _ h => by cases h; rfl
theorem exit (w : Z1) : Statement (.exit w) := fun _ _ h => by cases h; rfl
theorem loop (w : Z1) : Statement (.loop w) := fun _ _ h => by cases h; rfl
theorem lbrk (w : Z1) : Statement (.lbrk w) := fun _ _ h => by cases h; rfl
theorem wait (w : Z1) : Statement (.wait w) := fun _ _ h => by cases h; rfl
theorem pause (w : Z1) : Statement (.pause w) := fun _ _ h => by cases h; rfl
theorem trap (w : Z1) : Statement (.trap w) := fun _ _ h => by cases h; rfl
theorem bkpt (w : Z1) : Statement (.bkpt w) := fun _ _ h => by cases h; rfl
theorem iadd (w : Z1) : Statement (.iadd w) := fun _ _ h => by cases h; rfl
theorem isub (w : Z1) : Statement (.isub w) := fun _ _ h => by cases h; rfl
theorem imul (w : Z1) : Statement (.imul w) := fun _ _ h => by cases h; rfl
theorem imulh (w : Z1) : Statement (.imulh w) := fun _ _ h => by cases h; rfl
theorem imad (w : Z1) : Statement (.imad w) := fun _ _ h => by cases h; rfl
theorem idiv (w : Z1) : Statement (.idiv w) := fun _ _ h => by cases h; rfl
theorem irem (w : Z1) : Statement (.irem w) := fun _ _ h => by cases h; rfl
theorem imin (w : Z1) : Statement (.imin w) := fun _ _ h => by cases h; rfl
theorem imax (w : Z1) : Statement (.imax w) := fun _ _ h => by cases h; rfl
theorem iabs (w : Z1) : Statement (.iabs w) := fun _ _ h => by cases h; rfl
theorem ineg (w : Z1) : Statement (.ineg w) := fun _ _ h => by cases h; rfl
theorem iaddc (w : Z1) : Statement (.iaddc w) := fun _ _ h => by cases h; rfl
theorem icmp (w : Z1) : Statement (.icmp w) := fun _ _ h => by cases h; rfl
theorem sel (w : Z1) : Statement (.sel w) := fun _ _ h => by cases h; rfl
theorem mov (w : Z1) : Statement (.mov w) := fun _ _ h => by cases h; rfl
theorem lea (w : Z1) : Statement (.lea w) := fun _ _ h => by cases h; rfl
theorem and (w : Z1) : Statement (.and w) := fun _ _ h => by cases h; rfl
theorem or (w : Z1) : Statement (.or w) := fun _ _ h => by cases h; rfl
theorem xor (w : Z1) : Statement (.xor w) := fun _ _ h => by cases h; rfl
theorem not (w : Z1) : Statement (.not w) := fun _ _ h => by cases h; rfl
theorem andn (w : Z1) : Statement (.andn w) := fun _ _ h => by cases h; rfl
theorem shl (w : Z1) : Statement (.shl w) := fun _ _ h => by cases h; rfl
theorem shr (w : Z1) : Statement (.shr w) := fun _ _ h => by cases h; rfl
theorem sar (w : Z1) : Statement (.sar w) := fun _ _ h => by cases h; rfl
theorem rot (w : Z1) : Statement (.rot w) := fun _ _ h => by cases h; rfl
theorem fshf (w : Z1) : Statement (.fshf w) := fun _ _ h => by cases h; rfl
theorem bfx (w : Z1) : Statement (.bfx w) := fun _ _ h => by cases h; rfl
theorem bfi (w : Z1) : Statement (.bfi w) := fun _ _ h => by cases h; rfl
theorem clz (w : Z1) : Statement (.clz w) := fun _ _ h => by cases h; rfl
theorem ffs (w : Z1) : Statement (.ffs w) := fun _ _ h => by cases h; rfl
theorem popc (w : Z1) : Statement (.popc w) := fun _ _ h => by cases h; rfl
theorem brev (w : Z1) : Statement (.brev w) := fun _ _ h => by cases h; rfl
theorem prmt (w : Z1) : Statement (.prmt w) := fun _ _ h => by cases h; rfl
theorem pset (w : Z1) : Statement (.pset w) := fun _ _ h => by cases h; rfl
theorem p2v (w : Z1) : Statement (.p2v w) := fun _ _ h => by cases h; rfl
theorem v2p (w : Z1) : Statement (.v2p w) := fun _ _ h => by cases h; rfl
theorem idot4 (w : Z1) : Statement (.idot4 w) := fun _ _ h => by cases h; rfl
theorem ipack (w : Z1) : Statement (.ipack w) := fun _ _ h => by cases h; rfl
theorem fadd (w : Z1) : Statement (.fadd w) := fun _ _ h => by cases h; rfl
theorem fsub (w : Z1) : Statement (.fsub w) := fun _ _ h => by cases h; rfl
theorem fmul (w : Z1) : Statement (.fmul w) := fun _ _ h => by cases h; rfl
theorem ffma (w : Z1) : Statement (.ffma w) := fun _ _ h => by cases h; rfl
theorem fmin (w : Z1) : Statement (.fmin w) := fun _ _ h => by cases h; rfl
theorem fmax (w : Z1) : Statement (.fmax w) := fun _ _ h => by cases h; rfl
theorem fcmp (w : Z1) : Statement (.fcmp w) := fun _ _ h => by cases h; rfl
theorem fclass (w : Z1) : Statement (.fclass w) := fun _ _ h => by cases h; rfl
theorem frcp (w : Z1) : Statement (.frcp w) := fun _ _ h => by cases h; rfl
theorem frsq (w : Z1) : Statement (.frsq w) := fun _ _ h => by cases h; rfl
theorem fsqrt (w : Z1) : Statement (.fsqrt w) := fun _ _ h => by cases h; rfl
theorem fdiv (w : Z1) : Statement (.fdiv w) := fun _ _ h => by cases h; rfl
theorem fexp2 (w : Z1) : Statement (.fexp2 w) := fun _ _ h => by cases h; rfl
theorem flog2 (w : Z1) : Statement (.flog2 w) := fun _ _ h => by cases h; rfl
theorem fsinp (w : Z1) : Statement (.fsinp w) := fun _ _ h => by cases h; rfl
theorem fcosp (w : Z1) : Statement (.fcosp w) := fun _ _ h => by cases h; rfl
theorem ftanh (w : Z1) : Statement (.ftanh w) := fun _ _ h => by cases h; rfl
theorem fscale (w : Z1) : Statement (.fscale w) := fun _ _ h => by cases h; rfl
theorem frnd (w : Z1) : Statement (.frnd w) := fun _ _ h => by cases h; rfl
theorem f2i (w : Z1) : Statement (.f2i w) := fun _ _ h => by cases h; rfl
theorem i2f (w : Z1) : Statement (.i2f w) := fun _ _ h => by cases h; rfl
theorem f2f (w : Z1) : Statement (.f2f w) := fun _ _ h => by cases h; rfl
theorem f2n (w : Z1) : Statement (.f2n w) := fun _ _ h => by cases h; rfl
theorem n2f (w : Z1) : Statement (.n2f w) := fun _ _ h => by cases h; rfl
theorem fmaxi (w : Z1) : Statement (.fmaxi w) := fun _ _ h => by cases h; rfl
theorem fdot2 (w : Z1) : Statement (.fdot2 w) := fun _ _ h => by cases h; rfl
theorem qswap (w : Z1) : Statement (.qswap w) := fun _ _ h => by cases h; rfl
theorem qbcast (w : Z1) : Statement (.qbcast w) := fun _ _ h => by cases h; rfl
theorem shfl (w : Z1) : Statement (.shfl w) := fun _ _ h => by cases h; rfl
theorem vote (w : Z1) : Statement (.vote w) := fun _ _ h => by cases h; rfl
theorem wred (w : Z1) : Statement (.wred w) := fun _ _ h => by cases h; rfl
theorem wscan (w : Z1) : Statement (.wscan w) := fun _ _ h => by cases h; rfl
theorem matchLanes (w : Z1) : Statement (.matchLanes w) := fun _ _ h => by cases h; rfl
theorem elect (w : Z1) : Statement (.elect w) := fun _ _ h => by cases h; rfl
theorem bar (w : Z1) : Statement (.bar w) := fun _ _ h => by cases h; rfl
theorem regqImm (w : Z1) : Statement (.regqImm w) := fun _ _ h => by cases h; rfl
theorem regqScalar (w : Z1) : Statement (.regqScalar w) := fun _ _ h => by cases h; rfl
theorem ld (w : Z1) : Statement (.ld w) := fun _ _ h => by cases h; rfl
theorem st (w : Z1) : Statement (.st w) := fun _ _ h => by cases h; rfl
theorem lds (w : Z1) : Statement (.lds w) := fun _ _ h => by cases h; rfl
theorem sts (w : Z1) : Statement (.sts w) := fun _ _ h => by cases h; rfl
theorem ldk (w : Z1) : Statement (.ldk w) := fun _ _ h => by cases h; rfl
theorem atom (w : Z1) : Statement (.atom w) := fun _ _ h => by cases h; rfl
theorem atoms (w : Z1) : Statement (.atoms w) := fun _ _ h => by cases h; rfl
theorem bankop (w : Z1) : Statement (.bankop w) := fun _ _ h => by cases h; rfl
theorem fence (w : Z1) : Statement (.fence w) := fun _ _ h => by cases h; rfl
theorem pref (w : Z1) : Statement (.pref w) := fun _ _ h => by cases h; rfl
theorem cctl (w : Z1) : Statement (.cctl w) := fun _ _ h => by cases h; rfl
theorem cpy (w : Z1) : Statement (.cpy w) := fun _ _ h => by cases h; rfl
theorem tcpy (w : Z1) : Statement (.tcpy w) := fun _ _ h => by cases h; rfl
theorem layset (w : Z1) : Statement (.layset w) := fun _ _ h => by cases h; rfl
theorem rfillGet (w : Z1) : Statement (.rfillGet w) := fun _ _ h => by cases h; rfl
theorem rfill (w : Z1) : Statement (.rfill w) := fun _ _ h => by cases h; rfl
theorem rtake (w : Z1) : Statement (.rtake w) := fun _ _ h => by cases h; rfl
theorem rtakeBack (w : Z1) : Statement (.rtakeBack w) := fun _ _ h => by cases h; rfl
theorem rinit (w : Z1) : Statement (.rinit w) := fun _ _ h => by cases h; rfl
theorem ringadv (w : Z1) : Statement (.ringadv w) := fun _ _ h => by cases h; rfl
theorem fxw (w : Z1) : Statement (.fxw w) := fun _ _ h => by cases h; rfl
theorem fxflag (w : Z1) : Statement (.fxflag w) := fun _ _ h => by cases h; rfl
theorem fxrd (w : Z1) : Statement (.fxrd w) := fun _ _ h => by cases h; rfl
theorem fxatom (w : Z1) : Statement (.fxatom w) := fun _ _ h => by cases h; rfl
theorem acwait (w : Z1) : Statement (.acwait w) := fun _ _ h => by cases h; rfl
theorem acread (w : Z1) : Statement (.acread w) := fun _ _ h => by cases h; rfl
theorem mxrsv (w : Z1) : Statement (.mxrsv w) := fun _ _ h => by cases h; rfl
theorem mxrel (w : Z1) : Statement (.mxrel w) := fun _ _ h => by cases h; rfl
theorem wload (w : Z1) : Statement (.wload w) := fun _ _ h => by cases h; rfl
theorem mxmul (w : Z1) : Statement (.mxmul w) := fun _ _ h => by cases h; rfl
theorem mxdrain (w : Z1) : Statement (.mxdrain w) := fun _ _ h => by cases h; rfl
theorem atbl (w : Z1) : Statement (.atbl w) := fun _ _ h => by cases h; rfl
theorem nfset (w : Z1) : Statement (.nfset w) := fun _ _ h => by cases h; rfl
theorem mxstat (w : Z1) : Statement (.mxstat w) := fun _ _ h => by cases h; rfl
theorem enq (w : Z1) : Statement (.enq w) := fun _ _ h => by cases h; rfl
theorem rand (w : Z1) : Statement (.rand w) := fun _ _ h => by cases h; rfl
theorem sysrd (w : Z1) : Statement (.sysrd w) := fun _ _ h => by cases h; rfl
theorem syswr (w : Z1) : Statement (.syswr w) := fun _ _ h => by cases h; rfl
theorem tlbinv (w : Z1) : Statement (.tlbinv w) := fun _ _ h => by cases h; rfl
theorem xret (w : Z1) : Statement (.xret w) := fun _ _ h => by cases h; rfl
theorem ctxsave (w : Z1) : Statement (.ctxsave w) := fun _ _ h => by cases h; rfl
theorem ctxload (w : Z1) : Statement (.ctxload w) := fun _ _ h => by cases h; rfl
theorem resultLand (core slot op : Nat) (lanes : Mask) : Statement (.resultLand core slot op lanes) := fun _ _ h => by cases h
theorem storePerform (core slot op : Nat) (lanes : Mask) : Statement (.storePerform core slot op lanes) := fun _ _ h => by cases h
theorem walk (id : Nat) : Statement (.walk id) := fun _ _ h => by cases h
theorem faultReport (core slot : Nat) : Statement (.faultReport core slot) := fun _ _ h => by cases h
theorem warpRetire (core slot : Nat) : Statement (.warpRetire core slot) := fun _ _ h => by cases h
theorem blockRetire (core block : Nat) : Statement (.blockRetire core block) := fun _ _ h => by cases h
theorem tileTaskStart (core : Nat) : Statement (.tileTaskStart core) := fun _ _ h => by cases h
theorem tileTaskRetire (core task : Nat) : Statement (.tileTaskRetire core task) := fun _ _ h => by cases h
theorem copySegmentStart (core : Nat) : Statement (.copySegmentStart core) := fun _ _ h => by cases h
theorem copySegmentBoundary (core seg : Nat) : Statement (.copySegmentBoundary core seg) := fun _ _ h => by cases h
theorem copySegmentRetire (core seg : Nat) : Statement (.copySegmentRetire core seg) := fun _ _ h => by cases h
theorem stagingEntryDone (tower leaf task : Nat) : Statement (.stagingEntryDone tower leaf task) := fun _ _ h => by cases h
theorem acwaitComplete (counter : Nat) : Statement (.acwaitComplete counter) := fun _ _ h => by cases h
theorem egressPacketSend (port : Nat) : Statement (.egressPacketSend port) := fun _ _ h => by cases h
theorem fxwPacketArrive (port : Nat) (p : DataPacket) : Statement (.fxwPacketArrive port p) := fun _ _ h => by cases h
theorem flagArrive (port : Nat) (p : FlagPacket) : Statement (.flagArrive port p) := fun _ _ h => by cases h
theorem pendingFlagTimer (counter : Nat) : Statement (.pendingFlagTimer counter) := fun _ _ h => by cases h
theorem shortfallArrive (port : Nat) (p : CtlPacket) : Statement (.shortfallArrive port p) := fun _ _ h => by cases h
theorem failureNoticeArrive (port : Nat) (p : CtlPacket) : Statement (.failureNoticeArrive port p) := fun _ _ h => by cases h
theorem flagAckArrive (port : Nat) (p : CtlPacket) : Statement (.flagAckArrive port p) := fun _ _ h => by cases h
theorem flagResendTimer (send : Nat) : Statement (.flagResendTimer send) := fun _ _ h => by cases h
theorem remoteReadRequest (port : Nat) (r : RemoteReq) : Statement (.remoteReadRequest port r) := fun _ _ h => by cases h
theorem remoteReadReply (r : ReplyTo) (seq : Nat) (data : List Byte) : Statement (.remoteReadReply r seq data) := fun _ _ h => by cases h
theorem remoteReadRetransmit (tag : Nat) : Statement (.remoteReadRetransmit tag) := fun _ _ h => by cases h
theorem remoteAtomicRequest (port : Nat) (r : RemoteReq) : Statement (.remoteAtomicRequest port r) := fun _ _ h => by cases h
theorem remoteAtomicReply (r : ReplyTo) (old : Nat) : Statement (.remoteAtomicReply r old) := fun _ _ h => by cases h
theorem remoteAtomicReissue (tag : Nat) : Statement (.remoteAtomicReissue tag) := fun _ _ h => by cases h
theorem deliveryContextTeardown (pdc : Nat) : Statement (.deliveryContextTeardown pdc) := fun _ _ h => by cases h
theorem ingestDatagram (port : Nat) (bytes : List Byte) : Statement (.ingestDatagram port bytes) := fun _ _ h => by cases h
theorem submissionPush (fn target : Nat) : Statement (.submissionPush fn target) := fun _ _ h => by cases h
theorem nodeOffer (tower node : Nat) : Statement (.nodeOffer tower node) := fun _ _ h => by cases h
theorem pushRetryTimer (tower task : Nat) : Statement (.pushRetryTimer tower task) := fun _ _ h => by cases h
theorem launchFetch (id : Nat) : Statement (.launchFetch id) := fun _ _ h => by cases h
theorem launchFetchRetry (id : Nat) : Statement (.launchFetchRetry id) := fun _ _ h => by cases h
theorem launchOpen (tower : Nat) : Statement (.launchOpen tower) := fun _ _ h => by cases h
theorem agentClaim (core : Nat) : Statement (.agentClaim core) := fun _ _ h => by cases h
theorem claimReturn (core : Nat) : Statement (.claimReturn core) := fun _ _ h => by cases h
theorem ctxsaveDone (core : Nat) : Statement (.ctxsaveDone core) := fun _ _ h => by cases h
theorem ctxloadDone (core : Nat) : Statement (.ctxloadDone core) := fun _ _ h => by cases h
theorem ctxSwitchSave (val : Word) : Statement (.ctxSwitchSave val) := fun _ _ h => by cases h
theorem ctxSwitchRestore (val : Word) : Statement (.ctxSwitchRestore val) := fun _ _ h => by cases h
theorem invalidationComplete (id : Nat) : Statement (.invalidationComplete id) := fun _ _ h => by cases h
theorem hvInvalidateAll : Statement (.hvInvalidateAll) := fun _ _ h => by cases h
theorem hvInvalidateVf (fn : Nat) : Statement (.hvInvalidateVf fn) := fun _ _ h => by cases h
theorem hvInvalidatePage (fn va : Nat) : Statement (.hvInvalidatePage fn va) := fun _ _ h => by cases h
theorem hvInvalidateGpa (fn gpa : Nat) : Statement (.hvInvalidateGpa fn gpa) := fun _ _ h => by cases h
theorem pageReply (val : DWord) : Statement (.pageReply val) := fun _ _ h => by cases h
theorem quoteRequest (val : Word) : Statement (.quoteRequest val) := fun _ _ h => by cases h
theorem quoteComplete : Statement (.quoteComplete) := fun _ _ h => by cases h
theorem ashapeHostWrite (core : Nat) (val : Word) : Statement (.ashapeHostWrite core val) := fun _ _ h => by cases h
theorem cadenceWrite (core : Nat) (val : Word) : Statement (.cadenceWrite core val) := fun _ _ h => by cases h
theorem nodeEnable (tower node : Nat) (val : Word) : Statement (.nodeEnable tower node val) := fun _ _ h => by cases h
theorem leafEnable (tower leaf : Nat) (val : Word) : Statement (.leafEnable tower leaf val) := fun _ _ h => by cases h
theorem counterEnable (counter : Nat) (val : Word) : Statement (.counterEnable counter val) := fun _ _ h => by cases h
theorem counterDisable (counter : Nat) (val : Word) : Statement (.counterDisable counter val) := fun _ _ h => by cases h
theorem ingestRingEnable (ring : Nat) (val : Word) : Statement (.ingestRingEnable ring val) := fun _ _ h => by cases h
theorem ingestRingDisable (ring : Nat) (val : Word) : Statement (.ingestRingDisable ring val) := fun _ _ h => by cases h
theorem keyInstall (slot : Nat) (val : Word) : Statement (.keyInstall slot val) := fun _ _ h => by cases h
theorem keySlotZeroise (slot : Nat) (val : Word) : Statement (.keySlotZeroise slot val) := fun _ _ h => by cases h
theorem peerEnable (peer : Nat) (val : Word) : Statement (.peerEnable peer val) := fun _ _ h => by cases h
theorem portEnableWrite (port : Nat) (val : Word) : Statement (.portEnableWrite port val) := fun _ _ h => by cases h
theorem hostApertureRead (fn off len : Nat) : Statement (.hostApertureRead fn off len) := fun _ _ h => by cases h
theorem hostApertureWrite (fn off : Nat) (bytes : List Byte) : Statement (.hostApertureWrite fn off bytes) := fun _ _ h => by cases h
theorem partitionChangeGo (val : Word) : Statement (.partitionChangeGo val) := fun _ _ h => by cases h
theorem partitionQuiesceDone : Statement (.partitionQuiesceDone) := fun _ _ h => by cases h
theorem partitionDrainTimeout : Statement (.partitionDrainTimeout) := fun _ _ h => by cases h
theorem partitionFlushDone : Statement (.partitionFlushDone) := fun _ _ h => by cases h
theorem partitionReenumerateDone : Statement (.partitionReenumerateDone) := fun _ _ h => by cases h
theorem heartbeatWrite (val : Word) : Statement (.heartbeatWrite val) := fun _ _ h => by cases h
theorem watchdogExpire : Statement (.watchdogExpire) := fun _ _ h => by cases h
theorem thermalTrip (die : Nat) : Statement (.thermalTrip die) := fun _ _ h => by cases h
theorem thermalTripClear (tower : Nat) : Statement (.thermalTripClear tower) := fun _ _ h => by cases h
theorem thermalPowerOff (die : Nat) : Statement (.thermalPowerOff die) := fun _ _ h => by cases h
theorem currentLimitRaise (cores : List Nat) : Statement (.currentLimitRaise cores) := fun _ _ h => by cases h
theorem currentLimitRelease : Statement (.currentLimitRelease) := fun _ _ h => by cases h
theorem energyBooking (ballast : Nat) : Statement (.energyBooking ballast) := fun _ _ h => by cases h
theorem operatingPointRequest (cluster : Nat) (val : Word) : Statement (.operatingPointRequest cluster val) := fun _ _ h => by cases h
theorem voltageRampDone (cluster : Nat) : Statement (.voltageRampDone cluster) := fun _ _ h => by cases h
theorem clockRelockDone (tower index : Nat) : Statement (.clockRelockDone tower index) := fun _ _ h => by cases h
theorem scrubRead (addr : Nat) (kind : ScrubOutcome) : Statement (.scrubRead addr kind) := fun _ _ h => by cases h
theorem infieldTestSelect : Statement (.infieldTestSelect) := fun _ _ h => by cases h
theorem infieldTestRun : Statement (.infieldTestRun) := fun _ _ h => by cases h
theorem infieldTestEnd (signature : Word) : Statement (.infieldTestEnd signature) := fun _ _ h => by cases h
theorem fwStage (val : Word) : Statement (.fwStage val) := fun _ _ h => by cases h
theorem fwActivatePower (val : Word) : Statement (.fwActivatePower val) := fun _ _ h => by cases h
theorem fwRaiseMinimum (val : Word) : Statement (.fwRaiseMinimum val) := fun _ _ h => by cases h
theorem fwActionComplete : Statement (.fwActionComplete) := fun _ _ h => by cases h
theorem deviceReset : Statement (.deviceReset) := fun _ _ h => by cases h
theorem registerWrite (fn off : Nat) (val : Word) : Statement (.registerWrite fn off val) := fun _ _ h => by cases h
theorem rankLdt (d : Reg4) (f : BitVec 4) : Statement (.rankLdt d f) := fun _ _ h => by cases h
theorem rankLdn (d : Reg4) (w : BitVec 3) : Statement (.rankLdn d w) := fun _ _ h => by cases h
theorem rankLdf (d a : Reg4) (w : BitVec 2) : Statement (.rankLdf d a w) := fun _ _ h => by cases h
theorem rankStn (a : Reg4) (w : BitVec 3) : Statement (.rankStn a w) := fun _ _ h => by cases h
theorem rankStf (a b : Reg4) (w : BitVec 2) : Statement (.rankStf a b w) := fun _ _ h => by cases h
theorem rankAdd (d a b : Reg4) : Statement (.rankAdd d a b) := fun _ _ h => by cases h
theorem rankAddi (d a : Reg4) (i : BitVec 15) : Statement (.rankAddi d a i) := fun _ _ h => by cases h
theorem rankSub (d a b : Reg4) : Statement (.rankSub d a b) := fun _ _ h => by cases h
theorem rankMul (d a b : Reg4) : Statement (.rankMul d a b) := fun _ _ h => by cases h
theorem rankShl (d a : Reg4) (n : BitVec 5) : Statement (.rankShl d a n) := fun _ _ h => by cases h
theorem rankShr (d a : Reg4) (n : BitVec 5) : Statement (.rankShr d a n) := fun _ _ h => by cases h
theorem rankMin (d a b : Reg4) (sg : Bool) : Statement (.rankMin d a b sg) := fun _ _ h => by cases h
theorem rankMax (d a b : Reg4) (sg : Bool) : Statement (.rankMax d a b sg) := fun _ _ h => by cases h
theorem rankAnd (d a b : Reg4) : Statement (.rankAnd d a b) := fun _ _ h => by cases h
theorem rankOr (d a b : Reg4) : Statement (.rankOr d a b) := fun _ _ h => by cases h
theorem rankCmplt (d a b : Reg4) (sg : Bool) : Statement (.rankCmplt d a b sg) := fun _ _ h => by cases h
theorem rankSel (d a b c : Reg4) : Statement (.rankSel d a b c) := fun _ _ h => by cases h
theorem rankNow (d : Reg4) (sel : BitVec 2) : Statement (.rankNow d sel) := fun _ _ h => by cases h
theorem rankEmit (a : Reg4) : Statement (.rankEmit a) := fun _ _ h => by cases h
theorem rankRefuse (a : Reg4) : Statement (.rankRefuse a) := fun _ _ h => by cases h
theorem translationConsumerWrite (fn : Nat) (val : Word) : Statement (.translationConsumerWrite fn val) := fun _ _ h => by cases h

end Sys2Proof.Laws.OfOp
end

