-- ==== Sys2Proof/Laws/Queue.lean ====
section
/-!
SUPPORT. The shared operations that leave an outstanding operation behind, move a counter or take a fault: everything
each of them can do.
-/
namespace Sys2Proof.Machine

theorem OnlyWarps.refl (core : Nat) (s : State) : OnlyWarps core s s := ⟨rfl, fun _ _ => rfl, rfl⟩

theorem OnlyWarps.trans {core : Nat} {s t u : State} (h : OnlyWarps core s t) (k : OnlyWarps core t u) : OnlyWarps core s u := by
  obtain ⟨h1, h2, h3⟩ := h
  obtain ⟨k1, k2, k3⟩ := k
  refine ⟨?_, fun d hd => (k2 d hd).trans (h2 d hd), ?_⟩
  · have := congrArg (fun z : State => { z with cores := s.cores, waits := s.waits, cur := s.cur, firing := s.firing, busy := s.busy, nextId := s.nextId }) k1
    exact this.trans h1
  · have := congrArg (fun z : Core => { z with parts := (s.core core).parts, warps := (s.core core).warps, blocks := (s.core core).blocks }) k3
    exact this.trans h3

theorem KeepsRegs.refl (core : Nat) (s : State) : KeepsRegs core s s := ⟨fun _ => rfl, fun _ => rfl⟩
theorem KeepsRegs.trans {core : Nat} {s t u : State} (h : KeepsRegs core s t) (k : KeepsRegs core t u) : KeepsRegs core s u :=
  ⟨fun sl => (k.1 sl).trans (h.1 sl), fun b => (k.2 b).trans (h.2 b)⟩
theorem OnlyOps.refl (core : Nat) (s : State) : OnlyOps core s s := ⟨OnlyWarps.refl core s, KeepsRegs.refl core s⟩
theorem OnlyOps.trans {core : Nat} {s t u : State} (h : OnlyOps core s t) (k : OnlyOps core t u) : OnlyOps core s u :=
  ⟨h.1.trans k.1, h.2.trans k.2⟩

theorem OnlyWarps.mem {core : Nat} {s t : State} (h : OnlyWarps core s t) : t.mem = s.mem := by
  have k := congrArg State.mem h.1; exact k
theorem OnlyWarps.bar0 {core : Nat} {s t : State} (h : OnlyWarps core s t) : t.bar0 = s.bar0 := by
  have k := congrArg State.bar0 h.1; exact k

theorem onlyWarps_updCore (s : State) (core : Nat) (f : Core → Core)
    (h : ∀ k, { f k with parts := k.parts, warps := k.warps, blocks := k.blocks } = k) : OnlyWarps core s (s.updCore core f) := by
  refine ⟨rfl, fun d hd => ?_, ?_⟩
  · rw [State.core_updCore, if_neg hd]
  · rw [State.core_updCore_self]; exact h _

theorem onlyWarps_updWarp (s : State) (core sl : Nat) (f : Warp → Warp) : OnlyWarps core s (s.updWarp core sl f) := by
  unfold State.updWarp
  split
  · exact onlyWarps_updCore s core _ fun _ => rfl
  · exact OnlyWarps.refl _ _

theorem onlyWarps_setWarp (s : State) (core sl : Nat) (w : Warp) : OnlyWarps core s (s.setWarp core sl w) :=
  onlyWarps_updCore s core _ fun _ => rfl

theorem onlyWarps_updPart (s : State) (core p : Nat) (f : Part → Part) : OnlyWarps core s (s.updPart core p f) :=
  onlyWarps_updCore s core _ fun _ => rfl

/-- A change of a warp that leaves its registers. -/
theorem onlyOps_updWarp (s : State) (core sl : Nat) (f : Warp → Warp) (h : ∀ w, (f w).regs = w.regs) : OnlyOps core s (s.updWarp core sl f) := by
  refine ⟨onlyWarps_updWarp s core sl f, fun slot => ?_, fun b => by simp⟩
  rw [State.warp?_updWarp]
  split
  · rw [Option.map_map]
    congr 1
    funext w
    simp [h w]
  · rfl

theorem onlyOps_foldl {α : Type} (core : Nat) (f : State → α → State) (h : ∀ s a, OnlyOps core s (f s a)) (l : List α) (s : State) :
    OnlyOps core s (l.foldl f s) := by
  induction l generalizing s with
  | nil => exact OnlyOps.refl _ _
  | cons a l ih => exact (h s a).trans (ih _)

theorem onlyOps_fresh (core : Nat) (s : State) : OnlyOps core s s.fresh.2 :=
  ⟨⟨rfl, fun _ _ => rfl, rfl⟩, fun _ => rfl, fun _ => rfl⟩

theorem addCnt_regs (w : Warp) (k : Cnt) (up : Bool) : (w.addCnt k up).regs = w.regs := by cases k <;> rfl

theorem onlyOps_moveCnt (s : State) (core : Nat) (ms : List (Nat × Mask)) (k : Cnt) (up : Bool) : OnlyOps core s (moveCnt s core ms k up) :=
  onlyOps_foldl core _ (fun s p => by
    split
    · exact OnlyOps.refl _ _
    · exact onlyOps_updWarp s core p.1 _ fun w => addCnt_regs w k up) ms s

theorem onlyOps_expectAll (s : State) (core : Nat) (ms : List (Nat × Mask)) (id : Nat) (regs : List Nat) : OnlyOps core s (expectAll s core ms id regs) :=
  onlyOps_foldl core _ (fun s p => by
    split
    · exact OnlyOps.refl _ _
    · exact onlyOps_updWarp s core p.1 _ fun _ => rfl) ms s

theorem onlyOps_arriveAll (s : State) (core : Nat) (ms : List (Nat × Mask)) (id : Nat) (regs : List Nat) : OnlyOps core s (arriveAll s core ms id regs) :=
  onlyOps_foldl core _ (fun s p => by
    split
    · exact OnlyOps.refl _ _
    · exact onlyOps_updWarp s core p.1 _ fun _ => rfl) ms s

/-- An operation is queued: no register, no block, no memory and no register of the device changes. -/
theorem onlyOps_pushOp (c : Ctx) (s : State) (o : MemOp) : OnlyOps c.core s (pushOp c s o) := by
  unfold pushOp
  exact (onlyOps_fresh c.core s).trans ((onlyOps_updWarp s.fresh.2 c.core c.slot
    (fun w => { w with ops := w.ops ++ [{ o with id := s.fresh.1, members := c.members, low := c.low, e := c.e, iaddr := c.addr,
                                                 opens := (c.members.filter fun p => p.2 != 0).map (·.1) }] }) fun _ => rfl).trans
    ((onlyOps_moveCnt _ c.core c.members (if o.isLoad then .loads else .stores) true).trans
      (onlyOps_expectAll _ c.core c.members _ (dstRegs o.dst o.nreg))))

theorem onlyWarps_releasePart (s : State) (core slot : Nat) : OnlyWarps core s (releasePart s core slot) := by
  unfold releasePart
  split
  · exact onlyWarps_updPart _ core _ _
  · exact OnlyWarps.refl _ _

/-- As OnlyWarps, but answered page requests may have been put away. -/
def OnlyStops (core : Nat) (s t : State) : Prop := OnlyWarps core { s with walks := t.walks } t

/-- A warp that stops keeps its record and gives up its partition, and requests for it that failed are put away; nothing else changes. -/
theorem onlyStops_stopWarp (s : State) (core slot : Nat) (r : FaultRec) : OnlyStops core s (stopWarp s core slot r) := by
  unfold stopWarp
  split
  · exact OnlyWarps.refl _ _
  · split
    · exact OnlyWarps.refl _ _
    · dsimp only
      rename_i w _ _
      generalize hw : ({ w with stopped := some { r with temps := (w.applyAll (s.block core w.block) (w.pend.flatMap (·.writes))).tmp }, halt := none } : Warp) = w1
      generalize hx : (s.walks.filter fun x => !(x.failed && x.who == .warp core slot)) = xs
      have h1 : OnlyStops core s { s.setWarp core slot w1 with walks := xs } := onlyWarps_setWarp { s with walks := xs } core slot w1
      split
      · exact h1
      · have h2 := onlyWarps_releasePart { s.setWarp core slot w1 with walks := xs } core slot
        have e := congrArg State.walks h2.1
        unfold OnlyStops at h1 ⊢
        rw [show (releasePart { s.setWarp core slot w1 with walks := xs } core slot).walks = xs from e]
        exact h1.trans h2

theorem onlyWarps_foldl {α : Type} (core : Nat) (f : State → α → State) (h : ∀ s a, OnlyWarps core s (f s a)) (l : List α) (s : State) :
    OnlyWarps core s (l.foldl f s) := by
  induction l generalizing s with
  | nil => exact OnlyWarps.refl _ _
  | cons a l ih => exact (h s a).trans (ih _)

/-- The registers of the device beside it do not matter. -/
theorem OnlyWarps.withBar0 {core : Nat} {s t : State} (h : OnlyWarps core s t) (b : Sparse Word) :
    OnlyWarps core { s with bar0 := b } { t with bar0 := b } := by
  obtain ⟨h1, h2, h3⟩ := h
  exact ⟨congrArg (fun z : State => { z with bar0 := b }) h1, h2, h3⟩

/-- The marks of the issue moved away. -/
theorem OnlyWarps.noWaits {core : Nat} {s t : State} (h : OnlyWarps core s t) : OnlyWarps core s { t with waits := [] } := h

/-- Taking a fault stops warps and changes nothing else: no memory, no other core, and no register of the device but the
count of poison consumed (30 R483), which code 0x17 raises. -/
theorem onlyStops_takeFault (s : State) (core slot : Nat) (r : FaultRec) (whole : Bool) :
    ∃ b, OnlyStops core { s with bar0 := b } (takeFault s core slot r whole) ∧ (r.code ≠ 0x17 → b = s.bar0) := by
  unfold takeFault
  split
  · exact ⟨s.bar0, OnlyWarps.refl _ _, fun _ => rfl⟩
  · dsimp only
    rename_i w _
    generalize (slot :: stopsWith s core w.block w.num whole ++ (w.halt.map (·.2)).getD []).eraseDups = g
    have h1 := onlyStops_stopWarp s core slot { r with group := g }
    have h2 := onlyWarps_foldl core (fun s o => s.updWarp core o fun w => w.haltWith s.now g) (fun s o => onlyWarps_updWarp s core o _)
      (stopsWith s core w.block w.num whole) (stopWarp s core slot { r with group := g })
    have e := congrArg State.walks h2.1
    unfold OnlyStops at h1
    generalize ht : (stopsWith s core w.block w.num whole).foldl (fun s o => s.updWarp core o fun w => w.haltWith s.now g)
      (stopWarp s core slot { r with group := g }) = u at h2 e
    have h3 : OnlyWarps core { s with walks := u.walks } u := OnlyWarps.trans ((show _ = _ from e) ▸ h1) h2
    have hb : u.bar0 = s.bar0 := h3.bar0
    have hw : u.walks = ({ u with waits := [] } : State).walks := rfl
    split
    · refine ⟨(u.bump64 (relReg 0x20) 1).bar0, ?_, fun h => absurd (by assumption) h⟩
      exact (h3.withBar0 (u.bump64 (relReg 0x20) 1).bar0).noWaits
    · exact ⟨s.bar0, h3.noWaits, fun _ => rfl⟩

end Sys2Proof.Machine
end

