-- ==== Sys2Proof/Tests/Slice0.lean ====
section
/-!
SUPPORT. Tests: ill-formed terms that WellFormed refuses, words of the manual and what they decode to, results
worked out by hand, and for each statement a state and operands that meet its hypotheses.
-/
namespace Sys2Proof.Tests
open Sys2Proof Sys2Proof.Machine

/-! ### Helpers -/

/-- A plain instruction: form A, lane scope, no guard, zero fields. -/
def z : Z1 :=
  { ext := .none, scope := .lane, giveWay := false, gap := 0, guardP := 7, guardNeg := false, ty := .b32, d := 0, a := 0, b := 0, mod := 0 }
/-- The same, never executed: guard @!p7 (03 R58). -/
def never (x : Z1) : Z1 := { x with guardNeg := true }
/-- A warp of one block stands at address 0 of a core and issues next. -/
def core : Nat := 0x20
def s0 : State := { (State.reset.withFetchWord 128 0) with cur := some (core, 0) }
def onWarp (f : Warp → Warp) (s : State) : State := s.updWarp core 0 f
def onBlock (f : Block → Block) (s : State) : State := s.updBlock core 0 f
def onCore (f : Core → Core) (s : State) : State := s.updCore core f
/-- The core word of a RUNEND without names at address 8, behind an instruction of 8 bytes (at 12 behind one of 12). -/
def withEnd (n : Nat) (s : State) : State := s.setMemNat n 8 0x0000000000002700
/-- The agent's warp. -/
def agent (s : State) : State := onWarp (fun w => { w with agent := true }) s
/-- A set- or block-scope instance that fires: one member warp with all its lanes. -/
def fire (i : Instr) (key len : Nat) (s : State) : State :=
  { s with firing := some { core := core, block := 0, slot := key, members := [(0, fullMask)], instr := i, addr := 0, len := len } }
/-- The block has a set of its one warp with 64 pool registers, and is a role block of one role. -/
def roleBlock (r : Role) (s : State) : State :=
  onWarp (fun w => { w with role := r }) (onBlock (fun b => { b with role := true, roles := [r], sets := [some { mask := 1, size := 64 }] }) s)

/-- A witness for hypotheses on an execution: decided on the entry the state gives. -/
theorem wit {o : Op} {x : Z1} {s : State} {P : Entry → Prop} [∀ en, Decidable (P en)] (h : (entry o x s).any (fun en => decide (P en)) = true) :
    ∃ en, entry o x s = some en ∧ P en := by
  cases e : entry o x s with
  | none => rw [e] at h; cases h
  | some en => rw [e] at h; exact ⟨en, rfl, of_decide_eq_true h⟩

/-- The hypothesis that an instruction executes, for each operation of a list, and its fields are legal. -/
def runs (l : List Op) (x : Z1) (s : State) : Bool := l.all fun o => o.legal x && (entry o x s).isSome

/-! ### Witnesses: integer, logic and floating-point instructions -/

def i32 : Z1 := { z with ty := .i32, d := 4, a := 1, b := 2 }
theorem wit_IntegerArithmetic :
    runs [.iadd, .isub, .imul, .imulh, .idiv, .irem, .imin, .imax] i32 s0 = true ∧ runs [.iabs, .ineg] { i32 with b := 0 } s0 = true ∧
    runs [.imad] { i32 with ext := .opnd false 0 3 0 } s0 = true := by decide
/-- 12 R236: a zero divisor and the most negative dividend. -/
theorem wit_IntegerArithmetic_div : (∃ en, entry .idiv i32 s0 = some en ∧ en.b i32 0 = 0) ∧
    ∃ en, entry .irem { i32 with b := 1609, ext := .none } (onWarp (fun w => { w with v := [(32, 0x80000000)], p := [(0, 1)] }) s0) = some en ∧
      en.a i32 0 = loT .i32 :=
  ⟨wit (by decide), wit (by decide)⟩
theorem wit_IntegerArithmetic_moves :
    runs [.iaddc] { i32 with mod := 0x41 } s0 = true ∧ runs [.icmp] { i32 with d := 0, mod := 0x28 } s0 = true ∧
    runs [.sel] { i32 with ty := .b64, d := 4, a := 2, b := 6, mod := 8 } s0 = true ∧ runs [.mov] { z with d := 4, a := 1 } s0 = true ∧
    runs [.lea] { i32 with ty := .n64, d := 4, a := 2, b := 6, mod := 0xC } s0 = true := by decide
theorem wit_LogicAndBits :
    runs [.and, .or, .xor, .andn, .shl, .shr, .sar, .rot] { i32 with ty := .b32 } s0 = true ∧ runs [.not] { z with d := 4, a := 1 } s0 = true ∧
    runs [.fshf, .bfi] { i32 with ty := .b32, ext := .opnd false 0 3 0 } s0 = true ∧ runs [.bfx] { i32 with ext := .opnd false 0 3 0 } s0 = true := by
  decide
theorem wit_LogicAndBits_counts :
    runs [.clz, .ffs, .popc, .brev] { z with d := 4, a := 1 } s0 = true ∧ runs [.prmt] { i32 with ty := .b32, ext := .opnd false 0 3 0 } s0 = true ∧
    runs [.pset] { z with a := 1, b := 8, mod := 0x71 } s0 = true ∧ runs [.p2v] { z with d := 4 } s0 = true ∧
    runs [.v2p] { z with a := 1, mod := 0x7F } s0 = true ∧ runs [.idot4] { i32 with ext := .opnd false 0 3 0, mod := 7 } s0 = true ∧
    runs [.ipack] { i32 with ty := .i16 } s0 = true := by decide
theorem wit_FloatArithmetic :
    runs [.fadd, .fsub, .fmul, .fmin, .fmax, .fscale] { i32 with ty := .f32 } s0 = true ∧
    runs [.ffma] { i32 with ty := .h2, scope := .warp, ext := .opnd false 0 3 0 } s0 = true ∧
    runs [.fdot2] { i32 with ty := .bh2, ext := .opnd false 0 3 0 } s0 = true := by decide
/-- 06 R125: the descriptor in slot 0 is a valid one. -/
theorem wit_FloatCompareAndConvert :
    runs [.fcmp] { i32 with ty := .f32, d := 0, mod := 0x18 } s0 = true ∧ runs [.fclass, .frnd, .f2f, .i2f, .fmaxi] { z with ty := .f32, d := 4, a := 2 } s0 = true ∧
    runs [.f2i] { i32 with b := 0 } s0 = true ∧
    (∃ en, entry .f2n { z with ty := .nf, d := 4, a := 1 } (onBlock (fun b => { b with nf := [(0, 0x0743)] }) s0) = some en ∧
      nfValid (smGetD en.c.b.nf 0 0) = true) ∧
    ∃ en, entry .n2f { z with ty := .f32, d := 4, a := 1 } (onBlock (fun b => { b with nf := [(0, 0x0743)] }) s0) = some en ∧
      nfValid (smGetD en.c.b.nf 0 0) = true :=
  ⟨by decide, by decide, by decide, wit (by decide), wit (by decide)⟩
theorem wit_SpecialFunctions :
    (∀ o ∈ [Op.frcp, .frsq, .fsqrt, .fexp2, .flog2, .fsinp, .fcosp, .ftanh], ∃ en, entry o { z with ty := .f32, d := 4, a := 1 } s0 = some en ∧
      en.Fair ∧ sfuBusy en.c en.s = false) ∧
    ∃ en, entry .fdiv { i32 with ty := .f32 } s0 = some en ∧ en.Fair ∧ sfuBusy en.c en.s = false := by
  refine ⟨fun o h => wit ?_, wit (by decide)⟩
  revert o
  decide

/-! ### Witnesses: cross-lane and control instructions -/

def w4 : Z1 := { z with scope := .warp, d := 4, a := 1 }
theorem wit_CrossLane :
    runs [.qswap, .qbcast, .matchLanes] w4 s0 = true ∧ runs [.shfl] { w4 with b := 2, mod := 0x0B } s0 = true ∧
    runs [.vote] { w4 with d := 0, a := 0, mod := 0x10 } s0 = true ∧ runs [.vote] { w4 with a := 0, mod := 0x18 } s0 = true ∧
    runs [.vote] { w4 with a := 0, mod := 0x20 } s0 = true ∧ runs [.elect] { w4 with a := 0, mod := 0x10 } s0 = true ∧
    runs [.elect] { w4 with a := 0, d := 0 } s0 = true := by decide
theorem wit_ReductionsAndScans :
    (∃ en, entry .wred { w4 with ty := .i32, b := 2, mod := 0x10 } s0 = some en ∧ en.c.e ≠ 0) ∧
    ∃ en, entry .wscan { w4 with ty := .f32, mod := 0x20 } s0 = some en ∧ en.c.e ≠ 0 :=
  ⟨wit (by decide), wit (by decide)⟩

theorem wit_ControlTransfers :
    (∀ q ∈ [(Op.bra, Ext.disp 4 4, (0 : BitVec 11), (0 : BitVec 11)), (.brx, .imm 4, 0, 2), (.call, .imm 4, 1540, 0), (.ret, .none, 0, 1540),
        (.exit, .none, 0, 0)], ∃ en, entry q.1 { z with ext := q.2.1, d := q.2.2.1, a := q.2.2.2 } (withEnd (8 + 4 * q.2.1.lenCode) s0) = some en ∧ en.Fair) ∧
    (∃ en, entry .loop { z with ext := .disp 4 2 } (withEnd 16 s0) = some en ∧ en.Fair ∧ en.c.w.loops.length < 4) ∧
    ∃ en, entry .lbrk z (onWarp (fun w => { w with loops := [{ ls := 0, le := 8, lc := 2, depth := 0 }] }) (withEnd 8 s0)) = some en ∧ en.Fair ∧
      en.c.w.loops = [{ ls := 0, le := 8, lc := 2, depth := 0 }] ∧ en.c.w.stack.length ≤ 0 := by
  refine ⟨fun q h => wit ?_, wit (by decide), wit (by decide)⟩
  revert q
  decide
theorem wit_NopRunendWaitPause :
    (∃ en, entry .nop z s0 = some en ∧ en.Fair ∧ (en.s.warp? en.c.core en.c.slot).any (fun w => decide (w.stack = [] ∧ w.serial = none ∧ w.xfer = none ∧
      w.trailer = none ∧ en.c.slot ∈ en.all.map (·.1) ∧ (en.all.map (·.1)).Nodup)) = true) ∧
    (∃ en, entry .runend { z with d := 4, mod := 1 } s0 = some en ∧ en.Fair) ∧
    (∃ en, entry .wait { z with ext := .imm 0 } s0 = some en ∧ en.Fair ∧ en.c.w.loads ≤ 0 ∧ en.c.w.stores ≤ 0 ∧ en.c.w.copies ≤ 0 ∧ en.c.w.tiles ≤ 0) ∧
    ∃ en, entry .pause { z with ext := .imm 5 } s0 = some en ∧ en.Fair ∧ en.c.e ≠ 0 :=
  ⟨wit (by decide), wit (by decide), wit (by decide), wit (by decide)⟩

theorem wit_TrapAndBreakpoint :
    (∀ q ∈ [(Op.trap, Ext.imm 9), (.bkpt, .none)], ∃ en, entry q.1 { z with ext := q.2 } s0 = some en ∧ en.Fair ∧
      (∀ w ∈ (en.s.warp? en.c.core en.c.slot), w.stopped = none ∧ w.pend = []) ∧ en.c.e ≠ 0) ∧
    ∀ q ∈ [(Op.trap, Ext.imm 9), (.bkpt, .none)], ∃ en, entry q.1 (never { z with ext := q.2 }) s0 = some en ∧ en.Fair ∧ en.c.e = 0 := by
  constructor <;> (intro q h; refine wit ?_; revert q; decide)
/-- A block of two warps meets at barrier slot 0. -/
def barrierBlock (b : Block) : Block := { b with nwarps := 2, barCount := 1, slots := [0, 1], roles := [.plain, .plain] }
theorem wit_Barrier :
    (∃ en, entry .bar { z with scope := .warp, ext := .imm 2 } (onWarp (fun w => { w with bar := some (0, true) }) (onBlock barrierBlock s0)) = some en ∧
      en.Fair ∧ en.c.w.bar = some (0, true)) ∧
    ∃ en, entry .bar { z with scope := .warp, ext := .imm 2 } (onBlock barrierBlock s0) = some en ∧ en.Fair ∧ en.c.w.bar = none ∧ opsDone en.s en.c.core en.c.slot = true ∧
      smGet? en.c.b.bars 0 = none ∧ en.c.b = en.s.block en.c.core en.c.bi ∧ 1 < en.c.b.nwarps :=
  ⟨wit (by decide), wit (by decide)⟩
def quotaGood (b : Block) (v : Nat) : Bool :=
  b.role && decide (v / 2 ^ 15 % 2 ^ 17 = 0) && [nfld v 4 0, nfld v 9 5, nfld v 14 10].all (fun n => decide (1 ≤ n) && decide (n ≤ 16)) &&
  decide (([Role.copy, .matrix, .vector].zip [nfld v 4 0, nfld v 9 5, nfld v 14 10]).all fun p => p.2 == b.quota p.1)
def blk : Z1 := { z with scope := .block }
def fireNone (i : Instr) (s : State) : State :=
  { s with firing := some { core := core, block := 0, slot := 8, members := [(0, 0)], instr := i, addr := 0, len := 8 } }
theorem wit_RegisterQuotas :
    (∃ en, entry .regqImm { blk with ext := .imm 0x421 } (fire (.regqImm { blk with ext := .imm 0x421 }) 8 12 (roleBlock .copy s0)) = some en ∧
      en.c.b = en.s.block en.c.core en.c.bi ∧ en.c.e ≠ 0 ∧ quotaGood en.c.b 0x421 = true) ∧
    (∃ en, entry .regqScalar { blk with a := 1540 } (fire (.regqScalar { blk with a := 1540 }) 8 8 (onWarp (fun w => { w with s := [(4, 0x421)] }) (roleBlock .copy s0))) = some en ∧
      en.c.b = en.s.block en.c.core en.c.bi ∧ en.c.e ≠ 0 ∧ quotaGood en.c.b (en.c.scal en.s 1540) = true) ∧
    ∃ en, entry .regqScalar { blk with a := 1540 } (fireNone (.regqScalar { blk with a := 1540 }) (roleBlock .copy s0)) = some en ∧ en.c.b = en.s.block en.c.core en.c.bi ∧ en.c.e = 0 :=
  ⟨wit (by decide), wit (by decide), wit (by decide)⟩

/-! ### Witnesses: memory -/

/-- [s4 + 16 * lane]: register 1608 reads the lane number (03 R57). -/
def mem16 : Ext := .mem { idxP := true, baseP := true, scale := 4, index := 1608, base := 1540, off := 0 }
/-- @p0 with p0 set in lanes 0 and 31. -/
def atS4 (v : Word) (s : State) : State := onWarp (fun w => { w with s := [(4, v)], p := [(0, 0x80000001)] }) s
def zm : Z1 := { z with ext := mem16, guardP := 0 }
def rwx : Attr := { read := true, write := true, exec := true, dirty := true }
/-- Page 0 of virtual addresses at a physical page, with attributes. -/
def mapped (pa : Nat) (a : Attr) (s : State) : State :=
  onCore (fun k => { k with tlb := [{ fn := 0, va := 0, size := 2 ^ 16, gpa := 0, gsize := 2 ^ 16, pa := pa, attr := a }] }) s
theorem wit_GlobalAccesses :
    let tr (l : Nat) : Nat × Attr := (0x100 + 16 * l, rwx)
    (∃ en, entry .ld { zm with d := 4, mod := 2 } (atS4 0x100 s0) = some en ∧ en.Fair ∧ en.c.e ≠ 0 ∧
      Reaches en { zm with d := 4, mod := 2 } 0 16 tr) ∧
    (∃ en, entry .st { zm with a := 4, mod := 6 } (atS4 0x100 s0) = some en ∧ en.Fair ∧ en.c.e ≠ 0 ∧
      Reaches en { zm with a := 4, mod := 6 } 1 16 tr) ∧
    (∃ en, entry .atom { zm with ty := .n32, d := 4, a := 5, mod := 0x20 } (atS4 0x100 s0) = some en ∧ en.Fair ∧ en.c.e ≠ 0 ∧
      Reaches en { zm with ty := .n32, d := 4, a := 5, mod := 0x20 } 3 4 tr ∧ ∀ l ∈ maskLanes en.c.e, hostAtomBad en.s 0 .n32 (tr l).2 (tr l).1 = false) ∧
    (∃ en, entry .bankop { zm with ty := .f32, a := 5 } (mapped 0x40000000000 rwx (atS4 0x100 s0)) = some en ∧ en.Fair ∧ en.c.e ≠ 0 ∧
      Reaches en { zm with ty := .f32, a := 5 } 4 4 (fun l => (0x40000000100 + 16 * l, rwx)) ∧
      ∀ l ∈ maskLanes en.c.e, (en.s.kind (0x40000000100 + 16 * l)).isBank = true) ∧
    ∃ en, entry .cctl { zm with mod := 4 } (atS4 0x100 s0) = some en ∧ en.Fair ∧ en.c.e ≠ 0 ∧ ∀ l ∈ maskLanes en.c.e,
      warpXlate en.s en.c.core en.c.b en.c.w (memAddr { zm with mod := 4 } true en.c en.s l / 128 * 128) 0 =
        some (.ok ((0x100 + 16 * l) / 128 * 128) rwx) :=
  ⟨wit (by decide), wit (by decide), wit (by decide), wit (by decide), wit (by decide)⟩
def scratch (s : State) : State := onBlock (fun b => { b with scrSize := 1024, constSize := 512, constAddr := 0x200 }) s
theorem wit_ScratchAndConstantAccesses :
    (∃ en, entry .lds { zm with d := 4, mod := 2 } (scratch (atS4 512 s0)) = some en ∧ en.Fair ∧ en.c.e ≠ 0 ∧
      InScratch en { zm with d := 4, mod := 2 } 16 true) ∧
    (∃ en, entry .sts { zm with a := 4, mod := 2 } (scratch (atS4 512 s0)) = some en ∧ en.Fair ∧ en.c.e ≠ 0 ∧
      InScratch en { zm with a := 4, mod := 2 } 16 false) ∧
    (∃ en, entry .atoms { zm with ty := .b64, d := 4, a := 6, b := 8, mod := 0x27 } (scratch (atS4 512 s0)) = some en ∧ en.Fair ∧ en.c.e ≠ 0 ∧
      InScratch en { zm with ty := .b64, d := 4, a := 6, b := 8, mod := 0x27 } 8 true) ∧
    ∃ en, entry .ldk { zm with d := 4 } (scratch (atS4 0 s0)) = some en ∧ en.Fair ∧ en.c.e ≠ 0 ∧
      ∀ l ∈ maskLanes en.c.e, memAddr { zm with d := 4 } false en.c en.s l % 4 = 0 ∧ memAddr { zm with d := 4 } false en.c en.s l + 4 ≤ en.c.b.constSize ∧
        warpXlate en.s en.c.core en.c.b en.c.w ((en.c.b.constAddr + memAddr { zm with d := 4 } false en.c en.s l) % 2 ^ 64) 0 =
          some (.ok (0x200 + 16 * l) rwx) :=
  ⟨wit (by decide), wit (by decide), wit (by decide), wit (by decide)⟩
/-- An operation with one access, of lane 3. -/
def lastOp (k : OpKind) (sp : Space) (a : Attr) (addr : Nat) (ld : Bool) (d : Option Nat) : MemOp :=
  { id := 1, kind := k, space := sp, ty := .b32, size := 4, dst := d, nreg := 1, members := [(0, laneBit 3)]
    accs := [{ lane := 3, addr := addr, attr := a, a := [7], b := [9] }], acq := false, rel := false, share := 0, iaddr := 0, flags := 0, isLoad := ld, opens := [0]
    remote := [], relDone := false, low := 3, e := laneBit 3 }
def pending (o : MemOp) (s : State) : State := { onWarp (fun w => { w with ops := [o], loads := 1, stores := 1, outst := [(4, 1)] }) s with nextId := 2 }
def cctlZ (k : BitVec 7) : Z1 := { z with ext := .mem { idxP := false, baseP := false, scale := 0, index := 0, base := 0, off := 0 }, mod := k }
def lane3 (s : State) : State := onWarp (fun w => { w with p := [(0, 8)] }) s
theorem wit_FencesAndCacheHints :
    (∃ en, entry .fence { z with mod := 0xB } s0 = some en ∧ en.Fair ∧ (∀ q ∈ en.c.members, memPending en.s en.c.core q.1 en.s.nextId = false) ∧
      (∀ e ∈ (en.s.core en.c.core).warps, e.2.fences = []) ∧ en.s.owners = []) ∧
    (∃ en, entry .fence { z with mod := 0xB } (pending (lastOp .store .glob rwx 0x40 false none) s0) = some en ∧ en.Fair ∧
      (∀ q ∈ en.c.members, memPending en.s en.c.core q.1 en.s.nextId = true) ∧ ∀ e ∈ (en.s.core en.c.core).warps, e.2.fences = []) ∧
    (∃ en, entry .pref zm (atS4 0x100 s0) = some en ∧ en.Fair) ∧
    (∃ en, entry .pref { zm with mod := 1 } (lane3 (atS4 0x100 s0)) = some en ∧ en.Fair ∧ en.c.e = laneBit 3 ∧
      warpXlate en.s en.c.core en.c.b en.c.w (memAddr { zm with mod := 1 } true en.c en.s 3) 0 = some (.ok 0x130 rwx) ∧
      (en.s.kind 0x130).isBank = false ∧ en.s.kind 0x130 ≠ .unmapped ∧ l1Allowed en.s 0x130 rwx = true ∧ en.s.poisoned 0x130 = false ∧
      lineHeld en.s none (lineOf 0x130) = false) ∧
    (∀ k ∈ [3, 5], ∃ en, entry .cctl (cctlZ k) (agent s0) = some en ∧ en.Fair ∧ en.c.e ≠ 0) ∧
    (∀ k ∈ [3, 5], ∃ en, entry .cctl (never (cctlZ k)) (agent s0) = some en ∧ en.Fair ∧ en.c.e = 0 ∧ en.c.scope = .lane) ∧
    ∃ en, entry .cctl { cctlZ 3 with scope := .set } (fireNone (.cctl { cctlZ 3 with scope := .set }) (agent (roleBlock .matrix s0))) = some en ∧ en.Fair ∧ en.c.e = 0 ∧ en.c.scope = .set := by
  refine ⟨wit (by decide), wit (by decide), wit (by decide), wit (by decide), fun k h => wit ?_, fun k h => wit ?_, wit (by decide)⟩ <;> revert k <;> decide
/-- The conditions of LastAccess for the operation above, decided. -/
theorem lastAccess (o : MemOp) (y : LaneAcc) (w : Warp) (s : State)
    (h : (s.warp? core 0 = some w ∧ findOp s core 0 o.id = some o ∧ o.accs = [y] ∧ w.ops = [o] ∧ o.remote = [] ∧ (o.acq = false ∧ o.rel = false ∧ (o.kind = .value ∨ o.flags = 0)) ∧
      (heldBack s core 0 o y = false ∧ ownerWait s core o y = false) ∧ y.lane < 32 ∧ o.members = [(0, laneBit y.lane)] ∧ (o.opens = [0] ∧ o.todo = 0) ∧
      (∀ e ∈ (s.core core).warps, e.2.fences = []) ∧ s.advs = [] ∧ w.poison = none)) :
    LastAccess s core 0 w o y :=
  ⟨by decide, h.1, h.2.1, h.2.2.1, h.2.2.2.1, h.2.2.2.2.1, h.2.2.2.2.2.1, h.2.2.2.2.2.2.1, h.2.2.2.2.2.2.2.1, h.2.2.2.2.2.2.2.2.1, h.2.2.2.2.2.2.2.2.2.1,
    h.2.2.2.2.2.2.2.2.2.2⟩
def accOf (a : Attr) (addr : Nat) : LaneAcc := { lane := 3, addr := addr, attr := a, a := [7], b := [9] }
def warpIn (s : State) : Warp := ((s.core core).warps.headD (0, { block := 0, num := 0, role := .plain, agent := false, pc := 0, path := 0 })).2
/-- A load from scratchpad; one from a page no L1 holds (alloc 1, 25 R428); one by LDK; an atomic. -/
theorem wit_ResultsLand :
    (∀ o ∈ [lastOp .load .scr rwx 0x40 true (some 4), lastOp .load .glob { rwx with alloc := 1 } 0x40 true (some 4), lastOp .load .const rwx 0x40 true (some 4),
        lastOp (.atom 7 true) .glob rwx 0x40 true (some 4)],
      LastAccess (pending o (scratch s0)) core 0 (warpIn (pending o s0)) o (o.accs.headD (accOf rwx 0)) ∧ (4, o.id) ∈ (warpIn (pending o s0)).outst) ∧
    l1Allowed s0 0x40 { rwx with alloc := 1 } = false ∧ l1Get s0 core (lineOf 0x40) = none ∧ s0.poisoned 0x40 = false ∧ 8 ≤ privRegs (s0.block core 0) (warpIn s0) ∧
    smGet? (s0.core core).kcache ((s0.block core 0).launch * 2 ^ 64 + lineOf 0x40) = none := by
  refine ⟨fun o h => ⟨lastAccess _ _ _ _ ?_, ?_⟩, by decide⟩ <;> revert o <;> decide
/-- The line of address 0x40 is in the core's L1. -/
def resident (s : State) : State := l1Put s core 0 { valid := BitVec.allOnes 128, dirty := 0, data := 0, prio := 0, used := 0 }
/-- A store to scratchpad; to a page no L1 holds, to bank memory and to a write-through page, and a bank operation; to a line of the L1. -/
theorem wit_StoresPerform :
    (∀ o ∈ [lastOp .store .scr rwx 0x40 false none, lastOp .store .glob { rwx with alloc := 1 } 0x40 false none, lastOp .store .glob rwx 0x40000000040 false none,
        lastOp .store .glob { rwx with wt := true } 0x40 false none, lastOp (.bank 0) .glob rwx 0x40000000040 false none, lastOp .store .glob rwx 0x40 false none],
      LastAccess (pending o (resident (scratch s0))) core 0 (warpIn (pending o s0)) o (o.accs.headD (accOf rwx 0))) ∧
    (storeAtHome s0 0x40 { rwx with alloc := 1 } = true ∧ storeAtHome s0 0x40 { rwx with wt := true } = true ∧ storeAtHome s0 0x40000000040 rwx = true ∧
      storeAtHome (resident s0) 0x40 rwx = false) ∧
    (l1Get (resident s0) core (lineOf 0x40)).isSome = true ∧ ownedBy (resident s0) (lineOf 0x40) = none ∧
    l1Get (resident s0) core (lineOf 0x40000000040) = none ∧ s0.poisoned 0x40000000040 = false := by
  refine ⟨fun o h => lastAccess _ _ _ _ ?_, by decide⟩
  revert o
  decide

/-! ### Witnesses: trailers, selection, translation -/

/-- The trailer of a run at address 8, issued before. -/
def tr8 : Trailer := { addr := 8, len := 8, issued := 0, gap := 0, giveWay := false, names := [] }
def ended (f : Warp → Warp) (s : State) : State := { onWarp (fun w => f { w with trailer := some tr8, inRun := true, pos := 2 }) s with now := 5 }
theorem trailerGoes (c sl : Nat) (w : Warp) (s : State)
    (h : s.warp? c sl = some w ∧ w.trailer = some tr8 ∧ (w.stopped = none ∧ w.poison = none) ∧ commitReady w tr8 = true ∧ commitTime w tr8 ≤ s.now ∧
      w.pend = [] ∧ (s.block c w.block).bpend = []) : TrailerGoes s c sl w tr8 :=
  ⟨h.1, h.2.1, h.2.2.1, h.2.2.2.1, h.2.2.2.2.1, h.2.2.2.2.2⟩
theorem trailerDue (c sl : Nat) (w : Warp) (s : State)
    (h : (s.warp? c sl = some w ∧ w.trailer = some tr8 ∧ (w.stopped = none ∧ w.poison = none) ∧ commitReady w tr8 = true ∧ commitTime w tr8 ≤ s.now ∧
      w.pend = [] ∧ (s.block c w.block).bpend = []) ∧ w.stack = [] ∧ w.serial = none ∧ w.skip = false) : TrailerDue s c sl w tr8 :=
  ⟨trailerGoes c sl w s h.1, h.2⟩
/-- No transfer; each transfer that takes effect at the trailer; and a loop level whose end is this trailer, with a round left, and without. -/
theorem wit_TrailerCommits :
    (∀ q ∈ [(none, []), (some (Xfer.bra 0xFF true 64 0), []), (some (.bra 0 true 64 0), []), (some (.bra 0xFF false 64 128), []), (some (.brx 0xF0 true [(4, 64)] 0), []),
        (some (.call 1540 64), []), (some (.ret 64), []), (some (.exit 0xFF), []), (some (.loop 3 64), []), (some (.loop 0 64), []),
        (some .lbrk, [{ ls := 0, le := 8, lc := 2, depth := 0 }]), (none, [{ ls := 0, le := 8, lc := 2, depth := 0 }]), (none, [({ ls := 0, le := 8, lc := 1, depth := 0 } : LoopLvl)])],
      TrailerDue (ended (fun w => { w with xfer := q.1, loops := q.2 }) s0) core 0 (warpIn (ended (fun w => { w with xfer := q.1, loops := q.2 }) s0)) tr8) ∧
    (let w := warpIn (ended (fun w => { w with xfer := some (.bra 0xFF false 64 128) }) s0)
     (0xFF : Mask) ≠ 0 ∧ w.path &&& ~~~(0xFF : Mask) ≠ 0 ∧ (128 : Nat) ≠ 16 ∧ w.xret = []) ∧ lowLane 0xF0 = some 4 := by
  refine ⟨fun q h => trailerDue _ _ _ _ ?_, by decide⟩
  revert q
  decide
/-- A divergence level whose halves meet at address 200. -/
def level0 : StackEnt := { rpc := 200, restore := fullMask, pending := 0xFF, phase := false, group := false, fall := 0 }
/-- Uniform branches inside a divergence: with lanes in E, with none, by register with and without lanes; and an EXIT that leaves lanes of the path. -/
theorem wit_UniformBranchesAndExits :
    (∀ x ∈ [Xfer.bra 0xFF true 64 0, .bra 0 true 64 0, .brx 0xF0 true [(4, 64)] 0, .brx 0 true [] 0, .exit 0xFF],
      let s := ended (fun w => { w with xfer := some x, stack := [level0] }) s0
      TrailerGoes s core 0 (warpIn s) tr8 ∧ (warpIn s).xfer = some x ∧ (warpIn s).serial = none ∧ (warpIn s).skip = false ∧ (warpIn s).xret = [] ∧ (warpIn s).path ≠ 0 ∧
      (∀ l ∈ (warpIn s).loops.head?, l.le ≠ tr8.addr) ∧ (∀ k ∈ (warpIn s).stack.head?, k.rpc ≠ 64 ∧ k.rpc ≠ 16) ∧ (warpIn s).path &&& ~~~0xFF#32 ≠ 0) ∧
    lowLane 0xF0 = some 4 ∧ lowLane 0 = none := by
  refine ⟨fun x h => ⟨trailerGoes _ _ _ _ ?_, ?_⟩, by decide⟩ <;> revert x <;> decide
def freed (s : State) : State := onCore (fun k => { k with parts := List.replicate 8 {} }) s
def barZ : Instr := .layset { z with scope := .set }
/-- The warp has arrived at its set's latch 0. -/
def arrived : State :=
  onWarp (fun w => { w with arrived := some { key := 0, lanes := fullMask, addr := 0, len := 16, instr := barZ, counted := true } })
    (onBlock (fun b => { b with latches := [(0, { openOn := some (0, 1), arrivals := [(0, fullMask)] })] }) (freed (roleBlock .copy s0)))
theorem wit_SelectionAndRendezvous :
    (0 < ((freed s0).core core).parts.length ∧ partIdle (freed s0) core 0 = true ∧ readyOrder (freed s0) core 0 ≠ [] ∧
      ∀ e ∈ ((freed s0).core core).warps, e.2.poison = none) ∧
    latchReady arrived core 0 0 = true ∧ (arrived.block core 0).slotOf 0 = some 0 := by decide
/-- Tables for the physical function: both stages map the lowest 512 MiB to itself, stage 1 through the page at 0x30000. -/
def tables (s : State) : State :=
  ((((s.setMemNat 0x10000 8 0x20001).setMemNat 0x20000 8 0x1F).setMemNat 0x30000 8 0x40001).setMemNat 0x40000 8 0x1F).setReg (ctxReg 0 2) 0x30000
    |>.setReg (ctxReg 0 4) 0x10000
def walking (w : Walk) (s : State) : State := { s with walks := [w], nextId := 2 }
def walk0 (va : Nat) (kind : Nat) : Walk := { id := 1, core := core, fn := 0, va := va, kind := kind, secure := false, who := .warp core 0, parked := false }
/-- A walk that finds a translation for a write; one whose stage-1 entry at level 2 is absent; one of an address of 53 bits; one into a hole (25 R430). -/
theorem wit_Walks :
    ((walkFull (walking (walk0 0x50000 1) (tables s0)) core false 0 0x50000 1).1 matches .ok _) ∧
    ((walkFull (walking (walk0 0x60000000 0) (tables s0)) core false 0 0x60000000 0).1 matches .miss 1 _ _) ∧
    ((walkFull (walking (walk0 0x60000000 0) s0) core false 0 0x60000000 0).1 matches .miss 2 _ _) ∧
    ((walkFull (walking (walk0 (2 ^ 52) 0) s0) core false 0 (2 ^ 52) 0).1 matches .bad 0x0A 1) ∧
    (walking (walk0 0x50000 1) s0).walks.find? (fun y => y.id == 1 && !y.parked) = some (walk0 0x50000 1) ∧
    ((walking (walk0 0x50000 1) s0).warp? core 0).any (fun w => w.stopped.isNone) = true := by decide
def asked : State :=
  { walking { walk0 0x60000000 0 with parked := true } s0 with reqs := [{ tag := some 5, fn := 0, va := 0x60000000, gpa := 0, sub := 1, kind := 0, level := 2, walks := [1] }] }
/-- Replies with success, failure and a tag that is not outstanding. -/
theorem wit_PageReplies :
    (asked.reqs.find? fun r => r.fn == nfld 0x01000005 22 16 && r.tag == some (nfld 0x01000005 15 0)).isSome = true ∧ nfld 0x01000005 25 24 = 1 ∧
    (asked.reqs.find? fun r => r.fn == nfld 0x02000005 22 16 && r.tag == some (nfld 0x02000005 15 0)).isSome = true ∧ nfld 0x02000005 25 24 = 2 ∧
    (asked.reqs.find? fun r => r.fn == nfld 0x01000006 22 16 && r.tag == some (nfld 0x01000006 15 0)) = none := by decide
def invalidating : State := { s0 with invals := [{ id := 1, kind := 0, fn := 0, addr := 0, walks := [7], who := some (core, 0) }], nextId := 2 }
theorem wit_Invalidations :
    s0.reg invalBusy = 0 ∧ (invalidating.invals.find? fun j => j.id == 1).isSome = true ∧ (∀ w ∈ invalidating.walks, w.id ∈ [7] → w.parked = true) ∧
    (invalidating.warp? core 0).isSome = true := by decide

/-- An answer of the caches, decided. -/
def hitB (s : State) (c fn : Nat) (sec : Bool) (va kind pa : Nat) : Bool :=
  decide (va < 2 ^ 52) && (s.tlbLookup c fn va kind).any fun e =>
    match s.judge sec kind (e.pa + (va - e.va)) e.attr with | .ok p a => p == pa && !a.fabric | _ => false
theorem cacheHit {s : State} {c fn va kind pa : Nat} {sec : Bool} (h : hitB s c fn sec va kind pa = true) : CacheHit s c fn sec va kind pa := by
  unfold hitB at h
  rw [Bool.and_eq_true] at h
  refine ⟨of_decide_eq_true h.1, ?_⟩
  cases e : s.tlbLookup c fn va kind with
  | none => rw [e] at h; cases h.2
  | some t =>
    rw [e] at h
    have h := h.2
    simp only [Option.any_some] at h
    cases j : s.judge sec kind (t.pa + (va - t.va)) t.attr with
    | bad c d => rw [j] at h; cases h
    | ok p a =>
      rw [j] at h
      simp only [Bool.and_eq_true, beq_iff_eq, Bool.not_eq_true'] at h
      exact ⟨t, a, rfl, by rw [j, h.1], h.2⟩
theorem unheld {s : State} (h : s.owners = []) (pa n : Nat) : Unheld s pa n := by simp [Unheld, rangeHeld, h]
theorem engineReads {s : State} {c fn id va n pa : Nat} {sec : Bool} (hit : CacheHit s c fn sec va 0 pa)
    (h : 0 < n ∧ va % 2 ^ 16 + n ≤ 2 ^ 16 ∧ NoWalk s id ∧ s.poison = [] ∧ s.owners = []) : EngineReads s c fn sec id va n pa :=
  ⟨h.1, h.2.1, hit, h.2.2.1, fun i _ => by simp [State.poisoned, h.2.2.2.1, smGet?], unheld h.2.2.2.2 pa n⟩
theorem engineWrites {s : State} {c fn id va n pa : Nat} {sec : Bool} (hit : CacheHit s c fn sec va 1 pa)
    (h : 0 < n ∧ va % 2 ^ 16 + n ≤ 2 ^ 16 ∧ NoWalk s id ∧ s.owners = []) : EngineWrites s c fn sec id va n pa :=
  ⟨h.1, h.2.1, hit, h.2.2.1, unheld h.2.2.2 pa n⟩

def record0 (code lanes : Nat) : FaultRec :=
  { code := code, sub := 0, flags := 0, warp := 0, set := 0, pos := 0, instr := 0, runStart := 0, lanes := BitVec.ofNat 32 lanes, trap := 0, tempsW := 0, time := 0
    addrs := [], temps := [], reported := false, resolved := false, walks := [], group := [0] }
def faulted (code lanes : Nat) (s : State) : State := onWarp (fun w => { w with stopped := some (record0 code lanes) }) s
/-- An agent's warp in slot 63. -/
def withAgent (f : Warp → Warp) (s : State) : State :=
  s.setWarp core 63 (f { block := 16, num := 0, role := .plain, agent := true, pc := 0, path := fullMask })
/-- The launch of the block: its record's report area is at 0x1000, its vector 3. -/
def launch0 : Launch :=
  { addr := 0x800, fn := 0, tenant := 0, pa := some 0x800
    recd := List.replicate 96 0 ++ toBytes 8 0x1000 ++ toBytes 2 3 ++ List.replicate 150 0, desc := List.replicate 128 0, checked := true }
def reporting : State :=
  ({ withAgent id (faulted 0x15 1 s0) with launches := [(0, launch0)] }.setMemNat 0x1010 4 0).setMemNat 0x1008 4 2
theorem wit_FaultReports :
    (reportable (warpIn (faulted 0x15 1 s0))).isSome = true ∧ (s0.launch? 0 = none ∧ nativeAgent s0 core = true ∧ s0.copies = []) ∧
    (nativeAgent reporting core = false ∧ (reporting.launch? 0).any (fun l => l.field 96 8 == 0x1000) = true) ∧
    EngineReads reporting core 0 (reporting.blockSecure core (reporting.block core 0)) (reportId core 0) 0x1000 64 0x1000 ∧
    (reporting.memNat 0x1000 8 + 2 ^ 64 - reporting.memNat 0x1010 8) % 2 ^ 64 < reporting.memNat 0x1008 4 ∧
    EngineWrites reporting core 0 (reporting.blockSecure core (reporting.block core 0)) (reportId core 0) 0x1040 2048 0x1040 ∧
    EngineWrites reporting core 0 (reporting.blockSecure core (reporting.block core 0)) (reportId core 0) 0x1000 8 0x1000 :=
  ⟨by decide, by decide, by decide, engineReads (cacheHit (by decide)) (by decide), by decide, engineWrites (cacheHit (by decide)) (by decide),
    engineWrites (cacheHit (by decide)) (by decide)⟩
/-- The agent in slot 63 executes XRET.replay for warp 0 of block 0: s4 names both (17 R357). -/
def returning (code : Nat) : State :=
  withAgent (fun w => { w with trailer := some tr8, xret := [(0, 0)] }) { faulted code 1 s0 with now := 5 }
theorem wit_ReturnFromFault :
    (∃ en, entry .xret { z with scope := .warp, a := 1540 } (agent s0) = some en ∧ en.Fair ∧ en.c.e ≠ 0 ∧ (en.s.warp? en.c.core en.c.slot).isSome = true) ∧
    (∀ c ∈ [0x0A, 0x16, 0x15], (returning c).warp? core 63 = some ((smGet? ((returning c).core core).warps 63).getD (warpIn s0)) ∧
      TrailerDue (returning c) core 63 ((smGet? ((returning c).core core).warps 63).getD (warpIn s0)) tr8) ∧
    (smGet? ((returning 0x16).core core).blocks 0).any (fun b => b.slotOf 0 == some 0) = true ∧
    ((returning 0x16).warp? core 0).any (fun v => v.block == 0 && v.stopped.any fun r => !r.resolved && r.group == [0]) = true ∧
    ((returning 0x16).warp? core 63).any (fun w => !w.gone) = true := by
  refine ⟨wit (by decide), ?_, by decide, by decide, by decide⟩
  intro c h
  refine ⟨?_, trailerDue _ _ _ _ ?_⟩ <;> (revert c; decide)
def empty0 : State :=
  onCore (fun k => { k with warps := [] }) { s0 with launches := [(0, { launch0 with recd := List.replicate 24 0 ++ toBytes 2 4 ++ toBytes 2 1 ++ toBytes 2 1 ++ List.replicate 226 0 })] }
theorem wit_Retirement :
    warpDone (onWarp (fun w => { w with exited := fullMask }) s0) core 0 = true ∧
    blockDone empty0 core 0 = true ∧ L1Clean empty0 core ∧ wbWaits empty0 core = false ∧ (empty0.launch? (empty0.block core 0).launch).any (fun l => l.pa == some 0x800 && l.fin.isNone && !l.aborted &&
      decide ((empty0.memNat (0x800 + 136) 8 + 1) % 2 ^ 64 ≠ l.blocks)) = true := by decide

/-! ### Witnesses: system instructions and engines -/

theorem witS {o : Op} {x : Z1} {s : State} {P Q : Entry → Prop} (f : ∀ en, Q en → P en) (h : ∃ en, entry o x s = some en ∧ Q en) :
    ∃ en, entry o x s = some en ∧ P en := h.elim fun en q => ⟨en, q.1, f en q.2⟩
def wz : Z1 := { z with scope := .warp }
theorem wit_SystemRegisters :
    (∃ en, entry .sysrd { wz with d := 1540, ext := .imm 0x10 } s0 = some en ∧ en.c.e ≠ 0) ∧
    (∃ en, entry .rand { z with d := 8, a := 2, ext := .imm 0 } s0 = some en ∧ en.c.e ≠ 0) ∧
    (∀ k ∈ [0, 1, 0x30, 0x31, 0x40], ∃ en, entry .syswr { wz with a := 1540, ext := .imm (BitVec.ofNat 32 k) } (agent s0) = some en ∧ en.c.e ≠ 0) ∧
    ∃ en, entry .nfset { wz with ext := .imm 0x743, mod := 7 } (roleBlock .matrix s0) = some en ∧ en.c.e ≠ 0 := by
  refine ⟨wit (by decide), wit (by decide), fun k h => wit ?_, wit (by decide)⟩
  revert k
  decide

/-- The leaf descriptors of a leaf: enabled, room for 8. -/
def leafOn (t k : Nat) (s : State) : State := s.setReg (leafReg t k 0) 0x80000008
abbrev LeafOk (s : State) (t k cls : Nat) : Prop :=
  s.jobs = [] ∧ descOn s t true k = true ∧ treeRoom s t true k = true ∧ (s.reg (leafReg t k 2)).getLsbD 31 = false ∧
  (s.reg (leafReg t k (8 + cls % 8))).getLsbD 31 = false ∧ fld (s.reg (leafReg t k 1)) 15 0 = 0
theorem LeafOk.takes {s : State} {t k cls : Nat} (h : LeafOk s t k cls) : LeafTakes s t k cls :=
  ⟨h.1, h.2.1, h.2.2.1, h.2.2.2.1, h.2.2.2.2.1, h.2.2.2.2.2⟩
/-- A record of zeros at 0x1000 is well formed; s6 names the launch leaf of tower 0 (17 R353, R355). -/
def pushing : State := leafOn 0 0 (agent (onWarp (fun w => { w with s := [(4, 0x1000), (6, 0x400)] }) s0))
abbrev PushOk (win : Bool) (fn c : Nat) (s : State) (sec : Bool) : Prop :=
  hitB s c fn sec 0x1000 0 0x1000 = true ∧ hitB s c fn sec 0x1038 1 0x1038 = true ∧ NoWalk s s.nextId ∧ (s.poison = [] ∧ s.owners = []) ∧
  (win = true ∨ bytesField (s.bytesAt 0x1000 64) 0 1 = 0) ∧
  (if win = true ∧ fn ≠ 0 then smGetD s.cfg.tenants 0 fn else bytesField (s.bytesAt 0x1000 64) 2 2) < 4096 ∧
  bytesField (s.bytesAt 0x1000 64) 12 4 ≤ 8 ∧ LeafOk s 0 0 0
theorem PushOk.pushable {win : Bool} {fn c : Nat} {s : State} {sec : Bool} (h : PushOk win fn c s sec) : Pushable s c fn sec 0x1000 0x400 0x1000 0x1038 win :=
  ⟨engineReads (cacheHit h.1) ⟨by decide, by decide, h.2.2.1, h.2.2.2.1⟩, ⟨cacheHit h.2.1, unheld h.2.2.2.1.2 _ _⟩, h.2.2.2.2.1, h.2.2.2.2.2.1, h.2.2.2.2.2.2.1, by decide, h.2.2.2.2.2.2.2.takes⟩
def saved (st : Nat) (s : State) : State := (s.setCore (savedAt s 0x2000) { blocks := [(0, { slots := [0], roles := [.plain] })] }).setMemNat 0x2000 4 st
theorem wit_AgentInstructions :
    (∃ en, entry .enq { wz with a := 1540, b := 1542 } pushing = some en ∧ en.Fair ∧ en.c.e ≠ 0 ∧ en.Settled ∧
      en.c.scalPair en.s 1540 = 0x1000 ∧ en.c.scal en.s 1542 = 0x400 ∧ en.c.members = [(en.c.slot, en.c.e)] ∧
      Pushable en.s en.c.core en.c.b.fn (en.s.blockSecure en.c.core en.c.b) 0x1000 0x400 0x1000 0x1038 false) ∧
    (∃ en, entry .tlbinv { wz with a := 1540, b := 1542, mod := 2 } pushing = some en ∧ en.Fair ∧ en.c.e ≠ 0) ∧
    (∃ en, entry .ctxsave { wz with a := 1542, b := 1540 } (onWarp (fun w => { w with s := [(4, 0x2000)] }) (agent s0)) = some en ∧ en.Fair ∧ en.c.e ≠ 0 ∧
      warpXlate en.s en.c.core en.c.b en.c.w (en.c.scalPair en.s 1540) 1 = some (.ok 0x2000 rwx) ∧ Unheld en.s 0x2000 4 ∧
      (smGet? (en.s.core en.c.core).blocks (en.c.scal en.s 1542 % 16)).any (fun b => b.saving.isNone && b.secure == en.s.secureMem 0x2000) = true) ∧
    ∃ en, entry .ctxload { wz with a := 1540 } (onWarp (fun w => { w with s := [(4, 0x2000)] }) (agent (saved 1 s0))) = some en ∧ en.Fair ∧ en.c.e ≠ 0 ∧
      warpXlate en.s en.c.core en.c.b en.c.w (en.c.scalPair en.s 1540) 1 = some (.ok 0x2000 rwx) ∧
      (smGet? (en.s.core (savedAt en.s 0x2000)).blocks 0).any (fun b => b.secure == en.s.secureMem 0x2000) = true ∧ en.s.memNat 0x2000 4 = 1 :=
  ⟨witS (fun en h => ⟨h.1, h.2.1, h.2.2.1, h.2.2.2.1, h.2.2.2.2.1, h.2.2.2.2.2.1, h.2.2.2.2.2.2.pushable⟩) (Q := fun en => en.Fair ∧ en.c.e ≠ 0 ∧
      en.Settled ∧ en.c.scalPair en.s 1540 = 0x1000 ∧ en.c.scal en.s 1542 = 0x400 ∧ en.c.members = [(en.c.slot, en.c.e)] ∧
      PushOk false en.c.b.fn en.c.core en.s (en.s.blockSecure en.c.core en.c.b)) (wit (by decide)), wit (by decide), wit (by decide), wit (by decide)⟩

def sz : Z1 := { z with scope := .set }
/-- Matrix slots of the core, 0 as given, and a role block whose matrix leaf takes tasks. -/
def withSlot (m : MSlot) (s : State) : State :=
  leafOn (towerOf core) (matrixLeaf core) (onCore (fun k => { k with slots := m :: List.replicate 3 {} }) (onBlock (fun b => { b with scrSize := 1024, nf := [(0, 0x0743)] }) (roleBlock .matrix s)))
abbrev SlotOk (en : Entry) (i : Nat) : Prop :=
  ((en.s.core en.c.core).slots[i]?).any (fun m => m.state == 1 && m.owner == en.c.bi) = true ∧ slotWaits en.s en.c.core i = false ∧ LeafOk en.s (towerOf en.c.core) (matrixLeaf en.c.core) en.c.b.cls
theorem SlotOk.ready {en : Entry} {i : Nat} (h : SlotOk en i) : SlotReady en i := by
  obtain ⟨h, n, l⟩ := h
  cases e : (en.s.core en.c.core).slots[i]? with
  | none => rw [e] at h; cases h
  | some m =>
    rw [e] at h
    simp only [Option.any_some, Bool.and_eq_true, beq_iff_eq] at h
    exact ⟨⟨m, e, h.1, h.2⟩, n, l.takes⟩
theorem wit_MatrixReservations :
    (∃ en, entry .mxrsv sz (fire (.mxrsv sz) 0 8 (withSlot {} s0)) = some en ∧ en.Fair ∧ en.c.e ≠ 0 ∧ ((en.s.core en.c.core).slots[fld sz.mod 4 3]?).any (·.state == 0) = true) ∧
    (∃ en, entry .mxrel sz (fire (.mxrel sz) 0 8 (withSlot { state := 1 } s0)) = some en ∧ en.Fair ∧ en.c.e ≠ 0 ∧ SlotReady en 0) ∧
    ∀ q ∈ [({ state := 1 } : MSlot), { state := 2 }], ∃ en, entry .mxstat { sz with d := 4 } (fire (.mxstat { sz with d := 4 }) 0 8 (withSlot q s0)) = some en ∧ en.Fair ∧ en.c.e ≠ 0 ∧
      ((en.s.core en.c.core).slots[0]?).any (fun m => m.owner == en.c.bi && m.state == q.state) = true := by
  refine ⟨wit (by decide), witS (fun en h => ⟨h.1, h.2.1, h.2.2.ready⟩) (Q := fun en => en.Fair ∧ en.c.e ≠ 0 ∧ SlotOk en 0) (wit (by decide)), fun q h => wit ?_⟩
  revert q
  decide
def ctx0 : WCtx := { id := 9, page := 0, len := 16, k := 16, n := 1, nf := 0x0743, addr := 0x1000 }
def wloadZ : Z1 := { sz with a := 1540, ext := .cmd 0x0000000F 16 }
def mxmulZ : Z1 := { sz with ext := .cmd 0 0x02000010 }
def drainZ : Z1 := { sz with d := 512, ext := .cmd 0 0 }
def atblZ : Z1 := { sz with ext := .cmd 0 0x300 }
def matrixAt (i : Instr) (m : MSlot) : State := fire i 0 16 (onWarp (fun w => { w with s := [(4, 0x1000)] }) (withSlot m s0))
theorem wit_MatrixTasks :
    (∃ en, entry .wload wloadZ (matrixAt (.wload wloadZ) { state := 1 }) = some en ∧ (en.Fair ∧ en.c.e ≠ 0 ∧ en.c.b = en.s.block en.c.core en.c.bi) ∧ SlotReady en 0 ∧
      nfValid (smGetD en.c.b.nf 0 0) = true ∧ en.c.scalPair en.s 1540 % 16 = 0) ∧
    (∃ en, entry .mxmul mxmulZ (matrixAt (.mxmul mxmulZ) { state := 1, ctx := some ctx0 }) = some en ∧ (en.Fair ∧ en.c.e ≠ 0 ∧ en.c.b = en.s.block en.c.core en.c.bi) ∧ SlotReady en 0 ∧
      (en.s.mslot en.c.core 0).ctx = some ctx0 ∧ nfValid (smGetD en.c.b.nf 0 0) = true ∧ 0 + 0 * 16 + (ctx0.k * nfBox (smGetD en.c.b.nf 0 0) + 7) / 8 ≤ en.c.b.scrSize) ∧
    (∃ en, entry .mxdrain drainZ (matrixAt (.mxdrain drainZ) { state := 1 }) = some en ∧ (en.Fair ∧ en.c.e ≠ 0 ∧ en.c.b = en.s.block en.c.core en.c.bi) ∧ SlotReady en 0 ∧
      (en.c.b.setOf en.c.w.num).any (fun p => p.2.size == 64) = true ∧ badTile (en.s.mslot en.c.core 0) en.c.e 1 0 0 = false) ∧
    ∃ en, entry .atbl atblZ (matrixAt (.atbl atblZ) { state := 1 }) = some en ∧ (en.Fair ∧ en.c.e ≠ 0 ∧ en.c.b = en.s.block en.c.core en.c.bi) ∧ SlotReady en 0 ∧ 0 + 4 * 4 ≤ en.c.b.scrSize :=
  ⟨witS (fun en h => ⟨h.1, h.2.1.ready, h.2.2⟩) (Q := fun en => (en.Fair ∧ en.c.e ≠ 0 ∧ en.c.b = en.s.block en.c.core en.c.bi) ∧ SlotOk en 0 ∧ nfValid (smGetD en.c.b.nf 0 0) = true ∧ en.c.scalPair en.s 1540 % 16 = 0) (wit (by decide)),
   witS (fun en h => ⟨h.1, h.2.1.ready, h.2.2⟩) (Q := fun en => (en.Fair ∧ en.c.e ≠ 0 ∧ en.c.b = en.s.block en.c.core en.c.bi) ∧ SlotOk en 0 ∧ (en.s.mslot en.c.core 0).ctx = some ctx0 ∧
      nfValid (smGetD en.c.b.nf 0 0) = true ∧ 0 + 0 * 16 + (ctx0.k * nfBox (smGetD en.c.b.nf 0 0) + 7) / 8 ≤ en.c.b.scrSize) (wit (by decide)),
   witS (fun en h => ⟨h.1, h.2.1.ready, h.2.2⟩) (Q := fun en => (en.Fair ∧ en.c.e ≠ 0 ∧ en.c.b = en.s.block en.c.core en.c.bi) ∧ SlotOk en 0 ∧ (en.c.b.setOf en.c.w.num).any (fun p => p.2.size == 64) = true ∧
      badTile (en.s.mslot en.c.core 0) en.c.e 1 0 0 = false) (wit (by decide)),
   witS (fun en h => ⟨h.1, h.2.1.ready, h.2.2⟩) (Q := fun en => (en.Fair ∧ en.c.e ≠ 0 ∧ en.c.b = en.s.block en.c.core en.c.bi) ∧ SlotOk en 0 ∧ 0 + 4 * 4 ≤ en.c.b.scrSize) (wit (by decide))⟩
def task (b : Body) : Task :=
  { id := 5, kind := 1, cls := 0, tenant := 0, flow := 0, length := 1, deadline := 0, user0 := 0, user1 := 0, origin := core, fn := 0, body := b }
def tile (k : TileKind) : TileTask := { core := core, block := 0, set := 0, slot := 0, kind := k, members := [(0, fullMask)], eOnce := fullMask, iaddr := 0, rels := [], fresh := false }
def inLeaf (l : List Task) (s : State) : State := s.setQueue (towerOf core) true (matrixLeaf core) l
theorem wit_TileTasks :
    tileStartable (inLeaf [task (.tile (tile .release))] (withSlot { state := 2 } s0)) core = some (task (.tile (tile .release)), tile .release) ∧
    L1Clean (inLeaf [task (.tile (tile .release))] (withSlot { state := 2 } s0)) core ∧
    (parseBlock ctx0 (wbufRead (onCore (fun k => { k with wbuf := [(0, 1)] }) s0) core 0 ctx0)).isSome = true ∧ ((withSlot { state := 1 } s0).core core).slots[0]? = some { state := 1 } ∧
    (((withSlot {} s0).block core 0).sets[0]?).getD none = some { mask := 1, size := 64 } ∧
    isWload (tile (.wload ctx0)) = true := by decide
/-- A launch leaf translates at the pseudo-core of its tower. -/
def mappedTower (s : State) : State :=
  s.updCore (512 + towerOf core) fun k => { k with tlb := [{ fn := 0, va := 0, size := 2 ^ 16, gpa := 0, gsize := 2 ^ 16, pa := 0, attr := rwx }] }
def staging (b : Body) (k : Nat) (s : State) : State := s.setQueue (towerOf core) true k [task b]
def listed : Launch := { launch0 with recd := List.replicate 256 0 }
/-- A copy segment; a weight block of 16 bytes that is well formed; a launch's list of one entry, whose hint is of 64 bytes at
0x4000, before and after it is read. -/
theorem wit_Staging :
    stagingTasks (staging (.seg 1 0 64) (copyLeaf core) s0) (towerOf core) (copyLeaf core) = [task (.seg 1 0 64)] ∧
    (let s := (staging (.tile (tile (.wload ctx0))) (matrixLeaf core) (withSlot { state := 1, ctx := some ctx0 } s0)).setMemNat 0x1000 8 1
     stagingTasks s (towerOf core) (matrixLeaf core) = [task (.tile (tile (.wload ctx0)))] ∧ pagesRead s core (task (.tile (tile (.wload ctx0)))) (tile (.wload ctx0)) ctx0 = false ∧
     L1Clean s core ∧ EngineReads s core 0 false 5 0x1000 16 0x1000 ∧ (parseBlock ctx0 (s.bytesAt 0x1000 16)).isSome = true) ∧
    ∀ list, list = none ∨ list = some (toBytes 8 0x4000 ++ toBytes 8 0 ++ toBytes 4 64 ++ toBytes 12 0) →
      let x : Task := { task (.launch 7) with stCount := 1, stList := list }
      let s := mappedTower { s0.setQueue (towerOf core) true 0 [x] with launches := [(7, listed)] }
      stagingTasks s (towerOf core) 0 = [x] ∧ (s.launch? 7).isSome = true ∧ x.stDone < x.stCount ∧
      EngineReads s (512 + towerOf core) 0 false 5 x.stAddr (32 * x.stCount) x.stAddr ∧
      ∀ bs, list = some bs → bytesField bs 20 4 % 2 = 0 ∧
        EngineReads s (512 + towerOf core) 0 false 5 (bytesField bs 0 8) (bytesField bs 16 4) 0x4000 :=
  ⟨by decide, ⟨by decide, by decide, by decide, engineReads (cacheHit (by decide)) (by decide), by decide⟩,
   fun list h => match list, h with
    | none, _ => ⟨by decide, by decide, by decide, engineReads (cacheHit (by decide)) (by decide), fun _ h => nomatch h⟩
    | some _, .inr rfl => ⟨by decide, by decide, by decide, engineReads (cacheHit (by decide)) (by decide), fun _ h => by
      cases h; exact ⟨by decide, engineReads (cacheHit (by decide)) (by decide)⟩⟩⟩

/-! ### Witnesses: copies and rings -/

def copyAt (s : State) : State := leafOn (towerOf core) (copyLeaf core) (scratch (roleBlock .copy s))
def cpyZ (m : BitVec 7) : Z1 := { z with d := 4, a := 1, b := 2, mod := m, guardP := 0 }
def lay0 (scr : Bool) : Lay := { written := true, scratch := scr, base := 64, size := 4, rank := 1, ext := [8, 1, 1, 1], stride := [4, 0, 0, 0] }
abbrev CopyOk (en : Entry) : Prop :=
  en.Fair ∧ en.c.e ≠ 0 ∧ en.c.b = en.s.block en.c.core en.c.bi ∧ LeafOk en.s (towerOf en.c.core) (copyLeaf en.c.core) en.c.b.cls
abbrev DestsOk (s : State) (c fn : Nat) (l : List Nat) : Prop :=
  (NoWalk s (s.nextId + 1) ∧ L1Clean s c) ∧ ∀ a ∈ l, hitB s c fn (s.copySecure c) a 1 a = true ∧ pageFabric s c fn (s.copySecure c) a = false ∧
    pageFabric s c fn (s.copySecure c) (pageOf a * 2 ^ 16) = false
theorem DestsOk.cached {s : State} {c fn : Nat} {l : List Nat} (h : DestsOk s c fn l) : DestsCached s c fn l :=
  ⟨h.1.1, h.1.2, fun a m => ⟨⟨a, cacheHit (h.2 a m).1⟩, (h.2 a m).2⟩⟩
/-- Lanes 0 and 31 copy 16 bytes from 0x80 of the scratchpad to 0 of it, or to address 0 of memory. -/
def cpyAt : State := onWarp (fun w => { w with p := [(0, 0x80000001)], v := [(64, 0x80), (95, 0x80)] }) (copyAt s0)
theorem wit_CopyInstructions :
    (∃ en, entry .cpy (cpyZ 0x0E) cpyAt = some en ∧ CopyOk en ∧
      ∀ l ∈ maskLanes en.c.e, en.c.regN en.s 1 1 l % 16 = 0 ∧ en.c.regN en.s 2 1 l % 16 = 0 ∧ en.c.regN en.s 1 1 l + 16 ≤ en.c.b.scrSize ∧ en.c.regN en.s 2 1 l + 16 ≤ en.c.b.scrSize) ∧
    (∃ en, entry .cpy { cpyZ 0x0A with a := 4 } cpyAt = some en ∧ CopyOk en ∧
      DestsOk en.s en.c.core en.c.b.fn ((maskLanes en.c.e).map fun l => en.c.regN en.s 4 2 l)) ∧
    (∃ en, entry .tcpy { wz with d := 4, mod := 8 } (onBlock (fun b => { b with lays := [(0, lay0 false), (1, lay0 true)] }) (copyAt s0)) = some en ∧ CopyOk en ∧
      unpushed en.s en.c.core < 16 ∧ tcpyOk (lay0 false) (lay0 true) none = true ∧ (lay0 true).inside en.c.b.scrSize = true ∧
      DestsOk en.s en.c.core en.c.b.fn ((List.range 8).map fun e => (lay0 false).addr (coordOf [8, 1, 1, 1] e))) ∧
    ∃ en, entry .layset { wz with a := 1540, ext := .cmd 0x28 0 } (onWarp (fun w => { w with s := [(4, 64), (6, 8), (10, 4)] }) (copyAt s0)) = some en ∧ CopyOk en ∧
      en.c.scal en.s 1542 % 2 ^ 25 = 8 :=
  ⟨wit (by decide), wit (by decide), wit (by decide), wit (by decide)⟩
def cpyOp (n : Nat) (ps : List (Nat × Nat)) (bytes : Nat) : CopyOp :=
  { id := 1, core := core, block := 0, kind := .cpy n true true ps, dst := 4, members := [(0, fullMask)], rels := [], bytes := bytes, segMax := 65536, pushed := bytes
    task := task (.seg 1 0 bytes), iaddr := 0 }
def segOf (stop : Bool) (hi : Nat) : SegRun := { task := { task (.seg 1 0 hi) with staged := true }, copy := 1, lo := 0, hi := hi, stop := stop }
def copying (stop : Bool) (c : CopyOp) : State :=
  { onCore (fun k => { k with segs := [segOf stop c.bytes] }) (copyAt s0) with copies := [c], nextId := 6 }
/-- A segment whose sources are in the scratchpad; one whose sources are in memory, at pages that are cached. -/
theorem wit_Staging_segments :
    ∀ sS ∈ [true, false],
      let c := { cpyOp 16 [(0, 128), (16, 64)] 32 with kind := .cpy 16 true sS [(0, 128), (16, 64)] }
      let s := { staging (.seg 1 0 32) (copyLeaf core) s0 with copies := [c] }
      stagingTasks s (towerOf core) (copyLeaf core) = [task (.seg 1 0 32)] ∧ s.copy? 1 = some c ∧ NoWalk s 5 ∧
      ∀ e ∈ elemsOf c 0 32, let a := (([(0, 128), (16, 64)][e]?).map (·.2)).getD 0
        a < 2 ^ 52 ∧ (s.tlbLookup c.core c.task.fn a 0).isSome = true := by decide
/-- Two pieces of 16 bytes; and a copy of 8 KiB whose first half is written, told to stop. -/
theorem wit_CopySegments :
    (staging (.seg 1 0 64) (copyLeaf core) s0).queue (towerOf core) true (copyLeaf core) = [task (.seg 1 0 64)] ∧
    taskSaving (staging (.seg 1 0 64) (copyLeaf core) s0) core (task (.seg 1 0 64)) = false ∧
    ScratchCopy (copying false (cpyOp 16 [(0, 128), (16, 64)] 32)) core 0 16 [(0, 128), (16, 64)] (segOf false 32) (cpyOp 16 [(0, 128), (16, 64)] 32) ∧
    (let c := { cpyOp 4096 [(0, 0), (0, 0)] 8192 with did := [0] }
     let s := copying true c
     ((s.core core).segs.find? fun h => h.task.id == 5 && h.stop) = some (segOf true 8192) ∧ segReady s core (segOf true 8192) = true ∧
     (doChunk s c (segOf true 8192)).1 = true ∧ ((doChunk s c (segOf true 8192)).2.copy? 1).any (fun d => decide (d.retired + 4096 < d.bytes) && !d.dead) = true) := by
  refine ⟨by decide, by decide, ⟨by decide, by decide, by decide, by decide, by decide, by decide, by decide, by decide, by decide, by decide, ?_⟩, by decide +kernel⟩
  intro i j p q hi hj hne
  match i, j, hi, hj with
  | 0, 0, _, _ => exact absurd rfl hne
  | 0, 1, hi, hj => cases hi; cases hj; decide
  | 1, 0, hi, hj => cases hi; cases hj; decide
  | 1, 1, _, _ => exact absurd rfl hne
  | _ + 2, _, hi, _ => cases hi
  | _, _ + 2, _, hj => cases hj
def ring0 (f t : Nat) : Ring := { base := 0, size := 64, n := 2, slots := [f, t], filling := [0], taken := [1], t := 1 }
def ringAt (g : Ring → Ring) (s : State) : State := onBlock (fun b => { b with rings := [(3, g (ring0 0 2))], ringBase := 2, ringCount := 1 }) (copyAt s)
abbrev RingOk (en : Entry) (f : Ring → Bool) : Prop :=
  en.Fair ∧ en.c.e ≠ 0 ∧ en.c.b = en.s.block en.c.core en.c.bi ∧ (smGet? en.c.b.rings 3).any (fun r => f r && drained en.s en.c.core ((smGet? r.rel r.f).getD []) && drained en.s en.c.core ((smGet? r.rel r.t).getD [])) = true
theorem wit_Rings :
    (∃ en, entry .rinit { blk with ext := .cmd 0x00300000 0x00200040 } (fire (.rinit { blk with ext := .cmd 0x00300000 0x00200040 }) 8 16 (ringAt id s0)) = some en ∧
      RingOk en (fun _ => true) ∧ 0 + 2 * 64 ≤ en.c.b.scrSize) ∧
    (∃ en, entry .ringadv { wz with a := 1540, b := 1542 } (onWarp (fun w => { w with s := [(4, 2)] }) (ringAt id s0)) = some en ∧ RingOk en (fun _ => true) ∧ en.Settled ∧ en.s.advs = [] ∧ en.s.owners = [] ∧
      en.c.b.ringBase ≤ en.c.scal en.s 1540 % 256 ∧ en.c.scal en.s 1540 % 256 < en.c.b.ringBase + en.c.b.ringCount) ∧
    (∃ en, entry .rfillGet { wz with d := 1544, mod := 13 } (ringAt id s0) = some en ∧ RingOk en fun r => r.getQ == [] && r.slots[r.f]? == some 0) ∧
    (∃ en, entry .rfillGet { wz with d := 1544, mod := 13 } (ringAt (fun r => { r with getQ := [0] }) s0) = some en ∧ RingOk en fun r => r.getQ.head? == some 0 && r.slots[r.f]? == some 0) ∧
    (∃ en, entry .rtake { wz with d := 1544, mod := 12 } (ringAt id s0) = some en ∧ RingOk en fun r => r.takeQ == [] && r.slots[r.t]? == some 2) ∧
    (∀ l ∈ [[0], []], ∃ en, entry .rfill { wz with mod := 12 } (ringAt (fun r => { r with filling := l }) s0) = some en ∧ RingOk en fun r => r.filling == l) ∧
    ∀ l ∈ [[1], []], ∃ en, entry .rtakeBack { wz with mod := 13 } (ringAt (fun r => { r with taken := l }) s0) = some en ∧ RingOk en fun r => r.taken == l := by
  refine ⟨wit (by decide), wit (by decide), wit (by decide), wit (by decide), wit (by decide), fun l h => wit ?_, fun l h => wit ?_⟩ <;> revert l <;> decide

/-! ### Witnesses: fabric -/

/-- Peer 5 with a window of 64 KiB and send records, home port 0; port 0, counter 7 with key 9 and the window of offsets 0 to 0xFFFF at 0x10000 are enabled. -/
def fabric (s : State) : State :=
  ((((((s.setReg (peerReg 5 0) 0x80008000).setReg (peerReg 5 1) 1).setReg (portReg 0 0) 0x80000001).setReg (ctrReg 7 0) 0x80000009).setReg (winReg 0 0) 0x80000000).setReg (winReg 0 6) 0x10000)
/-- s4.. hold an FXW's or FXRD's operands: offset 0x100, source 0x200, length 8, peer 5, key 9 and counter 7. -/
def fxState (n : Word) : State :=
  leafOn 0 1 (onWarp (fun w => { w with s := [(4, 0x100), (6, 0x200), (8, n), (9, 5), (10, 0x90007)] }) (onBlock (fun b => { b with ctrBase := 7, ctrCount := 1 }) (fabric (roleBlock .copy s0))))
abbrev FxOk (en : Entry) (n : Nat) : Prop :=
  en.Fair ∧ en.c.e ≠ 0 ∧ en.c.scal en.s 1545 / 4096 = 0 ∧ en.s.peerOn (en.c.scal en.s 1545 % 4096) = true ∧ n ≤ 2 ^ 22 ∧
  en.c.scalPair en.s 1540 + n ≤ peerLimit en.s (en.c.scal en.s 1545 % 4096) ∧ en.c.scal en.s 1546 / 2 ^ 14 % 4 = 0 ∧ peerRecords en.s (en.c.scal en.s 1545 % 4096) = true ∧
  (L1Clean en.s en.c.core ∧ en.s.sends.foldl (fun a e => a + e.2.fxws.length) 0 < 16384)
theorem wit_CountedWrites :
    (∀ n ∈ [0, 8], ∃ en, entry .fxw { wz with d := 4, a := 1540 } (fxState (BitVec.ofNat 32 n)) = some en ∧ FxOk en n ∧ en.c.scal en.s 1544 = n) ∧
    (∃ en, entry .fxflag { wz with d := 4, a := 1540 } (fxState 8) = some en ∧ FxOk en 4 ∧ (en.s.send (pairKey en.s 5 7) 5).failed = false) ∧
    ∃ en, entry .fxflag { wz with d := 4, a := 1540 } ((fxState 8).setSend (pairKey (fxState 8) 5 7) { peer := 5, failed := true }) = some en ∧ FxOk en 4 ∧
      (en.s.send (pairKey en.s 5 7) 5).failed = true := by
  refine ⟨fun n h => wit ?_, wit (by decide), wit (by decide)⟩
  revert n
  decide
theorem wit_RemoteInstructions :
    (∀ n ∈ [0, 8], ∃ en, entry .fxrd { wz with d := 4, a := 1540 } (fxState (BitVec.ofNat 32 n)) = some en ∧ FxOk en n ∧ en.c.scal en.s 1544 = n ∧
      NoWalk en.s en.s.nextId ∧ DestsOk en.s en.c.core en.c.b.fn ((List.range (n / 128 + 2)).map fun i =>
        if i = 0 then en.c.scalPair en.s 1542 else en.c.scalPair en.s 1542 + min (n - 1) (128 * (en.c.scalPair en.s 1542 / 128 + i) - en.c.scalPair en.s 1542))) ∧
    (∃ en, entry .fxatom { wz with ty := .i32, d := 4, a := 1540 } (onWarp (fun w => { w with s := [(4, 0x100), (6, 3), (10, 5)] }) (fxState 0)) = some en ∧ en.Fair ∧ en.c.e ≠ 0 ∧
      en.c.scalPair en.s 1540 % 4 = 0 ∧ en.c.scal en.s 1546 / 4096 = 0 ∧ en.s.peerOn (en.c.scal en.s 1546 % 4096) = true ∧
      en.c.scalPair en.s 1540 + 4 ≤ peerLimit en.s (en.c.scal en.s 1546 % 4096)) ∧
    (∀ p ∈ [(some ((8, 0) : Word × Word), (0 : Word)), (none, 0), (none, 5)], ∃ en, entry .acwait { wz with d := 1544, a := 1540, b := 1542 }
        (onWarp (fun w => { w with s := [(4, 7), (6, p.2)], acw := p.1 }) (fxState 0)) = some en ∧ en.Fair ∧ en.c.e ≠ 0 ∧
      ctrGranted en.c.b (en.c.scal en.s 1540 % 2 ^ 14) = true ∧ en.c.w.acw = p.1 ∧ ctrMet (en.s.ctr (en.c.scal en.s 1540 % 2 ^ 14)) (en.c.scal en.s 1542) = (p.2 == 0) ∧
      (en.s.ctr (en.c.scal en.s 1540 % 2 ^ 14)).waiters = []) ∧
    ∃ en, entry .acread { wz with d := 1544, a := 1540 } (onWarp (fun w => { w with s := [(4, 7)] }) (fxState 0)) = some en ∧ en.Fair ∧ en.c.e ≠ 0 ∧
      ctrGranted en.c.b (en.c.scal en.s 1540 % 2 ^ 14) = true := by
  refine ⟨fun n h => wit ?_, wit (by decide), fun p h => ?_, wit (by decide)⟩
  · revert n
    decide
  · match p, h with
    | _, .head _ => exact wit (by decide)
    | _, .tail _ (.head _) => exact wit (by decide)
    | _, .tail _ (.tail _ (.head _)) => exact wit (by decide)
def fxw0 : FxwRec := { id := 3, key := 9, off := 0x100, src := 0x200, len := 300, fn := 0, task := task (.seg 0 0 0), core := core, dst := 4, members := [(0, fullMask)], rels := [] }
def flag0 (n : Nat) : FlagRec :=
  { id := 4, key := 9, off := 0x100, value := 1, count := 8, resends := n, task := task (.seg 0 0 0), core := core, dst := 4, members := [(0, fullMask)], rels := [], queued := true, due := some 0 }
def key0 : Nat := sendKey 0 0 7
def record7 (fs : List FlagRec) : SendRec := { peer := 5, count := 300, fxws := [fxw0], flags := fs }
def sending (p : Pkt) (s : State) : State := (({ fabric s with nextId := 9 }.setQueue 0 true 1 [task (.packet p)]).setSend key0 (record7 [flag0 0]))
def out0 (w : RemWho) (n : Nat) : RemOut :=
  { peer := 5, port := 0, req := { src := 0, tag := 2, off := 0x100, len := n, op := 0, ty := .n32, a := 3, b := 0 }, core := core, who := w, due := some 0, task := task (.seg 0 0 0) }
theorem wit_EgressSends :
    (let s := sending (.data key0 3 0 128) s0
     egressReady s 0 = true ∧ findSend s key0 = some (record7 [flag0 0]) ∧ L1Clean s core ∧ wbWaits s core = false ∧ EngineReads s core 0 (s.portSecure 0) 3 0x200 128 0x200 ∧ 0 + 128 < fxw0.len) ∧
    (egressReady (sending (.flag key0 4) s0) 0 = true ∧ findSend (sending (.flag key0 4) s0) key0 = some (record7 [flag0 0])) ∧
    egressReady { sending (.readReq 2) s0 with remote := [(2, out0 (.lane 0 1 3 0x100) 8)] } 0 = true :=
  ⟨⟨by decide, by decide, by decide, by decide, engineReads (cacheHit (by decide)) (by decide), by decide⟩, by decide, by decide⟩
def pktD (key inc : Nat) : DataPacket := { src := 0, counter := 7, key := key, inc := inc, off := 0x20, bytes := [1, 2, 3] }
theorem packetLands {s : State} {port counter key inc off n pa : Nat} (h : s.portOn port = true ∧ (ctrOn s counter = true ∧ fld (s.reg (ctrReg counter 0)) 15 0 = key) ∧
    ((s.ctr counter).failed = false ∧ (inc = (s.ctr counter).inc ∨ newer inc (s.ctr counter).inc = true)) ∧ (inWindow s port off n = some pa ∧ s.owners = []) ∧ counter < 16384) :
    PacketLands s port counter key inc off n pa := ⟨h.1, h.2.1, h.2.2.1, ⟨h.2.2.2.1.1, unheld h.2.2.2.1.2 _ _⟩, h.2.2.2.2⟩
/-- In order; under the next incarnation; for a counter that is not enabled; under an old incarnation. -/
theorem wit_CountedArrivals :
    (∀ i ∈ [0, 1, 7], PacketLands (fabric s0) 0 7 9 i 0x20 3 0x10020) ∧ flagParked (fabric s0) 7 = false ∧
    ctrOn (fabric s0) 8 = false ∧ (8 ≠ ((fabric s0).ctr 7).inc ∧ newer 8 ((fabric s0).ctr 7).inc = false) := by
  refine ⟨fun i h => packetLands ?_, by decide⟩
  revert i
  decide
def pktF (c : Nat) : FlagPacket := { src := 3, counter := 7, key := 9, inc := 0, count := c, off := 0x20, value := 5 }
def ctrWait : State :=
  { fabric s0 with ctrs := [(7, { count := 10, waiters := [(core, 0, 8)] })] }
theorem wit_FlagsAndCounters :
    (PacketLands (fabric s0) 0 7 9 0 0x20 4 0x10020 ∧ reached ((fabric s0).ctr 7).count 0 = true ∧ reached ((fabric s0).ctr 7).count 1 = false ∧ (fabric s0).parked = []) ∧
    (inWindow (fabric s0) 0 0x20 4 = some 0x10020 ∧ (fabric s0).owners = []) ∧
    ctrMet (ctrWait.ctr 7) 8 = true ∧ (ctrWait.ctr 7).waiters = [(core, 0, 8)] ∧ (ctrWait.warp? core 0).isSome = true :=
  ⟨⟨packetLands (by decide), by decide⟩, by decide, by decide⟩
def ctl0 : CtlPacket := { src := 5, counter := 7, key := 9, inc := 0, count := 8, off := 0x100 }
/-- An answer to a pair with one flag; to one whose flag was sent three times. -/
theorem wit_SendersAnswers :
    ∀ n ∈ [0, 2], Answers ((fabric s0).setSend key0 (record7 [flag0 n])) 0 key0 ctl0 (record7 [flag0 n]) ∧ ((record7 [flag0 n]).flags.find? fun g => g.count == 8 && g.off == 0x100) = some (flag0 n) ∧ (∃ f ∈ (record7 [flag0 n]).flags, f.off = ctl0.off) ∧
      ∃ f ∈ (record7 [flag0 n]).flags, f.due.any (· ≤ ((fabric s0).setSend key0 (record7 [flag0 n])).now) = true := by
  unfold Answers
  decide
theorem wit_RemoteRequests :
    let r : RemoteReq := { src := 3, tag := 2, off := 0x100, len := 16, op := 7, ty := .b32, a := 0, b := 9 }
    (fabric s0).portOn 0 = true ∧ (r.off + r.len - 1) / 4096 = r.off / 4096 ∧ inWindow (fabric s0) 0 r.off r.len = some 0x10100 ∧ (fabric s0).poison = [] ∧
    inWindow (fabric s0) 0 r.off 4 = some 0x10100 ∧ (fabric s0).replyCache = [] ∧ (fabric s0).owners = [] := by decide
def remoteLoad : State :=
  { pending { lastOp .load .glob rwx 0x100 true (some 4) with id := 1, e := laneBit 3 } (fabric s0) with remote := [(2, out0 (.lane 0 1 3 0x100) 4)], nextId := 3 }
abbrev calm0 (s : State) : Prop := (∀ e ∈ (s.core core).warps, e.2.fences = []) ∧ s.advs = []
def remoteAtom (tries : Nat) : State := { fabric s0 with remote := [(2, { out0 (.atom 0 4 0 [(0, fullMask)] false) 0 with tries := tries })], pdcs := [(1, 0)], now := 10 ^ 9 }
theorem wit_RemoteReplies :
    ((remoteLoad.portOn 0 = true ∧ (0x100 + 4 - 1) / 4096 = 0x100 / 4096) ∧
      (findOp remoteLoad core 0 1).any (fun o => o.id == 1 && o.kind == .load && o.dst == some 4 && o.members == [(0, o.e)] && inMask o.e 3) = true ∧
      (remoteLoad.warp? core 0).any (fun w => w.outst.contains (4, 1) && decide (4 + 4 ≤ privRegs (remoteLoad.block core w.block) w)) = true ∧ calm0 remoteLoad ∧
      smSorted remoteLoad.remote = true ∧ partTags remoteLoad (out0 (.lane 0 1 3 0x100) 4) = [(2, out0 (.lane 0 1 3 0x100) 4)]) ∧
    (∀ n ∈ [0, 3], (smGet? (remoteAtom n).remote 2).any (fun r => r.req.len == 0 && r.tries == n && r.due.any (· ≤ (remoteAtom n).now)) = true ∧ calm0 (remoteAtom n)) ∧
    0 + clkOfUs ((remoteAtom 0).regN (timeReg 1)) ≤ (remoteAtom 0).now := by decide

/-! ### Witnesses: the tree, rank programs, launches -/

def inTree (leaf : Bool) (k : Nat) (l : List Task) (s : State) : State := s.setQueue 0 leaf k l
/-- Node 3 of tower 0 offers to node 4, or to leaf 9 with .leaf set; node 4 and leaf 9 have room. -/
def offering (leaf : Bool) : State :=
  (leafOn 0 9 (inTree false 3 [task (.seg 1 0 64)] s0)).setReg (nodeReg 0 3 0) (if leaf then 0x80000409 else 0x80000004) |>.setReg (nodeReg 0 4 1) 4
def waiting (f : JobEnd) : Waiting := { tower := 0, leaf := false, target := 4, task := task (.launch 1), fin := f, retry := some 0 }
def retrying (f : JobEnd) : State := { offering false with waitq := [waiting f] } |>.setReg (nodeReg 0 4 0) 0x80000409
def windowPush : State :=
  mappedTower ((leafOn 0 0 s0).setReg (ctxReg 0 0) 0x80000000 |>.setReg 0 0x1000)
theorem wit_TreePushes :
    (∀ l ∈ [true, false], offerReady (offering l) 0 3 = some (task (.seg 1 0 64)) ∧ ((offering l).reg (nodeReg 0 3 0)).getLsbD 10 = l ∧
      treeRoom (offering l) 0 l (if l then 9 else 4) = true ∧ Plain (offering l) 0 l (if l then 9 else 4) ∧ ((offering l).reg (nodeReg 0 3 2)).getLsbD 15 = false) ∧
    (treeRoom ((offering false).setReg (nodeReg 0 4 1) 0) 0 false 4 = false ∧ (((offering false).setReg (nodeReg 0 4 2) 0x80000000).reg (descReg 0 false 4 2)).getLsbD 31 = true) ∧
    ((windowPush.reg (ctxReg 0 0)).getLsbD 31 = true ∧ windowPush.reg64 (winBase 0) = 0x1000 ∧
      Pushable (windowPush.bump (winBase 0 + 0x10) 1) 512 0 ((windowPush.bump (winBase 0 + 0x10) 1).fnSecure 0) 0x1000 0x400 0x1000 0x1038 true) ∧
    (∀ f ∈ [JobEnd.offer 3, .formed], ((retrying f).waitq.find? fun v => v.tower == 0 && v.task.id == 5 && v.retry.any (· ≤ (retrying f).now)) = some (waiting f) ∧
      descOn (retrying f) 0 false 4 = true ∧ treeRoom (retrying f) 0 false 4 = true ∧ Plain (retrying f) 0 false 4) ∧
    nodeCheck (offering true) 0 3 = 4 ∧ nodeCheck ((offering true).setReg (nodeReg 0 3 1) 4) 0 3 = 0 ∧ leafCheck (leafOn 0 0 s0) 0 0 = 4 ∧
    leafCheck (s0.setReg (leafReg 0 0 0) 0x10008) 0 0 = 0 ∧ descOn s0 0 true 0 = false ∧ descOn (leafOn 0 0 s0) 0 true 0 = true := by
  refine ⟨by decide, by decide, ⟨by decide, by decide, PushOk.pushable (by decide)⟩, by decide, by decide +kernel⟩
def job0 (f : JobEnd) : RankJob :=
  { tower := 0, leaf := false, target := 4, pc := 7, left := 9, q := [(1, 5), (2, 0x80000000)], stn := [(0, 9)], stf := [(flowReg 0 6 1, 8)], nowNs := 2 ^ 33, nowClk := 4
    task := task (.launch 1), fin := f }
/-- A rank program with stores of both kinds; flow record 6 of node 4, which has 2 records from base 5. -/
theorem wit_RankPrograms :
    let s := { s0 with jobs := [job0 .formed] } |>.setReg (nodeReg 0 4 3) 0x00020005
    s.jobs = job0 .formed :: [] ∧ flowCount s (job0 .formed) = 2 ∧ ((job0 .formed).q' 1) = 5 ∧ (job0 .formed).q' 0 = 0 ∧
    ((job0 .formed).stn.map (·.1)).Nodup ∧ ((job0 .formed).stf.map (·.1)).Nodup ∧ (∀ p ∈ (job0 .formed).stf, ∀ v ∈ (job0 .formed).stn, p.1 ≠ nodeState 0 4 v.1) ∧
    (job0 (.enq (some 0x100) none none)).task.body = .launch 1 ∧ s.owners = [] := by decide
/-- A record of 256 bytes: grid 2 by 1 by 1, blocks of 32 threads, towers as given, and its two ends. -/
def record (towers last : Nat) : List Byte :=
  List.replicate 24 0 ++ toBytes 2 2 ++ toBytes 2 1 ++ toBytes 2 1 ++ toBytes 2 32 ++ toBytes 2 1 ++ toBytes 2 1 ++ toBytes 2 (4 * towers) ++ List.replicate 210 0 ++ toBytes 8 last
def launch1 (r : List Byte) (pa : Option Nat) : Launch := { addr := 0x4000, fn := 0, tenant := 0, pa := pa, recd := r, desc := List.replicate 128 0, checked := true }
def fetching (towers last : Nat) : State :=
  leafOn 1 0 (mappedTower (writeBytes { (inTree true 0 [task (.launch 7)] s0) with launches := [(7, launch1 [] none)] } 0x4000 (record towers last)))
abbrev FetchOk (towers last : Nat) : Prop :=
  (fetching towers last).launch? 7 = some (launch1 [] none) ∧ launchTask (fetching towers last) 7 = some (0, task (.launch 7)) ∧
  hitB (fetching towers last) 512 0 false 0x4000 0 0x4000 = true ∧ (fetching towers last).walks = [] ∧ (fetching towers last).poison = [] ∧
  nfld (bytesField ((fetching towers last).bytesAt 0x4000 256) 36 2) 3 2 = towers
def opening (checked : Bool) : State :=
  ((mappedTower { (inTree true 0 [{ task (.launch 7) with staged := true }] s0) with launches := [(7, { launch1 (record 1 0) (some 0x4000) with checked := checked })] }).setReg (leafReg 0 0 0) 0x80010008)
theorem wit_LaunchRecords :
    (FetchOk 1 1 ∧ (fetching 1 1).bytesAt 0x4000 8 ≠ (fetching 1 1).bytesAt 0x40F8 8) ∧ (FetchOk 1 0 ∧ (fetching 1 0).bytesAt 0x4000 8 = (fetching 1 0).bytesAt 0x40F8 8) ∧
    (FetchOk 3 0 ∧ LeafOk (fetching 3 0) 1 0 0) ∧
    (∀ b ∈ [true, false], openReady (opening b) 0 = some (7, { task (.launch 7) with staged := true }) ∧ ((opening b).reg (leafReg 0 0 2)).getLsbD 15 = false) ∧
    (hitB (opening false) 512 0 ((opening false).fnSecure 0) 0 0 0 = true ∧ initLen ((opening false).bytesAt 0 128) = 0 ∧
      launchBad (opening false) { launch1 (record 1 0) (some 0x4000) with desc := (opening false).bytesAt 0 128 } = true ∧ (launch1 (record 1 0) none).field 80 8 = 0) := by decide +kernel
def claiming (c : Option Claim) : State :=
  onCore (fun k => { k with claim := c }) (leafOn 0 (matrixLeaf core) (leafOn 0 (copyLeaf core)
    { s0 with launches := [(7, { launch1 (record 1 0) (some 0x4000) with opened := [(0, task (.launch 7))] })] }))
/-- The core's agent has read the launch's descriptor, of one register block. -/
def knows (s : State) : State := onCore (fun k => { k with descs := [(7, List.replicate 24 0 ++ [1] ++ List.replicate 103 0)] }) s
def claim7 : Claim := { launch := 7, value := 0, base := 0, need := [], index := 1, slots := [1], scr := 0, bars := 0, pa := 0x4000, blocks := 2 }
theorem wit_Claims :
    (agentOpen (claiming none) core = true ∧ agentOpen s0 core = false ∧ coreFull (claiming none) core = false ∧
      claimable (claiming none) core (openOrder (claiming none) 0) = some (7, none) ∧ (claimable (knows (claiming none)) core [7]).any (fun q => q.1 == 7 && q.2.isSome) = true) ∧
    (∀ s ∈ [claiming none, (claiming none).setMemNat 24 4 1], hitB s core 0 (s.fnSecure 0) 0 0 0 = true ∧ s.walks = [] ∧ s.poison = [] ∧ s.owners = [] ∧ initLen (s.bytesAt 0 128) = 0) ∧
    ({ launch1 (record 1 0) (some 0x4000) with desc := (claiming none).bytesAt 0 128 }.descBad = true ∧
      { launch1 (record 1 0) (some 0x4000) with desc := ((claiming none).setMemNat 24 4 1).bytesAt 0 128 }.descBad = false) ∧
    (let l := { launch1 (record 1 0) (some 0x4000) with opened := [(0, task (.launch 7))] }
     l.blocks = 2 ∧ l.dfield 118 1 = 0 ∧ l.nwarps = 1 ∧ smGet? ((claiming none).core core).blocks 1 = none ∧ (takeSlots (claiming none) core 0 1).length = 1 ∧
       openOrder (claiming none) 0 = [7] ∧ (claiming none).memNat (0x4000 + 136) 8 ≠ 2) := by decide +kernel
theorem wit_WarpStart :
    let s := knows (claiming (some claim7))
    (s.core core).claim = some claim7 ∧ (s.launch? 7).any (fun l => !l.aborted && l.fin.isNone && decide (claim7.value < claim7.blocks) && leavesOn s core && (((agentLaunch s core 7).getD l).dfield 118 1 == 0)) = true ∧
    claim7.slots.Nodup := by decide +kernel
def saving : State :=
  onWarp (fun w => { w with trailer := none, inRun := false }) (onBlock (fun b => { b with saving := some 0x2000 })
    (onCore (fun k => { k with ctxops := [{ who := none, block := 0, va := 0x2000, pa := 0x2000, fn := 0, secure := false, load := false }] }) (freed s0)))
def loading (full : Bool) : State :=
  onCore (fun k => { k with ctxops := [{ who := none, block := 0, va := 0x2000, pa := 0x2000, fn := 0, secure := false, load := true }],
                            slots := (if full then [{ state := 1 }] else [{}]) ++ List.replicate 3 {} })
    ((saved 1 s0).updCore (savedAt s0 0x2000) fun k => { k with warps := [(0, warpIn s0)], slots := (if full then [{ state := 1 }] else [{}]) ++ List.replicate 3 {} })
/-- A list of one area at 0x6000, 0x2000 the area. -/
def listing (next : Nat) (v : Word) : State :=
  mappedTower ({ ((s0.setReg (ctxswReg 0) 0x6000).setMemNat 0x6000 4 1) with ctxsw := some v } |>.setMemNat 0x6004 4 next |>.setMemNat 0x6040 8 0x2000)
theorem wit_ContextSwitches :
    ((saveOp saving core).any (fun op => op.pa == 0x2000) = true ∧ (0x2000 + 4 ≤ saving.ctxList + 8 ∨ saving.ctxList + 12 ≤ 0x2000 ∨ (saveOp saving core).any (·.who.isNone) = true)) ∧
    (loadBase (loading true) core 0x2000 = none ∧ (loadBase (loading false) core 0x2000).isSome = true ∧ weightsOf (loading false) (savedAt s0 0x2000) ((loading false).block (savedAt s0 0x2000) 0) = [] ∧
      (takeSlots (loading false) core 0 1).length = 1 ∧ savedAt (loading false) 0x2000 = savedAt s0 0x2000 ∧ openLoads (loading false) (savedAt s0 0x2000) = [] ∧
      (∀ e ∈ ((loading false).core (savedAt s0 0x2000)).warps, e.2.stopped = none) ∧ (∀ e ∈ ((loading false).core core).warps, e.2.block ≠ freeIndex (loading false) core)) ∧
    (imageSize saving core 0 ≤ 0x8000 ∧ imageSize (loading false) (savedAt s0 0x2000) 0 ≤ 0x8000 ∧ (saving.block core 0).bpend = [] ∧ (∀ e ∈ blockWarps saving core 0, e.2.pend = []) ∧
      L1Clean saving core ∧ wbWaits saving core = false ∧ saving.nextId < 2 ^ 64) ∧
    (∀ op, ∀ k ∈ List.range 8, EngineWrites saving core 0 false (areaEngine op) (0x2000 + 4096 * k) 4096 (0x2000 + 4096 * k) ∧
      EngineReads (loading false) core 0 false (areaEngine op) (0x2000 + 4096 * k) 4096 (0x2000 + 4096 * k)) ∧
    (s0.ctxsw = none ∧ s0.reg (ctxswReg 3) = 0 ∧ fld (0x80 : Word) 8 7 = 1 ∧ fld (0x100 : Word) 8 7 = 2 ∧ fld (0x180 : Word) 8 7 ≠ 1) ∧
    (∀ k ∈ [0, 1], SaveList (listing k 0x80) 0x6000 1 k [0x2000]) ∧ fnClaims (listing 0 0x80) 0 = false ∧ CacheHit (listing 0 0x80) 512 0 ((listing 0 0x80).fnSecure 0) 0x2000 1 0x2000 ∧
    (realCores (listing 0 0x80)).flatMap (fun e => (e.2.blocks.filter fun b => b.2.fn == 0 && decide (b.1 < 16) && b.2.saving.isNone).map fun b => (e.1, b.1)) = [(core, 0)] ∧
    (partSt (listing 0 0x100) = 0 ∧ (listing 0 0x100).memNat 0x2000 4 ≠ 1 ∧ ((listing 0 0x100).setMemNat 0x2000 4 1).memNat 0x2000 4 = 1 ∧ (listing 0 0x100).owners = []) := by
  refine ⟨by decide, by decide +kernel, by decide +kernel, fun op k h => ?_, by decide, fun k h => ?_, by decide, cacheHit (by decide), by decide, by decide⟩
  · have hit : ∀ k ∈ List.range 8, hitB saving core 0 false (0x2000 + 4096 * k) 1 (0x2000 + 4096 * k) = true ∧ hitB (loading false) core 0 false (0x2000 + 4096 * k) 0 (0x2000 + 4096 * k) = true := by
      decide
    have low : k < 8 := List.mem_range.mp h
    exact ⟨engineWrites (cacheHit (hit k h).1) ⟨by decide, by omega, (fun x m => nomatch m), rfl⟩,
      engineReads (cacheHit (hit k h).2) ⟨by decide, by omega, (fun x m => nomatch m), rfl, rfl⟩⟩
  have h : k = 0 ∨ k = 1 := by simpa using h
  rcases h with rfl | rfl <;>
    exact ⟨⟨0x6000, engineReads (cacheHit (by decide)) (by decide), by decide, by decide⟩, cacheHit (by decide), ⟨0x6040, engineReads (cacheHit (by decide)) (by decide), by decide⟩⟩

/-! ### Witnesses: the host and the device -/

def port0 : State := { s0.setReg (portReg 0 0) 0x80000000 with sends := [(key0, { peer := 5, count := 3 })] }
/-- A quote goes to 0x8000; the two pages from 0 are in the tower's cache. -/
def quoting : State :=
  (({ s0 with quote := true }).setReg (quoteReg 8) 0x8000).updCore 512 fun k =>
    { k with tlb := [0, 2 ^ 16].map fun a => { fn := 0, va := a, size := 2 ^ 16, gpa := a, gsize := 2 ^ 16, pa := a, attr := rwx } }
theorem wit_HostRegisters :
    ((s0.reg (ctxReg 0 0)).getLsbD 31 = false ∧ ((s0.setReg (ctxReg 0x7F 0) 0x80000000).reg (ctxReg 0x7F 0)).getLsbD 31 = true ∧ isFn 0x7F = true ∧ isFn 0 = true) ∧
    (keySecure s0 1023 = false ∧ keySecure (s0.setReg (keyReg 0 8) 0x40000000) 0 = true) ∧
    (ctrOn s0 16383 = false ∧ ctrOn (fabric s0) 7 = true ∧ ((fabric s0).ctr 7).waiters = []) ∧ (ringOn s0 255 = false ∧ ringOn (s0.setReg (ringReg 0 0) 0x80000010) 0 = true) ∧
    ((∀ j ∈ List.range 16, s0.peerOn j = false) ∧ fld (0x800B0000 : Word) 19 16 < 12) ∧
    (port0.portOn 0 = true ∧ key0 / 2 ^ 20 = 0 ∧ port0.owners = []) ∧ s0.portOn 11 = false ∧ (s0.isCompute core = true ∧ s0.isCompute 0 = false) ∧ s0.quote = false ∧
    quoting.walks = [] ∧ quoting.owners = [] ∧
    (∀ va ∈ [0x8000, 0x10000], hitB quoting 512 0 (s0.fnSecure 0) va 1 va = true) := by decide
/-- The physical function's stage 2 maps the lowest 512 MiB; flow 3 of port 0 goes to ring 2, of 64 KiB at 0x20000 with control at 0x3000. -/
def ingest : State :=
  ((((((fabric s0).setReg (portReg 0 10) 1).setReg (flowMapReg 0 3 0) 0x80000002).setReg (ringReg 2 0) 0x80000010).setReg (ringReg 2 2) 0x20000).setReg (ringReg 2 4) 0x3000) |>.setReg (worldReg 0 15) 1
theorem wit_AperturesAndIngest :
    (∀ k ∈ [0, 1], ApertureAt (tables s0) 0 0x50000 k 0x20000 0x50000) ∧ ApertureFree (tables s0) 0 ∧ ((tables s0).poison = [] ∧ (tables s0).owners = [] ∧ ingest.owners = [] ∧ 0x60000000 < min (bar2Size s0 0) (2 ^ 48)) ∧
    runStage2 (tables s0) ((tables s0).fnSecure 0) 0 0x60000000 = .stop 2 2 0x60000000 ∧ partSt (setPart s0 2 0) ≠ 0 ∧
    (ingest.portOn 0 = true ∧ fld (ingest.reg (portReg 0 10)) 15 0 ≠ 0 ∧ (ingest.reg (flowMapReg 0 3 0)).getLsbD 31 = true ∧ fld (ingest.reg (flowMapReg 0 3 1)) 18 0 = 3 / 8192 ∧
      (ingest.reg (flowMapReg 0 3 0)).getLsbD 30 = false ∧ ringOn ingest 2 = true ∧ ringCtl ingest 2 + 8 ≤ ringBaseOf ingest 2 ∧ (ingest.reg (flowMapReg 0 4 0)).getLsbD 31 = false ∧
      ingest.portSecure 0 = true ∧ (smGetD ({ ingest with rings := [(2, 65536, 0)] }).rings (0, 0) 2).1 = 65536) := by
  refine ⟨fun k h => ?_, by decide, by decide, by decide, by decide, by decide⟩
  have h : k = 0 ∨ k = 1 := by simpa using h
  rcases h with rfl | rfl <;> exact ⟨by decide, by decide, by decide, ⟨0x1F, 2, combine 0x1F 0x1F true, by decide⟩⟩
def target : Word := 0x80001E0E
theorem wit_PartitionChanges :
    (changing s0 target 0 = true ∧ changing s0 target 1 = false ∧ admitErr s0 target = 0 ∧ admitErr s0 0x80001E0F ≠ 0 ∧ changing s0 0x80001E1E 0 = false ∧ changing s0 0x80001E1E 1 = false) ∧
    (∀ k ∈ [2, 3, 4], partSt (setPart s0 k 0) = k) ∧ (drainedAll State.reset = true ∧ drainedAll s0 = false) ∧
    ((∀ e ∈ s0.cores, L1Clean s0 e.1) ∧ evacAddr s0 0 = 0 ∧ evacAddr (s0.setReg (partReq 2) 0x10000000) 0 = 0x10000000) := by decide +kernel
theorem wit_PowerManagement :
    ((let s := { s0 with wdArmed := true }
      s.wdDue ≤ s.now ∧ (s.reg (powerReg 2)).getLsbD 3 = false) ∧ (∀ r, r < 7 → tempOf s0 r < 950) ∧ 950 ≤ tempOf (s0.setReg (tempReg 13) 950) 13) ∧
    ((s0.cores.map (·.1)).Nodup ∧ (smGet? s0.cores core).isSome = true) ∧
    (s0.isCompute (4 * 8) = true ∧ 600 ≤ fld (0x03200320 : Word) 27 16 ∧ fld (0x03200320 : Word) 27 16 ≤ 1000 ∧ opState s0 8 ≠ 1 ∧ (smGetD s0.clusters {} 8).step = 0 ∧ opState (setOpState s0 8 1) 8 = 1) ∧
    ∀ k ∈ [1, 2, 3], (smGetD ({ s0 with clusters := [(8, { step := k })] }).clusters {} 8).step = k := by decide
theorem wit_Reliability :
    (scrubbed s0 0x1000 = true ∧ scrubLine s0 s0.scrubAt = some (lineOf s0.cfg.hbm0) ∧ s0.rescrub = [] ∧ testEn State.reset = true ∧ (nextTest State.reset).isSome = true ∧ partSt State.reset = 0 ∧ State.reset.testing = none) ∧
    ((let s := { State.reset with testing := some (core, false) }
      (s.core core).blocks = [] ∧ (s.core core).claim = none) ∧ s0.isCompute core = true) ∧
    (let l : List (Nat × Byte) := [(State.reset.cfg.host0, 7)]
     smSorted l = true ∧ ∀ c ∈ l, State.reset.kind c.1 = .host) ∧
    (fwState s0 = 0 ∧ fwState (setFw s0 3 0) = 3 ∧ s0.regN (fwReg 4) ≤ 2 ^ 24 ∧ 2 ^ 24 < (s0.setReg (fwReg 4) 0x01000001).regN (fwReg 4) ∧
      fwPending (s0.setReg (fwReg 6) 0x800) 3 = true ∧ fwPending s0 3 = false ∧ s0.minVer.length = 6 ∧ s0.fellBack.testBit 5 = false) := by decide +kernel

/-! ### Witnesses: the machine as a whole -/

theorem wit_EncodeDecode :
    ((Instr.iadd i32).z1? = some (.iadd, i32) ∧ (Instr.iadd i32).wf = true ∧ (encode (.iadd i32)).isSome = true) ∧
    ((Instr.rankEmit 1).z1? = none ∧ (Instr.rankEmit 1).wf = true ∧ (encode (.rankEmit 1)).isSome = true ∧ decodeRank 0x98080000 = some (.rankEmit 1)) ∧
    decodeBytes (toBytes 8 0x1700) = .ok (.nop z) 8 := by decide
theorem wit_MemoryStaysCanonical : Memory.wf State.reset.mem = true ∧ ((step s0) matches .next _) := by decide +kernel
/-- A rank program; a host's write that is due; a warp whose next instruction is the NOP at its program counter. -/
theorem wit_StepRunsTheInstruction :
    (let s := State.reset.withFetchWord 32 0x98080000
     s.off = none ∧ (landAll s).jobs.map (fun j => (j.left, j.pc)) = [(32, 0)] ∧ decodeRank ((landAll s).regN (progReg 0 0)) = some (.rankEmit 1)) ∧
    (let s := { s0 with agenda := [(0, .heartbeatWrite 1)] }
     (landAll s).jobs = [] ∧ (landAll s).agenda = [(0, .heartbeatWrite 1)] ∧ (0 : Nat) ≤ (landAll s).now) ∧
    (let s := State.reset.withFetchWord 64 0x1700
     let t := landAll s
     t.jobs = [] ∧ t.redo = [] ∧ t.agenda = [] ∧ t.inputs = [] ∧ nextEvent t = none ∧ hostNext t = none ∧
     (nextCand t).any (fun c => c.what == .issue core 0 && decide (c.time ≤ t.now) && !haltDue (t.tick c.time) && ((landAll (t.tick c.time)).warp? core 0).any fun w => !w.skip && w.xfer.isNone && decide (w.pos < 24) && w.pc == 0 &&
       warpXlate (landAll (t.tick c.time)) core ((landAll (t.tick c.time)).block core w.block) w w.pc 2 == some (.ok 0 rwx) &&
       decodeBytes ((landAll (t.tick c.time)).bytesAt 0 32) == .ok (.nop z) 8) = true) := by decide +kernel
/-- A run of 24 before; a scope, a role, a privilege and a register that the checks refuse; and an instruction that passes. -/
theorem wit_IssueFaults :
    let b := s0.block core 0
    let w := warpIn s0
    let warpOp : Z1 := { wz with d := 1540, ext := .imm 0x10 }
    (s0.firing = none ∧ s0.cur = some (core, 0) ∧ (landWarp s0 core 0).warp? core 0 = some w ∧ w.replay = none ∧ w.stopped = none ∧ w.trailer = none) ∧
    issueCheck b { w with pos := 24 } none .iadd i32 = some 0x06 ∧ issueCheck b w none .iadd { i32 with mod := 2 } = some 0x02 ∧ issueCheck b w none .iadd { i32 with scope := .warp } = some 0x04 ∧
    issueCheck b w none .nfset { wz with ext := .imm 0 } = some 0x05 ∧ issueCheck b w none .xret { wz with a := 1540 } = some 0x10 ∧
    issueCheck b w none .acread { wz with d := 1598, a := 1600 } = some 0x03 ∧ issueCheck b w none .sysrd warpOp = none ∧ (∀ r ∈ regsNamed b .sysrd warpOp, r ∉ w.fills) := by decide

/-! ### Witnesses: further clauses -/

/-- The other clauses of a barrier of two warps: a warp that still waits, form A with n = 0, the arrival that completes the
generation (with n = 0 and with n = 2), and a warp that is counted already. -/
theorem wit_Barrier_generations :
    (∃ en, entry .bar { z with scope := .warp, ext := .imm 2 } (onWarp (fun w => { w with bar := some (0, false) }) (onBlock barrierBlock s0)) = some en ∧ en.Fair ∧
      en.c.w.bar = some (0, false) ∧ en.c.b.saving = none) ∧
    ∀ q ∈ [((0 : Nat), ([] : List Nat), (none : Option Nat), false), (0, [1], some 0, true), (2, [1], some 2, true), (2, [0], some 2, false)],
      ∃ en, entry .bar { z with scope := .warp, ext := .imm (BitVec.ofNat 32 q.1) }
          (onBlock (fun b => { barrierBlock b with bars := [(0, { n := q.2.2.1, counted := q.2.1 })] }) (s0.setWarp core 1 { warpIn s0 with num := 1 })) = some en ∧ en.Fair ∧
        en.c.w.bar = none ∧ opsDone en.s en.c.core en.c.slot = true ∧ en.c.b.saving = none ∧ en.c.b.slotOf en.c.w.num = some en.c.slot ∧
        (en.c.w.num ∈ q.2.1 ↔ q.2.1 = [0]) ∧
        (let l := if q.2.1 = [0] then [0] else q.2.1 ++ [en.c.w.num]
         if q.1 = 0 then (List.range 2).all (fun k => l.contains k || (goneWarps en.s en.c.core en.c.bi).contains k) else decide (2 ≤ l.length)) = q.2.2.2 := by
  refine ⟨wit (by decide), fun q h => wit ?_⟩
  revert q
  decide
/-- A copy and a matrix warp exchange registers: the copy warp loses 32, and the matrix warp gains them on a partition with
room and on one where another block's warps hold 960 of 1,024 (03 R55, R73). -/
def exchange (b : Block) : Block := { b with nwarps := 2, slots := [0, 1], roles := [.copy, .matrix], qCopy := 2, qMatrix := 1, qVector := 1 }
def tenant2 (s : State) : State :=
  (s.setWarp core 1 { warpIn s0 with num := 1, role := .matrix }).setWarp core 9 { warpIn s0 with block := 1, num := 0 }
    |> onCore fun k => { k with blocks := k.blocks ++ [(1, { slots := [9], roles := [.plain], qPlain := 31 })] }
theorem wit_RegisterQuotas_moves :
    (let i : Instr := .regqImm { blk with ext := .imm 0x441 }
     ∃ en, entry .regqImm { blk with ext := .imm 0x441 } (fire i 8 12 (onBlock exchange (roleBlock .copy (s0.setWarp core 1 { warpIn s0 with num := 1, role := .matrix })))) = some en ∧
      en.c.b = en.s.block en.c.core en.c.bi ∧ en.c.e ≠ 0 ∧ partFree en.s en.c.core 1 ≥ 32) ∧
    ∃ en, entry .regqImm { blk with ext := .imm 0x441 } (fire (.regqImm { blk with ext := .imm 0x441 }) 8 12 (tenant2 (onBlock exchange (roleBlock .copy s0)))) = some en ∧
      en.c.b = en.s.block en.c.core en.c.bi ∧ en.c.e ≠ 0 ∧ partFree en.s en.c.core 1 < 32 :=
  ⟨wit (by decide), wit (by decide)⟩
/-- The remaining checks at every scope, in the order of 09 R185. -/
theorem wit_IssueFaults_scopes :
    let b := s0.block core 0
    let rb := (roleBlock .copy s0).block core 0
    let w := warpIn s0
    issueCheck b w none .bar { wz with mod := 3 } = some 0x02 ∧ issueCheck b w none .iadd { i32 with d := 514 } = some 0x04 ∧
    issueCheck b w (some 0x1700) .bra { z with ext := .disp 4 4 } = some 0x14 ∧ issueCheck b w none .layset { sz with ext := .cmd 0 0 } = some 0x0E ∧
    issueCheck rb { w with role := .matrix } none .layset { sz with ext := .cmd 0 0 } = some 0x05 ∧
    issueCheck b { w with agent := true } none .iadd { i32 with a := 400 } = some 0x03 ∧ issueCheck b { w with fills := [1] } none .iadd i32 = some 0x07 ∧
    issueCheck b w none .iadd i32 = none := by decide
/-- Instructions with no lane in E: those that advance only, and those whose order or place among others still counts (03 R67). -/
theorem wit_NopRunendWaitPause_empty :
    let zn : Z1 := { zm with guardP := 7 }
    (∀ q ∈ [(Op.ld, zn), (.st, zn), (.atom, { zn with ty := .n32, mod := 0 }), (.cctl, { zn with mod := 4 }), (.pref, zn), (.frcp, { z with ty := .f32, d := 4 }),
        (.wred, { w4 with ty := .i32 }), (.wscan, { w4 with ty := .i32 }), (.pause, { z with ext := .imm 5 }), (.rand, { z with d := 8, ext := .imm 0 })],
      ∃ en, entry q.1 (never q.2) s0 = some en ∧ en.Fair ∧ en.c.e = 0 ∧ sfuBusy en.c en.s = false) ∧
    (∀ q ∈ [(Op.ld, { zn with mod := 4 }), (.st, { zn with mod := 4 }), (.atom, { zn with ty := .n32, mod := 8 })],
      ∃ en, entry q.1 (never q.2) s0 = some en ∧ en.Fair ∧ en.c.e = 0) ∧
    (∀ q ∈ [(Op.enq, { wz with a := 1540, b := 1542 }), (.tlbinv, { wz with a := 1540, b := 1542, mod := 2 })],
      ∃ en, entry q.1 (never q.2) (agent s0) = some en ∧ en.Fair ∧ en.c.e = 0) ∧
    (∀ q ∈ [(Op.mxrel, sz), (.wload, wloadZ), (.mxmul, mxmulZ), (.mxdrain, drainZ), (.atbl, atblZ)], ∃ en,
      entry q.1 q.2 (fireNone (Instr.ofOp q.1 q.2) (withSlot { state := 1 } s0)) = some en ∧ en.Fair ∧ en.c.e = 0 ∧ holdsSlot en.s en.c 0 = true ∧
        nfValid (nfAt en.s en.c 0) = true) := by
  refine ⟨fun q h => wit ?_, fun q h => wit ?_, fun q h => wit ?_, fun q h => wit ?_⟩ <;> revert q <;> decide
/-- A special function's value with flags, and an atomic of scratchpad. -/
theorem wit_ResultsLand_values :
    ∀ o ∈ [{ lastOp .value .none rwx 0 true (some 4) with flags := 5 }, lastOp (.atom 7 true) .scr rwx 0x40 true (some 4)],
      LastAccess (pending o (scratch s0)) core 0 (warpIn (pending o s0)) o (o.accs.headD (accOf rwx 0)) ∧ (4, o.id) ∈ (warpIn (pending o s0)).outst := by
  refine fun o h => ⟨lastAccess _ _ _ _ ?_, ?_⟩ <;> revert o <;> decide
/-- A transfer that all lanes take or none does though it is not uniform; a BRX with two targets, and with one for the whole path;
transfers at the end of a loop. -/
theorem wit_TrailerCommits_agreeing :
    (∀ q ∈ [(some (Xfer.bra 0xFFFFFFFF false 64 128), ([] : List LoopLvl)), (some (.bra 0 false 64 128), []), (some (.brx 0xFF false [(0, 64), (1, 96)] 128), []),
        (some (.brx 0xFFFFFFFF false ((List.range 32).map fun l => (l, 64)) 128), []), (some (.brx 0 false [] 128), []),
        (some (.bra 0xFF true 64 0), [{ ls := 0, le := 8, lc := 2, depth := 0 }]), (some (.bra 0 true 64 0), [{ ls := 0, le := 8, lc := 1, depth := 0 }]),
        (some (.ret 64), [{ ls := 0, le := 8, lc := 2, depth := 0 }]), (some (.exit 0xFFFFFFFF), [{ ls := 0, le := 8, lc := 2, depth := 0 }]),
        (some (.exit 0xFF), [{ ls := 0, le := 8, lc := 2, depth := 0 }]), (some (.bra 0xFF false 64 128), [{ ls := 0, le := 8, lc := 2, depth := 0 }])],
      let s := ended (fun w => { w with xfer := q.1, loops := q.2 }) s0
      TrailerDue s core 0 (warpIn s) tr8 ∧ (warpIn s).xret = [] ∧ (warpIn s).path = fullMask) ∧
    (let at' (l : Nat) : Nat := (([((0 : Nat), (64 : Nat)), (1, 96)].find? fun p => p.1 == l).map (·.2)).getD 16
     lowLane 0xFF = some 0 ∧ at' 1 ≠ at' 0 ∧ at' 0 ≠ 128) ∧
    ∀ k ∈ maskLanes fullMask, (((List.range 32).map fun l => (l, 64)).find? fun p => p.1 == k).map (·.2) = some 64 := by
  refine ⟨fun q h => ⟨trailerDue _ _ _ _ ?_, ?_⟩, by decide, by decide⟩ <;> revert q <;> decide
/-- A level whose point is the end of this run (at 16), with lanes that wait at 64. -/
def meeting : StackEnt := { rpc := 16, restore := fullMask, pending := 0xF0, phase := false, group := false, fall := 0 }
/-- Reconvergence (02 R22, R23): the other half goes on, both halves have come, a group of a BRX goes on, its fall-through lanes, and all have
come; a loop that ends below its depth; an EXIT of the half that ran; a branch with sixteen levels; serial mode (R26). -/
theorem wit_TrailerCommits_reconvergence :
    ∀ q ∈ [([meeting], ([] : List LoopLvl), (none : Option Xfer), (fullMask, (none : Option Serial))), ([{ meeting with phase := true, pending := 0 }], [], none, fullMask, none),
        ([{ meeting with group := true }], [], none, fullMask, none), ([{ meeting with group := true, pending := 0, fall := 0xF00 }], [], none, fullMask, none),
        ([{ meeting with group := true, pending := 0 }], [], none, fullMask, none), ([meeting], [{ ls := 0, le := 8, lc := 2, depth := 0 }], none, fullMask, none),
        ([meeting], [], some (.exit 0x0F), 0x0F, none), (List.replicate 16 { meeting with rpc := 200 }, [], some (.bra 0x03 false 64 128), fullMask, none),
        ([meeting], [], none, 1, some { stop := 16, todo := 0xF0, former := 0xFF }), ([meeting], [], none, 1, some { stop := 16, todo := 0, former := 0xFF })],
      let s := ended (fun w => { w with pcs := [(4, 64), (5, 64), (6, 96), (7, 64), (8, 64)], stack := q.1, loops := q.2.1, xfer := q.2.2.1, path := q.2.2.2.1, serial := q.2.2.2.2 }) s0
      TrailerGoes s core 0 (warpIn s) tr8 ∧ (warpIn s).xret = [] ∧ (warpIn s).skip = false ∧ (warpIn s).pcOf 4 = 64 ∧ (warpIn s).pcOf 8 = 64 := by
  refine fun q h => ⟨trailerGoes _ _ _ _ ?_, ?_⟩ <;> revert q <;> decide
/-- A warp of the partition stands inside a run; and two warps may go, the one after the last that issued first (02 R42). -/
theorem wit_SelectionAndRendezvous_order :
    (let s := freed ((onWarp (fun w => { w with inRun := true, pos := 3 }) s0).setWarp core 8 { warpIn s0 with num := 1 })
     partIdle s core 0 = true ∧ openRuns s core 0 ≠ [] ∧ (s.core core).warps.any (fun e => partOf e.1 == 0 && warpReady s core e && e.2.inRun) = true) ∧
    let s := onCore (fun k => { k with parts := List.replicate 8 { last := 5 } }) (s0.setWarp core 8 { warpIn s0 with num := 1 })
    partIdle s core 0 = true ∧ openRuns s core 0 = [] ∧ smSorted (s.core core).warps = true ∧
      ((s.core core).warps.filter fun e => partOf e.1 == 0 && warpReady s core e && !e.2.giveWay && e.2.pauseUntil == 0).map (·.1) = [0, 8] := by decide
/-- Two warps wait for one page; the lower id is the one that walks. -/
theorem wit_Walks_shared :
    let x := walk0 0x50000 1
    let s := { tables s0 with walks := [x, { x with id := 2, va := 0x50040, who := .warp core 8 }], nextId := 3 }
    sharers s x = s.walks ∧ x ∈ walkersOf s (towerOf x.core % 2) ∧ (sharers s { x with id := 2, va := 0x50040, who := .warp core 8 }).head? = some x := by decide
/-- A report to the agent that holds the record; the last report of a block, with and without a launch, under either policy; one of two
records; and a full report area. -/
theorem wit_FaultReports_ends :
    (let s := onBlock (fun b => { b with debug := true }) (faulted 0x16 1 s0)
     (reportable (warpIn s)).any (·.code == 0x16) = true ∧ (s.block core 0).debug = true) ∧
    (∀ q ∈ [(true, false), (true, true), (false, false)],
      let s := { onBlock (fun b => { b with abortPol := q.2 }) (faulted 0x15 1 s0) with launches := if q.1 then [(0, { launch0 with recd := List.replicate 256 0 })] else [] }
      (∀ l ∈ s.launch? (s.block core 0).launch, l.field 96 8 = 0 ∧ l.aborted = false ∧ l.pa = some 0x800) ∧ nativeAgent s core = true ∧ s.copies = [] ∧ (s.cores.map (·.1)).Nodup ∧
      (s.block core 0).abortPol = q.2 ∧ (∀ e ∈ s.cores, (e.2.warps.map (·.1)).Nodup ∧ ∀ x ∈ e.2.warps, (reportable x.2).isSome → e.1 = core ∧ x.1 = 0)) ∧
    (let s := faulted 0x15 1 (s0.setWarp core 8 { warpIn (faulted 0x15 1 s0) with num := 1 })
     (s.core core).warps.any (fun x => x.1 == 8 && x.2.block == 0 && (reportable x.2).isSome) = true) ∧
    let s := reporting.setMemNat 0x1000 8 2
    s.memNat 0x1008 4 ≤ (s.memNat 0x1000 8 + 2 ^ 64 - s.memNat 0x1010 8) % 2 ^ 64 ∧ EngineWrites s core 0 (s.blockSecure core (s.block core 0)) (reportId core 0) 0x100C 4 0x100C :=
  ⟨by decide, by decide, by decide, by decide, engineWrites (cacheHit (by decide)) (by decide)⟩
/-- Drains with stages and narrow outputs, one that clears the tile, and the table of a piecewise function. -/
theorem wit_TileTasks_outputs :
    ∀ k ∈ [TileKind.drain 4 3 0 32 0 1 0 true, .drain 4 5 0 8 7 2 0 false, .drain 4 5 1 8 15 3 0x0743 false, .atbl 2 16 0 64 3, .atbl 1 16 2 4 0, .atbl 0 16 2 4 0],
      let s := onCore (fun c => { c with drnRun := some (task (.tile (tile k))) }) (withSlot { state := 1 } s0)
      (s.core core).arrRun = none ∧ (s.core core).drnRun = some (task (.tile (tile k))) ∧ (s.core core).slots[0]? = some { state := 1 } ∧
      ((s.block core 0).sets[0]?).getD none = some { mask := 1, size := 64 } ∧ 4 + ceilDiv 5 1 ≤ 64 := by
  refine fun k h => ?_
  match k, h with
  | _, .head _ => decide
  | _, .tail _ (.head _) => decide
  | _, .tail _ (.tail _ (.head _)) => decide
  | _, .tail _ (.tail _ (.tail _ (.head _))) => decide
  | _, .tail _ (.tail _ (.tail _ (.tail _ (.head _)))) => decide
  | _, .tail _ (.tail _ (.tail _ (.tail _ (.tail _ (.head _))))) => decide
/-- A wrong key; an old incarnation; and an offset outside every window. -/
theorem wit_CountedArrivals_drops :
    ctrOn (fabric s0) 7 = true ∧ fld ((fabric s0).reg (ctrReg 7 0)) 15 0 ≠ 8 ∧ ((fabric s0).ctr 7).failed = false ∧ inWindow (fabric s0) 0 0x10000 3 = none ∧
    ¬ (8 = ((fabric s0).ctr 7).inc ∨ newer 8 ((fabric s0).ctr 7).inc = true) := by decide
/-- A claim whose value is past the last block, of a launch that is still there and of one that has ended; and one while a leaf of
the core is off. -/
theorem wit_Claims_void :
    (let s := claiming (some { claim7 with value := 2 })
     (s.core core).claim = some { claim7 with value := 2 } ∧ (s.launch? 7).any (fun l => !l.aborted && l.fin.isNone && l.pa == some 0x4000 && decide (l.blocks = 2)) = true ∧
      openOrder s (towerOf core) = [7] ∧ s.memNat (0x4000 + 136) 8 ≠ 2) ∧
    (let s := { claiming (some { claim7 with value := 2 }) with launches := [] }
     (s.core core).claim = some { claim7 with value := 2 } ∧ s.launch? 7 = none) ∧
    let s := (knows (claiming (some claim7))).setReg (leafReg 0 (copyLeaf core) 0) 8
    leavesOn s core = false ∧ (s.core core).claim = some claim7 := by decide +kernel
/-- A restore that waits for a partition change or a test; a save and a restore refused and taken by their world; and a restore of an
area no image is at. -/
theorem wit_ContextSwitches_waits :
    ((setPart (loading false) 2 0 |> partSt) ≠ 0 ∧ (((setPart (loading false) 2 0).core core).ctxops.find? (·.load)).isSome = true ∧ Unheld (setPart (loading false) 2 0) 0x2000 4) ∧
    (partSt (loading false) = 0 ∧ (loading false).testing = none ∧ (∀ op ∈ ((loading true).core core).ctxops, otherCore (loading true) core op = none)) ∧
    ((s0.block core 0).secure = s0.secureMem 0x2000 ∧ (onBlock (fun b => { b with secure := true }) s0).block core 0 ≠ s0.block core 0) ∧
    (fld (0x280 : Word) 31 9 ≠ 0 ∧ fld (0x80 : Word) 31 9 = 0 ∧ ∀ e ∈ s0.launches, e.2.opened = []) ∧
    (smGet? (((listing 0 0x100).setMemNat 0x2000 4 1).core (savedAt ((listing 0 0x100).setMemNat 0x2000 4 1) 0x2000)).blocks 0 = none ∧
      CacheHit (listing 0 0x100) 512 0 false 0x2000 1 0x2000) :=
  ⟨⟨by decide, by decide, unheld (by decide) _ _⟩, by decide, by decide, by decide, by decide, cacheHit (by decide)⟩
/-- No host access waits; a record of a port that was off, and one that the driver has changed (27 R452). -/
theorem wit_HostRegisters_records :
    s0.hostq = [] ∧
    (let s := { s0 with sends := [(key0, { peer := 5, count := 3, flushed := true })] }
     s.portOn 0 = false ∧ (s.portSecure 0 = true ∨ s.secureMem (recordsBase s 0 + 16 * (key0 % 2 ^ 20)) = false) ∧ s.memNat (recordsBase s 0 + 16 * (key0 % 2 ^ 20)) 4 ≠ 3 ∧ s.owners = []) ∧
    (let s := { s0 with sends := [(key0, { peer := 5, count := 3, flushed := true })] }.setMemNat (recordsBase s0 0 + 16 * (key0 % 2 ^ 20)) 4 3
     s.memNat (recordsBase s 0 + 16 * (key0 % 2 ^ 20)) 4 = 3 ∧ s.memNat (recordsBase s 0 + 16 * (key0 % 2 ^ 20) + 4) 1 = 0) := by decide
/-- A line that awaits another read in this pass, and an address that is not scrubbed; a test that the interval calls for; a flash that
fails; an image that has booted, and one that has not. -/
theorem wit_Reliability_more :
    (scrubbed { s0 with rescrub := [(lineOf 0x1000, ())] } 0x1000 = true ∧ scrubbed s0 (2 ^ 47) = false) ∧
    (let s := { State.reset with now := State.reset.testDue }
     testEn s = true ∧ s.testing = none ∧ partSt s = 0 ∧ s.testDue ≤ s.now ∧ (nextTest s).isSome = true) ∧
    ({ s0 with flashBad := true }.flashBad = true ∧ s0.flashBad = false) ∧
    (let at' := fld ((s0.setReg (fwReg 2) 0x1000).reg (fwReg 2)) 31 6 * 64
     s0.cfg.hbm0 ≤ at' ∧ at' + 0 ≤ s0.cfg.hbm0 + s0.cfg.hbmSize) ∧
    (State.reset.fellBack.testBit 3 = false ∧ { State.reset with mlog := [(3, 0, [])] }.mlog.any (·.1 == 3) = true ∧ { State.reset with fellBack := 8 }.fellBack.testBit 3 = true) := by
  decide +kernel
/-- A tower limited by current, and a sequence that runs. -/
theorem wit_PowerManagement_more :
    limiting (s0.updCore core fun k => { k with limiter := 9 }) = true ∧ limiting s0 = false ∧
    (let s := { s0 with clusters := [(8, { step := 2 })] }
     opState s 8 ≠ 1 ∧ (smGetD s.clusters {} 8).step ≠ 0) ∧ 64 * (8 / 64) + 8 % 64 = 8 := by decide

/-! ### WellFormed: each check refuses a term that breaks it alone -/

/-- The first of two records is a legal encoding of the operation and the second is not. -/
def refused (q : Op × Z1 × Z1) : Bool := (Instr.ofOp q.1 q.2.1).wf && !(Instr.ofOp q.1 q.2.2).wf
/-- 11 R219, R225: a form the operation lacks, a type it lacks, and an immediate wider than its type. -/
theorem test_wf_forms_types :
    [(Op.iadd, z, { z with ext := .cmd 0 0 }), (.iadd, z, { z with ty := .f32 }), (.wred, { z with ty := .i32 }, { z with ty := .b32 }),
     (.atom, { z with ty := .b32, mod := 3, ext := .mem { idxP := false, baseP := false, scale := 0, index := 0, base := 0, off := 0 } },
       { z with ty := .b32, mod := 0, ext := .mem { idxP := false, baseP := false, scale := 0, index := 0, base := 0, off := 0 } }),
     (.bankop, { z with ty := .f32, mod := 4, ext := .mem { idxP := false, baseP := false, scale := 0, index := 0, base := 0, off := 0 } },
       { z with ty := .i32, mod := 4, ext := .mem { idxP := false, baseP := false, scale := 0, index := 0, base := 0, off := 0 } }),
     (.iadd, { z with ty := .i8, ext := .imm 255 }, { z with ty := .i8, ext := .imm 256 })].all refused = true := by decide
/-- 11 R220: the extension's register and selector fields; 14 R278: the mask; 11 R221: the memory descriptor. -/
theorem test_wf_extensions :
    [(Op.iadd, { z with ext := .imm 1 }, { z with ext := .imm 1, b := 1 }), (.iadd, { z with ext := .opnd false 1 0 1 }, { z with ext := .opnd true 1 0 1 }),
     (.iadd, { z with ext := .opnd false 1 0 1 }, { z with ext := .opnd false 0 0 1 }), (.imad, { z with ext := .opnd false 0 1 0 }, { z with ext := .opnd false 0 1 1 }),
     (.imad, { z with ext := .opnd false 2 0 1 }, { z with ext := .opnd false 2 1 1 }), (.imad, { z with ext := .opnd false 2 0 1 }, { z with ext := .opnd false 3 0 1 }),
     (.wred, { z with ty := .i32, mod := 0x10, b := 1 }, { z with ty := .i32, b := 1 }), (.wred, { z with ty := .i32, mod := 0x10, ext := .imm 1 }, { z with ty := .i32, ext := .imm 1 }),
     (.ld, { z with ext := .mem { idxP := true, baseP := false, scale := 4, index := 0, base := 0, off := 0 } }, { z with ext := .mem { idxP := true, baseP := false, scale := 5, index := 0, base := 0, off := 0 } }),
     (.ld, { z with ext := .mem { idxP := false, baseP := false, scale := 0, index := 0, base := 0, off := 0 } }, { z with ext := .mem { idxP := false, baseP := false, scale := 0, index := 0, base := 1, off := 0 } })].all
      refused = true := by decide
/-- Control, barrier and register instructions: chapters 11, 14 and 03. -/
theorem test_wf_control :
    [(Op.nop, z, { z with d := 1 }), (.runend, z, { z with d := 1 }), (.runend, z, { z with guardNeg := true }), (.runend, { z with mod := 3 }, { z with mod := 4 }),
     (.bra, { z with ext := .disp 1 1 }, { z with ext := .disp 1 0 }), (.brx, { z with ext := .imm 1 }, { z with ext := .imm 0 }), (.call, { z with ext := .imm 1 }, { z with ext := .imm 1, mod := 1 }),
     (.ret, { z with a := 1540 }, { z with a := 1540, d := 1 }), (.exit, z, { z with mod := 1 }), (.loop, { z with ext := .disp 1 1 }, { z with ext := .disp 1 1, a := 1540 }),
     (.lbrk, z, { z with guardP := 0 }), (.wait, { z with ext := .imm 0x3F }, { z with ext := .imm 0x40 }), (.pause, { z with ext := .imm 1 }, { z with ext := .imm 0x10000 }),
     (.trap, { z with ext := .imm 1 }, { z with ext := .imm 0x10000 }), (.bkpt, z, { z with a := 1 }), (.bar, { z with ext := .imm 1 }, { z with ext := .imm 64 }),
     (.regqImm, { z with ext := .imm 0x421 }, { z with ext := .imm 0x8421 }), (.regqScalar, { z with a := 1536 }, { z with a := 1535 })].all refused = true := by decide
/-- Integer, logic, floating-point and cross-lane instructions: chapters 12 to 14. -/
theorem test_wf_compute :
    [(Op.iadd, { z with ty := .i32, mod := 1 }, { z with mod := 1 }), (.imul, z, { z with mod := 1 }), (.iabs, { z with ty := .i32 }, { z with ty := .i32, b := 1 }),
     (.iaddc, { z with mod := 0x48 }, { z with mod := 0x08 }), (.icmp, z, { z with mod := 0x30 }), (.sel, z, { z with mod := 0x10 }), (.mov, z, { z with b := 1 }),
     (.lea, { z with ty := .n64, mod := 8 }, { z with ty := .n32, mod := 8 }), (.lea, { z with ty := .n32, mod := 4 }, { z with ty := .n32, mod := 5 }), (.clz, z, { z with b := 1 }),
     (.fshf, { z with ext := .opnd false 0 0 0 }, { z with mod := 2, ext := .opnd false 0 0 0 }), (.pset, z, { z with a := 16 }), (.p2v, z, { z with a := 1 }), (.v2p, z, { z with d := 1 }),
     (.idot4, { z with ty := .i32, ext := .opnd false 0 0 0 }, { z with ty := .i32, mod := 8, ext := .opnd false 0 0 0 }), (.ipack, { z with ty := .i16 }, { z with ty := .i16, mod := 2 }),
     (.fadd, { z with ty := .f32 }, { z with ty := .f32, mod := 4 }), (.fmin, { z with ty := .f32 }, { z with ty := .f32, mod := 1 }), (.fcmp, { z with ty := .f32 }, { z with ty := .f32, d := 1 }),
     (.frcp, { z with ty := .f32 }, { z with ty := .f32, b := 1 }), (.frnd, { z with ty := .f32 }, { z with ty := .f32, mod := 8 }), (.f2i, { z with ty := .i32 }, { z with ty := .i32, mod := 12 }),
     (.i2f, { z with ty := .f32 }, { z with ty := .f32, mod := 0x20 }), (.f2f, { z with ty := .h2 }, { z with ty := .h2, mod := 4 }), (.f2n, { z with ty := .nf }, { z with ty := .nf, mod := 1 }),
     (.n2f, { z with ty := .f32 }, { z with ty := .f32, mod := 4 }), (.qswap, z, { z with mod := 3 }), (.shfl, z, { z with mod := 5 }), (.shfl, { z with mod := 0x20 }, { z with mod := 0x28 }),
     (.vote, z, { z with mod := 0x28 }), (.vote, { z with mod := 0x40, b := 1 }, { z with b := 1 }), (.wred, { z with ty := .f32, mod := 0x20 }, { z with ty := .i32, mod := 0x20 }),
     (.wscan, { z with ty := .i32 }, { z with ty := .i32, mod := 0x40 }), (.matchLanes, z, { z with mod := 8 }), (.elect, z, { z with mod := 0x60 }), (.elect, { z with mod := 0x40, a := 1 }, { z with a := 1 })].all
      refused = true := by decide
/-- Memory, copy, fabric, matrix and system instructions: chapters 15 to 17; 23 R414. -/
theorem test_wf_engines :
    [(Op.ld, { z with ext := mem16 }, { z with ext := mem16, a := 1 }), (.st, { z with ext := mem16 }, { z with ext := mem16, d := 1 }), (.lds, { z with ext := mem16 }, { z with ext := mem16, mod := 8 }),
     (.ldk, { z with ext := mem16 }, { z with ext := mem16, mod := 4 }), (.atom, { z with ext := mem16, ty := .i32, mod := 0x20, d := 1 }, { z with ext := mem16, ty := .i32, d := 1 }),
     (.bankop, { z with ext := mem16, ty := .f32, mod := 4 }, { z with ext := mem16, ty := .f32, mod := 5 }), (.fence, z, { z with mod := 0x10 }), (.pref, { z with ext := mem16 }, { z with ext := mem16, mod := 2 }),
     (.cctl, { z with ext := mem16 }, { z with ext := mem16, mod := 3 }), (.cpy, z, { z with mod := 3 }), (.tcpy, { z with mod := 0x40, a := 1 }, { z with a := 1 }),
     (.layset, { z with ext := .cmd 0 0 }, { z with ext := .cmd 0x50 0 }), (.rfillGet, { z with mod := 1 }, { z with mod := 3 }), (.rfill, z, { z with d := 1 }), (.rtake, z, { z with mod := 2 }),
     (.rtakeBack, { z with mod := 1 }, { z with mod := 1, d := 1 }), (.rinit, { z with ext := .cmd 0 0x100010 }, { z with ext := .cmd 0 0x100011 }), (.ringadv, z, { z with mod := 8 }), (.fxw, z, { z with b := 1 }),
     (.fxatom, { z with ty := .i32 }, { z with ty := .i32, mod := 0x20 }), (.acwait, z, { z with mod := 1 }), (.acread, z, { z with b := 1 }), (.mxrsv, z, { z with d := 1 }), (.mxrel, z, { z with mod := 4 }),
     (.wload, { z with ext := .cmd 0 0 }, { z with ext := .cmd 0 0x10000 }), (.mxmul, { z with ext := .cmd 0xFC000000 0 }, { z with ext := .cmd 0xFC100000 0 }),
     (.mxdrain, { z with ext := .cmd 0x80000000 1 }, { z with ext := .cmd 0 1 }), (.mxdrain, { z with ext := .cmd 0x3F00 0 }, { z with ext := .cmd 0x3F04 0 }), (.atbl, { z with ext := .cmd 0 0 }, { z with ext := .cmd 0xC00000 0 }),
     (.nfset, { z with ext := .imm 0 }, { z with ext := .imm 0, mod := 8 }), (.mxstat, z, { z with mod := 8 }), (.enq, z, { z with d := 1 }), (.rand, { z with ext := .imm 0 }, { z with ext := .imm 0, b := 1 }),
     (.sysrd, { z with ext := .imm 0 }, { z with ext := .imm 2 }), (.syswr, { z with ext := .imm 0x40 }, { z with ext := .imm 0x1000 }), (.tlbinv, { z with mod := 2, a := 1 }, { z with a := 1 }),
     (.xret, z, { z with mod := 3 }), (.ctxsave, z, { z with mod := 1 }), (.ctxload, z, { z with b := 1 })].all refused = true ∧
    ((Instr.rankLdt 0 13).wf = true ∧ (Instr.rankLdt 0 14).wf = false) ∧ (Instr.rankNow 0 2).wf = true ∧ (Instr.rankNow 0 3).wf = false := by decide

/-! ### Decoding: words written out from the manual's encodings -/

/-- 11 R224: NOP in its 64-bit and 96-bit forms, and RUNEND with one name. -/
theorem test_decode_control : decodeTableWord 64 0x1700 = some (.nop z) ∧ decodeTableWord 96 0x1701 = some (.nop { z with ext := .imm 0 }) ∧
    decodeTableWord 64 0x0200000004002700 = some (.runend { z with d := 4, mod := 1 }) ∧
    decodeBytes [0x01, 0xA7, 0, 0, 0, 0, 0, 0, 0, 0, 0x3F, 0x3F] = .ok (.wait { z with ext := .imm 0x3F3F0000 }) 12 := by decide
/-- 12 R238, 13 R269 and 10: ICMP, F2N and FFMA. -/
theorem test_decode_compute :
    decodeBytes [0x01, 0xC7, 0x31, 0, 0x08, 0, 0, 0x02, 1, 0, 0, 0] = .ok (.icmp { z with ext := .imm 1, ty := .i32, a := 1, mod := 1 }) 12 ∧
    decodeTableWord 64 0x6800001005F56700 = some (.f2n { z with ty := .nf, d := 5, a := 2, mod := 0x34 }) ∧
    decodeBytes [0x02, 0x37, 0xC4, 0x04, 0x10, 0xC0, 0, 0, 0, 0, 0x20, 0x40, 0, 0x10, 0, 0] = .ok (.ffma { z with ext := .opnd false 2 0 0x40200000, ty := .f32, d := 4, a := 2, b := 3 }) 16 := by decide
/-- 15: LD.f32 v20, [s4 + v6 * 4] and FENCE.sc.dev. -/
theorem test_decode_memory :
    decodeTableWord 128 0x06803604000000000000000014C70702 =
      some (.ld { z with ext := .mem { idxP := true, baseP := true, scale := 2, index := 6, base := 1540, off := 0 }, ty := .f32, d := 20 }) ∧
    decodeTableWord 64 0x0E00000000078700 = some (.fence { z with mod := 7 }) := by decide
/-- 16 R326, R328 and 17 R338: RTAKE.warp, FXW.warp and MXMUL.z.set. -/
theorem test_decode_engines :
    decodeTableWord 64 0x180000060C094704 = some (.rtake { wz with d := 1548, mod := 12 }) ∧ decodeTableWord 64 0x00003046140A0704 = some (.fxw { wz with d := 1556, a := 1544 }) ∧
    decodeBytes [0x0A, 0x37, 0x0B, 0, 0x60, 0x30, 0, 0, 0, 0, 0, 0xFC, 0x80, 0, 0x20, 0x02] = .ok (.mxmul { sz with a := 1548, ext := .cmd 0xFC000000 0x02200080 }) 16 := by decide
/-- 17 R350, R351 and 03 R73: SYSWR user0, RAND and REGQ.blk. -/
theorem test_decode_system :
    decodeBytes [0x05, 0x37, 0x0C, 0, 0x10, 0x30, 0, 0, 0x30, 0, 0, 0] = .ok (.syswr { wz with a := 1538, ext := .imm 0x30 }) 12 ∧
    decodeTableWord 96 0x00000010080C1701 = some (.rand { z with d := 8, a := 2, ext := .imm 0 }) ∧
    decodeTableWord 96 0x00002442040000000006970D = some (.regqImm { z with scope := .block, ext := .imm 0x2442, mod := 2 }) := by decide
/-- 23 R413: three words of a rank program; 11 R225: opcodes that are not assigned, and a reserved bit. -/
theorem test_decode_rank_and_refusals :
    decodeTableWord 32 0x08800006 = some (.rankLdt 1 6) ∧ decodeTableWord 32 0x5888000A = some (.rankShr 1 1 10) ∧ decodeTableWord 32 0x98080000 = some (.rankEmit 1) ∧
    decodeBytes (toBytes 8 0x0700) = .illegalOpcode ∧ decodeBytes (toBytes 8 0xE700) = .illegalOpcode ∧ decodeBytes (toBytes 8 0x0200000000001700) = .illegalEncoding := by decide

/-! ### Results worked out by hand from the manual's rules -/

/-- What lands in lane 0 of a warp, from the results on their way. -/
def lane0 : Res → List (Nat × Word)
  | .next t => ((t.warp? core 0).elim [] fun w => w.pend.flatMap fun p => p.writes.filterMap fun x => match x with | .lane r 0 v => some (r, v) | _ => none)
  | _ => []
def regs3 (a b c : Word) : State := onWarp (fun w => { w with v := [(32, a), (64, b), (96, c)] }) s0
/-- 12 R233: a sum wraps, and saturates where asked. -/
theorem test_iadd : lane0 (exec (.iadd i32) (regs3 0x7FFFFFFF 1 0)) = [(4, 0x80000000)] ∧ lane0 (exec (.iadd { i32 with mod := 1 }) (regs3 0x7FFFFFFF 1 0)) = [(4, 0x7FFFFFFF)] := by decide
/-- 12 R236: the most negative dividend by -1, and a zero divisor. -/
theorem test_idiv : lane0 (exec (.idiv i32) (regs3 0x80000000 0xFFFFFFFF 0)) = [(4, 0x80000000)] ∧ lane0 (exec (.irem { i32 with ty := .n32 }) (regs3 7 0 0)) = [(4, 7)] := by decide
/-- 12 R243: a shift by the width leaves nothing, an arithmetic one the sign. -/
theorem test_shifts : lane0 (exec (.shl { i32 with ty := .b32 }) (regs3 5 32 0)) = [(4, 0)] ∧ lane0 (exec (.sar { i32 with ty := .b32 }) (regs3 0x80000000 40 0)) = [(4, 0xFFFFFFFF)] := by decide
/-- 13 R256, R258: 1.5 + 2.25 = 3.75, and 2 * 3 + (-6) = +0 with one rounding. -/
theorem test_float : lane0 (exec (.fadd { i32 with ty := .f32 }) (regs3 0x3FC00000 0x40100000 0)) = [(4, 0x40700000)] ∧
    lane0 (exec (.ffma { i32 with ty := .f32, ext := .opnd false 0 3 0 }) (regs3 0x40000000 0x40400000 0xC0C00000)) = [(4, 0)] := by decide
/-- 17 R352: the first counter of Philox4x32-10 under a zero key. -/
theorem test_rand : lane0 (exec (.rand { z with d := 8, a := 2, ext := .imm 0 }) s0) = [(8, 0x6627E8D5), (9, 0xE169C58D), (10, 0xBC57AC4C), (11, 0x9B00DBD8)] := by decide
/-- 23 R412: the maximum of -1 and 1 as signed words. -/
theorem test_rank_max :
    (match exec (.rankMax 3 1 2 true) { State.reset with jobs := [{ job0 .formed with q := [(1, 0xFFFFFFFF), (2, 1)] }] } with
     | .next t => t.jobs.map fun j => (j.q' 3, j.pc)
     | _ => []) = [(1, 8)] := by decide

/-! ### A word of every opcode: 11 R226, R215 to R223, fields zero where the instruction admits it -/

def opWord (q : Nat × Nat × Op) : Bool := ((decodeTableWord q.1 q.2.1).bind Instr.z1?).any fun r => r.1 == q.2.2
theorem test_decode_opcodes0 :
    [(64, 0x1700, Op.nop), (64, 0x2700, Op.runend), (128, 0x8000000080000000000003702, Op.bra), (96, 0x80000000000004701, Op.brx), (96, 0x5701, Op.call),
    (64, 0x6700, Op.ret), (64, 0x7700, Op.exit), (128, 0x8000000080000000000008702, Op.loop), (64, 0x9700, Op.lbrk), (96, 0xA701, Op.wait), (64, 0xB700, Op.pause),
    (96, 0xC701, Op.trap), (64, 0xD700, Op.bkpt), (64, 0x10700, Op.iadd), (64, 0x11700, Op.isub), (64, 0x12700, Op.imul), (64, 0x313700, Op.imulh),
    (128, 0x14702, Op.imad), (64, 0x315700, Op.idiv), (64, 0x316700, Op.irem), (64, 0x317700, Op.imin), (64, 0x318700, Op.imax), (64, 0x319700, Op.iabs),
    (64, 0x31A700, Op.ineg), (64, 0x1B700, Op.iaddc), (64, 0x1C700, Op.icmp), (64, 0x1D700, Op.sel), (64, 0x1E700, Op.mov), (64, 0x81F700, Op.lea), (64, 0x20700, Op.and),
    (64, 0x21700, Op.or), (64, 0x22700, Op.xor), (64, 0x23700, Op.not), (64, 0x24700, Op.andn), (64, 0x25700, Op.shl), (64, 0x26700, Op.shr), (64, 0x27700, Op.sar),
    (64, 0x28700, Op.rot), (128, 0x29702, Op.fshf), (128, 0x32A702, Op.bfx), (128, 0x2B702, Op.bfi), (64, 0x2C700, Op.clz), (64, 0x2D700, Op.ffs), (64, 0x2E700, Op.popc),
    (64, 0x2F700, Op.brev), (128, 0x30702, Op.prmt), (64, 0x31700, Op.pset), (64, 0x32700, Op.p2v)].all opWord = true := by decide
theorem test_decode_opcodes1 :
    [(64, 0x33700, Op.v2p), (128, 0x334702, Op.idot4), (64, 0x235700, Op.ipack), (64, 0xC40700, Op.fadd), (64, 0xC41700, Op.fsub), (64, 0xC42700, Op.fmul),
    (128, 0xC43702, Op.ffma), (64, 0xC44700, Op.fmin), (64, 0xC45700, Op.fmax), (64, 0xC46700, Op.fcmp), (64, 0xC47700, Op.fclass), (64, 0xC48700, Op.frcp),
    (64, 0xC49700, Op.frsq), (64, 0xC4A700, Op.fsqrt), (64, 0xC4B700, Op.fdiv), (64, 0xC4C700, Op.fexp2), (64, 0xC4D700, Op.flog2), (64, 0xC4E700, Op.fsinp),
    (64, 0xC4F700, Op.fcosp), (64, 0xC50700, Op.ftanh), (64, 0xC51700, Op.fscale), (64, 0xC52700, Op.frnd), (64, 0x353700, Op.f2i), (64, 0xC54700, Op.i2f),
    (64, 0xC55700, Op.f2f), (64, 0xF56700, Op.f2n), (64, 0xC57700, Op.n2f), (64, 0xC58700, Op.fmaxi), (128, 0xD59702, Op.fdot2), (64, 0x60700, Op.qswap),
    (64, 0x61700, Op.qbcast), (64, 0x62700, Op.shfl), (64, 0x63700, Op.vote), (64, 0x364700, Op.wred), (64, 0x365700, Op.wscan), (64, 0x66700, Op.matchLanes),
    (64, 0x67700, Op.elect), (64, 0x68700, Op.bar), (96, 0x4210000000000069701, Op.regqImm), (64, 0x300000069700, Op.regqScalar), (128, 0x70702, Op.ld),
    (128, 0x71702, Op.st), (128, 0x72702, Op.lds), (128, 0x73702, Op.sts), (128, 0x74702, Op.ldk), (128, 0x375702, Op.atom), (128, 0x376702, Op.atoms),
    (128, 0x377702, Op.bankop)].all opWord = true := by decide
theorem test_decode_opcodes2 :
    [(64, 0x78700, Op.fence), (128, 0x79702, Op.pref), (128, 0x7A702, Op.cctl), (64, 0x90700, Op.cpy), (64, 0x91700, Op.tcpy), (128, 0x92702, Op.layset),
    (64, 0x200000000093700, Op.rfillGet), (64, 0x93700, Op.rfill), (64, 0x94700, Op.rtake), (64, 0x200000000094700, Op.rtakeBack),
    (128, 0x100010000000000000000000095702, Op.rinit), (64, 0x96700, Op.ringadv), (64, 0xA0700, Op.fxw), (64, 0xA1700, Op.fxflag), (64, 0xA2700, Op.fxrd),
    (64, 0x3A3700, Op.fxatom), (64, 0xA4700, Op.acwait), (64, 0xA5700, Op.acread), (64, 0xB0700, Op.mxrsv), (64, 0xB1700, Op.mxrel), (128, 0xB2702, Op.wload),
    (128, 0xB3702, Op.mxmul), (128, 0xB4702, Op.mxdrain), (128, 0xB5702, Op.atbl), (64, 0xB6700, Op.nfset), (64, 0xB7700, Op.mxstat), (64, 0xC0700, Op.enq),
    (64, 0xC1700, Op.rand), (96, 0xC2701, Op.sysrd), (96, 0xC3701, Op.syswr), (64, 0xC4700, Op.tlbinv), (64, 0xC5700, Op.xret), (64, 0xC6700, Op.ctxsave),
    (64, 0xC7700, Op.ctxload)].all opWord = true := by decide
/-- 23 R413: each rank instruction with d = 1, a = 2, b = 3 where it uses them. -/
theorem test_decode_rank_program :
    [((0x0880000D : Nat), Instr.rankLdt 1 13), (0x10800007, .rankLdn 1 7), (0x18900003, .rankLdf 1 2 3), (0x20100007, .rankStn 2 7), (0x28118003, .rankStf 2 3 3),
     (0x30918000, .rankAdd 1 2 3), (0x38907FFF, .rankAddi 1 2 0x7FFF), (0x40918000, .rankSub 1 2 3), (0x48918000, .rankMul 1 2 3), (0x5090001F, .rankShl 1 2 31),
     (0x5890001F, .rankShr 1 2 31), (0x60918001, .rankMin 1 2 3 true), (0x68918000, .rankMax 1 2 3 false), (0x70918000, .rankAnd 1 2 3), (0x78918000, .rankOr 1 2 3),
     (0x80918001, .rankCmplt 1 2 3 true), (0x88918004, .rankSel 1 2 3 4), (0x90800002, .rankNow 1 2), (0x98100000, .rankEmit 2), (0xA0100000, .rankRefuse 2)].all (fun q => decodeTableWord 32 q.1 == some q.2) = true := by decide

end Sys2Proof.Tests
end

