-- ==== Sys2Proof/Proofs/RegisterQuotas.lean ====
section
/-!
REGQ (03 R73, R53): what it does to a warp, to the warps of a block and to the state, and the two forms' effect on a
core that lists each warp slot once.
-/
namespace Sys2Proof.Machine

/-! ### What REGQ does to a warp -/

theorem smGet?_filter_key {α : Type} (p : Nat → Bool) (m : Sparse α) (i : Nat) :
    smGet? (m.filter fun e => p e.1) i = if p i then smGet? m i else none := by
  induction m with
  | nil => simp [smGet?]
  | cons e m ih =>
    obtain ⟨k, w⟩ := e
    by_cases hi : i = k
    · subst hi
      cases hp : p i <;> simp [smGet?, hp] at ih ⊢
      exact ih
    · cases hp : p k <;> simp [smGet?, hp, hi, ih]

/-- A register of a warp's own window, for a lane, after the window has shrunk to n registers (03 R53). -/
theorem loseRegs_v (w : Warp) (n r l : Nat) (hl : l < 32) :
    smGetD (w.loseRegs n).v 0 (32 * r + l) = if n ≤ r then 0 else smGetD w.v 0 (32 * r + l) := by
  have hr : (32 * r + l) / 32 = r := by omega
  have h := smGet?_filter_key (fun k => decide (k / 32 < n)) w.v (32 * r + l)
  simp only [hr, decide_eq_true_eq] at h
  simp only [smGetD, Warp.loseRegs, h]
  by_cases hn : n ≤ r
  · rw [if_neg (by omega), if_pos hn]; rfl
  · rw [if_pos (by omega), if_neg hn]

/-- Nothing is awaited for a register that is lost, and none is in error. -/
theorem loseRegs_awaits_none (w : Warp) {n r : Nat} (hn : n ≤ r) (hr : r < 512) :
    (∀ p ∈ (w.loseRegs n).outst, p.1 ≠ r) ∧ r ∉ (w.loseRegs n).held ∧ ∀ p ∈ (w.loseRegs n).bad, p.1 ≠ r := by
  simp only [Warp.loseRegs, List.mem_filter, Bool.or_eq_true, decide_eq_true_eq]
  exact ⟨fun p hp => by omega, fun h => by omega, fun p hp => by omega⟩

/-- A warp of a role after REGQ: shrunk to its new quota, where that is the smaller one. -/
def Warp.requota (b : Block) (q : Role → Nat) (role : Role) (w : Warp) : Warp :=
  if q role < b.quota role then w.loseRegs (32 * q role) else w

theorem requota_pend (b : Block) (q : Role → Nat) (role : Role) (w : Warp) :
    ((w.requota b q role).pend, (w.requota b q role).resAt) = (w.pend, w.resAt) := by
  unfold Warp.requota; split <;> rfl

/-! ### What REGQ does to a block's warps -/

/-- The warps of a list lose what the new quotas of their roles no longer cover. -/
def requotaAll (core : Nat) (b : Block) (q : Role → Nat) (l : List (Nat × Warp)) (s : State) : State :=
  l.foldl (fun s e => if q e.2.role < b.quota e.2.role then s.updWarp core e.1 fun w => w.loseRegs (32 * q e.2.role) else s) s

theorem requotaAll_cons (core : Nat) (b : Block) (q : Role → Nat) (e : Nat × Warp) (l : List (Nat × Warp)) (s : State) :
    requotaAll core b q (e :: l) s =
      requotaAll core b q l (if q e.2.role < b.quota e.2.role then s.updWarp core e.1 fun w => w.loseRegs (32 * q e.2.role) else s) := rfl

theorem warp?_requota (core : Nat) (b : Block) (q : Role → Nat) (e : Nat × Warp) (s : State) (sl : Nat) :
    (if q e.2.role < b.quota e.2.role then s.updWarp core e.1 fun w => w.loseRegs (32 * q e.2.role) else s).warp? core sl =
      if sl = e.1 then (s.warp? core sl).map (Warp.requota b q e.2.role) else s.warp? core sl := by
  unfold Warp.requota
  by_cases hq : q e.2.role < b.quota e.2.role
  · simp [hq, State.warp?_updWarp]
  · simp [hq]

theorem warp?_requotaAll_of_notMem (core : Nat) (b : Block) (q : Role → Nat) {l : List (Nat × Warp)} (s : State) {sl : Nat}
    (h : sl ∉ l.map (·.1)) : (requotaAll core b q l s).warp? core sl = s.warp? core sl := by
  induction l generalizing s with
  | nil => rfl
  | cons e l ih =>
    simp only [List.map_cons, List.mem_cons, not_or] at h
    rw [requotaAll_cons, ih _ h.2, warp?_requota, if_neg h.1]

/-- Of a list that names each slot once, every warp is treated once, by its own role. -/
theorem warp?_requotaAll_of_mem (core : Nat) (b : Block) (q : Role → Nat) {l : List (Nat × Warp)} (s : State)
    (hl : (l.map (·.1)).Nodup) {e : Nat × Warp} (he : e ∈ l) :
    (requotaAll core b q l s).warp? core e.1 = (s.warp? core e.1).map (Warp.requota b q e.2.role) := by
  induction l generalizing s with
  | nil => cases he
  | cons a l ih =>
    rw [List.map_cons, List.nodup_cons] at hl
    rw [requotaAll_cons]
    rcases List.mem_cons.1 he with rfl | he
    · rw [warp?_requotaAll_of_notMem core b q _ hl.1, warp?_requota, if_pos rfl]
    · have hne : e.1 ≠ a.1 := fun h => hl.1 (h ▸ List.mem_map_of_mem he)
      rw [ih _ hl.2 he, warp?_requota, if_neg hne]

theorem onlyCore_requotaAll (core : Nat) (b : Block) (q : Role → Nat) (l : List (Nat × Warp)) (s : State) :
    OnlyCore core s (requotaAll core b q l s) := by
  induction l generalizing s with
  | nil => exact OnlyCore.refl _ _
  | cons e l ih =>
    rw [requotaAll_cons]
    refine OnlyCore.trans ?_ (ih _)
    split
    · exact onlyCore_updWarp _ _ _ _
    · exact OnlyCore.refl _ _

theorem block_requotaAll (core : Nat) (b : Block) (q : Role → Nat) (l : List (Nat × Warp)) (s : State) (d k : Nat) :
    (requotaAll core b q l s).block d k = s.block d k := by
  induction l generalizing s with
  | nil => rfl
  | cons e l ih => rw [requotaAll_cons, ih]; split <;> simp

/-- No result on its way moves. -/
theorem pend_requotaAll (core : Nat) (b : Block) (q : Role → Nat) (l : List (Nat × Warp)) (s : State) (sl : Nat) :
    ((requotaAll core b q l s).warp? core sl).map (fun w => (w.pend, w.resAt)) = (s.warp? core sl).map fun w => (w.pend, w.resAt) := by
  induction l generalizing s with
  | nil => rfl
  | cons e l ih =>
    rw [requotaAll_cons, ih, warp?_requota]
    split
    · rw [Option.map_map]; exact congrArg (Option.map · _) (funext fun w => requota_pend _ _ _ w)
    · rfl

/-! ### What REGQ does to the state -/

/-- Has every partition room for the new quotas of the block's warps on it (03 R73)? -/
def quotasFit (c : Ctx) (s : State) (v : Nat) : Bool :=
  (List.range 8).all fun p =>
    let ws := (blockWarps s c.core c.bi).filter fun e => partOf e.1 == p
    decide ((ws.map fun e => 32 * newQuota v e.2.role).sum ≤ (ws.map fun e => 32 * c.b.quota e.2.role).sum + partFree s c.core p)

/-- The state once the quotas have moved. -/
def quotasMoved (c : Ctx) (s : State) (v : Nat) : State :=
  requotaAll c.core c.b (newQuota v) (blockWarps s c.core c.bi)
    (s.updBlock c.core c.bi fun b => { b with qCopy := newQuota v .copy, qMatrix := newQuota v .matrix, qVector := newQuota v .vector })

/-- A request that REGQ does not fault: in a role block, with quotas of 1 to 16 and the block's total of registers (03 R73). -/
structure QuotaRequest (b : Block) (v : Nat) : Prop where
  role  : b.role = true
  zero  : v / 2 ^ 15 % 2 ^ 17 = 0
  range : ∀ r ∈ [Role.copy, .matrix, .vector], 1 ≤ newQuota v r ∧ newQuota v r ≤ 16
  total : ([Role.copy, .matrix, .vector].map fun r => (b.roles.filter (· == r)).length * newQuota v r).sum =
    ([Role.copy, .matrix, .vector].map fun r => (b.roles.filter (· == r)).length * b.quota r).sum

/-- REGQ's predicate on its way, from a state t: whether the quotas fit in s. -/
def regqResult (c : Ctx) (s t : State) (d v : Nat) : State :=
  c.result t 8 none (fun _ => []) [(d, fun _ => quotasFit c s v)] 0

theorem regq_empty {v d : Nat} {c : Ctx} {s : State} (he : c.e = 0) : regq v d c s = .done s := by
  unfold regq; rw [if_pos he]

theorem regq_request {v d : Nat} {c : Ctx} {s : State} (he : c.e ≠ 0) (h : QuotaRequest c.b v) :
    regq v d c s = .done (regqResult c s (if quotasFit c s v then quotasMoved c s v else s) d v) := by
  obtain ⟨hrole, hzero, hrange, htotal⟩ := h
  have hv : nfld v 31 15 = 0 := by rw [nfld, Nat.shiftRight_eq_div_pow]; exact hzero
  have hr : ([Role.copy, .matrix, .vector].any fun r => newQuota v r == 0 || decide (newQuota v r > 16)) = false := by
    rw [List.any_eq_false]
    intro r hr
    have := hrange r hr
    simp
    omega
  unfold regq
  simp only [if_neg he, hrole, hv, hr, htotal, bne_self_eq_false, Bool.not_true, Bool.or_self, Bool.false_eq_true, if_false]
  change Act.done (regqResult c s (if !quotasFit c s v then s else quotasMoved c s v) d v) = _
  cases quotasFit c s v <;> rfl

/-! ### The results on their way, from a state in which registers alone have moved -/

/-- From s to t no result on its way moved, and no clk passed. -/
structure SamePend (core : Nat) (s t : State) : Prop where
  now   : t.now = s.now
  warp  : ∀ sl, ((t.warp? core sl).map fun w => (w.pend, w.resAt)) = (s.warp? core sl).map fun w => (w.pend, w.resAt)
  block : ∀ b, (t.block core b).bpend = (s.block core b).bpend

theorem PredResult.ofSamePend {en : Entry} {t u : State} (h : SamePend en.c.core en.s t) {L p : Nat} {f : Nat → Bool}
    (k : PredResult { en with s := t } u L p f) : PredResult en u L p f := by
  intro he hp q hq h0 hs l hl hm
  rw [← h.now]
  refine k he hp q hq h0 ?_ l hl hm
  have e := congrArg Option.isSome (h.warp q.1)
  simp only [Option.isSome_map] at e
  exact e.trans hs

theorem OnlyDest.ofSamePend {en : Entry} {t u : State} (h : SamePend en.c.core en.s t) {L : Nat} {d : Option Nat} {f : Nat → List Word}
    {ps : List (Nat × (Nat → Bool))} {flags : BitVec 5} (k : OnlyDest { en with s := t } u L d f ps flags) :
    OnlyDest en u L d f ps flags := by
  obtain ⟨kw, kb⟩ := k
  unfold OnlyDest
  rw [← h.now]
  refine ⟨fun sl w hw => ?_, fun b => h.block b ▸ kb b⟩
  obtain ⟨w1, h1, hsub, hmem, hlo, hhi⟩ := kw sl w hw
  obtain ⟨w0, h0, e⟩ := Option.map_eq_some_iff.1 ((h.warp sl).symm.trans (congrArg (Option.map _) h1))
  obtain ⟨hp, hr⟩ := Prod.mk.inj e
  rw [← hp] at hsub hmem
  rw [← hr] at hlo hhi
  exact ⟨w0, h0, hsub, hmem, hlo, hhi⟩

theorem onlyCore_quotasMoved (c : Ctx) (s : State) (v : Nat) : OnlyCore c.core s (quotasMoved c s v) := by
  unfold quotasMoved
  refine OnlyCore.trans ?_ (onlyCore_requotaAll _ _ _ _ _)
  exact onlyCore_updCore s c.core _ fun _ => rfl

theorem samePend_quotasMoved (c : Ctx) (s : State) (v : Nat) : SamePend c.core s (quotasMoved c s v) := by
  refine ⟨?_, fun sl => ?_, fun b => ?_⟩
  · have h := congrArg State.now (onlyCore_quotasMoved c s v).1
    exact h
  · rw [quotasMoved, pend_requotaAll, State.warp?_updBlock]
  · rw [quotasMoved, block_requotaAll, State.block_updBlock]; split <;> rfl

/-! ### Slots listed once -/

theorem smGet?_of_mem {α : Type} {m : Sparse α} (hm : (m.map (·.1)).Nodup) {i : Nat} {v : α} (h : (i, v) ∈ m) : smGet? m i = some v := by
  induction m with
  | nil => cases h
  | cons e m ih =>
    obtain ⟨k, w⟩ := e
    rw [List.map_cons, List.nodup_cons] at hm
    rcases List.mem_cons.1 h with h | h
    · cases h; simp [smGet?]
    · have hne : i ≠ k := fun hk => hm.1 (hk ▸ List.mem_map.2 ⟨_, h, rfl⟩)
      rw [smGet?, if_neg hne, ih hm.2 h]

section
variable {s : State} {core bi : Nat} (hslots : ((s.core core).warps.map (·.1)).Nodup)
include hslots

theorem warp?_of_mem_blockWarps {e : Nat × Warp} (he : e ∈ blockWarps s core bi) : s.warp? core e.1 = some e.2 :=
  smGet?_of_mem hslots (List.mem_filter.1 he).1

theorem nodup_blockWarps : ((blockWarps s core bi).map (·.1)).Nodup :=
  hslots.sublist (List.filter_sublist.map _)

/-- A slot whose warp is of another block is no slot of this one. -/
theorem notMem_blockWarps {sl : Nat} {w : Warp} (hw : s.warp? core sl = some w) (hb : w.block ≠ bi) :
    sl ∉ (blockWarps s core bi).map (·.1) := by
  intro h
  obtain ⟨e, he, rfl⟩ := List.mem_map.1 h
  have hw' := (warp?_of_mem_blockWarps hslots he).symm.trans hw
  have hbi : e.2.block = bi := by
    have := (List.mem_filter.1 he).2
    simp only [Bool.and_eq_true, beq_iff_eq] at this
    exact this.1
  exact hb (Option.some.inj hw' ▸ hbi)

end

/-! ### The effect -/

theorem requota_still (b : Block) (q : Role → Nat) (role : Role) (w : Warp) :
    { (w.requota b q role).still with v := w.v, outst := w.outst, held := w.held, fills := w.fills, bad := w.bad } = w.still := by
  unfold Warp.requota; split <;> rfl

/-- Of a role's warp with the registers of before: what it keeps has its value, and what it lost reads zero and awaits
nothing (03 R53). -/
structure Requoted (b : Block) (q : Role → Nat) (old new : Warp) : Prop where
  rest  : { new.still with v := old.v, outst := old.outst, held := old.held, fills := old.fills, bad := old.bad } = old.still
  value : ∀ r l, r < 512 → l < 32 → smGetD new.v 0 (32 * r + l) =
    if q old.role < b.quota old.role ∧ 32 * q old.role ≤ r then 0 else smGetD old.v 0 (32 * r + l)
  lost  : ∀ r, r < 512 → q old.role < b.quota old.role → 32 * q old.role ≤ r →
    (∀ p ∈ new.outst, p.1 ≠ r) ∧ r ∉ new.held ∧ ∀ p ∈ new.bad, p.1 ≠ r

theorem requoted_of_still {b : Block} {q : Role → Nat} {old new : Warp} (h : new.still = (old.requota b q old.role).still) :
    Requoted b q old new := by
  have hv : new.v = (old.requota b q old.role).v := congrArg (·.v) h
  have hout : new.outst = (old.requota b q old.role).outst := congrArg (·.outst) h
  have hheld : new.held = (old.requota b q old.role).held := congrArg (·.held) h
  have hbad : new.bad = (old.requota b q old.role).bad := congrArg (·.bad) h
  refine ⟨h ▸ requota_still b q old.role old, fun r l _ hl => ?_, fun r hr hlt hle => ?_⟩
  · rw [hv, Warp.requota]
    by_cases hlt : q old.role < b.quota old.role
    · simp only [hlt, if_true, true_and]; exact loseRegs_v old _ r l hl
    · simp [hlt]
  · rw [hout, hheld, hbad, Warp.requota, if_pos hlt]
    exact loseRegs_awaits_none old hle hr

/-- REGQ completes and moves the quotas where they fit, and nothing where they do not; its predicate says which (03 R73). -/
structure MovesQuotas (en : Entry) (t : State) (d v : Nat) : Prop where
  pred  : PredResult en t 8 d fun _ => quotasFit en.c en.s v
  dest  : OnlyDest en t 8 none (fun _ => []) [(d, fun _ => quotasFit en.c en.s v)] 0
  frame : OnlyCore en.c.core en.s t
  unfit : quotasFit en.c en.s v = false → OnlyIssue en.c.core en.s t
  quota : quotasFit en.c en.s v = true → ∀ r ∈ [Role.copy, .matrix, .vector], (t.block en.c.core en.c.bi).quota r = newQuota v r
  block : quotasFit en.c en.s v = true → ∀ b, b ≠ en.c.bi → (t.block en.c.core b).still = (en.s.block en.c.core b).still
  other : quotasFit en.c en.s v = true → ∀ sl w, en.s.warp? en.c.core sl = some w → w.block ≠ en.c.bi →
    (t.warp? en.c.core sl).map Warp.still = some w.still
  mine  : quotasFit en.c en.s v = true → ∀ e ∈ blockWarps en.s en.c.core en.c.bi, ∃ w, t.warp? en.c.core e.1 = some w ∧
    Requoted en.c.b (newQuota v) e.2 w

theorem quota_eq_of_still {b b' : Block} (h : b.still = b'.still) (r : Role) : b.quota r = b'.quota r := by
  have e : b.still.quota r = b'.still.quota r := congrArg (·.quota r) h
  cases r <;> exact e

theorem movesQuotas_of_unfit {o : Op} {x : Z1} {en : Entry} {d v : Nat} (hfit : quotasFit en.c en.s v = false) :
    MovesQuotas en (finish o x en (regqResult en.c en.s en.s d v)) d v := by
  have k := onlyPlace_finish o x en (regqResult en.c en.s en.s d v)
  have hi := (onlyIssue_result en.c en.s 8 none (fun _ => []) [(d, fun _ => quotasFit en.c en.s v)] 0).trans k.issue
  have hno (h : quotasFit en.c en.s v = true) : False := Bool.false_ne_true (hfit.symm.trans h)
  exact ⟨(result_pred en 8 none _ _ 0 (List.mem_singleton.2 rfl)).place k, (result_onlyDest en 8 none _ _ 0).place k, hi.1, fun _ => hi,
    fun h => (hno h).elim, fun h => (hno h).elim, fun h => (hno h).elim, fun h => (hno h).elim⟩

theorem movesQuotas_of_fit {o : Op} {x : Z1} {en : Entry} {d v : Nat} (hslots : ((en.s.core en.c.core).warps.map (·.1)).Nodup)
    (hfit : quotasFit en.c en.s v = true) : MovesQuotas en (finish o x en (regqResult en.c en.s (quotasMoved en.c en.s v) d v)) d v := by
  have hsame := samePend_quotasMoved en.c en.s v
  have k := onlyPlace_finish o x en (regqResult en.c en.s (quotasMoved en.c en.s v) d v)
  have hi := (onlyIssue_result en.c (quotasMoved en.c en.s v) 8 none (fun _ => []) [(d, fun _ => quotasFit en.c en.s v)] 0).trans k.issue
  refine ⟨.ofSamePend hsame ((result_pred { en with s := quotasMoved en.c en.s v } 8 none _ _ 0 (List.mem_singleton.2 rfl)).place k),
    .ofSamePend hsame ((result_onlyDest { en with s := quotasMoved en.c en.s v } 8 none _ _ 0).place k),
    (onlyCore_quotasMoved _ _ _).trans hi.1, fun h => absurd (hfit.symm.trans h) (by decide),
    fun _ r hr => ?quota, fun _ b hb => ?block, fun _ sl w hw hb => ?other, fun _ e he => ?mine⟩
  case quota =>
    rw [quota_eq_of_still (hi.2.2 _), quotasMoved, block_requotaAll, State.block_updBlock, if_pos ⟨rfl, rfl⟩]
    simp only [List.mem_cons, List.not_mem_nil, or_false] at hr
    rcases hr with rfl | rfl | rfl <;> rfl
  case block => rw [hi.2.2 b, quotasMoved, block_requotaAll, State.block_updBlock, if_neg fun h => hb h.2]
  case other =>
    rw [hi.2.1 sl, quotasMoved, warp?_requotaAll_of_notMem _ _ _ _ (notMem_blockWarps hslots hw hb), State.warp?_updBlock, hw]
    rfl
  case mine =>
    have h := hi.2.1 e.1
    rw [quotasMoved, warp?_requotaAll_of_mem _ _ _ _ (nodup_blockWarps hslots) he, State.warp?_updBlock,
      warp?_of_mem_blockWarps hslots he] at h
    obtain ⟨w, hw, hs⟩ := Option.map_eq_some_iff.1 h
    exact ⟨w, hw, requoted_of_still hs⟩

theorem issue_regq_moves {o : Op} {x : Z1} {s : State} {en : Entry} {d v : Nat} {body : Ctx → State → Act}
    (h : entry o x s = some en) (hbody : body en.c en.s = regq v d en.c en.s) (he : en.c.e ≠ 0) (hv : QuotaRequest en.c.b v)
    (hslots : ((en.s.core en.c.core).warps.map (·.1)).Nodup) : ∃ t, issue o x body s = .next t ∧ MovesQuotas en t d v := by
  have hdone := issue_done h (hbody.trans (regq_request he hv))
  cases hfit : quotasFit en.c en.s v with
  | false =>
    rw [hfit, if_neg Bool.false_ne_true] at hdone
    exact ⟨_, hdone, movesQuotas_of_unfit hfit⟩
  | true =>
    rw [hfit, if_pos rfl] at hdone
    exact ⟨_, hdone, movesQuotas_of_fit hslots hfit⟩

/-- REGQ by an immediate moves the quotas, on a core that lists each slot once. -/
theorem exec_regqImm_moves {x : Z1} {s : State} {en : Entry} (h : entry .regqImm x s = some en) (he : en.c.e ≠ 0)
    (hv : QuotaRequest en.c.b (immOf x.ext).toNat) (hslots : ((en.s.core en.c.core).warps.map (·.1)).Nodup) :
    ∃ t, exec (.regqImm x) s = .next t ∧ MovesQuotas en t (fld x.mod 2 0) (immOf x.ext).toNat :=
  issue_regq_moves h rfl he hv hslots

/-- REGQ by a scalar register, the same. -/
theorem exec_regqScalar_moves {x : Z1} {s : State} {en : Entry} (h : entry .regqScalar x s = some en) (he : en.c.e ≠ 0)
    (hv : QuotaRequest en.c.b (en.c.scal en.s x.a.toNat)) (hslots : ((en.s.core en.c.core).warps.map (·.1)).Nodup) :
    ∃ t, exec (.regqScalar x) s = .next t ∧ MovesQuotas en t (fld x.mod 2 0) (en.c.scal en.s x.a.toNat) :=
  issue_regq_moves h rfl he hv hslots

/-- With no lane in E REGQ by an immediate only advances (03 R67). -/
theorem exec_regqImm_idles {x : Z1} {s : State} {en : Entry} (h : entry .regqImm x s = some en) (he : en.c.e = 0) :
    Idles (.regqImm x) s en := ⟨_, issue_done h (regq_empty he), onlyPlace_finish _ _ _ _⟩

theorem exec_regqScalar_idles {x : Z1} {s : State} {en : Entry} (h : entry .regqScalar x s = some en) (he : en.c.e = 0) :
    Idles (.regqScalar x) s en := ⟨_, issue_done h (regq_empty he), onlyPlace_finish _ _ _ _⟩

end Sys2Proof.Machine
end

