-- ==== Sys2Proof/Proofs/RegisterQuotasRefuted.lean ====
section
/-!
REGQ on a core that lists one warp slot twice. A role block's warps are the listed warps that name the block, but a
register is taken from a slot, and that is the first warp listed there: where a warp of another block stands in front,
that one loses the register. O12 asks that slots differ for the block's own warps alone.
-/
namespace Sys2Proof.Machine

/-- REGQ with the quotas 1, 2 and 1: of a copy and a matrix warp with 64 and 32 registers, the copy warp gives up 32. -/
def exchangeQuotas : Z1 :=
  { ext := .imm 0x441, scope := .block, giveWay := false, gap := 0, guardP := 7, guardNeg := false, ty := .b32, d := 0, a := 0, b := 0, mod := 0 }

/-- A warp of block 1 with 64 registers; v32 of lane 0 holds 5. -/
def bystander : Warp := { block := 1, num := 0, role := .plain, agent := false, pc := 0, path := 1, v := [(32 * 32, 5)] }

def roleWarp (r : Role) (n : Nat) : Warp := { block := 0, num := n, role := r, agent := false, pc := 0, path := 1 }

/-- A core with a role block of a matrix and a copy warp, and the bystander's block on the slot named. -/
def exchangeCore (warps : List (Nat × Warp)) (slot : Nat) : Core :=
  { warps := warps
    blocks := [(0, { role := true, roles := [.matrix, .copy], qCopy := 2, nwarps := 2, slots := [0, 1] }),
               (1, { qPlain := 2, slots := [slot], roles := [.plain] })] }

/-- The matrix warp's rendezvous for the REGQ fires. -/
def exchangeState (k : Core) : State :=
  { cores := [(0, k)]
    firing := some { core := 0, block := 0, slot := 8, members := [(0, 1)], instr := .regqImm exchangeQuotas, addr := 0, len := 12 } }

def exchangeEntry (s : State) : Entry :=
  { c := mkCtx s 0 0 exchangeQuotas 1 1 [(0, 1)] 0 12, s := s, all := [(0, 1)], key := some 8 }

/-- Each warp has a slot of its own. -/
def slotsDistinct : State := exchangeState (exchangeCore [(0, roleWarp .matrix 0), (1, roleWarp .copy 1), (2, bystander)] 2)

/-- Slot 1 is listed twice: for the bystander, and behind it for the copy warp. -/
def slotShared : State := exchangeState (exchangeCore [(0, roleWarp .matrix 0), (1, bystander), (1, roleWarp .copy 1)] 1)

/-- A state that meets the hypotheses of `exec_regqImm_moves`, with room for the quotas. -/
theorem wit_exec_regqImm_moves :
    quotasFit (exchangeEntry slotsDistinct).c slotsDistinct 0x441 = true ∧
    ∃ t, exec (.regqImm exchangeQuotas) slotsDistinct = .next t ∧ MovesQuotas (exchangeEntry slotsDistinct) t 0 0x441 :=
  ⟨by decide, exec_regqImm_moves (en := exchangeEntry slotsDistinct) rfl (by decide) ⟨by decide, by decide, by decide, by decide⟩ (by decide)⟩

theorem entry_slotShared : entry .regqImm exchangeQuotas slotShared = some (exchangeEntry slotShared) := rfl

theorem warp?_slotShared : slotShared.warp? 0 1 = some bystander := rfl

/-- The bystander loses v32, though it is no warp of the block whose quotas move. -/
theorem exec_slotShared_strips_bystander :
    (match exec (.regqImm exchangeQuotas) slotShared with
     | .next t => (t.warp? 0 1).map Warp.still
     | _ => none) = some { bystander.still with v := [] } := by decide

/-- Refutes O12: the clause that every warp of another block stays as it is has no premise that the core lists each slot
once. In `slotShared` the bystander of block 1 stands on the slot of a copy warp of block 0, and the REGQ takes its v32.
With that premise on all of the statement it holds: `exec_regqImm_moves`, `exec_regqScalar_moves`, `exec_regqImm_idles` and
`exec_regqScalar_idles`. -/
theorem not_registerQuotas : ¬ Obligations.RegisterQuotas := by
  unfold Obligations.RegisterQuotas
  intro h
  obtain ⟨himm, -⟩ := h exchangeQuotas slotShared (exchangeEntry slotShared) rfl
  obtain ⟨t, ht, -, -, -, -, hmoves⟩ := himm entry_slotShared (by decide) (by decide)
  obtain ⟨-, -, hothers, -⟩ := hmoves (by decide)
  have hkept := hothers 1 bystander warp?_slotShared (by decide)
  have hstripped := exec_slotShared_strips_bystander
  rw [ht] at hstripped
  exact absurd (hkept.symm.trans hstripped) (by decide)

end Sys2Proof.Machine
end

