-- ==== Sys2Proof/Proofs/CanonicalState.lean ====
section
/-!
O56: memory keeps its canonical form. The predicate and its closure under the shapes a meaning is written in (an update of other
fields, a conditional, a fold, an answer with a state), then one lemma for each operation that builds a state, in the order of the
definitions: from canonical memory it leaves canonical memory. Here the operations that the instructions share. A proof names, branch by
branch, the operations that the definition composes.
-/
namespace Sys2Proof.Machine

/-- The memory of a state has its canonical form. -/
structure Canonical (s : State) : Prop where
  wf : Memory.wf s.mem = true

protected theorem Canonical.same {s t : State} (h : Canonical s) (e : t.mem = s.mem) : Canonical t := ⟨e ▸ h.wf⟩

protected theorem Canonical.ite {c : Prop} {_ : Decidable c} {s t : State} (hs : Canonical s) (ht : Canonical t) : Canonical (if c then s else t) := by
  split
  · exact hs
  · exact ht

protected theorem Canonical.iteSnd {c : Prop} {_ : Decidable c} {α : Type} {p q : α × State} (hp : Canonical p.2) (hq : Canonical q.2) :
    Canonical (if c then p else q).2 := by
  split
  · exact hp
  · exact hq

protected theorem Canonical.foldl {α : Type} {f : State → α → State} {l : List α} {s : State} (hf : ∀ t x, Canonical t → Canonical (f t x))
    (h : Canonical s) : Canonical (l.foldl f s) :=
  List.foldlRecOn l f h fun t ht x _ => hf t x ht

protected theorem Canonical.foldlSnd {α β : Type} {f : β × State → α → β × State} {l : List α} {p : β × State}
    (hf : ∀ q x, Canonical q.2 → Canonical (f q x).2) (h : Canonical p.2) : Canonical (l.foldl f p).2 :=
  List.foldlRecOn (motive := fun q => Canonical q.2) l f h fun q hq x _ => hf q x hq

/-- The state of a result that is known. -/
protected theorem Canonical.snd {α : Type} {p : α × State} {a : α} {t : State} (h : Canonical p.2) (e : p = (a, t)) : Canonical t := by
  subst e
  exact h

/-- A meaning leaves canonical memory, whether it is done, waits or faults. -/
def Act.Canonical : Act → Prop
  | .done s | .wait s | .fault _ _ _ _ _ s => Machine.Canonical s

protected theorem Act.Canonical.ite {c : Prop} {_ : Decidable c} {a b : Act} (ha : a.Canonical) (hb : b.Canonical) : (if c then a else b).Canonical := by
  split
  · exact ha
  · exact hb

protected theorem Act.Canonical.of_eq {a b : Act} (h : a.Canonical) (e : a = b) : b.Canonical := e ▸ h

/-- A step that answers leaves canonical memory. -/
def CanonicalRes : Res → Prop
  | .next s => Canonical s
  | _ => True

protected theorem CanonicalRes.ite {c : Prop} {_ : Decidable c} {a b : Res} (ha : CanonicalRes a) (hb : CanonicalRes b) : CanonicalRes (if c then a else b) := by
  split
  · exact ha
  · exact hb

/-- The state that a step answers. -/
protected theorem CanonicalRes.next {r : Res} {t : State} (h : CanonicalRes r) (e : r = .next t) : Canonical t := by
  subst e
  exact h

/-- Other fields may change. -/
protected theorem Canonical.upd {s : State} {agenda inputs auto cur present place firing waits jobs waitq pushes busy free nextId out cfg now nsBase poison hostMem l2 redo owners bar0
    clusters cores walks reqs invals queues blame launches copies sends ctrs parked remote replyCache pdcs rings advs landq keys measure mlog flash
    minVer fellBack bootErr quote ctxsw ctxEnd ctxList frozen part wdArmed wdDue testing lastTest testDue scrubAt rescrub latch acts bookAt limDue
    flashBad fwBusy hostq off}
    (h : Canonical s) : Canonical (.mk agenda inputs auto cur present place firing waits jobs waitq pushes busy free nextId out cfg now nsBase s.mem poison hostMem l2 redo owners
      bar0 clusters cores walks reqs invals queues blame launches copies sends ctrs parked remote replyCache pdcs rings advs landq keys measure mlog
      flash minVer fellBack bootErr quote ctxsw ctxEnd ctxList frozen part wdArmed wdDue testing lastTest testDue scrubAt rescrub latch acts bookAt
      limDue flashBad fwBusy hostq off) := ⟨h.wf⟩

section
variable {s : State}

/-! ### The reset state -/

protected theorem Canonical.reset : Canonical State.reset := ⟨wf_reset⟩

/-! ### Operations of the state -/

protected theorem Canonical.setCore {c k} (h : Canonical s) : Canonical (State.setCore s c k) := by
  unfold State.setCore
  exact h.upd

protected theorem Canonical.updCore {c f} (h : Canonical s) : Canonical (State.updCore s c f) := by
  unfold State.updCore
  exact h.setCore

protected theorem Canonical.setWarp {c w x} (h : Canonical s) : Canonical (State.setWarp s c w x) := by
  unfold State.setWarp
  exact h.updCore

protected theorem Canonical.updWarp {c w f} (h : Canonical s) : Canonical (State.updWarp s c w f) := by
  unfold State.updWarp
  split
  · exact h.setWarp
  · exact h

protected theorem Canonical.setBlock {c b x} (h : Canonical s) : Canonical (State.setBlock s c b x) := by
  unfold State.setBlock
  exact h.updCore

protected theorem Canonical.updBlock {c b f} (h : Canonical s) : Canonical (State.updBlock s c b f) := by
  unfold State.updBlock
  exact h.setBlock

protected theorem Canonical.updCluster {cl f} (h : Canonical s) : Canonical (State.updCluster s cl f) := by
  unfold State.updCluster
  exact h.upd

protected theorem Canonical.fresh (h : Canonical s) : Canonical (State.fresh s).2 := by
  unfold State.fresh
  exact h.upd

protected theorem Canonical.emit {o} (h : Canonical s) : Canonical (State.emit s o) := by
  unfold State.emit
  exact h.upd

protected theorem Canonical.freeVal (h : Canonical s) : Canonical (State.freeVal s).2 := by
  unfold State.freeVal
  exact h.upd

protected theorem Canonical.updPart {c p f} (h : Canonical s) : Canonical (State.updPart s c p f) := by
  unfold State.updPart
  exact h.updCore

protected theorem Canonical.setReg {off v} (h : Canonical s) : Canonical (State.setReg s off v) := by
  unfold State.setReg
  exact h.upd

protected theorem Canonical.bump {off n} (h : Canonical s) : Canonical (State.bump s off n) := by
  unfold State.bump
  exact h.setReg

protected theorem Canonical.setReg64 {off v} (h : Canonical s) : Canonical (State.setReg64 s off v) := by
  unfold State.setReg64
  exact h.setReg.setReg

protected theorem Canonical.bump64 {off n} (h : Canonical s) : Canonical (State.bump64 s off n) := by
  unfold State.bump64
  exact h.setReg64

protected theorem Canonical.tick {t} (h : Canonical s) : Canonical (State.tick s t) := by
  unfold State.tick
  exact .ite h ((Canonical.foldl (fun _ _ h => h.bump) h).upd)

protected theorem Canonical.act {acct kind n} (h : Canonical s) : Canonical (State.act s acct kind n) := by
  unfold State.act
  exact h.upd

protected theorem Canonical.setByte {a b} (h : Canonical s) : Canonical (s.setByte a b) := ⟨wf_setByte a b h.wf⟩

protected theorem Canonical.writeBytes {a bs} (h : Canonical s) : Canonical (writeBytes s a bs) := ⟨wf_writeBytes a bs h.wf⟩

protected theorem Canonical.markPoison {line} (h : Canonical s) : Canonical (State.markPoison s line) := by
  unfold State.markPoison
  exact .ite h h.upd.bump64

protected theorem Canonical.clearPoison {line} (h : Canonical s) : Canonical (State.clearPoison s line) := by
  unfold State.clearPoison
  exact h.upd

protected theorem Canonical.hostPut {a bs} (h : Canonical s) : Canonical (hostPut s a bs) := h.same (hostPut_mem bs s a)

protected theorem Canonical.toMemory {a bs} (h : Canonical s) : Canonical (State.toMemory s a bs) := by
  unfold State.toMemory
  exact .ite h.hostPut h

protected theorem Canonical.l2Clean {line} (h : Canonical s) : Canonical (State.l2Clean s line) := by
  unfold State.l2Clean
  dsimp only
  split
  · exact .ite h.toMemory.upd h
  · exact h

protected theorem Canonical.l2Drop {line} (h : Canonical s) : Canonical (State.l2Drop s line) := by
  unfold State.l2Drop
  exact h.l2Clean.upd

protected theorem Canonical.l2Room {line} (h : Canonical s) : Canonical (State.l2Room s line) := by
  unfold State.l2Room
  dsimp only
  refine .ite h ?_
  split
  · exact h.l2Drop
  · exact h

protected theorem Canonical.l2Use {a alloc prio dirty} (h : Canonical s) : Canonical (State.l2Use s a alloc prio dirty) := by
  unfold State.l2Use
  dsimp only
  split
  · exact h
  · exact h
  · split
    · exact h.upd
    · exact .ite h h.l2Room.upd

protected theorem Canonical.homePut {a bs at'} (h : Canonical s) : Canonical (State.homePut s a bs at') := by
  unfold State.homePut
  extract_lets _ _ t1
  have h1 : Canonical t1 := .ite h.writeBytes.toMemory h.writeBytes
  exact .ite h1.l2Use.clearPoison h1.l2Use

protected theorem Canonical.homeStore {a bs at'} (h : Canonical s) : Canonical (State.homeStore s a bs at') := by
  unfold State.homeStore
  exact .foldl (fun _ _ h => h.homePut) h

protected theorem Canonical.homeWrite {a bs} (h : Canonical s) : Canonical (State.homeWrite s a bs) := by
  unfold State.homeWrite
  exact h.homeStore

protected theorem Canonical.hostRelease (h : Canonical s) : Canonical (State.hostRelease s) := by
  unfold State.hostRelease
  exact .foldl (fun _ _ h => h.l2Clean) h

protected theorem Canonical.applyBWr {core bi x} (h : Canonical s) : Canonical (applyBWr core bi s x) := by
  unfold applyBWr
  split
  · exact h.updBlock
  · exact h.updBlock
  · exact h.updBlock
  · exact h.updWarp
  · exact h.updWarp
  · exact .ite h h.updCore

protected theorem Canonical.landBlock {core bi} (h : Canonical s) : Canonical (landBlock s core bi) := by
  unfold landBlock
  exact .ite h (.foldl (fun _ _ h => h.applyBWr) h.updBlock)

protected theorem Canonical.addBpend {core bi due x} (h : Canonical s) : Canonical (State.addBpend s core bi due x) := by
  unfold State.addBpend
  exact h.updBlock

protected theorem Canonical.landWarp {core slot} (h : Canonical s) : Canonical (landWarp s core slot) := by
  unfold landWarp
  dsimp only
  split
  · exact h
  · exact h.landBlock.updWarp

protected theorem Canonical.releasePart {core slot} (h : Canonical s) : Canonical (releasePart s core slot) := by
  unfold releasePart
  exact .ite h.updPart h

protected theorem Canonical.stopWarp {core slot r} (h : Canonical s) : Canonical (stopWarp s core slot r) := by
  unfold stopWarp
  dsimp only
  split
  · exact h
  · exact .ite h (.ite h.setWarp.upd h.setWarp.upd.releasePart)

protected theorem Canonical.takeFault {core slot r wholeBlock} (h : Canonical s) : Canonical (takeFault s core slot r wholeBlock) := by
  unfold takeFault
  dsimp only
  split
  · exact h
  · exact (Canonical.ite ((Canonical.foldl (fun _ _ h => h.updWarp) h.stopWarp).bump64) (.foldl (fun _ _ h => h.updWarp) h.stopWarp)).upd

protected theorem Canonical.stopHalted (h : Canonical s) : Canonical (stopHalted s) := by
  unfold stopHalted
  refine .foldl (fun _ _ h0 => ?_) h
  refine .foldl (fun _ _ h1 => ?_) h0
  split
  · exact .ite h1.stopWarp h1
  · exact h1

protected theorem Canonical.poisonFault {core slot} (h : Canonical s) : Canonical (poisonFault s core slot) := by
  unfold poisonFault
  split
  · split
    · exact .ite h h.setWarp.takeFault
    · exact h
  · exact h

protected theorem Canonical.resumeWarp {core slot} (h : Canonical s) : Canonical (resumeWarp s core slot) := by
  unfold resumeWarp
  exact h.updWarp

protected theorem Canonical.resolveWarp {core slot} (h : Canonical s) : Canonical (resolveWarp s core slot) := by
  unfold resolveWarp
  exact (Canonical.ite (.foldl (fun _ _ h => h.resumeWarp) h.updWarp) h.updWarp).upd

/-! ### Operands and results -/

protected theorem Canonical.arriveAt {c due} (h : Canonical s) : Canonical (Ctx.arriveAt c s due) := by
  unfold Ctx.arriveAt
  exact .foldl (fun _ _ h => h.updWarp) h

protected theorem Canonical.deliver {c due wrs pool flags} (h : Canonical s) : Canonical (Ctx.deliver c s due wrs pool flags) := by
  unfold Ctx.deliver
  extract_lets t1
  have h1 : Canonical t1 := .foldl (fun _ _ h => .ite h h.updWarp) h
  split
  · exact .ite h1 ((Canonical.foldl (fun _ _ h => h.addBpend) h1).arriveAt)
  · exact h1

protected theorem Canonical.result {c lat d f preds flags} (h : Canonical s) : Canonical (Ctx.result c s lat d f preds flags) := by
  unfold Ctx.result
  exact .ite h h.deliver

/-! ### Translation and page requests -/

protected theorem Canonical.tlbFill {core e} (h : Canonical s) : Canonical (State.tlbFill s core e) := by
  unfold State.tlbFill
  exact h.updCore.updCluster

protected theorem Canonical.fillStage2 {core secure f l} (h : Canonical s) : Canonical (fillStage2 s core secure f l) := by
  unfold fillStage2
  dsimp only
  refine .foldl (fun _ _ h0 => ?_) h
  split
  · exact h0.updCluster
  · exact h0

protected theorem Canonical.setBits {a kind} (h : Canonical s) : Canonical (setBits s a kind) := by
  unfold setBits
  exact .ite h h.homeWrite

protected theorem Canonical.walkFull {core secure f va kind} (h : Canonical s) : Canonical (walkFull s core secure f va kind).2 := by
  unfold walkFull
  dsimp only
  refine .iteSnd h ?_
  split
  · exact h
  · exact h
  · split
    · exact h
    · exact h
    · refine .iteSnd h ?_
      split
      · exact h
      · dsimp only
        exact h.setBits.setBits.fillStage2

protected theorem Canonical.msix {fn v} (h : Canonical s) : Canonical (State.msix s fn v) := by
  unfold State.msix
  exact h.emit

protected theorem Canonical.writeReq {r} (h : Canonical s) : Canonical (writeReq s r) := by
  unfold writeReq
  exact h.homeWrite.bump.upd.msix

protected theorem Canonical.pageRequest {f va gpa sub kind lvl walk} (h : Canonical s) : Canonical (pageRequest s f va gpa sub kind lvl walk) := by
  unfold pageRequest
  exact .ite h.upd (.ite h.upd.writeReq h.upd)

protected theorem Canonical.drainReqs {f} (h : Canonical s) : Canonical (drainReqs s f) := by
  unfold drainReqs
  exact .foldl (fun _ _ h => .ite h.writeReq h) h

protected theorem Canonical.startWalk {core slot b kind vas} (h : Canonical s) : Canonical (startWalk s core slot b kind vas) := by
  unfold startWalk
  dsimp only
  exact .foldl (fun _ _ h => .ite h h.fresh.upd) h

protected theorem Canonical.engXlateK {keep core fn secure id va kind} (h : Canonical s) :
    Canonical (engXlateK keep s core fn secure id va kind).2 := by
  unfold engXlateK
  dsimp only
  refine .iteSnd h ?_
  split
  · exact .iteSnd h (.iteSnd h h.upd)
  · split
    · split <;> exact h
    · split
      · rename_i e
        dsimp only
        exact (h.walkFull.snd e).tlbFill
      · rename_i e
        exact h.walkFull.snd e
      · rename_i e
        dsimp only
        exact (h.walkFull.snd e).fresh.upd.pageRequest

protected theorem Canonical.engXlate {core fn secure id va kind} (h : Canonical s) : Canonical (engXlate s core fn secure id va kind).2 :=
  h.engXlateK

protected theorem Canonical.dropFailed {id} (h : Canonical s) : Canonical (dropFailed s id) := by
  unfold dropFailed
  exact h.upd

protected theorem Canonical.engPage {core fn secure id va n} (h : Canonical s) : Canonical (engPage s core fn secure id va n).2 := by
  unfold engPage
  split
  · rename_i e
    have h0 := h.engXlate.snd e
    exact .iteSnd h0 (.iteSnd h0 (.iteSnd h0 h0))
  · rename_i e
    exact h.engXlate.snd e

protected theorem Canonical.engRead {core fn secure id va n} (h : Canonical s) : Canonical (engRead s core fn secure id va n).2 := by
  unfold engRead
  dsimp only
  split
  · rename_i e
    have h0 := h.engPage.snd e
    refine .iteSnd h0 ?_
    split
    all_goals
      rename_i e1
      exact h0.engPage.snd e1
  · exact h.engPage

protected theorem Canonical.wakeRecord {core slot walk} (h : Canonical s) : Canonical (wakeRecord s core slot walk) := by
  unfold wakeRecord
  dsimp only
  split
  · split
    · exact .ite (.ite (.ite h.setWarp.resolveWarp h.setWarp.upd) h.setWarp) h
    · exact h
  · exact h

protected theorem Canonical.noteWalk {x r} (h : Canonical s) : Canonical (noteWalk s x r) := by
  unfold noteWalk
  split
  · exact h.updWarp
  · exact h

protected theorem Canonical.wakeWalk {x} (h : Canonical s) : Canonical (wakeWalk s x) := by
  unfold wakeWalk
  split
  · exact h.wakeRecord
  · exact h

protected theorem Canonical.walkStep {x} (h : Canonical s) : Canonical (walkStep s x) := by
  unfold walkStep
  dsimp only
  split
  · rename_i e
    exact .foldl (fun _ _ h => h.noteWalk.wakeWalk) ((Canonical.foldl (fun _ _ h => h.tlbFill) (h.walkFull.snd e)).upd)
  · rename_i e
    exact .foldl (fun _ _ h => h.noteWalk.wakeWalk) (h.walkFull.snd e).upd
  · rename_i e
    exact .foldl (fun _ _ h => h.pageRequest.noteWalk) (h.walkFull.snd e).upd

protected theorem Canonical.execWalk {id} (h : Canonical s) : CanonicalRes (execWalk id s) := by
  unfold execWalk
  split
  · exact .ite h.walkStep h
  · exact h

protected theorem Canonical.pageReply {val} (h : Canonical s) : Canonical (pageReply s val) := by
  unfold pageReply
  dsimp only
  split
  · exact h.bump
  · refine .ite h.bump (.ite h.upd.drainReqs.upd ?_)
    refine .foldl (fun _ _ h0 => ?_) h.upd.drainReqs.upd
    split
    · exact h0.updWarp
    · exact h0

protected theorem Canonical.execTranslationConsumerWrite {fn val} (h : Canonical s) : CanonicalRes (execTranslationConsumerWrite fn val s) := by
  unfold execTranslationConsumerWrite
  exact h.setReg.upd.drainReqs

/-! ### The L1 and the operations outstanding -/

protected theorem Canonical.l1Put {core line x} (h : Canonical s) : Canonical (l1Put s core line x) := by
  unfold l1Put
  exact h.updCore

protected theorem Canonical.l1Del {core line} (h : Canonical s) : Canonical (l1Del s core line) := by
  unfold l1Del
  exact h.updCore

protected theorem Canonical.addWaiter {line x} (h : Canonical s) : Canonical (addWaiter s line x) := by
  unfold addWaiter
  split
  · exact h.upd
  · exact h

protected theorem Canonical.devWrite {a bs} (h : Canonical s) : Canonical (devWrite s a bs) := by
  unfold devWrite
  exact .foldl (fun _ _ h => .ite h.addWaiter h.homeWrite) h

protected theorem Canonical.wbArrive {line x} (h : Canonical s) : Canonical (wbArrive s line x) := by
  unfold wbArrive
  extract_lets t1
  have h1 : Canonical t1 := .foldl (fun _ _ h => .ite h.setByte h) h
  exact .ite h1.l2Use.clearPoison h1.l2Use

protected theorem Canonical.wbBytes {core line x} (h : Canonical s) : Canonical (wbBytes s core line x) := by
  unfold wbBytes
  exact .ite h (.ite h.addWaiter h.wbArrive)

protected theorem Canonical.wbLine {core line} (h : Canonical s) : Canonical (wbLine s core line) := by
  unfold wbLine
  split
  · exact h
  · exact h.wbBytes.l1Put

protected theorem Canonical.l1WriteBack {core} (h : Canonical s) : Canonical (l1WriteBack s core) := by
  unfold l1WriteBack
  exact .foldl (fun _ _ h => .ite h h.wbLine) h

protected theorem Canonical.l1Invalidate {core} (h : Canonical s) : Canonical (l1Invalidate s core) := by
  unfold l1Invalidate
  exact h.updCore

protected theorem Canonical.l1Room {core} (h : Canonical s) : Canonical (l1Room s core) := by
  unfold l1Room
  dsimp only
  refine .ite h ?_
  split
  · exact h.wbBytes.l1Del
  · exact h

protected theorem Canonical.l1Fill {core line prio} (h : Canonical s) : Canonical (l1Fill s core line prio) := by
  unfold l1Fill
  exact (Canonical.ite h.l2Use.l1Room h.l2Use).l1Put

protected theorem Canonical.l1Touch {core line} (h : Canonical s) : Canonical (l1Touch s core line) := by
  unfold l1Touch
  split
  · exact h.l1Put
  · exact h

protected theorem Canonical.l1Write {core a bs dirty prio} (h : Canonical s) : Canonical (l1Write s core a bs dirty prio) := by
  unfold l1Write
  exact .ite h ((Canonical.ite h.l1Room h).l1Put)

protected theorem Canonical.loadBytes {core pa n a home ev} (h : Canonical s) : Canonical (loadBytes s core pa n a home ev).2 := by
  unfold loadBytes
  extract_lets _ _ t1
  have h1 : Canonical t1 := .ite h h.wbLine
  exact .iteSnd h.l1Touch (.iteSnd h1 (.iteSnd h1.l1Fill h1.l2Use))

protected theorem Canonical.storeBytes {core pa bs a ev} (h : Canonical s) : Canonical (storeBytes s core pa bs a ev) := by
  unfold storeBytes
  exact .ite h.l1Write.homePut h.l1Write

protected theorem Canonical.flushLine {core line} (h : Canonical s) : Canonical (flushLine s core line) := by
  unfold flushLine
  extract_lets _ t1
  have h1 : Canonical t1 := by
    dsimp only [t1]
    split
    · refine .foldl (fun _ _ h1 => ?_) h.upd
      split
      · exact .ite h1.wbArrive h1
      · exact h1
    · exact h
  split
  · exact .ite h1 h1.wbArrive.l1Put
  · exact h1

protected theorem Canonical.dropStale {core line} (h : Canonical s) : Canonical (dropStale s core line) := by
  unfold dropStale
  split
  · exact .ite h.l1Del h.l1Put
  · exact h

protected theorem Canonical.dropLine {core line} (h : Canonical s) : Canonical (dropLine s core line) := by
  unfold dropLine
  exact h.wbLine.l1Del

protected theorem Canonical.releaseL1 {core share} (h : Canonical s) : Canonical (releaseL1 s core share) := by
  unfold releaseL1
  exact .ite ((Canonical.ite h.l1WriteBack h).hostRelease) (.ite h.l1WriteBack h)

protected theorem Canonical.acquireL1 {core share} (h : Canonical s) : Canonical (acquireL1 s core share) := by
  unfold acquireL1
  exact .ite h.l1Invalidate h

protected theorem Canonical.settleFences {n core slot} (h : Canonical s) : Canonical (settleFences n s core slot) := by
  induction n generalizing s with
  | zero => exact h
  | succ n ih =>
    unfold settleFences
    split
    · exact h
    · split
      · exact h
      · exact .ite h (.ite (Canonical.ite h.releaseL1 h).updWarp (ih (.ite (Canonical.ite h.releaseL1 h).updWarp.acquireL1 (Canonical.ite h.releaseL1
          h).updWarp)))

protected theorem Canonical.settleFence {core slot} (h : Canonical s) : Canonical (settleFence s core slot) := by
  unfold settleFence
  exact h.settleFences

protected theorem Canonical.settleAdvs (h : Canonical s) : Canonical (settleAdvs s) := by
  unfold settleAdvs
  exact .foldl (fun _ _ h => .ite h (.ite h.releaseL1 h.releaseL1.devWrite.upd)) h

protected theorem Canonical.settleCore {core} (h : Canonical s) : Canonical (settleCore s core) := by
  unfold settleCore
  exact (Canonical.foldl (fun _ _ h => .ite h h.settleFence) h).settleAdvs

protected theorem Canonical.moveCnt {core members c up} (h : Canonical s) : Canonical (moveCnt s core members c up) := by
  unfold moveCnt
  exact .foldl (fun _ _ h => .ite h h.updWarp) h

protected theorem Canonical.expectAll {core members id regs} (h : Canonical s) : Canonical (expectAll s core members id regs) := by
  unfold expectAll
  exact .foldl (fun _ _ h => .ite h h.updWarp) h

protected theorem Canonical.arriveAll {core members id regs} (h : Canonical s) : Canonical (arriveAll s core members id regs) := by
  unfold arriveAll
  exact .foldl (fun _ _ h => .ite h h.updWarp) h

protected theorem Canonical.landLane {core members id d low lane ws} (h : Canonical s) : Canonical (landLane s core members id d low lane ws) := by
  unfold landLane
  refine .ite ?_ (.foldl (fun _ _ h => h.updWarp) h)
  split
  · exact h
  · split
    · split
      · exact .foldl (fun _ _ h => .ite h.addBpend h.applyBWr) h
      · exact h
    · exact h

protected theorem Canonical.closeMembers {core slot o} (h : Canonical s) : Canonical (closeMembers s core slot o) := by
  unfold closeMembers
  exact .ite h h.updWarp.moveCnt.upd.arriveAll

protected theorem Canonical.completeOp {core slot o} (h : Canonical s) : Canonical (completeOp s core slot o) := by
  unfold completeOp
  exact (Canonical.ite h.closeMembers.updWarp.acquireL1 h.closeMembers.updWarp).upd.settleCore

protected theorem Canonical.pushOp {c o} (h : Canonical s) : Canonical (pushOp c s o) := by
  unfold pushOp
  dsimp only
  exact h.fresh.updWarp.moveCnt.expectAll

protected theorem Canonical.valueOp {c d n f flags} (h : Canonical s) : Canonical (valueOp c s d n f flags) := by
  unfold valueOp
  exact .ite h h.pushOp

protected theorem Canonical.putOp {core slot o} (h : Canonical s) : Canonical (putOp s core slot o) := by
  unfold putOp
  exact h.updWarp

protected theorem Canonical.notePoison {core o lane va} (h : Canonical s) : Canonical (notePoison s core o lane va) := by
  unfold notePoison
  exact .foldl (fun _ _ h => .ite h h.updWarp) h

end

end Sys2Proof.Machine
end

