-- ==== Sys2Proof/Proofs/CanonicalInstructions.lean ====
section
/-!
O56: issuing, the computing instructions, rank programs and memory instructions keep canonical memory.
-/
namespace Sys2Proof.Machine

section
variable {s : State}

/-! ### Fetching and issuing -/

protected theorem Canonical.issueFault {core slot code sub lanes trap instr addrs wholeBlock} (h : Canonical s) :
    Canonical (issueFault s core slot code sub lanes trap instr addrs wholeBlock) := by
  unfold issueFault
  exact h.takeFault

protected theorem Canonical.stall {core slot} (h : Canonical s) : Canonical (stall s core slot) := by
  unfold stall
  split
  · extract_lets t1
    have h1 : Canonical t1 := .ite h h.upd
    exact .ite (.ite h1.stopWarp h1) h1.releasePart
  · exact h

/-- Whatever a fetch yields, it leaves canonical memory. -/
def Issue.Canonical : Issue → Prop
  | .run _ s | .stop s => Machine.Canonical s

protected theorem Issue.Canonical.ite {c : Prop} {_ : Decidable c} {a b : Issue} (ha : a.Canonical) (hb : b.Canonical) : (if c then a else
  b).Canonical := by
  split
  · exact ha
  · exact hb

protected theorem Canonical.fetchIssue {core slot} (h : Canonical s) : (fetchIssue s core slot).Canonical := by
  unfold fetchIssue
  split
  · exact h
  · dsimp only
    refine .ite h.issueFault ?_
    split
    · exact h.startWalk.stall
    · exact h.issueFault
    · refine .ite h.updCore.issueFault (.ite h.updCore.updWarp.upd (.ite h.updCore.updWarp.issueFault (.ite h.updCore.issueFault ?_)))
      split
      · exact h.updCore
      · exact h.updCore.issueFault
      · exact h.updCore.issueFault

protected theorem Canonical.countArrival {core bi slot} (h : Canonical s) : Canonical (countArrival s core bi slot) := by
  unfold countArrival
  dsimp only
  split
  · exact h
  · split
    · exact h
    · exact .ite h.updBlock.setWarp h

protected theorem Canonical.arrive {core slot key lanes addr len i} (h : Canonical s) : Canonical (arrive s core slot key lanes addr len i) := by
  unfold arrive
  dsimp only
  split
  · exact h
  · exact h.setWarp.upd.countArrival

protected theorem Canonical.freeLatch {core bi key} (h : Canonical s) : Canonical (freeLatch s core bi key) := by
  unfold freeLatch
  dsimp only
  refine .foldl (fun _ _ h0 => ?_) h.setBlock
  split
  · split
    · exact .ite h0.countArrival h0
    · exact h0
  · exact h0

protected theorem Canonical.holdPart {core slot} (h : Canonical s) : Canonical (holdPart s core slot) := by
  unfold holdPart
  exact h.updPart

protected theorem Canonical.advanceAll {members core addr len gap tmp} (h : Canonical s) :
    Canonical (advanceAll s members core addr len gap tmp) := by
  unfold advanceAll
  dsimp only
  refine .upd (.foldl (fun _ _ h0 => ?_) h)
  split
  · exact h0
  · exact h0.holdPart.updWarp

protected theorem Canonical.latchClk {core slot o x e} (h : Canonical s) : Canonical (latchClk s core slot o x e) := by
  unfold latchClk
  exact .ite h.updWarp h

/-- A meaning leaves canonical memory canonical. -/
def KeepsCanonical (body : Ctx → State → Act) : Prop := ∀ c s, Canonical s → (body c s).Canonical

protected theorem Canonical.guarded {o x body c} (h : Canonical s) (hb : KeepsCanonical body) : (guarded o x body c s).Canonical := by
  unfold guarded
  exact .ite h (hb c s h)

protected theorem Canonical.perform {o x body c all key} (h : Canonical s) (hb : KeepsCanonical body) : Canonical (perform s o x body c all key) := by
  have hg := h.guarded (o := o) (x := x) (c := c) hb
  unfold perform
  dsimp only
  split
  · rename_i t e
    have ht : Canonical t := hg.of_eq e
    split
    · exact ht.advanceAll.freeLatch
    · exact ht.advanceAll
  · rename_i t e
    have ht : Canonical t := hg.of_eq e
    split
    · exact ht.upd
    · exact ht.upd.stall
  · rename_i t e
    have ht : Canonical t := hg.of_eq e
    split
    · exact ht.takeFault.upd.freeLatch
    · exact ht.takeFault.upd

protected theorem Canonical.fireIssue {o x body f} (h : Canonical s) (hb : KeepsCanonical body) : Canonical (fireIssue o x body s f) := by
  unfold fireIssue
  exact .ite h.upd (h.landWarp.latchClk.perform hb)

protected theorem Canonical.warpIssue {o x i body core slot} (h : Canonical s) (hb : KeepsCanonical body) :
    Canonical (warpIssue o x i body core slot s) := by
  unfold warpIssue
  dsimp only
  split
  · exact h.landWarp
  · split
    · exact .ite h.landWarp.upd.stall (h.landWarp.latchClk.perform hb)
    · split
      · exact h.landWarp.issueFault.upd
      · exact .ite h.landWarp.upd.stall (.ite h.landWarp.upd.arrive.stall (h.landWarp.latchClk.perform hb))

protected theorem Canonical.issue {o x body} (h : Canonical s) (hb : KeepsCanonical body) : CanonicalRes (issue o x body s) := by
  unfold issue
  split
  · exact h.fireIssue hb
  · split
    · trivial
    · split
      · trivial
      · exact h.warpIssue hb

/-! ### Control -/

protected theorem Canonical.onWarp {f c} (h : Canonical s) : Act.Canonical (onWarp f c s) := by
  unfold onWarp
  exact h.updWarp

protected theorem Canonical.bodyNop {c} (h : Canonical s) : Act.Canonical (bodyNop c s) := by
  unfold bodyNop
  exact h

protected theorem Canonical.bodyRunend {x c} (h : Canonical s) : Act.Canonical (bodyRunend x c s) := by
  unfold bodyRunend
  exact h.onWarp

protected theorem Canonical.setXfer {t c} (h : Canonical s) : Act.Canonical (setXfer t c s) := by
  unfold setXfer
  exact h.onWarp

protected theorem Canonical.bodyBra {x c} (h : Canonical s) : Act.Canonical (bodyBra x c s) := by
  unfold bodyBra
  exact h.setXfer

protected theorem Canonical.bodyBrx {x c} (h : Canonical s) : Act.Canonical (bodyBrx x c s) := by
  unfold bodyBrx
  exact h.setXfer

protected theorem Canonical.bodyCall {x c} (h : Canonical s) : Act.Canonical (bodyCall x c s) := by
  unfold bodyCall
  exact h.setXfer

protected theorem Canonical.bodyRet {x c} (h : Canonical s) : Act.Canonical (bodyRet x c s) := by
  unfold bodyRet
  exact h.setXfer

protected theorem Canonical.bodyExit {x c} (h : Canonical s) : Act.Canonical (bodyExit x c s) := by
  unfold bodyExit
  exact h.setXfer

protected theorem Canonical.bodyLoop {x c} (h : Canonical s) : Act.Canonical (bodyLoop x c s) := by
  unfold bodyLoop
  exact .ite h h.setXfer

protected theorem Canonical.bodyLbrk {c} (h : Canonical s) : Act.Canonical (bodyLbrk c s) := by
  unfold bodyLbrk
  split
  · exact h
  · exact .ite h h.setXfer

protected theorem Canonical.bodyWait {x c} (h : Canonical s) : Act.Canonical (bodyWait x c s) := by
  unfold bodyWait
  exact .ite h h

protected theorem Canonical.bodyPause {x c} (h : Canonical s) : Act.Canonical (bodyPause x c s) := by
  unfold bodyPause
  exact .ite h h.onWarp

protected theorem Canonical.bodyTrap {x c} (h : Canonical s) : Act.Canonical (bodyTrap x c s) := by
  unfold bodyTrap
  exact .ite h h

protected theorem Canonical.bodyBkpt {c} (h : Canonical s) : Act.Canonical (bodyBkpt c s) := by
  unfold bodyBkpt
  exact .ite h h

protected theorem Canonical.barSettle {core bi id} (h : Canonical s) : Canonical (barSettle s core bi id) := by
  unfold barSettle
  dsimp only
  refine .ite ?_ h
  refine .upd (.foldl (fun _ _ h0 => ?_) h.setBlock)
  split
  · exact h0.updWarp
  · exact h0

protected theorem Canonical.barSettleAll {core bi} (h : Canonical s) : Canonical (barSettleAll s core bi) := by
  unfold barSettleAll
  exact .foldl (fun _ _ h => h.barSettle) h

protected theorem Canonical.bodyBar {x c} (h : Canonical s) : Act.Canonical (bodyBar x c s) := by
  unfold bodyBar
  dsimp only
  split
  · exact h.updWarp
  · exact h
  · refine .ite h ?_
    split
    · exact .ite h.updBlock.updWarp.upd.barSettle.updWarp h.updBlock.updWarp.upd.barSettle
    · exact h.updBlock.updWarp.upd.barSettle

protected theorem Canonical.regq {value d c} (h : Canonical s) : Act.Canonical (regq value d c s) := by
  unfold regq
  exact .ite h (.ite h ((Canonical.ite h (.foldl (fun _ _ h => .ite h.updWarp h) h.updBlock)).result))

/-! ### Predicates -/

protected theorem Canonical.maskx {c on} (h : Canonical s) : Canonical (Ctx.maskx c s on) := by
  unfold Ctx.maskx
  exact .ite (.foldl (fun _ _ h => .ite h h.updWarp) h) h

/-! ### Integer -/

protected theorem Canonical.typed {o x f c} (h : Canonical s) : Act.Canonical (typed o x f c s) := by
  unfold typed
  exact h.result

protected theorem Canonical.plain {o x f c} (h : Canonical s) : Act.Canonical (plain o x f c s) := by
  unfold plain
  exact h.result

protected theorem Canonical.preds {o x l c} (h : Canonical s) : Act.Canonical (preds o x l c s) := by
  unfold preds
  exact h.result

protected theorem Canonical.typed2 {o x f c} (h : Canonical s) : Act.Canonical (typed2 o x f c s) := by
  unfold typed2
  exact h.typed

protected theorem Canonical.typed1 {o x f c} (h : Canonical s) : Act.Canonical (typed1 o x f c s) := by
  unfold typed1
  exact h.typed

protected theorem Canonical.bits2 {o x f c} (h : Canonical s) : Act.Canonical (bits2 o x f c s) := by
  unfold bits2
  exact h.typed

protected theorem Canonical.shift {o x f c} (h : Canonical s) : Act.Canonical (shift o x f c s) := by
  unfold shift
  exact h.typed

protected theorem Canonical.count {o x f c} (h : Canonical s) : Act.Canonical (count o x f c s) := by
  unfold count
  exact h.plain

protected theorem Canonical.bodyIaddc {x c} (h : Canonical s) : Act.Canonical (bodyIaddc x c s) := by
  unfold bodyIaddc
  exact h.result

protected theorem Canonical.bodyIcmp {x c} (h : Canonical s) : Act.Canonical (bodyIcmp x c s) := by
  unfold bodyIcmp
  exact h.preds

protected theorem Canonical.bodySel {x c} (h : Canonical s) : Act.Canonical (bodySel x c s) := by
  unfold bodySel
  exact h.typed

protected theorem Canonical.bodyMov {x c} (h : Canonical s) : Act.Canonical (bodyMov x c s) := by
  unfold bodyMov
  exact h.typed

protected theorem Canonical.bodyLea {x c} (h : Canonical s) : Act.Canonical (bodyLea x c s) := by
  unfold bodyLea
  exact h.typed

protected theorem Canonical.bodyPset {x c} (h : Canonical s) : Act.Canonical (bodyPset x c s) := by
  unfold bodyPset
  exact h.preds

protected theorem Canonical.bodyV2p {x c} (h : Canonical s) : Act.Canonical (bodyV2p x c s) := by
  unfold bodyV2p
  exact h.preds

/-! ### Floating-point instructions -/

protected theorem Canonical.fpWords {o x f c} (h : Canonical s) : Act.Canonical (fpWords o x f c s) := by
  unfold fpWords
  exact .ite h h.result

protected theorem Canonical.fp {o x f c} (h : Canonical s) : Act.Canonical (fp o x f c s) := by
  unfold fp
  exact h.fpWords

protected theorem Canonical.sfu {x f c} (h : Canonical s) : Act.Canonical (sfu x f c s) := by
  unfold sfu
  exact .ite (Canonical.ite h h.updWarp) (.ite h h.updPart.valueOp)

protected theorem Canonical.bodyFcmp {x c} (h : Canonical s) : Act.Canonical (bodyFcmp x c s) := by
  unfold bodyFcmp
  exact .ite h h.result

protected theorem Canonical.bodyFscale {x c} (h : Canonical s) : Act.Canonical (bodyFscale x c s) := by
  unfold bodyFscale
  exact h.fpWords

protected theorem Canonical.bodyF2i {x c} (h : Canonical s) : Act.Canonical (bodyF2i x c s) := by
  unfold bodyF2i
  exact h.fpWords

protected theorem Canonical.bodyI2f {x c} (h : Canonical s) : Act.Canonical (bodyI2f x c s) := by
  unfold bodyI2f
  exact h.fpWords

protected theorem Canonical.bodyF2f {x c} (h : Canonical s) : Act.Canonical (bodyF2f x c s) := by
  unfold bodyF2f
  exact h.fpWords

protected theorem Canonical.withNf {x k c} (h : Canonical s) (hk : ∀ d, KeepsCanonical (k d)) : Act.Canonical (withNf x k c s) := by
  unfold withNf
  exact .ite (hk _ c s h) h

protected theorem Canonical.bodyF2n {x c} (h : Canonical s) : Act.Canonical (bodyF2n x c s) := h.withNf fun _ _ _ h => h.fpWords

protected theorem Canonical.bodyN2f {x c} (h : Canonical s) : Act.Canonical (bodyN2f x c s) := h.withNf fun _ _ _ h => h.fpWords

protected theorem Canonical.bodyFmaxi {x c} (h : Canonical s) : Act.Canonical (bodyFmaxi x c s) := by
  unfold bodyFmaxi
  exact h.fpWords

protected theorem Canonical.bodyFdot2 {x c} (h : Canonical s) : Act.Canonical (bodyFdot2 x c s) := by
  unfold bodyFdot2
  exact h.fpWords

/-! ### The scheduling tree and rank programs -/

protected theorem Canonical.setQueue {t leaf k q} (h : Canonical s) : Canonical (State.setQueue s t leaf k q) := by
  unfold State.setQueue
  exact h.upd

protected theorem Canonical.updLaunch {id f} (h : Canonical s) : Canonical (State.updLaunch s id f) := by
  unfold State.updLaunch
  split
  · exact h.upd
  · exact h

protected theorem Canonical.recUpd {pa n f} (h : Canonical s) : Canonical (recUpd s pa n f) := by
  unfold recUpd
  exact h.homeWrite

protected theorem Canonical.ticketFlip {pa} (h : Canonical s) : Canonical (ticketFlip s pa) := by
  unfold ticketFlip
  exact h.recUpd

protected theorem Canonical.closeLaunch {t id by'} (h : Canonical s) : Canonical (closeLaunch s t id by') := by
  unfold closeLaunch
  dsimp only
  split
  · exact h
  · split
    · exact (Canonical.ite h.updLaunch.recUpd.updLaunch.ticketFlip.recUpd.recUpd h.updLaunch.recUpd.updLaunch).setQueue
    · exact h

protected theorem Canonical.preempted {t k tenant} (h : Canonical s) : Canonical (preempted s t k tenant) := by
  unfold preempted
  exact h.bump.upd.act

protected theorem Canonical.closeVictim {t x} (h : Canonical s) : Canonical (closeVictim s t x) := by
  unfold closeVictim
  dsimp only
  refine .ite h ?_
  split
  · split
    · exact h.closeLaunch.preempted
    · exact h
  · exact h

protected theorem Canonical.leafPreempt {t k x} (h : Canonical s) : Canonical (leafPreempt s t k x) := by
  unfold leafPreempt
  dsimp only
  refine .ite h (.ite h.closeVictim ?_)
  refine .ite ?_ ?_
  · split
    · exact .ite h.setCore h
    · exact h
  · refine .ite h ?_
    split
    · exact h.setCore
    · exact h

protected theorem Canonical.freed {t leaf k} (h : Canonical s) : Canonical (freed s t leaf k) := by
  unfold freed
  exact h.upd

protected theorem Canonical.place {t leaf k x} (h : Canonical s) : Canonical (place s t leaf k x) := by
  unfold place
  exact .ite h.setQueue.leafPreempt h.setQueue

protected theorem Canonical.settleEnq {code status who window} (h : Canonical s) : Canonical (settleEnq s code status who window) := by
  unfold settleEnq
  extract_lets t1 t2
  have h1 : Canonical t1 := by
    dsimp only [t1]
    split
    · exact .ite h.bump h
    · exact h
  have h2 : Canonical t2 := by
    dsimp only [t2]
    split
    · exact h1.devWrite
    · split
      · exact h1.bump
      · exact h1
  split
  · exact h2.moveCnt.upd
  · exact h2

protected theorem Canonical.dropLaunch {x} (h : Canonical s) : Canonical (dropLaunch s x) := by
  unfold dropLaunch
  split
  · exact h.upd
  · exact h

protected theorem Canonical.popJob {t leaf k x} (h : Canonical s) : Canonical (popJob s t leaf k x) := by
  unfold popJob
  exact .ite h.upd h

protected theorem Canonical.leaveNode {t n x} (h : Canonical s) : Canonical (leaveNode s t n x) := by
  unfold leaveNode
  exact h.setQueue.popJob.freed

protected theorem Canonical.nextSeg {x} (h : Canonical s) : Canonical (nextSeg s x) := by
  unfold nextSeg
  dsimp only
  split
  · split
    · exact h
    · exact .ite h.upd h.upd.fresh.upd
  · exact h

protected theorem Canonical.updMslot {core i f} (h : Canonical s) : Canonical (State.updMslot s core i f) := by
  unfold State.updMslot
  exact h.updCore

protected theorem Canonical.taskPushed {x} (h : Canonical s) : Canonical (taskPushed s x).2 := by
  unfold taskPushed
  dsimp only
  split
  · exact .iteSnd h h.updMslot.moveCnt.expectAll
  · exact h

protected theorem Canonical.pushDone {t leaf k x r fin} (h : Canonical s) : Canonical (pushDone s t leaf k x r fin) := by
  unfold pushDone
  split
  · exact h
  · split
    · rename_i e
      exact (h.taskPushed.snd e).place.nextSeg
  · exact h.place.settleEnq
  · exact h.leaveNode.place

protected theorem Canonical.pushFailed {t leaf k x full fin} (h : Canonical s) : Canonical (pushFailed s t leaf k x full fin) := by
  unfold pushFailed
  dsimp only
  split
  · exact h
  · exact h.dropLaunch.settleEnq
  · exact h.upd
  · exact h.upd

protected theorem Canonical.startPush {t leaf k x fin} (h : Canonical s) : Canonical (startPush s t leaf k x fin) := by
  unfold startPush
  exact .ite h.upd (.ite h.pushFailed (.ite h.upd h.pushDone))

protected theorem Canonical.pushFormed {t k x} (h : Canonical s) : Canonical (pushFormed s t k x) := by
  unfold pushFormed
  split
  · exact h.startPush

protected theorem Canonical.takeHead {t k x u} (h : Canonical s) (e : takeHead s t k = some (x, u)) : Canonical u := by
  unfold takeHead at e
  split at e
  · cases e
  · cases e
    exact h.setQueue.popJob

protected theorem Canonical.dropTasks {p} (h : Canonical s) : Canonical (dropTasks s p) := by
  unfold dropTasks
  exact h.upd

protected theorem Canonical.formTask {core b kind length origin body} (h : Canonical s) :
    Canonical (formTask s core b kind length origin body).2 := by
  unfold formTask
  split
  · rename_i e
    exact h.fresh.snd e

protected theorem Canonical.commitJob {j} (h : Canonical s) : Canonical (commitJob s j) := by
  unfold commitJob
  exact .foldl (fun _ _ h => h.setReg) (.foldl (fun _ _ h => h.setReg) h)

protected theorem Canonical.finishJob {j r} (h : Canonical s) : Canonical (finishJob s j r) := by
  unfold finishJob
  dsimp only
  split
  · exact h.upd.commitJob
  · exact h.upd.commitJob.pushDone
  · exact h.upd.pushFailed

protected theorem Canonical.jobRunaway {j} (h : Canonical s) : Canonical (jobRunaway s j) := by
  unfold jobRunaway
  split
  · rename_i e
    exact (h.freeVal.snd e).finishJob

protected theorem Canonical.onJob {f} (h : Canonical s) : CanonicalRes (onJob f s) := by
  unfold onJob
  dsimp only
  split
  · exact trivial
  · exact h.upd

protected theorem Canonical.rank2 {d a b f} (h : Canonical s) : CanonicalRes (rank2 d a b f s) := by
  unfold rank2
  exact h.onJob

protected theorem Canonical.execRankLdt {d f} (h : Canonical s) : CanonicalRes (execRankLdt d f s) := by
  unfold execRankLdt
  exact h.onJob

protected theorem Canonical.execRankLdn {d w} (h : Canonical s) : CanonicalRes (execRankLdn d w s) := by
  unfold execRankLdn
  exact h.onJob

protected theorem Canonical.execRankLdf {d a w} (h : Canonical s) : CanonicalRes (execRankLdf d a w s) := by
  unfold execRankLdf
  exact h.onJob

protected theorem Canonical.execRankStn {a w} (h : Canonical s) : CanonicalRes (execRankStn a w s) := by
  unfold execRankStn
  exact h.onJob

protected theorem Canonical.execRankStf {a b w} (h : Canonical s) : CanonicalRes (execRankStf a b w s) := by
  unfold execRankStf
  exact h.onJob

protected theorem Canonical.execRankAdd {d a b} (h : Canonical s) : CanonicalRes (execRankAdd d a b s) := by
  unfold execRankAdd
  exact h.rank2

protected theorem Canonical.execRankAddi {d a i} (h : Canonical s) : CanonicalRes (execRankAddi d a i s) := by
  unfold execRankAddi
  exact h.onJob

protected theorem Canonical.execRankSub {d a b} (h : Canonical s) : CanonicalRes (execRankSub d a b s) := by
  unfold execRankSub
  exact h.rank2

protected theorem Canonical.execRankMul {d a b} (h : Canonical s) : CanonicalRes (execRankMul d a b s) := by
  unfold execRankMul
  exact h.rank2

protected theorem Canonical.execRankShl {d a n} (h : Canonical s) : CanonicalRes (execRankShl d a n s) := by
  unfold execRankShl
  exact h.onJob

protected theorem Canonical.execRankShr {d a n} (h : Canonical s) : CanonicalRes (execRankShr d a n s) := by
  unfold execRankShr
  exact h.onJob

protected theorem Canonical.execRankMin {d a b sg} (h : Canonical s) : CanonicalRes (execRankMin d a b sg s) := by
  unfold execRankMin
  exact h.rank2

protected theorem Canonical.execRankMax {d a b sg} (h : Canonical s) : CanonicalRes (execRankMax d a b sg s) := by
  unfold execRankMax
  exact h.rank2

protected theorem Canonical.execRankAnd {d a b} (h : Canonical s) : CanonicalRes (execRankAnd d a b s) := by
  unfold execRankAnd
  exact h.rank2

protected theorem Canonical.execRankOr {d a b} (h : Canonical s) : CanonicalRes (execRankOr d a b s) := by
  unfold execRankOr
  exact h.rank2

protected theorem Canonical.execRankCmplt {d a b sg} (h : Canonical s) : CanonicalRes (execRankCmplt d a b sg s) := by
  unfold execRankCmplt
  exact h.rank2

protected theorem Canonical.execRankSel {d a b c} (h : Canonical s) : CanonicalRes (execRankSel d a b c s) := by
  unfold execRankSel
  exact h.onJob

protected theorem Canonical.execRankNow {d sel} (h : Canonical s) : CanonicalRes (execRankNow d sel s) := by
  unfold execRankNow
  exact h.onJob

protected theorem Canonical.execRankEmit {a} (h : Canonical s) : CanonicalRes (execRankEmit a s) := by
  unfold execRankEmit
  split
  · exact trivial
  · exact h.finishJob

protected theorem Canonical.execRankRefuse {a} (h : Canonical s) : CanonicalRes (execRankRefuse a s) := by
  unfold execRankRefuse
  split
  · exact trivial
  · exact .ite h.finishJob h.upd

protected theorem Canonical.execNodeOffer {tower node} (h : Canonical s) : CanonicalRes (execNodeOffer tower node s) := by
  unfold execNodeOffer
  dsimp only
  split
  · exact h
  · exact h.startPush

protected theorem Canonical.treeErr {t code leaf k} (h : Canonical s) : Canonical (treeErr s t code leaf k) := by
  unfold treeErr
  exact h.setReg

protected theorem Canonical.writeDesc {t leaf k w v} (h : Canonical s) : Canonical (writeDesc s t leaf k w v) := by
  unfold writeDesc
  exact .ite (.ite ((Canonical.ite h.treeErr h).setReg) (.ite h.treeErr h)) (.ite (.ite h.setReg.setReg.freed h.setReg.treeErr) h.setReg)

protected theorem Canonical.execNodeEnable {tower node val} (h : Canonical s) : CanonicalRes (execNodeEnable tower node val s) := by
  unfold execNodeEnable
  exact .ite h.writeDesc h

protected theorem Canonical.execLeafEnable {tower leaf val} (h : Canonical s) : CanonicalRes (execLeafEnable tower leaf val s) := by
  unfold execLeafEnable
  exact .ite h.writeDesc h

protected theorem Canonical.disableLeaf {t k} (h : Canonical s) : Canonical (disableLeaf s t k) := by
  unfold disableLeaf
  exact h.setReg

/-! ### Memory instructions -/

protected theorem Canonical.fenceAll {c f} (h : Canonical s) : Canonical (fenceAll c s f) := by
  unfold fenceAll
  exact .foldl (fun _ _ h => h.settleFence) (.foldl (fun _ _ h => h.updWarp) h)

protected theorem Canonical.orderOnly {acq rel c} (h : Canonical s) : Canonical (orderOnly acq rel c s) := by
  unfold orderOnly
  exact .ite h.fenceAll h

protected theorem Canonical.sendRemote {core b peer req who rels after share length} (h : Canonical s) :
    Canonical (sendRemote s core b peer req who rels after share length).2 := by
  unfold sendRemote
  dsimp only
  exact h.fresh.formTask.upd.pushFormed

protected theorem Canonical.zeroSecure {c id l d n} (h : Canonical s) : Canonical (zeroSecure s c id l d n) := by
  unfold zeroSecure
  refine .foldl (fun _ _ h0 => ?_) h
  split
  · exact h0.landLane
  · exact h0

protected theorem Canonical.remoteLanes {c o id accs} (h : Canonical s) : Canonical (remoteLanes c s o id accs) := by
  unfold remoteLanes
  dsimp only
  exact .foldl (fun _ _ h => h.sendRemote.updWarp) h

protected theorem Canonical.putLanes {c o accs share bad} (h : Canonical s) : Canonical (putLanes c s o accs share bad) := by
  unfold putLanes
  dsimp only
  split
  · split
    · dsimp only
      exact h.putOp
    · dsimp only
      exact h.pushOp
  · refine .remoteLanes ?_
    split
    · dsimp only
      exact h.putOp
    · dsimp only
      exact h.pushOp

protected theorem Canonical.earlyLanes {o kind addrs a b more c} (h : Canonical s) : Canonical (earlyLanes o kind addrs a b more c s) := by
  unfold earlyLanes
  exact .ite h h.putLanes.updWarp

protected theorem Canonical.memIssue {o kind addrs a b more c} (h : Canonical s) : Act.Canonical (memIssue o kind addrs a b more c s) := by
  unfold memIssue
  dsimp only
  split
  · exact h
  · split
    · exact h.earlyLanes.startWalk
    · split
      · exact h
      · split
        · exact h.putLanes
        · show Canonical _
          split
          · exact h.putLanes.zeroSecure
          · exact h.putLanes

protected theorem Canonical.scrIssue {o addrs a b c} (h : Canonical s) : Act.Canonical (scrIssue o addrs a b c s) := by
  unfold scrIssue
  dsimp only
  split
  · exact h
  · split
    · exact h
    · exact .ite h.pushOp h.pushOp

protected theorem Canonical.bodyLd {x c} (h : Canonical s) : Act.Canonical (bodyLd x c s) := by
  unfold bodyLd
  exact .ite h.orderOnly h.memIssue

protected theorem Canonical.bodySt {x c} (h : Canonical s) : Act.Canonical (bodySt x c s) := by
  unfold bodySt
  exact .ite h.orderOnly h.memIssue

protected theorem Canonical.bodyLds {x c} (h : Canonical s) : Act.Canonical (bodyLds x c s) := by
  unfold bodyLds
  exact .ite h.orderOnly h.scrIssue

protected theorem Canonical.bodySts {x c} (h : Canonical s) : Act.Canonical (bodySts x c s) := by
  unfold bodySts
  exact .ite h.orderOnly h.scrIssue

protected theorem Canonical.bodyLdk {x c} (h : Canonical s) : Act.Canonical (bodyLdk x c s) := by
  unfold bodyLdk
  dsimp only
  refine .ite h ?_
  split
  · exact h
  · split
    · exact h.earlyLanes.startWalk
    · split
      · exact h.putLanes
      · exact h.putLanes.zeroSecure

protected theorem Canonical.bodyAtom {x glob c} (h : Canonical s) : Act.Canonical (bodyAtom x glob c s) := by
  unfold bodyAtom
  exact .ite h.orderOnly (.ite h.memIssue h.scrIssue)

protected theorem Canonical.bodyBankop {x c} (h : Canonical s) : Act.Canonical (bodyBankop x c s) := by
  unfold bodyBankop
  exact .ite h.orderOnly h.memIssue

protected theorem Canonical.bodyPref {x c} (h : Canonical s) : Act.Canonical (bodyPref x c s) := by
  unfold bodyPref
  dsimp only
  show Canonical _
  refine .foldl (fun _ _ h0 => ?_) h
  split
  · exact .ite h0 (.ite h0.l2Use.l1Fill h0.l2Use)
  · exact h0

protected theorem Canonical.bodyCctl {x c} (h : Canonical s) : Act.Canonical (bodyCctl x c s) := by
  unfold bodyCctl
  dsimp only
  refine .ite h (.ite h.pushOp (.ite h.pushOp (.ite h ?_)))
  split
  · rename_i e
    exact (h.memIssue.of_eq e : Canonical _).updWarp
  · rename_i e
    exact (h.memIssue.of_eq e : Canonical _).updWarp
  · exact h.memIssue

protected theorem Canonical.giveLane {core o lane ws} (h : Canonical s) : Canonical (giveLane s core o lane ws) := by
  unfold giveLane
  split
  · exact h.landLane
  · exact h

protected theorem Canonical.rmwGlobal {core a n at' f} (h : Canonical s) : Canonical (rmwGlobal s core a n at' f).2 := by
  unfold rmwGlobal
  dsimp only
  refine .iteSnd h.dropLine ?_
  split
  · dsimp only
    exact h.dropLine.homePut
  · dsimp only
    exact h.dropLine.l2Use

protected theorem Canonical.cctlDo {core k x} (h : Canonical s) : Canonical (cctlDo s core k x) := by
  unfold cctlDo
  dsimp only
  refine .ite h.l1WriteBack.updCore (.ite h.upd ?_)
  refine .ite h ?_
  split
  · exact h.wbLine
  · split
    · exact .ite h.l1Del h.l1Put
    · exact h
  · exact h.dropLine
  · exact h.l2Clean

protected theorem Canonical.constRead {core launch a n at'} (h : Canonical s) : Canonical (constRead s core launch a n at').2 := by
  unfold constRead
  dsimp only
  exact (Canonical.ite h h.l2Use).updCore

protected theorem Canonical.performLane {core slot o x} (h : Canonical s) : Canonical (performLane s core slot o x) := by
  unfold performLane
  extract_lets _ _ _ _ t1 _ t2
  have h1 : Canonical t1 := .ite h.releaseL1 h
  have h2 : Canonical t2 := .ite h1.flushLine h1
  refine .ite h1.putOp ?_
  split
  · exact h2.putOp.giveLane
  · exact h2.putOp.cctlDo
  · split
    · exact h2.putOp.giveLane
    · refine .ite h2.putOp.notePoison ?_
      split
      · rename_i e2
        exact (h2.putOp.constRead.snd e2).giveLane
    · split
      · rename_i e2
        exact (h2.putOp.loadBytes.snd e2).giveLane
      · rename_i e2
        exact (h2.putOp.loadBytes.snd e2).notePoison
  · exact .ite h2.putOp.updBlock h2.putOp.storeBytes
  · extract_lets t3
    have h3 : Canonical t3 := by
      dsimp only [t3]
      split
      · exact h2.putOp.updBlock
      · exact h2.putOp
    refine .ite h3.giveLane ?_
    split
    · rename_i e3
      exact (h2.putOp.rmwGlobal.snd e3).giveLane
    · rename_i e3
      exact (h2.putOp.rmwGlobal.snd e3).notePoison
  · exact h2.putOp.rmwGlobal

protected theorem Canonical.tryLane {core slot id lane owned} (h : Canonical s) : Canonical (tryLane s core slot id lane owned) := by
  unfold tryLane
  split
  · exact h
  · split
    · exact h
    · refine .ite h (.ite ?_ h.performLane)
      split
      · exact .ite h h.addWaiter
      · exact h

protected theorem Canonical.finishIfDone {core slot id} (h : Canonical s) : Canonical (finishIfDone s core slot id) := by
  unfold finishIfDone
  split
  · exact .ite (.ite h.completeOp ((Canonical.foldl (fun _ _ h => .ite h h.updWarp) h).completeOp)) h.closeMembers
  · exact h

protected theorem Canonical.cleanLine {core slot o n} (h : Canonical s) : Canonical (cleanLine core slot o s n) := by
  unfold cleanLine
  exact .ite h.updBlock (.ite h h.clearPoison)

protected theorem Canonical.performOp {core slot id lanes} (h : Canonical s) : Canonical (performOp s core slot id lanes) := by
  unfold performOp
  dsimp only
  split
  · exact h
  · exact .foldl (fun _ _ h => h.poisonFault) ((Canonical.foldl (fun _ _ h => h.cleanLine) (.foldl (fun _ _ h => h.tryLane) h)).finishIfDone)

protected theorem Canonical.execResultLand {core slot op lanes} (h : Canonical s) : CanonicalRes (execResultLand core slot op lanes s) := by
  unfold execResultLand
  split
  · exact .ite h.performOp h
  · exact h

protected theorem Canonical.execStorePerform {core slot op lanes} (h : Canonical s) : CanonicalRes (execStorePerform core slot op lanes s) := by
  unfold execStorePerform
  split
  · exact .ite h h.performOp
  · exact h

protected theorem Canonical.askLine {copy line} (h : Canonical s) : Canonical (askLine s copy line) := by
  unfold askLine
  split
  · exact h.upd
  · exact .ite h h.upd

protected theorem Canonical.grantLine {line} (h : Canonical s) : Canonical (grantLine s line) := by
  unfold grantLine
  split
  · refine .ite h ?_
    split <;> exact h.upd
  · exact h

protected theorem Canonical.homeGo {line x} (h : Canonical s) : Canonical (homeGo line s x) := by
  unfold homeGo
  split
  · exact h.tryLane.finishIfDone
  · exact h.wbArrive.settleCore
  · exact h.homeWrite
  · exact h.upd

protected theorem Canonical.releaseLine {copy line} (h : Canonical s) : Canonical (releaseLine s copy line) := by
  unfold releaseLine
  dsimp only
  split
  · exact h
  · exact .ite h.upd ((Canonical.foldl (fun _ _ h => h.homeGo) h.upd).grantLine)

end

end Sys2Proof.Machine
end

