-- ==== Sys2Proof/Proofs/CanonicalEngines.lean ====
section
/-!
O56: the matrix and copy engines, rings and the fabric keep canonical memory.
-/
namespace Sys2Proof.Machine

section
variable {s : State}

/-! ### The matrix engine -/

protected theorem Canonical.addrFault {code a c} (h : Canonical s) : Act.Canonical (addrFault code a c s) := by
  unfold addrFault
  exact h

protected theorem Canonical.plainFault {code c} (h : Canonical s) : Act.Canonical (plainFault code c s) := by
  unfold plainFault
  exact h

protected theorem Canonical.pushTile {c slot length k rel} (h : Canonical s) : Act.Canonical (pushTile c s slot length k rel) := by
  unfold pushTile
  dsimp only
  exact .ite h h.formTask.pushFormed

protected theorem Canonical.bodyMxrsv {x c} (h : Canonical s) : Act.Canonical (bodyMxrsv x c s) := by
  unfold bodyMxrsv
  exact .ite h ((Canonical.ite h.updMslot h).result)

protected theorem Canonical.bodyMxrel {x c} (h : Canonical s) : Act.Canonical (bodyMxrel x c s) := by
  unfold bodyMxrel
  exact .ite h.plainFault (.ite h h.pushTile)

protected theorem Canonical.bodyMxstat {x c} (h : Canonical s) : Act.Canonical (bodyMxstat x c s) := by
  unfold bodyMxstat
  exact .ite h (.ite h.plainFault ((Canonical.ite h.updMslot h).result))

protected theorem Canonical.bodyNfset {x c} (h : Canonical s) : Act.Canonical (bodyNfset x c s) := by
  unfold bodyNfset
  exact .ite h h.addBpend.arriveAt

protected theorem Canonical.bodyWload {x c} (h : Canonical s) : Act.Canonical (bodyWload x c s) := by
  unfold bodyWload
  exact .ite h.plainFault (.ite h.plainFault (.ite h.orderOnly (.ite h.plainFault (.ite h.addrFault h.pushTile))))

protected theorem Canonical.bodyMxmul {x c} (h : Canonical s) : Act.Canonical (bodyMxmul x c s) := by
  unfold bodyMxmul
  dsimp only
  refine .ite h.plainFault (.ite h.plainFault ?_)
  refine .ite h.orderOnly ?_
  split
  · exact h.plainFault
  · refine .ite h.plainFault (.ite h.addrFault ?_)
    split
    · exact h.addrFault
    · split
      · exact h.addrFault
      · exact .ite h.addrFault h.pushTile

protected theorem Canonical.bodyMxdrain {x c} (h : Canonical s) : Act.Canonical (bodyMxdrain x c s) := by
  unfold bodyMxdrain
  exact .ite h.plainFault (.ite h.plainFault (.ite h.plainFault (.ite h (.ite h.plainFault h.pushTile))))

protected theorem Canonical.bodyAtbl {x c} (h : Canonical s) : Act.Canonical (bodyAtbl x c s) := by
  unfold bodyAtbl
  dsimp only
  refine .ite h.plainFault (.ite h ?_)
  refine .ite h.addrFault (.ite h.addrFault ?_)
  split
  · exact h.addrFault
  · exact h.pushTile

protected theorem Canonical.wbufWrite {core slot w bs} (h : Canonical s) : Canonical (wbufWrite s core slot w bs) := by
  unfold wbufWrite
  exact h.updCore

protected theorem Canonical.mulTask {t w origin stride m row0 act z} (h : Canonical s) : Canonical (mulTask s t w origin stride m row0 act z) := by
  unfold mulTask
  exact h.updMslot

protected theorem Canonical.drainTask {id t d0 m row0 col0 st out nf z} (h : Canonical s) :
    Canonical (drainTask s id t d0 m row0 col0 st out nf z) := by
  unfold drainTask
  exact (Canonical.ite ((Canonical.foldl (fun _ _ h => .ite h h.updWarp) (.foldl (fun _ _ h => h.applyBWr) h)).updMslot) (.foldl (fun _ _ h => .ite h
    h.updWarp) (.foldl (fun _ _ h => h.applyBWr) h))).arriveAll

protected theorem Canonical.tableTask {t part origin c0 cnt emin} (h : Canonical s) : Canonical (tableTask s t part origin c0 cnt emin) := by
  unfold tableTask
  exact h.updMslot

protected theorem Canonical.tileEffect {id t} (h : Canonical s) : Canonical (tileEffect s id t) := by
  unfold tileEffect
  split
  · exact h
  · exact h.mulTask
  · exact h.drainTask
  · exact h.tableTask
  · exact h.updMslot

protected theorem Canonical.execTileTaskStart {core} (h : Canonical s) : CanonicalRes (execTileTaskStart core s) := by
  unfold execTileTaskStart
  split
  · exact h
  · split
    · exact h
    · rename_i e
      exact (Canonical.ite (h.takeHead e) (h.takeHead e).releaseL1).updCore

protected theorem Canonical.tileLeaves {core x t} (h : Canonical s) : Canonical (tileLeaves s core x t) := by
  unfold tileLeaves
  exact h.moveCnt.freed.act

protected theorem Canonical.endVictim {core slot} (h : Canonical s) : Canonical (endVictim s core slot) := by
  unfold endVictim
  dsimp only
  split
  · exact h
  · exact .ite h.setCore h.setCore.preempted

protected theorem Canonical.execTileTaskRetire {core task} (h : Canonical s) : CanonicalRes (execTileTaskRetire core task s) := by
  unfold execTileTaskRetire
  dsimp only
  split
  · exact h.setCore.tileEffect.endVictim.tileLeaves
  · exact h.setCore.tileEffect.tileLeaves
  · split
    · split
      · refine .ite ?_ h
        split
        · rename_i e
          exact (h.takeHead e).tileLeaves
        · exact h
      · exact h
    · exact h

protected theorem Canonical.engineFault {core x t code sub} (h : Canonical s) : Canonical (engineFault s core x t code sub) := by
  unfold engineFault
  exact h.takeFault.dropTasks.freed

protected theorem Canonical.stageWload {core x t w} (h : Canonical s) : Canonical (stageWload s core x t w) := by
  unfold stageWload
  dsimp only
  refine .ite h ?_
  split
  · rename_i e
    exact h.releaseL1.engRead.snd e
  · rename_i e
    exact .ite h.releaseL1 (h.releaseL1.engRead.snd e).engineFault
  · rename_i e
    have h0 := h.releaseL1.engRead.snd e
    split
    · exact .ite h.releaseL1 h0.engineFault
    · exact h0.wbufWrite.setQueue

protected theorem Canonical.execAshapeHostWrite {core val} (h : Canonical s) : CanonicalRes (execAshapeHostWrite core val s) := by
  unfold execAshapeHostWrite
  exact .ite h h.updCore

protected theorem Canonical.execCadenceWrite {core val} (h : Canonical s) : CanonicalRes (execCadenceWrite core val s) := by
  unfold execCadenceWrite
  exact .ite h h.updCore

/-! ### The copy engine and rings -/

protected theorem Canonical.bodyLayset {x c} (h : Canonical s) : Act.Canonical (bodyLayset x c s) := by
  unfold bodyLayset
  exact .ite h (.ite h.plainFault h.updBlock)

protected theorem Canonical.updCopy {id f} (h : Canonical s) : Canonical (State.updCopy s id f) := by
  unfold State.updCopy
  exact h.upd

protected theorem Canonical.copyRead {c scr a n} (h : Canonical s) : Canonical (copyRead s c scr a n).2 := by
  unfold copyRead
  dsimp only
  refine .iteSnd h ?_
  split
  · rename_i e
    have h0 := h.engXlateK.snd e
    exact .iteSnd (.iteSnd h0 (.iteSnd h0 (.iteSnd h0 h0))) (.iteSnd h0 h0)
  · rename_i e
    exact h.engXlateK.snd e
  · rename_i e
    exact h.engXlateK.snd e

protected theorem Canonical.resolveElem {c e} (h : Canonical s) : Canonical (resolveElem s c e).2 := by
  unfold resolveElem
  dsimp only
  split
  · dsimp only
    exact h.copyRead
  · dsimp only
    exact h.copyRead
  · split
    · rename_i e
      have h0 := h.copyRead.snd e
      exact .iteSnd h0 h0.copyRead
    · rename_i e
      exact h.copyRead.snd e
    · rename_i e
      exact h.copyRead.snd e
    · rename_i e
      exact h.copyRead.snd e
  · exact h

protected theorem Canonical.resolveAll {c l} (h : Canonical s) : Canonical (resolveAll c s l).2 := by
  induction l generalizing s with
  | nil => exact h
  | cons e r ih => exact ih h.resolveElem

protected theorem Canonical.dstAll {c l} (h : Canonical s) : Canonical (dstAll c s l).2 := by
  induction l generalizing s with
  | nil => exact h
  | cons x r ih =>
    obtain ⟨_ | _, a⟩ := x
    · exact ih h.engXlateK
    · exact ih h

protected theorem Canonical.askAll {core copy l} (h : Canonical s) : Canonical (askAll s core copy l) := by
  unfold askAll
  split
  · exact h
  · exact .foldl (fun _ _ h => h.askLine) h.l1WriteBack

protected theorem Canonical.askLines {id} (h : Canonical s) : Canonical (askLines s id) := by
  unfold askLines
  split
  · exact h
  · refine .ite h ?_
    split
    · rename_i e
      exact (h.dstAll.snd e).askAll.updCopy

protected theorem Canonical.askKnown (h : Canonical s) : Canonical (askKnown s) := by
  unfold askKnown
  exact .foldl (fun _ _ h => .ite h h.askLines) h

protected theorem Canonical.startCopy {c k dst bytes segMax localSrc} (h : Canonical s) :
    Canonical (startCopy c s k dst bytes segMax localSrc) := by
  unfold startCopy
  dsimp only
  exact h.formTask.fresh.upd.moveCnt.expectAll.askLines.pushFormed

protected theorem Canonical.bodyCpy {x c} (h : Canonical s) : Act.Canonical (bodyCpy x c s) := by
  unfold bodyCpy
  dsimp only
  refine .ite h.orderOnly ?_
  split
  · exact h
  · split
    · exact h
    · split
      · exact h
      · exact h.startCopy

protected theorem Canonical.bodyTcpy {x c} (h : Canonical s) : Act.Canonical (bodyTcpy x c s) := by
  unfold bodyTcpy
  dsimp only
  refine .ite h.orderOnly (.ite h ?_)
  refine .ite h.plainFault ?_
  split
  · exact h.addrFault
  · split
    · exact h.addrFault
    · exact h.startCopy

protected theorem Canonical.landStatus {core id dst members w} (h : Canonical s) : Canonical (landStatus s core id dst members w) := by
  unfold landStatus
  exact (Canonical.ite ((Canonical.foldl (fun _ _ h => h.landLane) h).bump64) (.foldl (fun _ _ h => h.landLane) h)).moveCnt.arriveAll.upd

protected theorem Canonical.releaseAll {copy} (h : Canonical s) : Canonical (releaseAll s copy) := by
  unfold releaseAll
  exact .foldl (fun _ _ h => h.releaseLine) h

protected theorem Canonical.endCopy {c} (h : Canonical s) : Canonical (endCopy s c) := by
  unfold endCopy
  extract_lets t1
  have h1 : Canonical t1 := .foldl (fun _ _ h => h.dropStale) h.releaseAll
  exact .ite h1.upd (.ite h1.updCopy h1.upd.landStatus)

protected theorem Canonical.fetchRemote {c l} (h : Canonical s) : Canonical (fetchRemote s c l) := by
  unfold fetchRemote
  dsimp only
  exact .foldl (fun _ _ h => h.sendRemote.updCopy) h

protected theorem Canonical.writeElem {core bi e d} (h : Canonical s) : Canonical (writeElem core bi s e d) := by
  unfold writeElem
  dsimp only
  split
  · exact h.updBlock
  · exact .ite h.homePut.upd h.homePut
  · exact h

protected theorem Canonical.clearWhole {core bi l} (h : Canonical s) : Canonical (clearWhole core bi s l) := by
  unfold clearWhole
  dsimp only
  refine .ite h ?_
  split
  · exact h.clearPoison
  · exact h.updBlock
  · exact h

protected theorem Canonical.doLine {c l} (h : Canonical s) : Canonical (doLine c s l) := by
  unfold doLine
  exact .foldl (fun _ _ h => h.releaseLine) ((Canonical.ite h (.foldl (fun _ _ h => h.dropStale) (.foldl (fun _ _ h => h.writeElem)
    h.clearWhole))).updCopy)

protected theorem Canonical.doChunk {c g} (h : Canonical s) : Canonical (doChunk s c g).2 := by
  unfold doChunk
  dsimp only
  refine .ite (.dropFailed ?_) ?_
  all_goals
    refine .foldl (fun _ _ h => .ite h.doLine h) (.ite (.fetchRemote ?_) ?_)
    all_goals exact (Canonical.ite h h.releaseL1).dstAll.askAll.resolveAll

protected theorem Canonical.execCopySegmentStart {core} (h : Canonical s) : CanonicalRes (execCopySegmentStart core s) := by
  unfold execCopySegmentStart
  refine .ite h (.ite h ?_)
  split
  · exact h
  · rename_i e
    split
    · exact (h.takeHead e).updCore
    · exact h.takeHead e

protected theorem Canonical.dropSeg {core seg} (h : Canonical s) : Canonical (dropSeg s core seg) := by
  unfold dropSeg
  exact h.updCore.freed

protected theorem Canonical.retireBytes {id n} (h : Canonical s) : Canonical (retireBytes s id n) := by
  unfold retireBytes
  dsimp only
  split
  · exact .ite h.updCopy.endCopy h.updCopy
  · exact h.updCopy

protected theorem Canonical.execCopySegmentRetire {core seg} (h : Canonical s) : CanonicalRes (execCopySegmentRetire core seg s) := by
  unfold execCopySegmentRetire
  dsimp only
  split
  · exact h
  · split
    · exact h.dropSeg
    · refine .ite h ?_
      split
      · rename_i e
        exact h.doChunk.snd e
      · rename_i e
        exact (h.doChunk.snd e).dropSeg.act.retireBytes

protected theorem Canonical.execCopySegmentBoundary {core seg} (h : Canonical s) : CanonicalRes (execCopySegmentBoundary core seg s) := by
  unfold execCopySegmentBoundary
  dsimp only
  split
  · exact h
  · split
    · exact h.dropSeg
    · refine .ite h ?_
      split
      · rename_i e
        exact h.doChunk.snd e
      · rename_i e
        have h0 := h.doChunk.snd e
        refine .ite h0.dropSeg.act.retireBytes ?_
        show Canonical _
        split
        · exact h0.dropSeg.act.retireBytes.setQueue.preempted
        · exact h0.dropSeg.act.retireBytes.setQueue

protected theorem Canonical.bodyRinit {x c} (h : Canonical s) : Act.Canonical (bodyRinit x c s) := by
  unfold bodyRinit
  exact .ite h (.ite h.addrFault h.updBlock.upd)

protected theorem Canonical.putRing {c x r} (h : Canonical s) : Canonical (putRing s c x r) := by
  unfold putRing
  exact h.updBlock.upd

protected theorem Canonical.ringClaim {get x c} (h : Canonical s) : Act.Canonical (ringClaim get x c s) := by
  unfold ringClaim
  dsimp only
  refine .ite h.orderOnly ?_
  split
  · exact h.plainFault
  · exact .ite h.putRing.result (.ite h h.putRing)

protected theorem Canonical.ringHand {fill x c} (h : Canonical s) : Act.Canonical (ringHand fill x c s) := by
  unfold ringHand
  dsimp only
  refine .ite h.orderOnly ?_
  split
  · exact h.plainFault
  · split
    · exact h.fenceAll
    · exact h.putRing

protected theorem Canonical.bodyRingadv {x c} (h : Canonical s) : Act.Canonical (bodyRingadv x c s) := by
  unfold bodyRingadv
  dsimp only
  exact .ite h.plainFault (.ite h.orderOnly ((Canonical.ite h.upd.settleAdvs h.fenceAll).result))

/-! ### The fabric -/

protected theorem Canonical.portBump {p off} (h : Canonical s) : Canonical (portBump s p off) := by
  unfold portBump
  exact h.bump64

protected theorem Canonical.sentFrame {port peer} (h : Canonical s) : Canonical (sentFrame s port peer) := by
  unfold sentFrame
  exact h.portBump.upd

protected theorem Canonical.portSend {port peer o} (h : Canonical s) : Canonical (portSend s port peer o) := by
  unfold portSend
  exact .ite h.sentFrame.emit h

protected theorem Canonical.portWrite {port pa bs} (h : Canonical s) : Canonical (portWrite s port pa bs) := by
  unfold portWrite
  exact .ite h.homeWrite h

protected theorem Canonical.setCtr {k c} (h : Canonical s) : Canonical (State.setCtr s k c) := by
  unfold State.setCtr
  exact h.upd

protected theorem Canonical.completeWaits {k p} (h : Canonical s) : Canonical (completeWaits s k p) := by
  unfold completeWaits
  exact .ite h (.foldl (fun _ _ h => h.updWarp.acquireL1) h.setCtr.upd)

protected theorem Canonical.execAcwaitComplete {counter} (h : Canonical s) : CanonicalRes (execAcwaitComplete counter s) := by
  unfold execAcwaitComplete
  exact h.completeWaits

protected theorem Canonical.bodyAcwait {x c} (h : Canonical s) : Act.Canonical (bodyAcwait x c s) := by
  unfold bodyAcwait
  dsimp only
  refine .ite h.orderOnly (.ite h.plainFault ?_)
  split
  · exact h.updWarp.valueOp
  · exact .ite h.completeWaits.setCtr.acquireL1.updWarp.valueOp (.ite h h.setCtr)

protected theorem Canonical.bodyAcread {x c} (h : Canonical s) : Act.Canonical (bodyAcread x c s) := by
  unfold bodyAcread
  exact .ite h (.ite h.plainFault h.valueOp)

protected theorem Canonical.writeCtr0 {k v} (h : Canonical s) : Canonical (writeCtr0 s k v) := by
  unfold writeCtr0
  exact .ite (.ite h.setReg.setCtr h.setReg) (.ite h h.setReg.upd.setCtr.completeWaits)

protected theorem Canonical.execCounterEnable {counter val} (h : Canonical s) : CanonicalRes (execCounterEnable counter val s) := by
  unfold execCounterEnable
  exact .ite h.writeCtr0 h

protected theorem Canonical.execCounterDisable {counter val} (h : Canonical s) : CanonicalRes (execCounterDisable counter val s) := by
  unfold execCounterDisable
  exact .ite h.writeCtr0 h

protected theorem Canonical.setSend {key r} (h : Canonical s) : Canonical (State.setSend s key r) := by
  unfold State.setSend
  exact h.upd

protected theorem Canonical.updSend {key f} (h : Canonical s) : Canonical (State.updSend s key f) := by
  unfold State.updSend
  split
  · exact h.setSend
  · exact h

protected theorem Canonical.flushSends {port} (h : Canonical s) : Canonical (flushSends s port) := by
  unfold flushSends
  exact (Canonical.foldl (fun _ _ h => h.portWrite) h).upd

protected theorem Canonical.loadSends {port} (h : Canonical s) : Canonical (loadSends s port) := by
  unfold loadSends
  exact h.upd

protected theorem Canonical.pushData {key f} (h : Canonical s) : Canonical (pushData s key f) := by
  unfold pushData
  dsimp only
  exact .foldl (fun _ _ h => .ite h h.fresh.pushFormed) h

protected theorem Canonical.pushFlags {key} (h : Canonical s) : Canonical (pushFlags s key) := by
  unfold pushFlags
  dsimp only
  split
  · exact h
  · exact .foldl (fun _ _ h => h.fresh.pushFormed) h.updSend

protected theorem Canonical.dropPackets {key p} (h : Canonical s) : Canonical (dropPackets s key p) := by
  unfold dropPackets
  exact h.dropTasks

protected theorem Canonical.failPair {key} (h : Canonical s) : Canonical (failPair s key) := by
  unfold failPair
  dsimp only
  split
  · exact h
  · refine .ite h (.foldl (fun _ _ h0 => ?_) ?_)
    · exact h0.landStatus
    · split
      · exact h.dropPackets.setSend
      · exact h.dropPackets.setSend.portSend

protected theorem Canonical.fxTask {c} (h : Canonical s) : Canonical (fxTask c s).2 := by
  unfold fxTask
  exact h.formTask

protected theorem Canonical.bodyFxw {x c} (h : Canonical s) : Act.Canonical (bodyFxw x c s) := by
  unfold bodyFxw
  dsimp only
  exact .ite h.orderOnly (.ite h.plainFault (.ite h (.ite h.fresh.moveCnt.expectAll.fenceAll.landStatus
    h.fresh.moveCnt.expectAll.fxTask.setSend.pushData)))

protected theorem Canonical.bodyFxflag {x c} (h : Canonical s) : Act.Canonical (bodyFxflag x c s) := by
  unfold bodyFxflag
  dsimp only
  exact .ite h.orderOnly (.ite h.addrFault (.ite h.plainFault (.ite ((Canonical.ite h.fresh.moveCnt.expectAll.setSend.fenceAll.portSend
    h.fresh.moveCnt.expectAll.setSend.fenceAll).landStatus) h.fresh.moveCnt.expectAll.fxTask.setSend.pushFlags)))

protected theorem Canonical.bodyFxrd {x c} (h : Canonical s) : Act.Canonical (bodyFxrd x c s) := by
  unfold bodyFxrd
  dsimp only
  exact .ite h (.ite h.plainFault (.ite h.fresh.moveCnt.expectAll.landStatus h.fresh.moveCnt.expectAll.fxTask.upd.askLines.sendRemote))

protected theorem Canonical.bodyFxatom {x c} (h : Canonical s) : Act.Canonical (bodyFxatom x c s) := by
  unfold bodyFxatom
  exact .ite h.orderOnly (.ite h.addrFault (.ite h.plainFault h.moveCnt.expectAll.sendRemote))

protected theorem Canonical.sentBytes {key id n} (h : Canonical s) : Canonical (sentBytes s key id n) := by
  unfold sentBytes
  split
  · exact h
  · extract_lets _ _ _ t1
    have h1 : Canonical t1 := .ite h.updSend.updSend.landStatus h.updSend.updSend
    exact .ite h1.pushFlags h1

protected theorem Canonical.failSource {key id code} (h : Canonical s) : Canonical (failSource s key id code) := by
  unfold failSource
  dsimp only
  split
  · exact h
  · exact (Canonical.ite h.dropPackets h.dropPackets.landStatus).updSend.failPair

protected theorem Canonical.execEgressPacketSend {port} (h : Canonical s) : CanonicalRes (execEgressPacketSend port s) := by
  unfold execEgressPacketSend
  extract_lets take
  have htake {u} (hu : Canonical u) : Canonical (take u) := by
    dsimp only [take]
    split
    · rename_i e
      exact (hu.takeHead e).freed.act
    · exact hu
  refine .ite h ?_
  have hr {core share} := h.releaseL1 (core := core) (share := share)
  split
  · exact h
  · split
    · split
      · exact htake h
      · split
        · exact htake h
        · dsimp only
          split
          · rename_i e
            exact hr.engRead.snd e
          · rename_i e
            exact (htake (hr.engRead.snd e)).failSource
          · rename_i e
            exact (htake (hr.engRead.snd e)).sentFrame.emit.sentBytes
    · split
      · exact htake h
      · split
        · exact htake h
        · exact .ite hr (htake hr).sentFrame.emit.updSend
    · split
      · exact htake h
      · exact .ite hr (htake hr).sentFrame.emit.upd
    · split
      · exact htake h
      · exact .ite hr (htake hr).sentFrame.emit.upd
    · exact htake h

protected theorem Canonical.execFlagAckArrive {port p} (h : Canonical s) : CanonicalRes (execFlagAckArrive port p s) := by
  unfold execFlagAckArrive
  dsimp only
  refine .ite h ?_
  split
  · exact h.portBump
  · split
    · exact h.portBump
    · exact .ite h.portBump (Canonical.foldl (fun _ _ h => h.landStatus) h.portBump.dropPackets.setSend)

protected theorem Canonical.execShortfallArrive {port p} (h : Canonical s) : CanonicalRes (execShortfallArrive port p s) := by
  unfold execShortfallArrive
  dsimp only
  refine .ite h ?_
  split
  · exact h.portBump
  · exact .ite h.portBump (.ite h.portBump.failPair ((Canonical.foldl (fun _ _ h => h.pushData) h.portBump.dropPackets.setSend).pushFlags))

protected theorem Canonical.execFlagResendTimer {send} (h : Canonical s) : CanonicalRes (execFlagResendTimer send s) := by
  unfold execFlagResendTimer
  split
  · exact h
  · exact .ite h.setSend.pushFlags h

protected theorem Canonical.adoptInc {counter inc} (h : Canonical s) : Canonical (adoptInc s counter inc) := by
  unfold adoptInc
  exact .ite h h.setCtr.upd

protected theorem Canonical.releaseFlag {port pa f} (h : Canonical s) : Canonical (releaseFlag s port pa f) := by
  unfold releaseFlag
  exact h.homeWrite.setCtr.portSend

protected theorem Canonical.waitHeld {pa n i t} (h : Canonical s) (e : waitHeld s pa n i = some t) : Canonical t := by
  obtain ⟨k, -, rfl⟩ := Option.map_eq_some_iff.1 e
  exact h.addWaiter

/-- A state chosen where another is not known. -/
protected theorem Canonical.getD {o : Option State} {t : State} (ho : ∀ u, o = some u → Canonical u) (ht : Canonical t) : Canonical (o.getD t) := by
  cases o with
  | none => exact ht
  | some u => exact ho u rfl

protected theorem Canonical.releaseParked {counter} (h : Canonical s) : Canonical (releaseParked s counter) := by
  unfold releaseParked
  refine .foldl (fun _ _ h => ?_) h
  dsimp only
  split
  · exact .getD (fun _ => h.upd.waitHeld) h.upd.releaseFlag
  · exact h.upd

protected theorem Canonical.fxwGo {port p} (h : Canonical s) : Canonical (fxwGo port p s) := by
  unfold fxwGo
  split
  · exact h.portBump
  · exact h
  · split
    · exact h.portBump
    · split
      · rename_i e
        exact h.waitHeld e
      · exact h.adoptInc.homeWrite.setCtr.releaseParked

protected theorem Canonical.flagGo {port p} (h : Canonical s) : Canonical (flagGo port p s) := by
  unfold flagGo
  split
  · exact h.portBump
  · exact h
  · split
    · exact h.portBump
    · exact .ite h.adoptInc.portSend (.ite (.getD (fun _ => h.adoptInc.waitHeld) h.adoptInc.releaseFlag)
        (.ite h.adoptInc (.ite h.adoptInc.portBump h.adoptInc.upd)))

protected theorem Canonical.execFxwPacketArrive {port p} (h : Canonical s) : CanonicalRes (execFxwPacketArrive port p s) := by
  unfold execFxwPacketArrive
  exact .ite h h.portBump.fxwGo

protected theorem Canonical.execFlagArrive {port p} (h : Canonical s) : CanonicalRes (execFlagArrive port p s) := by
  unfold execFlagArrive
  exact .ite h h.portBump.flagGo

protected theorem Canonical.execPendingFlagTimer {counter} (h : Canonical s) : CanonicalRes (execPendingFlagTimer counter s) := by
  unfold execPendingFlagTimer
  exact (Canonical.foldl (fun _ _ h => h.portSend) h).upd

protected theorem Canonical.execFailureNoticeArrive {port p} (h : Canonical s) : CanonicalRes (execFailureNoticeArrive port p s) := by
  unfold execFailureNoticeArrive
  extract_lets _ t1
  have h1 : Canonical t1 := by
    dsimp only [t1]
    split
    · exact h.portBump.devWrite
    · exact h.portBump.portBump
  exact .ite h (.ite h.portBump.portBump h1.upd.setCtr.emit)

protected theorem Canonical.remReadGo {port r} (h : Canonical s) : Canonical (remReadGo port r s) := by
  unfold remReadGo
  split
  · exact h.portBump
  · split
    · rename_i e
      exact h.waitHeld e
    · exact .foldl (fun _ _ h => .ite h h.portSend) h

protected theorem Canonical.execRemoteReadRequest {port r} (h : Canonical s) : CanonicalRes (execRemoteReadRequest port r s) := by
  unfold execRemoteReadRequest
  exact .ite h h.portBump.remReadGo

protected theorem Canonical.remAtomicGo {port r} (h : Canonical s) : Canonical (remAtomicGo port r s) := by
  unfold remAtomicGo
  dsimp only
  split
  · exact h.upd.portSend
  · split
    · exact h.upd.portBump
    · split
      · rename_i e
        exact h.upd.waitHeld e
      · refine .ite h.upd (.portSend (.upd ?_))
        split
        · exact h.upd.homeWrite
        · exact h.upd

protected theorem Canonical.execRemoteAtomicRequest {port r} (h : Canonical s) : CanonicalRes (execRemoteAtomicRequest port r s) := by
  unfold execRemoteAtomicRequest
  exact .ite h h.portBump.remAtomicGo

protected theorem Canonical.dropRemote {tag} (h : Canonical s) : Canonical (dropRemote s tag) := by
  unfold dropRemote
  exact h.upd

protected theorem Canonical.answered {core slot op tag} (h : Canonical s) : Canonical (answered s core slot op tag) := by
  unfold answered
  exact h.updWarp.finishIfDone

protected theorem Canonical.laneAnswer {tag slot op r bs} (h : Canonical s) : Canonical (laneAnswer s tag slot op r bs) := by
  unfold laneAnswer
  dsimp only
  split
  · exact h.dropRemote
  · refine .ite h.upd (.foldl (fun _ _ h0 => ?_) ?_)
    · exact h0.answered
    · refine .foldl (fun _ _ h0 => ?_) h.upd
      split
      · exact h0.dropRemote.giveLane
      · exact h0.dropRemote

protected theorem Canonical.laneFail {slot op r} (h : Canonical s) : Canonical (laneFail s slot op r) := by
  unfold laneFail
  dsimp only
  split
  · exact h
  · refine .foldl (fun _ _ h0 => ?_) ?_
    · exact h0.answered
    · refine .foldl (fun _ _ h0 => ?_) h
      split
      · exact .ite h0.dropRemote.notePoison h0.dropRemote.emit
      · exact h0.dropRemote

protected theorem Canonical.copyBytes {id tag peer off bs} (h : Canonical s) : Canonical (copyBytes s id tag peer off bs) := by
  unfold copyBytes
  exact h.updCopy

protected theorem Canonical.fxrdWrite {c dst bs} (h : Canonical s) : Canonical (fxrdWrite s c dst bs).2 := by
  unfold fxrdWrite
  dsimp only
  refine .iteSnd h.dstAll.askAll ?_
  show Canonical _
  refine .foldl (fun _ _ h0 => ?_) h.dstAll.askAll
  split
  · exact h0.homePut.dropStale
  · exact h0.updCopy
  · exact h0

protected theorem Canonical.fxrdRelease {c off got} (h : Canonical s) : Canonical (fxrdRelease s c off got) := by
  unfold fxrdRelease
  dsimp only
  split
  · refine .foldl (fun _ _ h0 => ?_) h.dstAll
    split
    · exact .ite ((Canonical.ite h0.clearPoison h0).releaseLine) h0
    · exact h0
  · exact h

protected theorem Canonical.fxrdTake {tag id dst} (h : Canonical s) : Canonical (fxrdTake s tag id dst) := by
  unfold fxrdTake
  dsimp only
  split
  · refine .foldl (fun _ _ h0 => ?_) h
    split
    · rename_i e1
      have h1 := h0.fxrdWrite.snd e1
      refine .ite h1.upd.fxrdRelease ?_
      split
      · exact h1.upd.fxrdRelease.dropRemote.endCopy
      · exact h1.upd.fxrdRelease.dropRemote
    · rename_i e1
      exact h0.fxrdWrite.snd e1
    · exact h0
  · exact h

protected theorem Canonical.takeHeld (h : Canonical s) : Canonical (takeHeld s) := by
  unfold takeHeld
  refine .foldl (fun _ _ h0 => ?_) h
  refine .ite h0 ?_
  split
  · split
    · split
      · exact h0.fxrdTake
      · exact h0
    · exact h0
  · exact h0

protected theorem Canonical.execRemoteReadReply {p seq data} (h : Canonical s) : CanonicalRes (execRemoteReadReply p seq data s) := by
  unfold execRemoteReadReply
  dsimp only
  refine .ite h ?_
  split
  · exact h.portBump
  · refine .ite h.portBump ?_
    split
    · exact h.portBump.laneAnswer
    · split
      · exact h.portBump.dropRemote
      · split
        · exact .ite h.portBump.endCopy.dropRemote h.portBump.upd.fxrdTake
        · exact .ite h.portBump.updCopy.dropRemote.copyBytes h.portBump.updCopy.upd
    · exact h.portBump

protected theorem Canonical.repush {tag r} (h : Canonical s) : Canonical (repush s tag r) := by
  unfold repush
  dsimp only
  exact h.fresh.upd.pushFormed

protected theorem Canonical.atomLands {tag core dst low members ws} (h : Canonical s) : Canonical (atomLands s tag core dst low members ws) := by
  unfold atomLands
  exact (Canonical.foldl (fun _ _ h => h.landLane) h).moveCnt.arriveAll

protected theorem Canonical.giveUp {tag r} (h : Canonical s) : Canonical (giveUp s tag r) := by
  unfold giveUp
  extract_lets t1
  have h1 : Canonical t1 := by
    dsimp only [t1]
    split
    · exact h.laneFail
    · exact h
  split
  · exact h1.dropRemote
  · split
    · exact h1.dropRemote
    · split
      · extract_lets
        exact .ite h1.dropRemote.releaseAll.upd h1.dropRemote.releaseAll.upd.landStatus
      · extract_lets
        exact h1.dropRemote.copyBytes
  · extract_lets
    exact (Canonical.ite h1.dropRemote.atomLands.acquireL1 h1.dropRemote.atomLands).settleCore

protected theorem Canonical.reissue {tag read} (h : Canonical s) : Canonical (reissue s tag read) := by
  unfold reissue
  dsimp only
  split
  · exact h
  · exact .ite h (.ite h.upd (.ite h.repush h.giveUp))

protected theorem Canonical.execRemoteReadRetransmit {tag} (h : Canonical s) : CanonicalRes (execRemoteReadRetransmit tag s) := by
  unfold execRemoteReadRetransmit
  exact h.reissue

protected theorem Canonical.execRemoteAtomicReissue {tag} (h : Canonical s) : CanonicalRes (execRemoteAtomicReissue tag s) := by
  unfold execRemoteAtomicReissue
  exact h.reissue

protected theorem Canonical.execRemoteAtomicReply {p old} (h : Canonical s) : CanonicalRes (execRemoteAtomicReply p old s) := by
  unfold execRemoteAtomicReply
  extract_lets
  refine .ite h ?_
  split
  · exact h.portBump
  · extract_lets t1
    have h1 : Canonical t1 := by
      dsimp only [t1]
      split
      · exact h.portBump
      · exact h.portBump.dropRemote
    refine .ite h.portBump ?_
    split
    · exact h1.laneAnswer
    · exact h1
    · extract_lets
      exact (Canonical.ite h1.atomLands.acquireL1 h1.atomLands).settleCore

protected theorem Canonical.execDeliveryContextTeardown {pdc} (h : Canonical s) : CanonicalRes (execDeliveryContextTeardown pdc s) := by
  unfold execDeliveryContextTeardown
  split
  · exact h
  · exact .ite h.upd h

protected theorem Canonical.landRecord {port ring status flow pay} (h : Canonical s) : Canonical (landRecord s port ring status flow pay) := by
  unfold landRecord
  dsimp only
  exact .ite h.portWrite.portWrite ((Canonical.ite h h.freeVal.freeVal.portWrite).portWrite.upd.portWrite)

protected theorem Canonical.drainLands {l} (h : Canonical s) : Canonical (drainLands l s) := by
  induction l generalizing s with
  | nil => exact h
  | cons x l ih =>
    unfold drainLands
    exact .ite (ih h.upd) (ih h.landRecord)

protected theorem Canonical.landWaiting (h : Canonical s) : Canonical (landWaiting s) := by
  unfold landWaiting
  exact .ite h h.upd.drainLands

protected theorem Canonical.ingestGo {port bytes} (h : Canonical s) : Canonical (ingestGo port bytes s) := by
  unfold ingestGo
  dsimp only
  refine .ite h.portBump (.ite h.portBump ?_)
  refine .ite (.ite h.portBump h.upd.drainLands) (.ite h.portBump ?_)
  refine .ite h.portBump ?_
  split
  · exact .ite h.portBump h.upd.drainLands
  · exact h.bump64.portBump

protected theorem Canonical.execIngestDatagram {port bytes} (h : Canonical s) : CanonicalRes (execIngestDatagram port bytes s) := by
  unfold execIngestDatagram
  exact .ite h h.portBump.ingestGo

protected theorem Canonical.redoPort {i t} (h : Canonical s) (e : redoPort i s = some t) : Canonical t := by
  unfold redoPort at e
  split at e <;> cases e
  · exact h.fxwGo
  · exact h.flagGo
  · exact h.remReadGo
  · exact h.remAtomicGo

protected theorem Canonical.writeRing0 {r v} (h : Canonical s) : Canonical (writeRing0 s r v) := by
  unfold writeRing0
  exact .ite (.ite h h.setReg) (.ite h.setReg.setReg.upd h.setReg)

protected theorem Canonical.execIngestRingEnable {ring val} (h : Canonical s) : CanonicalRes (execIngestRingEnable ring val s) := by
  unfold execIngestRingEnable
  exact .ite h.writeRing0 h

protected theorem Canonical.execIngestRingDisable {ring val} (h : Canonical s) : CanonicalRes (execIngestRingDisable ring val s) := by
  unfold execIngestRingDisable
  exact .ite h.writeRing0 h

protected theorem Canonical.execKeyInstall {slot val} (h : Canonical s) : CanonicalRes (execKeyInstall slot val s) := by
  unfold execKeyInstall
  exact .ite h h.setReg.upd

protected theorem Canonical.execKeySlotZeroise {slot val} (h : Canonical s) : CanonicalRes (execKeySlotZeroise slot val s) := by
  unfold execKeySlotZeroise
  exact .ite h (.ite h.setReg ((Canonical.foldl (fun _ _ h => h.setReg) h.setReg).upd))

protected theorem Canonical.execPeerEnable {peer val} (h : Canonical s) : CanonicalRes (execPeerEnable peer val s) := by
  unfold execPeerEnable
  exact .ite h (.ite (.ite h h.setReg) h.setReg.upd)

protected theorem Canonical.execPortEnableWrite {port val} (h : Canonical s) : CanonicalRes (execPortEnableWrite port val s) := by
  unfold execPortEnableWrite
  exact .ite h (.ite (.ite h h.flushSends.setReg) (Canonical.ite h.setReg.upd.loadSends h.setReg.upd))

end

end Sys2Proof.Machine
end

