-- ==== Sys2Proof/Proofs/CanonicalDevice.lean ====
section
/-!
O56: launches, context operations, power management, reliability and the host keep canonical memory.
-/
namespace Sys2Proof.Machine

section
variable {s : State}

/-! ### Launches, blocks and fault reports -/

/-- Of an answer that may be a state, and the state left where there is none, both have canonical memory. -/
structure CanonicalBoth (p : Option State × State) : Prop where
  answer : ∀ t, p.1 = some t → Canonical t
  left   : Canonical p.2

protected theorem CanonicalBoth.some {t : State} (ht : Canonical t) (h : Canonical s) : CanonicalBoth (some t, s) :=
  ⟨fun _ e => by cases e; exact ht, h⟩

protected theorem CanonicalBoth.none (h : Canonical s) : CanonicalBoth (none, s) := ⟨fun _ e => (Option.some_ne_none _ e.symm).elim, h⟩

protected theorem CanonicalBoth.ite {c : Prop} {_ : Decidable c} {p q : Option State × State} (hp : CanonicalBoth p) (hq : CanonicalBoth q) :
    CanonicalBoth (if c then p else q) := by
  split
  · exact hp
  · exact hq

protected theorem CanonicalBoth.fst {p : Option State × State} {t u : State} (h : CanonicalBoth p) (e : p = (Option.some t, u)) : Canonical t :=
  h.answer t (congrArg Prod.fst e)

protected theorem CanonicalBoth.snd {p : Option State × State} {o : Option State} {u : State} (h : CanonicalBoth p) (e : p = (o, u)) : Canonical u :=
  h.left.snd e

protected theorem Canonical.engWrite {core fn secure id va bs} (h : Canonical s) : Canonical (engWrite s core fn secure id va bs).2 := by
  unfold engWrite
  extract_lets m fab
  have hfab {n r} (hr : Canonical (r : EngX × State).2) : Canonical (fab n r).2 := by
    dsimp only [fab]
    split
    · exact .iteSnd hr (.iteSnd hr hr)
    · exact hr
  split
  · rename_i e
    have hu := (hfab h.engXlate).snd e
    refine .iteSnd hu.homeStore ?_
    split
    · rename_i e1
      exact ((hfab hu.engXlate).snd e1).homeStore.homeStore
    · exact hfab hu.engXlate
  · exact hfab h.engXlate

protected theorem Canonical.signalLaunch {id} (h : Canonical s) : Canonical (signalLaunch s id) := by
  unfold signalLaunch
  dsimp only
  split
  · exact h
  · refine .ite ((Canonical.ite h h.msix).upd) ?_
    split
    · rename_i e
      exact h.engWrite.snd e
    · rename_i e
      have h0 := h.engWrite.snd e
      exact (Canonical.ite h0 h0.msix).upd

protected theorem Canonical.leaveLeaves {id} (h : Canonical s) : Canonical (leaveLeaves s id) := by
  unfold leaveLeaves
  exact h.updLaunch.dropTasks.freed.freed

protected theorem Canonical.undoClose {l} (h : Canonical s) : Canonical (undoClose s l) := by
  unfold undoClose
  dsimp only
  split
  · exact .ite (.ite h.bump.upd.recUpd.ticketFlip.recUpd h.bump.upd.recUpd) h
  · exact h

protected theorem Canonical.nextVictim {l} (h : Canonical s) : Canonical (nextVictim s l) := by
  unfold nextVictim
  split
  · exact .ite h.closeVictim h
  · exact h

protected theorem Canonical.completeLaunch {id st} (h : Canonical s) : Canonical (completeLaunch s id st) := by
  unfold completeLaunch
  split
  · exact h
  · extract_lets _ t1 t2 _ t3
    have h1 : Canonical t1 := .ite h.undoClose h
    have h2 : Canonical t2 := by
      dsimp only [t2]
      split
      · exact h1.recUpd
      · exact h1
    have h3 : Canonical t3 := .ite h2.leaveLeaves.nextVictim h2.leaveLeaves
    exact h3.updLaunch.signalLaunch

protected theorem Canonical.launchCheck {id} (h : Canonical s) : Canonical (launchCheck s id) := by
  unfold launchCheck
  split
  · exact h
  · refine .ite h (.ite (.ite h.completeLaunch h) ?_)
    split
    · exact .ite h.completeLaunch h
    · exact h

protected theorem Canonical.execWarpRetire {core slot} (h : Canonical s) : CanonicalRes (execWarpRetire core slot s) := by
  unfold execWarpRetire
  dsimp only
  refine .ite h ?_
  split
  · exact h
  · exact h.releasePart.updCore.updBlock.upd.barSettleAll

protected theorem Canonical.freeBlock {core bi} (h : Canonical s) : Canonical (freeBlock s core bi) := by
  unfold freeBlock
  exact h.updCore.upd

protected theorem Canonical.execBlockRetire {core block} (h : Canonical s) : CanonicalRes (execBlockRetire core block s) := by
  unfold execBlockRetire
  dsimp only
  refine .ite h (.ite h.releaseL1 ?_)
  show Canonical _
  refine .launchCheck ?_
  split
  · exact .ite h.releaseL1.freeBlock.recUpd.recUpd h.releaseL1.freeBlock.recUpd
  · exact h.releaseL1.freeBlock

protected theorem Canonical.dropStatuses {core mine} (h : Canonical s) : Canonical (dropStatuses s core mine) := by
  unfold dropStatuses
  exact h.upd

protected theorem Canonical.terminateBlock {core bi} (h : Canonical s) : Canonical (terminateBlock s core bi) := by
  unfold terminateBlock
  exact .foldl (fun _ _ h => h.endCopy) ((Canonical.foldl (fun _ _ h => h.updWarp) (.foldl (fun _ _ h => h.releasePart)
    h.dropTasks.dropStatuses)).updBlock.upd)

protected theorem Canonical.abortGrid {id} (h : Canonical s) : Canonical (abortGrid s id) := by
  unfold abortGrid
  dsimp only
  split
  · exact h
  · refine .ite h (.launchCheck ?_)
    refine .foldl (fun _ _ h0 => ?_) ?_
    · exact h0.terminateBlock
    · refine .leaveLeaves (.updLaunch ?_)
      split
      · exact (Canonical.ite h.ticketFlip h).recUpd
      · exact h

protected theorem Canonical.faultPolicy {core bi} (h : Canonical s) : Canonical (faultPolicy s core bi) := by
  unfold faultPolicy
  exact .ite h.abortGrid h.terminateBlock

protected theorem Canonical.writeReport {core slot l b r} (h : Canonical s) : CanonicalBoth (writeReport s core slot l b r) := by
  unfold writeReport
  dsimp only
  split
  · rename_i e
    exact .none (h.engRead.snd e)
  · rename_i e
    exact .some (h.engRead.snd e) (h.engRead.snd e)
  · rename_i e
    have h0 := h.engRead.snd e
    refine .ite ?_ ?_
    · split
      · rename_i e1
        exact .none (h0.engWrite.snd e1)
      · rename_i e1
        exact .some (h0.engWrite.snd e1) (h0.engWrite.snd e1)
    · split
      · rename_i e1
        exact .none (h0.engWrite.snd e1)
      · rename_i e1
        exact .some (h0.engWrite.snd e1) (h0.engWrite.snd e1)
      · rename_i e1
        have h1 := h0.engWrite.snd e1
        split
        · rename_i e2
          have h2 := h1.engWrite.snd e2
          exact .some (.ite h2 h2.msix) (.ite h2 h2.msix)
        · rename_i e2
          exact .none (h1.engWrite.snd e2)
        · rename_i e2
          exact .some (h1.engWrite.snd e2) (h1.engWrite.snd e2)

protected theorem Canonical.execFaultReport {core slot} (h : Canonical s) : CanonicalRes (execFaultReport core slot s) := by
  unfold execFaultReport
  split
  · exact h
  · split
    · exact h
    · extract_lets b fin
      have hfin {u} (hu : Canonical u) : Canonical (fin u) := .ite hu.updWarp.faultPolicy hu.updWarp.upd
      split
      · exact hfin h
      · refine .ite (hfin h) ?_
        split
        · rename_i e
          exact hfin (h.writeReport.fst e)
        · rename_i e
          exact h.writeReport.snd e

/-! ### The trailer -/

protected theorem Canonical.doXret {core x} (h : Canonical s) : Canonical (doXret core s x) := by
  unfold doXret
  split
  · exact h
  · refine .ite (.ite h.resolveWarp h) (.ite h.terminateBlock ?_)
    split
    · exact h.abortGrid
    · exact h.terminateBlock

protected theorem Canonical.execTrailerCommit {core slot} (h : Canonical s) : CanonicalRes (execTrailerCommit core slot s) := by
  unfold execTrailerCommit
  dsimp only
  split
  · exact h
  · split
    · exact h
    · refine .ite h ?_
      split
      · exact h.tick.upd.landWarp
      · split
        · exact h.tick.upd.landWarp.setWarp.issueFault
        · exact (Canonical.foldl (fun _ _ h => h.doXret) (.ite h.tick.upd.landWarp.setWarp.releasePart.barSettleAll
            h.tick.upd.landWarp.setWarp.releasePart)).poisonFault

protected theorem Canonical.clearGiveWay {core part} (h : Canonical s) : Canonical (clearGiveWay s core part) := by
  unfold clearGiveWay
  exact .ite h (.foldl (fun _ _ h => .ite h.updWarp h) h)

protected theorem Canonical.execRunSelect {core part} (h : Canonical s) : CanonicalRes (execRunSelect core part s) := by
  unfold execRunSelect
  split
  · exact h
  · exact h.clearGiveWay.updPart.poisonFault

protected theorem Canonical.execRendezvousFire {core block latch} (h : Canonical s) : CanonicalRes (execRendezvousFire core block latch s) := by
  unfold execRendezvousFire
  exact .ite h h.upd

/-! ### Cross-lane instructions -/

protected theorem Canonical.quad {o x src c} (h : Canonical s) : Act.Canonical (quad o x src c s) := by
  unfold quad
  exact h.typed

protected theorem Canonical.bodyShfl {x c} (h : Canonical s) : Act.Canonical (bodyShfl x c s) := by
  unfold bodyShfl
  exact h.maskx.result

protected theorem Canonical.bodyVote {x c} (h : Canonical s) : Act.Canonical (bodyVote x c s) := by
  unfold bodyVote
  exact .ite h.maskx.result h.maskx.result

protected theorem Canonical.bodyWred {x c} (h : Canonical s) : Act.Canonical (bodyWred x c s) := by
  unfold bodyWred
  exact .ite h h.maskx.result

protected theorem Canonical.bodyWscan {x c} (h : Canonical s) : Act.Canonical (bodyWscan x c s) := by
  unfold bodyWscan
  exact .ite h h.maskx.result

protected theorem Canonical.bodyMatch {x c} (h : Canonical s) : Act.Canonical (bodyMatch x c s) := by
  unfold bodyMatch
  exact h.result

protected theorem Canonical.bodyElect {x c} (h : Canonical s) : Act.Canonical (bodyElect x c s) := by
  unfold bodyElect
  exact h.maskx.result

/-! ### System instructions -/

protected theorem Canonical.bodySysrd {x c} (h : Canonical s) : Act.Canonical (bodySysrd x c s) := by
  unfold bodySysrd
  exact .ite h h.result

protected theorem Canonical.bodySyswr {x c} (h : Canonical s) : Act.Canonical (bodySyswr x c s) := by
  unfold bodySyswr
  dsimp only
  refine .ite h ?_
  split
  · exact h.addBpend
  · exact h.addBpend
  · exact h.addBpend
  · exact h.addBpend
  · exact h.addBpend
  · exact h

protected theorem Canonical.bodyRand {x c} (h : Canonical s) : Act.Canonical (bodyRand x c s) := by
  unfold bodyRand
  exact .ite h h.result

protected theorem Canonical.recordTask {p bs} (h : Canonical s) : Canonical (recordTask s p bs).2 := by
  unfold recordTask
  dsimp only
  exact .iteSnd h h.fresh.fresh.upd

protected theorem Canonical.tryPush {p} (h : Canonical s) : Canonical (tryPush s p) := by
  unfold tryPush
  dsimp only
  refine .ite (.ite h h.upd) (.ite (.ite h.releaseL1 h.releaseL1.upd) ?_)
  split
  · rename_i e
    have h0 := h.releaseL1.engRead.snd e
    exact .ite h0 h0.upd
  · rename_i e
    have h0 := h.releaseL1.engRead.snd e
    refine .ite (.ite (.iteSnd h0 h0.engXlate) ((Canonical.iteSnd h0 h0.engXlate).upd)) ?_
    split
    · split
      · rename_i e1
        exact ((Canonical.iteSnd h0 h0.engXlate).recordTask.snd e1).upd.settleEnq
      · rename_i e1
        exact ((Canonical.iteSnd h0 h0.engXlate).recordTask.snd e1).upd.startPush
    · exact (Canonical.iteSnd h0 h0.engXlate).upd.settleEnq

protected theorem Canonical.bodyEnq {x c} (h : Canonical s) : Act.Canonical (bodyEnq x c s) := by
  unfold bodyEnq
  dsimp only
  exact .ite h.fenceAll (.ite h h.moveCnt.fresh.tryPush)

protected theorem Canonical.execSubmissionPush {fn target} (h : Canonical s) : CanonicalRes (execSubmissionPush fn target s) := by
  unfold execSubmissionPush
  dsimp only
  exact .ite h (.ite h.upd.bump h.upd.fresh.tryPush)

protected theorem Canonical.execPushRetryTimer {tower task} (h : Canonical s) : CanonicalRes (execPushRetryTimer tower task s) := by
  unfold execPushRetryTimer
  dsimp only
  split
  · split
    · exact h.tryPush
    · exact h
  · split
    · exact h.upd
    · exact h.upd.startPush

protected theorem Canonical.startInval {kind fn addr who rels} (h : Canonical s) : Canonical (startInval s kind fn addr who rels) := by
  unfold startInval
  dsimp only
  exact h.fresh.upd

protected theorem Canonical.bodyTlbinv {x c} (h : Canonical s) : Act.Canonical (bodyTlbinv x c s) := by
  unfold bodyTlbinv
  exact .ite h.fenceAll h.moveCnt.startInval

protected theorem Canonical.execInvalidationComplete {id} (h : Canonical s) : CanonicalRes (execInvalidationComplete id s) := by
  unfold execInvalidationComplete
  dsimp only
  split
  · exact h
  · refine .ite h (.ite h.releaseL1 ?_)
    split
    · exact h.releaseL1.upd.moveCnt
    · exact h.releaseL1.upd.setReg

protected theorem Canonical.hvInval {kind fn addr} (h : Canonical s) : Canonical (hvInval s kind fn addr) := by
  unfold hvInval
  exact .ite h h.setReg.startInval

protected theorem Canonical.execHvInvalidateAll (h : Canonical s) : CanonicalRes (execHvInvalidateAll s) := by
  unfold execHvInvalidateAll
  exact h.hvInval

protected theorem Canonical.execHvInvalidateVf {fn} (h : Canonical s) : CanonicalRes (execHvInvalidateVf fn s) := by
  unfold execHvInvalidateVf
  exact h.hvInval

protected theorem Canonical.execHvInvalidatePage {fn va} (h : Canonical s) : CanonicalRes (execHvInvalidatePage fn va s) := by
  unfold execHvInvalidatePage
  exact h.hvInval

protected theorem Canonical.execHvInvalidateGpa {fn gpa} (h : Canonical s) : CanonicalRes (execHvInvalidateGpa fn gpa s) := by
  unfold execHvInvalidateGpa
  exact h.hvInval

protected theorem Canonical.bodyXret {x c} (h : Canonical s) : Act.Canonical (bodyXret x c s) := by
  unfold bodyXret
  exact .ite h h.updWarp

/-! ### Launches and claims -/

protected theorem Canonical.forwardLaunch {t x} (h : Canonical s) : Canonical (forwardLaunch s t x) := by
  unfold forwardLaunch
  split
  · rename_i e
    exact (h.fresh.snd e).startPush

protected theorem Canonical.fetched {id t x} (h : Canonical s) : Canonical (fetched s id t x) := by
  unfold fetched
  dsimp only
  split
  · exact h
  · exact .ite h.forwardLaunch (.ite h.setQueue.freed.forwardLaunch h)

protected theorem Canonical.fetchLaunch {id} (h : Canonical s) : Canonical (fetchLaunch s id) := by
  unfold fetchLaunch
  dsimp only
  split
  · exact h
  · refine .ite h.signalLaunch (.ite h ?_)
    split
    · exact h
    · split
      · rename_i e
        exact h.engRead.snd e
      · rename_i e
        exact (h.engRead.snd e).leaveLeaves.bump.upd
      · rename_i e
        have h0 := h.engRead.snd e
        exact .ite h0.updLaunch h0.updLaunch.upd.fetched

protected theorem Canonical.execLaunchFetch {id} (h : Canonical s) : CanonicalRes (execLaunchFetch id s) := by
  unfold execLaunchFetch
  exact h.fetchLaunch

protected theorem Canonical.execLaunchFetchRetry {id} (h : Canonical s) : CanonicalRes (execLaunchFetchRetry id s) := by
  unfold execLaunchFetchRetry
  exact h.fetchLaunch

protected theorem Canonical.readDesc {core id l} (h : Canonical s) : Canonical (readDesc s core id l).2 := by
  unfold readDesc
  dsimp only
  split
  · rename_i e
    exact h.engRead.snd e
  · rename_i e
    exact h.engRead.snd e
  · rename_i e
    have h0 := h.engRead.snd e
    refine .iteSnd h0 ?_
    split
    all_goals
      rename_i e1
      exact h0.engRead.snd e1

protected theorem Canonical.openLaunch {t id x} (h : Canonical s) : Canonical (openLaunch s t id x) := by
  unfold openLaunch
  dsimp only
  split
  · exact h.upd.setQueue.popJob.updLaunch
  · exact .ite ((Canonical.ite h.upd.setQueue.popJob.updLaunch.recUpd.ticketFlip h.upd.setQueue.popJob.updLaunch.recUpd).recUpd)
      h.upd.setQueue.popJob.updLaunch.recUpd

protected theorem Canonical.execLaunchOpen {tower} (h : Canonical s) : CanonicalRes (execLaunchOpen tower s) := by
  unfold execLaunchOpen
  dsimp only
  split
  · exact h
  · split
    · exact h
    · refine .ite h.openLaunch ?_
      split
      · rename_i e
        exact h.readDesc.snd e
      · rename_i e
        have h0 := h.readDesc.snd e
        exact .ite h0.updLaunch.completeLaunch h0.updLaunch.openLaunch

protected theorem Canonical.initLays {l id core n at' b} (h : Canonical s) : Canonical (initLays l id core n at' b s).2 := by
  induction n generalizing at' b s with
  | zero => exact h
  | succ n ih =>
    unfold initLays
    dsimp only
    refine .iteSnd (ih h) ?_
    split
    · rename_i e
      exact ih (h.engRead.snd e)
    · rename_i e
      exact h.engRead.snd e
    · rename_i e
      exact ih (h.engRead.snd e)

protected theorem Canonical.placeBlock {core base bi slots b threads entry} (h : Canonical s) :
    Canonical (placeBlock s core base bi slots b threads entry) := by
  unfold placeBlock
  exact (Canonical.foldl (fun _ _ h => h.setWarp) h.setBlock).upd

protected theorem Canonical.agentRead {core id} (h : Canonical s) : Canonical (agentRead s core id) := by
  unfold agentRead
  split
  · exact h
  · split
    · rename_i e
      exact h.readDesc.snd e
    · rename_i e
      have h0 := h.readDesc.snd e
      exact .ite h0.completeLaunch h0.updCore

protected theorem Canonical.claimFrom {core ids} (h : Canonical s) : Canonical (claimFrom s core ids) := by
  unfold claimFrom
  dsimp only
  split
  · exact h
  · exact h.agentRead
  · split
    · exact h
    · exact h.recUpd.updCore

protected theorem Canonical.execAgentClaim {core} (h : Canonical s) : CanonicalRes (execAgentClaim core s) := by
  unfold execAgentClaim
  exact .ite h h.claimFrom.upd

protected theorem Canonical.execClaimReturn {core} (h : Canonical s) : CanonicalRes (execClaimReturn core s) := by
  unfold execClaimReturn
  dsimp only
  split
  · exact h
  · refine .ite ((Canonical.ite h.recUpd.updCore.upd.claimFrom h.recUpd.updCore.upd).launchCheck) ?_
    split
    · exact h.updCore.upd
    · refine .ite h.updCore.upd.launchCheck (.ite h ?_)
      split
      · rename_i e
        exact h.initLays.snd e
      · rename_i e
        exact (h.initLays.snd e).updCore.upd.placeBlock

/-! ### Staging -/

protected theorem Canonical.updTask {t k id f} (h : Canonical s) : Canonical (updTask s t k id f) := by
  unfold updTask
  exact .ite h.setQueue h.setQueue.updCore

protected theorem Canonical.markStaged {t k id} (h : Canonical s) : Canonical (markStaged s t k id) := by
  unfold markStaged
  exact h.updTask

protected theorem Canonical.xlatePages {x t kind fuel va n} (h : Canonical s) : Canonical (xlatePages x t kind fuel va n s).2 := by
  induction fuel generalizing va n s with
  | zero => exact h
  | succ fuel ih =>
    unfold xlatePages
    dsimp only
    split
    · rename_i e
      have hu := h.engXlate.snd e
      exact .iteSnd hu (.iteSnd hu (ih hu))
    · exact h.engXlate

protected theorem Canonical.pullLines {a pa n} (h : Canonical s) : Canonical (pullLines s a pa n) := by
  unfold pullLines
  exact .ite h (.foldl (fun _ _ h => h.l2Use) h)

protected theorem Canonical.stagePull {x t fuel va n} (h : Canonical s) : Canonical (stagePull x t fuel va n s).2 := by
  induction fuel generalizing va n s with
  | zero => exact h
  | succ fuel ih =>
    unfold stagePull
    dsimp only
    split
    · rename_i e
      exact h.engXlate.snd e
    · rename_i e
      exact h.engXlate.snd e
    · rename_i e
      have hu := h.engXlate.snd e
      exact .iteSnd hu.pullLines (ih hu.pullLines)

protected theorem Canonical.stageCopy {x t fuel src dst n} (h : Canonical s) : Canonical (stageCopy x t fuel src dst n s).2 := by
  induction fuel generalizing src dst n s with
  | zero => exact h
  | succ fuel ih =>
    unfold stageCopy
    dsimp only
    split
    · rename_i e
      have hu := h.engRead.snd e
      split
      · rename_i e1
        have hv := hu.engWrite.snd e1
        exact .iteSnd hv (ih hv)
      · exact hu.engWrite
    · rename_i e
      exact h.engRead.snd e

protected theorem Canonical.stageEntry {t x e} (h : Canonical s) : Canonical (stageEntry s t x e).2 := by
  unfold stageEntry
  generalize 258 = m
  generalize 515 = n
  extract_lets f
  refine .iteSnd ?_ ?_
  · split
    all_goals
      rename_i e1
      exact h.stagePull.snd e1
  · split
    · rename_i e1
      exact h.xlatePages.snd e1
    · rename_i e1
      exact h.xlatePages.snd e1
    · rename_i e1
      have h1 := h.xlatePages.snd e1
      split
      · rename_i e2
        exact h1.xlatePages.snd e2
      · rename_i e2
        exact h1.xlatePages.snd e2
      · rename_i e2
        have h2 := h1.xlatePages.snd e2
        split
        all_goals
          rename_i e3
          exact h2.stageCopy.snd e3

protected theorem Canonical.stageLaunch {t x id} (h : Canonical s) : Canonical (stageLaunch s t x id) := by
  unfold stageLaunch
  split
  · exact h
  · refine .ite h (.ite h.markStaged ?_)
    split
    · split
      · rename_i e
        exact h.engRead.snd e
      · rename_i e
        exact (h.engRead.snd e).completeLaunch
      · rename_i e
        exact (h.engRead.snd e).updTask
    · split
      · rename_i e
        exact h.stageEntry.snd e
      · rename_i e
        exact (h.stageEntry.snd e).completeLaunch
      · rename_i e
        exact (h.stageEntry.snd e).updTask

protected theorem Canonical.hintAt {c id va n} (h : Canonical s) : Canonical (hintAt c id va n s).2 := by
  unfold hintAt
  split
  · rename_i e
    exact h.engXlateK.snd e
  · rename_i e
    exact h.engXlateK.snd e
  · rename_i e
    dsimp only
    exact (h.engXlateK.snd e).pullLines

protected theorem Canonical.hintElem {c id e} (h : Canonical s) : Canonical (hintElem c id e s).2 := by
  unfold hintElem
  dsimp only
  split
  · exact .iteSnd h h.hintAt
  · exact .iteSnd h h.hintAt
  · refine .iteSnd (.iteSnd h (.iteSnd h h.hintAt)) ?_
    split
    · rename_i e
      have h0 := h.hintAt.snd e
      exact .iteSnd h0 (.iteSnd h0 h0.hintAt)
    · rename_i e
      exact h.hintAt.snd e
  · exact h

protected theorem Canonical.hintAll {c id l} (h : Canonical s) : Canonical (hintAll c id l s).2 := by
  induction l generalizing s with
  | nil => exact h
  | cons x r ih =>
    unfold hintAll
    split
    · rename_i e
      exact ih (h.hintElem.snd e)
    · rename_i e
      exact h.hintElem.snd e

protected theorem Canonical.stageSeg {t k x copy lo hi} (h : Canonical s) : Canonical (stageSeg s t k x copy lo hi) := by
  unfold stageSeg
  split
  · exact h.markStaged
  · split
    · rename_i e
      exact (h.hintAll.snd e).dropFailed.markStaged
    · rename_i e
      exact h.hintAll.snd e

protected theorem Canonical.execStagingEntryDone {tower leaf task} (h : Canonical s) : CanonicalRes (execStagingEntryDone tower leaf task s) := by
  unfold execStagingEntryDone
  split
  · exact h
  · extract_lets t1
    have h1 : Canonical t1 := .ite h h.act
    refine .ite h ?_
    split
    · exact h1.stageLaunch
    · split
      · exact h1.stageWload
      · exact h1.markStaged
    · exact h1.stageSeg
    · exact h1

/-! ### Context operations -/

protected theorem Canonical.moveRefs {m} (h : Canonical s) : Canonical (Move.refs m s) := by
  unfold Move.refs
  exact h.upd

protected theorem Canonical.moveBlock {m b} (h : Canonical s) : Canonical (Move.block m s b) := by
  unfold Move.block
  exact (Canonical.foldl (fun _ _ h => h.setWarp) (.foldl (fun _ _ h => h.updCore) h.moveRefs)).updCore.updCore.setBlock

protected theorem Canonical.beginSave {core bi op} (h : Canonical s) : Canonical (beginSave s core bi op) := by
  unfold beginSave
  dsimp only
  refine .upd (.devWrite ?_)
  refine .foldl (fun _ _ h0 => ?_) ?_
  · exact h0.stopWarp
  · refine .updCore (.updBlock ?_)
    refine .dropTasks ?_
    split
    · exact h.moveCnt
    · exact h

protected theorem Canonical.areaCheck {c va go} (h : Canonical s) (hgo : ∀ pa, (go pa).Canonical) : Act.Canonical (areaCheck c s va go) := by
  unfold areaCheck
  refine .ite h (.ite h ?_)
  split
  · exact h.startWalk
  · exact h
  · exact hgo _

protected theorem Canonical.bodyCtxsave {x c} (h : Canonical s) : Act.Canonical (bodyCtxsave x c s) := by
  refine h.areaCheck fun pa => ?_
  dsimp only
  split
  · exact h.devWrite
  · exact .ite h.addrFault (.ite h h.beginSave)

protected theorem Canonical.imageBytes {l} (h : Canonical s) : Canonical (imageBytes l s).2 := by
  induction l generalizing s with
  | nil => exact h
  | cons x r ih =>
    obtain ⟨n, _ | bs⟩ := x
    · exact ih h.upd
    · exact ih h

protected theorem Canonical.areaReady {op core kind n k} (h : Canonical s) : Canonical (areaReady op core kind n k s).2 := by
  induction n generalizing k s with
  | zero => exact h
  | succ n ih =>
    unfold areaReady
    split
    · rename_i e
      exact h.engXlate.snd e
    · rename_i e
      have hu := h.engXlate.snd e
      exact .iteSnd hu (ih hu)
    · rename_i e
      exact ih (h.engXlate.snd e)

protected theorem Canonical.writeImage {op core n k bs} (h : Canonical s) : Canonical (writeImage op core n k bs s) := by
  induction n generalizing k bs s with
  | zero => exact h
  | succ n ih => exact ih h.engWrite

protected theorem Canonical.readImage {op core n k old} (h : Canonical s) : Canonical (readImage op core n k old s).2 := by
  induction n generalizing k old s with
  | zero => exact h
  | succ n ih => exact ih h.engRead

protected theorem Canonical.endCtxOp {core op counted} (h : Canonical s) : Canonical (endCtxOp s core op counted) := by
  unfold endCtxOp
  extract_lets _ _ t1
  have h1 : Canonical t1 := .ite h.updCore.upd.recUpd h.updCore.upd
  split
  · exact h.updCore.upd.moveCnt
  · exact .ite h1 h1.setReg

protected theorem Canonical.execCtxsaveDone {core} (h : Canonical s) : CanonicalRes (execCtxsaveDone core s) := by
  unfold execCtxsaveDone
  dsimp only
  split
  · exact h
  · exact .ite h.devWrite.endCtxOp (.ite h.areaReady.releaseL1 ((Canonical.foldl (fun _ _ h => h.releasePart) ((Canonical.foldl (fun _ _ h =>
      h.updWarp) (.foldl (fun _ _ h => h.applyBWr)
      h.areaReady.releaseL1.dropTasks.updBlock)).fresh.devWrite.imageBytes.writeImage.setCore)).moveBlock.devWrite.endCtxOp.act))

protected theorem Canonical.bodyCtxload {x c} (h : Canonical s) : Act.Canonical (bodyCtxload x c s) := by
  refine h.areaCheck fun pa => ?_
  dsimp only
  split
  · exact h.devWrite
  · exact .ite h.addrFault (.ite h.devWrite h.moveCnt.upd.updCore)

protected theorem Canonical.fetchWeights {core b l} (h : Canonical s) : Canonical (fetchWeights core b l s).2 := by
  induction l generalizing s with
  | nil => exact h
  | cons x r ih =>
    unfold fetchWeights
    split
    · rename_i e
      exact h.engRead.snd e
    · rename_i e
      exact h.engRead.snd e
    · rename_i e
      split
      · exact h.engRead.snd e
      · exact ih (h.engRead.snd e).wbufWrite

protected theorem Canonical.loadImage {k img} (h : Canonical s) : Canonical (loadImage s k img) := by
  unfold loadImage
  dsimp only
  split
  · exact .foldl (fun _ _ h => h.updMslot) ((Canonical.foldl (fun _ _ h => h.updWarp) (.foldl (fun _ _ h => h.updWarp) h)).setBlock)
  · exact h

protected theorem Canonical.retranslate {core b id kind l} (h : Canonical s) : Canonical (retranslate core b id kind l s).2 := by
  induction l generalizing s with
  | nil => exact h
  | cons x r ih =>
    unfold retranslate
    split
    · rename_i e
      exact h.engXlate.snd e
    · rename_i e
      exact h.engXlate.snd e
    · rename_i e
      have hr := ih (h.engXlate.snd e)
      split
      · rename_i e1
        exact hr.snd e1
      · exact hr

protected theorem Canonical.replayLoads {k core b l} (h : Canonical s) : Canonical (replayLoads k core b l s).2 := by
  induction l generalizing s with
  | nil => exact h
  | cons x r ih =>
    unfold replayLoads
    split
    · rename_i e
      exact h.retranslate.snd e
    · rename_i e
      exact h.retranslate.snd e
    · rename_i e
      have hr := ih (h.retranslate.snd e)
      split
      · rename_i e1
        exact (hr.snd e1).putOp
      · exact hr

protected theorem Canonical.keepSaved {k old} (h : Canonical s) : Canonical (keepSaved s k old) := by
  unfold keepSaved
  exact .foldl (fun _ _ h => .foldl (fun _ _ h => h.completeOp) h) h.setCore

protected theorem Canonical.restoreBlock {core base pa b} (h : Canonical s) : Canonical (restoreBlock s core base pa b) := by
  unfold restoreBlock
  dsimp only
  refine .foldl (fun _ _ h0 => ?_) ?_
  · exact h0.endCopy
  · refine .upd (.foldl (fun _ _ h0 => ?_) (.foldl (fun _ _ h => .ite h.upd h.setQueue) h.moveBlock.acquireL1.keepSaved.updBlock))
    split
    · exact .ite h0.resolveWarp h0
    · exact h0

protected theorem Canonical.moveLoad {core c op} (h : Canonical s) : Canonical (moveLoad s core c op) := by
  unfold moveLoad
  exact h.updCore.upd.updCore

protected theorem Canonical.execCtxloadDone {core} (h : Canonical s) : CanonicalRes (execCtxloadDone core s) := by
  unfold execCtxloadDone
  dsimp only
  split
  · exact h
  · refine .ite h ?_
    split
    · exact h.devWrite.endCtxOp
    · split
      · split
        · exact h.moveLoad
        · exact h.devWrite.endCtxOp
      · split
        · rename_i e
          exact h.areaReady.snd e
        · rename_i e
          have h0 := h.areaReady.snd e
          split
          · rename_i e1
            exact h0.fetchWeights.snd e1
          · rename_i e1
            have h1 := h0.fetchWeights.snd e1
            split
            · rename_i e2
              exact h1.replayLoads.snd e2
            · rename_i e2
              have h2 := h1.replayLoads.snd e2
              exact (Canonical.ite h2.readImage.loadImage.restoreBlock h2.readImage.loadImage.restoreBlock.terminateBlock).devWrite.endCtxOp.act

protected theorem Canonical.closeFn {p} (h : Canonical s) : Canonical (closeFn s p) := by
  unfold closeFn
  exact .foldl (fun _ _ h => .ite h.closeLaunch.closeLaunch h) h

protected theorem Canonical.readList (h : Canonical s) : Canonical (readList s).2 := by
  unfold readList
  dsimp only
  split
  · rename_i e
    exact h.engRead.snd e
  · rename_i e
    exact h.engRead.snd e
  · rename_i e
    have h0 := h.engRead.snd e
    split
    · rename_i e1
      exact h0.engXlate.snd e1
    · rename_i e1
      exact h0.engXlate.snd e1
    · rename_i e1
      split
      all_goals
        rename_i e2
        exact (h0.engXlate.snd e1).engRead.snd e2

protected theorem Canonical.areaPas {l} (h : Canonical s) : Canonical (areaPas l s).2 := by
  induction l generalizing s with
  | nil => exact h
  | cons x r ih =>
    unfold areaPas
    split
    · rename_i e
      exact h.engXlate.snd e
    · rename_i e
      have hr := ih (h.engXlate.snd e)
      split
      all_goals
        rename_i e1
        exact hr.snd e1

protected theorem Canonical.ctxState {n} (h : Canonical s) : Canonical (ctxState s n) := by
  unfold ctxState
  exact h.setReg.upd

protected theorem Canonical.saveAll {fn} (h : Canonical s) : Canonical (saveAll s fn) := by
  unfold saveAll
  extract_lets
  split
  · rename_i e
    exact h.readList.snd e
  · rename_i e
    exact (h.readList.snd e).ctxState
  · rename_i e
    have h0 := h.readList.snd e
    split
    · rename_i e1
      exact h0.areaPas.snd e1
    · rename_i e1
      extract_lets _ _ _ t3
      have h3 : Canonical t3 := by
        dsimp only [t3]
        refine .foldl (fun _ _ h3 => ?_) (h0.areaPas.snd e1).upd.recUpd
        split
        · exact h3.beginSave
        · exact h3
      exact .ite h3.upd h3.ctxState

protected theorem Canonical.execCtxSwitchSave {val} (h : Canonical s) : CanonicalRes (execCtxSwitchSave val s) := by
  unfold execCtxSwitchSave
  exact .ite (.ite h h.saveAll) (.ite h h.setReg.upd.closeFn.upd)

protected theorem Canonical.areaPa {va} (h : Canonical s) : Canonical (areaPa s va).2 := by
  unfold areaPa
  split
  · rename_i e
    exact h.areaPas.snd e
  · rename_i e
    exact h.areaPas.snd e
  · rename_i e
    split
    all_goals
      rename_i e1
      exact (h.areaPas.snd e).areaPas.snd e1

protected theorem Canonical.execCtxSwitchRestore {val} (h : Canonical s) : CanonicalRes (execCtxSwitchRestore val s) := by
  unfold execCtxSwitchRestore
  dsimp only
  refine .ite ?_ (.ite h h.setReg.upd)
  refine .ite h ?_
  split
  · rename_i e
    exact h.readList.snd e
  · rename_i e
    exact (h.readList.snd e).ctxState
  · rename_i e
    have h0 := h.readList.snd e
    refine .ite h0.ctxState.upd ?_
    split
    · rename_i e1
      have h1 := h0.areaPa.snd e1
      refine .ite h1.recUpd (.ite h1.recUpd.devWrite ?_)
      split
      · exact h1.recUpd.devWrite
      · exact h1.recUpd.updCore.upd
    · rename_i e1
      exact h0.areaPa.snd e1
    · rename_i e1
      exact (h0.areaPa.snd e1).recUpd

/-! ### Partition changes, heat and power -/

protected theorem Canonical.extendBy {id v body} (h : Canonical s) : Canonical (extendBy s id v body) := by
  unfold extendBy
  exact h.upd

protected theorem Canonical.extend {id img} (h : Canonical s) : Canonical (extend s id img) := by
  unfold extend
  exact h.extendBy

protected theorem Canonical.setPart {st err} (h : Canonical s) : Canonical (setPart s st err) := by
  unfold setPart
  exact h.setReg.upd

protected theorem Canonical.execPartitionChangeGo {val} (h : Canonical s) : CanonicalRes (execPartitionChangeGo val s) := by
  unfold execPartitionChangeGo
  exact .ite h.setReg (.ite h (.ite h.setReg.setPart (.ite h.setReg.setPart h.setReg.setPart.closeFn.upd)))

protected theorem Canonical.execPartitionQuiesceDone (h : Canonical s) : CanonicalRes (execPartitionQuiesceDone s) := by
  unfold execPartitionQuiesceDone
  exact .ite h.setPart h

protected theorem Canonical.execPartitionDrainTimeout (h : Canonical s) : CanonicalRes (execPartitionDrainTimeout s) := by
  unfold execPartitionDrainTimeout
  exact .ite h.setPart h

protected theorem Canonical.evacuate {base size to'} (h : Canonical s) : Canonical (evacuate s base size to') := ⟨wf_evacuate base size to' h.wf⟩

protected theorem Canonical.execPartitionFlushDone (h : Canonical s) : CanonicalRes (execPartitionFlushDone s) := by
  unfold execPartitionFlushDone
  exact .ite h ((Canonical.foldl (fun _ _ h => .ite h ((Canonical.foldl (fun _ _ h => h.l2Drop) h).evacuate)) ((Canonical.foldl (fun _ _ h =>
    h.l1WriteBack) h).upd)).setPart)

protected theorem Canonical.gateCore {c} (h : Canonical s) : Canonical (gateCore s c) := by
  unfold gateCore
  exact h.disableLeaf.disableLeaf.upd

protected theorem Canonical.powerCore {c} (h : Canonical s) : Canonical (powerCore s c) := by
  unfold powerCore
  exact (Canonical.foldl (fun _ _ h => h.setReg) (.foldl (fun _ _ h => h.setReg) (.foldl (fun _ _ h => h.setReg) (.foldl (fun _ _ h => h.setReg)
    h)))).upd

protected theorem Canonical.remap {t tgt} (h : Canonical s) : Canonical (remap s t tgt) := by
  unfold remap
  exact (Canonical.foldl (fun _ _ h => .ite (.foldl (fun _ _ h => h.gateCore) h) (.ite (.foldl (fun _ _ h => h.powerCore) h) h)) h).setReg

protected theorem Canonical.replaceLoads {l} (h : Canonical s) : Canonical (replaceLoads s l) := by
  unfold replaceLoads
  refine .foldl (fun _ _ h0 => ?_) h
  split
  · exact h0.updCore
  · exact h0.devWrite

protected theorem Canonical.execPartitionReenumerateDone (h : Canonical s) : CanonicalRes (execPartitionReenumerateDone s) := by
  unfold execPartitionReenumerateDone
  exact .ite h ((Canonical.ite (.foldl (fun _ _ h => h.remap) h.upd) ((Canonical.foldl (fun _ _ h => h.remap) h.upd).extendBy)).setPart.replaceLoads)

protected theorem Canonical.setTrip {bit on} (h : Canonical s) : Canonical (setTrip s bit on) := by
  unfold setTrip
  exact h.setReg

protected theorem Canonical.execHeartbeatWrite {val} (h : Canonical s) : CanonicalRes (execHeartbeatWrite val s) := by
  unfold execHeartbeatWrite
  exact h.setReg.setTrip.upd

protected theorem Canonical.execWatchdogExpire (h : Canonical s) : CanonicalRes (execWatchdogExpire s) := by
  unfold execWatchdogExpire
  exact .ite h (Canonical.foldl (fun _ _ h => h.updCore) h.setTrip)

protected theorem Canonical.execThermalTrip {die} (h : Canonical s) : CanonicalRes (execThermalTrip die s) := by
  unfold execThermalTrip
  exact .ite h h.setReg.setTrip

protected theorem Canonical.senseTemp {die v} (h : Canonical s) : Canonical (senseTemp s die v) := by
  unfold senseTemp
  exact .ite ((Canonical.ite h.setReg.setTrip h.setReg).emit.upd) (.ite h.setReg.setTrip h.setReg)

protected theorem Canonical.execThermalTripClear {tower} (h : Canonical s) : CanonicalRes (execThermalTripClear tower s) := by
  unfold execThermalTripClear
  exact .ite h.setTrip h

protected theorem Canonical.execThermalPowerOff {die} (h : Canonical s) : CanonicalRes (execThermalPowerOff die s) := by
  unfold execThermalPowerOff
  exact .ite h h.setReg.emit.upd

protected theorem Canonical.execCurrentLimitRaise {cores} (h : Canonical s) : CanonicalRes (execCurrentLimitRaise cores s) := by
  unfold execCurrentLimitRaise
  exact Canonical.foldl (fun _ _ h => h.updCore) (.ite h h.upd)

protected theorem Canonical.execCurrentLimitRelease (h : Canonical s) : CanonicalRes (execCurrentLimitRelease s) := by
  unfold execCurrentLimitRelease
  exact (Canonical.foldl (fun _ _ h => h.updCore) h).upd

protected theorem Canonical.bookAcct {a} (h : Canonical s) : Canonical (bookAcct s a) := by
  unfold bookAcct
  exact h.bump64.upd

protected theorem Canonical.execEnergyBooking {ballast} (h : Canonical s) : CanonicalRes (execEnergyBooking ballast s) := by
  unfold execEnergyBooking
  exact (Canonical.foldl (fun _ _ h => h.bookAcct) h.act.act).upd

protected theorem Canonical.setOpState {c st} (h : Canonical s) : Canonical (setOpState s c st) := by
  unfold setOpState
  exact h.setReg

protected theorem Canonical.denyOp {c} (h : Canonical s) : Canonical (denyOp s c) := by
  unfold denyOp
  exact h.setReg.msix

protected theorem Canonical.execOperatingPointRequest {cluster val} (h : Canonical s) :
    CanonicalRes (execOperatingPointRequest cluster val s) := by
  unfold execOperatingPointRequest
  exact .ite h (.ite h.denyOp.setOpState (.ite h.setReg.denyOp.setOpState h.setReg.updCluster.setOpState))

protected theorem Canonical.opDone {c} (h : Canonical s) : Canonical (opDone s c) := by
  unfold opDone
  exact h.setReg.updCluster.setOpState.upd

protected theorem Canonical.execVoltageRampDone {cluster} (h : Canonical s) : CanonicalRes (execVoltageRampDone cluster s) := by
  unfold execVoltageRampDone
  exact .ite h.updCluster (.ite h.opDone h)

protected theorem Canonical.execClockRelockDone {tower index} (h : Canonical s) : CanonicalRes (execClockRelockDone tower index s) := by
  unfold execClockRelockDone
  extract_lets _ _ _ _ _ _ _ t1
  have h1 : Canonical t1 := by
    dsimp only [t1]
    refine .foldl (fun _ _ h1 => ?_) h.bump.updCluster
    split
    · exact h1.setCore
    · exact h1
  exact .ite h (Canonical.ite h1.opDone h1.upd)

/-! ### Reliability and reset -/

protected theorem Canonical.scrubNext {line again} (h : Canonical s) : Canonical (scrubNext s line again) := by
  unfold scrubNext
  exact .ite ((Canonical.ite h.upd.upd h.upd).bump64.upd) (.ite h.upd.upd h.upd)

protected theorem Canonical.execScrubRead {addr kind} (h : Canonical s) : CanonicalRes (execScrubRead addr kind s) := by
  unfold execScrubRead
  refine .ite h ?_
  dsimp only
  refine Canonical.scrubNext ?_
  split
  · exact h.act
  · refine .ite h.act ?_
    split
    · exact h.act.bump64
    · exact h.act.bump64
    · exact h.act.bump64
  · exact h.act.markPoison

protected theorem Canonical.execInfieldTestSelect (h : Canonical s) : CanonicalRes (execInfieldTestSelect s) := by
  unfold execInfieldTestSelect
  refine .ite h ?_
  split
  · exact h
  · exact h.upd

protected theorem Canonical.execInfieldTestRun (h : Canonical s) : CanonicalRes (execInfieldTestRun s) := by
  unfold execInfieldTestRun
  split
  · exact .ite h.upd.bump64.act h
  · exact h

protected theorem Canonical.fenceCore {c} (h : Canonical s) : Canonical (fenceCore s c) := by
  unfold fenceCore
  exact h.setReg.disableLeaf.disableLeaf

protected theorem Canonical.execInfieldTestEnd {signature} (h : Canonical s) : CanonicalRes (execInfieldTestEnd signature s) := by
  unfold execInfieldTestEnd
  dsimp only
  split
  · exact .ite h.upd h.upd.bump64.fenceCore
  · exact h

protected theorem Canonical.setFw {st reason} (h : Canonical s) : Canonical (setFw s st reason) := by
  unfold setFw
  exact h.setReg.upd

protected theorem Canonical.setFwBit {i on} (h : Canonical s) : Canonical (setFwBit s i on) := by
  unfold setFwBit
  exact h.setReg

protected theorem Canonical.fwWrite {val} (h : Canonical s) : Canonical (fwWrite s val) := by
  unfold fwWrite
  exact .ite h.setReg (.ite h h.setReg.setReg.upd)

protected theorem Canonical.execFwStage {val} (h : Canonical s) : CanonicalRes (execFwStage val s) := by
  unfold execFwStage
  exact h.fwWrite

protected theorem Canonical.execFwActivatePower {val} (h : Canonical s) : CanonicalRes (execFwActivatePower val s) := by
  unfold execFwActivatePower
  exact h.fwWrite

protected theorem Canonical.execFwRaiseMinimum {val} (h : Canonical s) : CanonicalRes (execFwRaiseMinimum val s) := by
  unfold execFwRaiseMinimum
  exact h.fwWrite

protected theorem Canonical.fwStage {k} (h : Canonical s) : Canonical (fwStage s k) := by
  unfold fwStage
  exact .ite h.setFw (.ite h.setFw (.ite h.setFw (.ite h.setFw h.upd.setFwBit.setFw)))

protected theorem Canonical.fwActivate {k} (h : Canonical s) : Canonical (fwActivate s k) := by
  unfold fwActivate
  exact .ite h.setFw h.setFwBit.setFwBit.upd.extend.setFw

protected theorem Canonical.fwRaise {k} (h : Canonical s) : Canonical (fwRaise s k) := by
  unfold fwRaise
  exact .ite h.setFw h.upd.setFw

protected theorem Canonical.execFwActionComplete (h : Canonical s) : CanonicalRes (execFwActionComplete s) := by
  unfold execFwActionComplete
  split
  · exact h
  · exact .ite h.setFw (.ite h.fwStage (.ite h.fwActivate h.fwRaise))

protected theorem Canonical.applyThermal {img t} (h : Canonical s) : Canonical (applyThermal s img t) := by
  unfold applyThermal
  exact .ite h.setReg.setReg h

protected theorem Canonical.applyPartition {img} (h : Canonical s) : Canonical (applyPartition s img) := by
  unfold applyPartition
  exact .foldl (fun _ _ h => h.setReg) (.foldl (fun _ _ h => .ite h.setReg h) h.applyThermal.applyThermal)

protected theorem Canonical.bootKind {k} (h : Canonical s) : Canonical (bootKind s k) := by
  unfold bootKind
  extract_lets _ _ _ t1
  have h1 : Canonical t1 := .ite h (.ite h.setFwBit.setFwBit h.setFwBit.setReg.upd)
  exact .ite h (.ite h.upd (.ite h1.upd (.ite h1.extend.applyPartition h1.extend)))

protected theorem Canonical.resetKeep (h : Canonical s) : Canonical (resetKeep s) := ⟨wf_resetKeep h.wf⟩

protected theorem Canonical.execDeviceReset (h : Canonical s) : CanonicalRes (execDeviceReset s) := by
  unfold execDeviceReset
  exact Canonical.foldl (fun _ _ h => h.bootKind) h.resetKeep

protected theorem Canonical.execQuoteRequest {val} (h : Canonical s) : CanonicalRes (execQuoteRequest val s) := by
  unfold execQuoteRequest
  exact .ite h h.setReg.upd

protected theorem Canonical.execQuoteComplete (h : Canonical s) : CanonicalRes (execQuoteComplete s) := by
  unfold execQuoteComplete
  dsimp only
  refine .ite h ?_
  split
  · rename_i e
    exact h.engWrite.snd e
  · rename_i e
    exact (h.engWrite.snd e).setReg.upd

/-! ### The host -/

protected theorem Canonical.maskWrite {off m v} (h : Canonical s) : Canonical (maskWrite s off m v) := by
  unfold maskWrite
  exact h.setReg

protected theorem Canonical.ofRes {r} (h : Canonical s) (hr : CanonicalRes r) : Canonical (ofRes s r) := by
  cases r with
  | next t => exact hr
  | fault => exact h
  | refused => exact h

protected theorem Canonical.writeTree {t o v} (h : Canonical s) : Canonical (writeTree s t o v) := by
  unfold writeTree
  dsimp only
  refine .ite h.writeDesc (.ite h.writeDesc ?_)
  refine .ite ?_ ?_
  · split
    · exact h.treeErr
    · exact h.setReg
  · refine .ite (.ite h.treeErr h.setReg) (.ite (.ite h.treeErr h.setReg) ?_)
    refine .ite ?_ (.ite (.ite h.setReg h) h)
    split
    · exact h.treeErr
    · exact h.setReg

protected theorem Canonical.writeFabric {src t o v} (h : Canonical s) : Canonical (writeFabric s src t o v) := by
  unfold writeFabric
  exact .ite (.ite (h.ofRes h.execPortEnableWrite) (.ite h h.maskWrite)) (.ite (.ite h.setReg h) (.ite (.ite h h.setReg) (.ite (.ite h.writeCtr0
    (.ite h.maskWrite h)) (.ite (.ite h.maskWrite (.ite h.maskWrite h)) (.ite (.ite h.writeRing0 (.ite h h.maskWrite)) (.ite (.ite (.ite h.setReg
    ((Canonical.foldl (fun _ _ h => h.setReg) h.setReg).upd)) (.ite h (.ite h.setReg (.ite h.setReg.upd (.ite (h.ofRes h.execKeySlotZeroise) h)))))
    (.ite (.ite (h.ofRes h.execPeerEnable) (.ite h h.setReg)) (.ite h.setReg h))))))))

protected theorem Canonical.writeTranslation {src off v} (h : Canonical s) : Canonical (writeTranslation s src off v) := by
  unfold writeTranslation
  dsimp only
  refine .ite ?_ (.ite h.setReg (.ite h.hvInval (.ite (.ite h.maskWrite h) (.ite (.ite h.maskWrite h) (.ite h.setReg (.ite h.setReg
    (.ite h.setReg (.ite (h.ofRes h.execQuoteRequest) h))))))))
  refine .ite h ?_
  split
  · exact h.setReg.upd
  · exact h.ofRes h.execTranslationConsumerWrite
  · exact h.setReg
  · exact .ite h h.maskWrite

protected theorem Canonical.writePower {src off v} (h : Canonical s) : Canonical (writePower s src off v) := by
  unfold writePower
  exact .ite (h.ofRes h.execPartitionChangeGo) (.ite h.setReg (.ite h.setReg (.ite h.setReg (.ite (.ite h.applyThermal h) (.ite (.ite h.setReg h)
    (.ite (.ite (h.ofRes h.execHeartbeatWrite) h) (.ite (h.ofRes h.execOperatingPointRequest) h)))))))

protected theorem Canonical.writeReliability {src off v} (h : Canonical s) : Canonical (writeReliability s src off v) := by
  unfold writeReliability
  exact .ite h.setReg (.ite (.ite h.senseTemp h) (.ite h.fwWrite (.ite h.setReg (.ite h.setReg (.ite h.setReg (.ite (h.ofRes h.execAshapeHostWrite)
    h))))))

protected theorem Canonical.writeWindow {fn o v} (h : Canonical s) : Canonical (writeWindow s fn o v) := by
  unfold writeWindow
  exact .ite h.setReg (.ite (h.ofRes h.execSubmissionPush) h)

protected theorem Canonical.writeCtxsw {off v} (h : Canonical s) : Canonical (writeCtxsw s off v) := by
  unfold writeCtxsw
  exact .ite h.setReg (.ite h.setReg (.ite (.ite (h.ofRes h.execCtxSwitchSave) (.ite (h.ofRes h.execCtxSwitchRestore) h)) h))

protected theorem Canonical.writeBar0 {src off v} (h : Canonical s) : Canonical (writeBar0 s src off v) := by
  unfold writeBar0
  exact .ite h (.ite h.writeWindow (.ite h.writeCtxsw (.ite h.writeFabric (.ite h.writeTranslation (.ite h.writePower (.ite h.writeReliability (.ite
    h.writeTree h)))))))

protected theorem Canonical.hostXlate {fn gpa kind} (h : Canonical s) : Canonical (hostXlate s fn gpa kind).2 := by
  unfold hostXlate
  dsimp only
  split
  · exact .iteSnd h.upd h
  · refine .iteSnd h ?_
    split
    · exact h
    · dsimp only
      exact h.fresh.upd.pageRequest
    · refine .iteSnd h ?_
      split
      · dsimp only
        exact h.setBits
      · exact h

protected theorem Canonical.hostRead {fn fuel off n} (h : Canonical s) : Canonical (hostRead fn fuel off n s).2 := by
  induction fuel generalizing off n s with
  | zero => exact h
  | succ fuel ih =>
    unfold hostRead
    extract_lets m rest
    have hrest {u bs} (hu : Canonical u) : Canonical (rest u bs).2 := by
      dsimp only [rest]
      refine .iteSnd hu ?_
      split
      · rename_i e
        exact (ih hu).snd e
      · exact ih hu
    split
    · rename_i e
      exact h.hostXlate.snd e
    · rename_i e
      exact .iteSnd (hrest (h.hostXlate.snd e)) (h.hostXlate.snd e)
    · rename_i e
      have hu := h.hostXlate.snd e
      exact .iteSnd hu (.iteSnd hu (hrest hu))

protected theorem Canonical.hostPages {fn fuel off n} (h : Canonical s) : Canonical (hostPages fn fuel off n s).2 := by
  induction fuel generalizing off n s with
  | zero => exact h
  | succ fuel ih =>
    unfold hostPages
    extract_lets m rest
    have hrest {u p} (hu : Canonical u) : Canonical (rest u p).2 := by
      dsimp only [rest]
      refine .iteSnd hu ?_
      split
      · rename_i e
        exact (ih hu).snd e
      · exact ih hu
    split
    · rename_i e
      exact h.hostXlate.snd e
    · rename_i e
      exact .iteSnd (hrest (h.hostXlate.snd e)) (h.hostXlate.snd e)
    · rename_i e
      have hu := h.hostXlate.snd e
      exact .iteSnd hu (hrest hu)

protected theorem Canonical.hostStore {l bs} (h : Canonical s) : Canonical (hostStore s l bs) := by
  induction l generalizing s bs with
  | nil => exact h
  | cons x l ih =>
    obtain ⟨m, _ | p⟩ := x
    · exact ih h
    · exact ih h.homeStore

protected theorem Canonical.registerWrite {fn off val} (h : Canonical s) : Canonical (registerWrite s fn off val) := by
  unfold registerWrite
  exact .ite (.ite h.writeWindow h) h.writeBar0

protected theorem Canonical.hostDo {i} (h : Canonical s) : CanonicalBoth (hostDo s i) := by
  unfold hostDo
  split
  · refine .ite (.some h h) ?_
    split
    · rename_i e
      exact .none (h.hostRead.snd e)
    · rename_i e
      exact .some (h.hostRead.snd e).emit (h.hostRead.snd e)
    · rename_i e
      exact .some (h.hostRead.snd e).emit (h.hostRead.snd e)
  · refine .ite (.some h h) ?_
    split
    · rename_i e
      exact .none (h.hostPages.snd e)
    · rename_i e
      exact .some (h.hostPages.snd e).emit (h.hostPages.snd e)
    · rename_i e
      exact .some (h.hostPages.snd e).hostStore.upd (h.hostPages.snd e)
  · exact .some h.registerWrite h
  · exact .some h.pageReply h
  · exact .some h h

protected theorem Canonical.hostArrive {fn off i} (h : Canonical s) : Canonical (hostArrive s fn off i) := by
  unfold hostArrive
  refine .ite h (.ite h.emit (.ite h.upd ?_))
  split
  · rename_i e
    exact h.hostDo.fst e
  · rename_i e
    exact (h.hostDo.snd e).upd

protected theorem Canonical.hostResume {i} (h : Canonical s) : Canonical (hostResume s i) := by
  unfold hostResume
  extract_lets off gone bar2
  have hgone {u} (hu : Canonical u) : Canonical (gone u) := hu.upd
  refine .ite (hgone h).emit ?_
  split
  · rename_i e
    exact hgone (h.hostDo.fst e)
  · rename_i e
    exact h.hostDo.snd e

protected theorem Canonical.execHostApertureRead {fn off len} (h : Canonical s) : CanonicalRes (execHostApertureRead fn off len s) := by
  unfold execHostApertureRead
  exact h.hostArrive

protected theorem Canonical.execHostApertureWrite {fn off bytes} (h : Canonical s) : CanonicalRes (execHostApertureWrite fn off bytes s) := by
  unfold execHostApertureWrite
  exact h.hostArrive

protected theorem Canonical.execRegisterWrite {fn off val} (h : Canonical s) : CanonicalRes (execRegisterWrite fn off val s) := by
  unfold execRegisterWrite
  exact .ite h.upd h.registerWrite

protected theorem Canonical.execPageReply {val} (h : Canonical s) : CanonicalRes (execPageReply val s) := by
  unfold execPageReply
  exact .ite h.upd h.pageReply

protected theorem Canonical.hostReadReg {fn off} (h : Canonical s) : Canonical (hostReadReg s fn off) := by
  unfold hostReadReg
  exact (Canonical.ite h.upd h).emit

protected theorem Canonical.hostWrites {a bs} (h : Canonical s) : Canonical (hostWrites s a bs) := by
  unfold hostWrites
  exact .ite h.writeBytes.hostPut h

protected theorem Canonical.applyInput {x} (h : Canonical s) : Canonical (applyInput s x) := by
  unfold applyInput
  dsimp only
  split
  · exact .ite h.resolveWarp h
  · exact .ite h.terminateBlock h
  · exact h.updWarp
  · exact .ite h h.updBlock
  · exact .ite h h.updMslot
  · exact .ite h h.updBlock
  · exact h.markPoison
  · exact .ite h h.updMslot
  · exact .ite h.l1Del.markPoison h
  · exact .ite h.updCore (.ite h.updCore h.updCluster)
  · exact h.upd
  · exact h.hostWrites
  · exact h.hostReadReg
  · exact .ite h.bump64 h
  · exact .ite h.upd h

end

end Sys2Proof.Machine
end

