-- ==== Sys2Proof/Proofs/MemoryStaysCanonical.lean ====
section
/-!
O56: every instruction and event keeps canonical memory, and so does every step.
-/
namespace Sys2Proof.Machine

section
variable {s : State}

/-! ### Every instruction and event -/

protected theorem Canonical.exec {i} (h : Canonical s) : CanonicalRes (exec i s) := by
  cases i with
  | nop _ => exact h.issue fun _ _ h => h.bodyNop
  | runend _ => exact h.issue fun _ _ h => h.bodyRunend
  | trailerCommit _ _ => exact h.execTrailerCommit
  | runSelect _ _ => exact h.execRunSelect
  | rendezvousFire _ _ _ => exact h.execRendezvousFire
  | bra _ => exact h.issue fun _ _ h => h.bodyBra
  | brx _ => exact h.issue fun _ _ h => h.bodyBrx
  | call _ => exact h.issue fun _ _ h => h.bodyCall
  | ret _ => exact h.issue fun _ _ h => h.bodyRet
  | exit _ => exact h.issue fun _ _ h => h.bodyExit
  | loop _ => exact h.issue fun _ _ h => h.bodyLoop
  | lbrk _ => exact h.issue fun _ _ h => h.bodyLbrk
  | wait _ => exact h.issue fun _ _ h => h.bodyWait
  | pause _ => exact h.issue fun _ _ h => h.bodyPause
  | trap _ => exact h.issue fun _ _ h => h.bodyTrap
  | bkpt _ => exact h.issue fun _ _ h => h.bodyBkpt
  | iadd _ => exact h.issue fun _ _ h => h.typed2
  | isub _ => exact h.issue fun _ _ h => h.typed2
  | imul _ => exact h.issue fun _ _ h => h.typed2
  | imulh _ => exact h.issue fun _ _ h => h.typed2
  | imad _ => exact h.issue fun _ _ h => h.typed
  | idiv _ => exact h.issue fun _ _ h => h.typed2
  | irem _ => exact h.issue fun _ _ h => h.typed2
  | imin _ => exact h.issue fun _ _ h => h.typed2
  | imax _ => exact h.issue fun _ _ h => h.typed2
  | iabs _ => exact h.issue fun _ _ h => h.typed1
  | ineg _ => exact h.issue fun _ _ h => h.typed1
  | iaddc _ => exact h.issue fun _ _ h => h.bodyIaddc
  | icmp _ => exact h.issue fun _ _ h => h.bodyIcmp
  | sel _ => exact h.issue fun _ _ h => h.bodySel
  | mov _ => exact h.issue fun _ _ h => h.bodyMov
  | lea _ => exact h.issue fun _ _ h => h.bodyLea
  | and _ => exact h.issue fun _ _ h => h.bits2
  | or _ => exact h.issue fun _ _ h => h.bits2
  | xor _ => exact h.issue fun _ _ h => h.bits2
  | not _ => exact h.issue fun _ _ h => h.typed1
  | andn _ => exact h.issue fun _ _ h => h.bits2
  | shl _ => exact h.issue fun _ _ h => h.shift
  | shr _ => exact h.issue fun _ _ h => h.shift
  | sar _ => exact h.issue fun _ _ h => h.shift
  | rot _ => exact h.issue fun _ _ h => h.shift
  | fshf _ => exact h.issue fun _ _ h => h.plain
  | bfx _ => exact h.issue fun _ _ h => h.typed
  | bfi _ => exact h.issue fun _ _ h => h.typed
  | clz _ => exact h.issue fun _ _ h => h.count
  | ffs _ => exact h.issue fun _ _ h => h.count
  | popc _ => exact h.issue fun _ _ h => h.count
  | brev _ => exact h.issue fun _ _ h => h.typed
  | prmt _ => exact h.issue fun _ _ h => h.plain
  | pset _ => exact h.issue fun _ _ h => h.bodyPset
  | p2v _ => exact h.issue fun _ _ h => h.plain
  | v2p _ => exact h.issue fun _ _ h => h.bodyV2p
  | idot4 _ => exact h.issue fun _ _ h => h.typed
  | ipack _ => exact h.issue fun _ _ h => h.plain
  | fadd _ => exact h.issue fun _ _ h => h.fp
  | fsub _ => exact h.issue fun _ _ h => h.fp
  | fmul _ => exact h.issue fun _ _ h => h.fp
  | ffma _ => exact h.issue fun _ _ h => h.fp
  | fmin _ => exact h.issue fun _ _ h => h.fp
  | fmax _ => exact h.issue fun _ _ h => h.fp
  | fcmp _ => exact h.issue fun _ _ h => h.bodyFcmp
  | fclass _ => exact h.issue fun _ _ h => h.fp
  | frcp _ => exact h.issue fun _ _ h => h.sfu
  | frsq _ => exact h.issue fun _ _ h => h.sfu
  | fsqrt _ => exact h.issue fun _ _ h => h.sfu
  | fdiv _ => exact h.issue fun _ _ h => h.sfu
  | fexp2 _ => exact h.issue fun _ _ h => h.sfu
  | flog2 _ => exact h.issue fun _ _ h => h.sfu
  | fsinp _ => exact h.issue fun _ _ h => h.sfu
  | fcosp _ => exact h.issue fun _ _ h => h.sfu
  | ftanh _ => exact h.issue fun _ _ h => h.sfu
  | fscale _ => exact h.issue fun _ _ h => h.bodyFscale
  | frnd _ => exact h.issue fun _ _ h => h.fp
  | f2i _ => exact h.issue fun _ _ h => h.bodyF2i
  | i2f _ => exact h.issue fun _ _ h => h.bodyI2f
  | f2f _ => exact h.issue fun _ _ h => h.bodyF2f
  | f2n _ => exact h.issue fun _ _ h => h.bodyF2n
  | n2f _ => exact h.issue fun _ _ h => h.bodyN2f
  | fmaxi _ => exact h.issue fun _ _ h => h.bodyFmaxi
  | fdot2 _ => exact h.issue fun _ _ h => h.bodyFdot2
  | qswap _ => exact h.issue fun _ _ h => h.quad
  | qbcast _ => exact h.issue fun _ _ h => h.quad
  | shfl _ => exact h.issue fun _ _ h => h.bodyShfl
  | vote _ => exact h.issue fun _ _ h => h.bodyVote
  | wred _ => exact h.issue fun _ _ h => h.bodyWred
  | wscan _ => exact h.issue fun _ _ h => h.bodyWscan
  | matchLanes _ => exact h.issue fun _ _ h => h.bodyMatch
  | elect _ => exact h.issue fun _ _ h => h.bodyElect
  | bar _ => exact h.issue fun _ _ h => h.bodyBar
  | regqImm _ => exact h.issue fun _ _ h => h.regq
  | regqScalar _ => exact h.issue fun _ _ h => h.regq
  | ld _ => exact h.issue fun _ _ h => h.bodyLd
  | st _ => exact h.issue fun _ _ h => h.bodySt
  | lds _ => exact h.issue fun _ _ h => h.bodyLds
  | sts _ => exact h.issue fun _ _ h => h.bodySts
  | ldk _ => exact h.issue fun _ _ h => h.bodyLdk
  | atom _ => exact h.issue fun _ _ h => h.bodyAtom
  | atoms _ => exact h.issue fun _ _ h => h.bodyAtom
  | bankop _ => exact h.issue fun _ _ h => h.bodyBankop
  | fence _ => exact h.issue fun _ _ h => h.fenceAll
  | pref _ => exact h.issue fun _ _ h => h.bodyPref
  | cctl _ => exact h.issue fun _ _ h => h.bodyCctl
  | cpy _ => exact h.issue fun _ _ h => h.bodyCpy
  | tcpy _ => exact h.issue fun _ _ h => h.bodyTcpy
  | layset _ => exact h.issue fun _ _ h => h.bodyLayset
  | rfillGet _ => exact h.issue fun _ _ h => h.ringClaim
  | rfill _ => exact h.issue fun _ _ h => h.ringHand
  | rtake _ => exact h.issue fun _ _ h => h.ringClaim
  | rtakeBack _ => exact h.issue fun _ _ h => h.ringHand
  | rinit _ => exact h.issue fun _ _ h => h.bodyRinit
  | ringadv _ => exact h.issue fun _ _ h => h.bodyRingadv
  | fxw _ => exact h.issue fun _ _ h => h.bodyFxw
  | fxflag _ => exact h.issue fun _ _ h => h.bodyFxflag
  | fxrd _ => exact h.issue fun _ _ h => h.bodyFxrd
  | fxatom _ => exact h.issue fun _ _ h => h.bodyFxatom
  | acwait _ => exact h.issue fun _ _ h => h.bodyAcwait
  | acread _ => exact h.issue fun _ _ h => h.bodyAcread
  | mxrsv _ => exact h.issue fun _ _ h => h.bodyMxrsv
  | mxrel _ => exact h.issue fun _ _ h => h.bodyMxrel
  | wload _ => exact h.issue fun _ _ h => h.bodyWload
  | mxmul _ => exact h.issue fun _ _ h => h.bodyMxmul
  | mxdrain _ => exact h.issue fun _ _ h => h.bodyMxdrain
  | atbl _ => exact h.issue fun _ _ h => h.bodyAtbl
  | nfset _ => exact h.issue fun _ _ h => h.bodyNfset
  | mxstat _ => exact h.issue fun _ _ h => h.bodyMxstat
  | enq _ => exact h.issue fun _ _ h => h.bodyEnq
  | rand _ => exact h.issue fun _ _ h => h.bodyRand
  | sysrd _ => exact h.issue fun _ _ h => h.bodySysrd
  | syswr _ => exact h.issue fun _ _ h => h.bodySyswr
  | tlbinv _ => exact h.issue fun _ _ h => h.bodyTlbinv
  | xret _ => exact h.issue fun _ _ h => h.bodyXret
  | ctxsave _ => exact h.issue fun _ _ h => h.bodyCtxsave
  | ctxload _ => exact h.issue fun _ _ h => h.bodyCtxload
  | resultLand _ _ _ _ => exact h.execResultLand
  | storePerform _ _ _ _ => exact h.execStorePerform
  | walk _ => exact h.execWalk
  | faultReport _ _ => exact h.execFaultReport
  | warpRetire _ _ => exact h.execWarpRetire
  | blockRetire _ _ => exact h.execBlockRetire
  | tileTaskStart _ => exact h.execTileTaskStart
  | tileTaskRetire _ _ => exact h.execTileTaskRetire
  | copySegmentStart _ => exact h.execCopySegmentStart
  | copySegmentBoundary _ _ => exact h.execCopySegmentBoundary
  | copySegmentRetire _ _ => exact h.execCopySegmentRetire
  | stagingEntryDone _ _ _ => exact h.execStagingEntryDone
  | acwaitComplete _ => exact h.execAcwaitComplete
  | egressPacketSend _ => exact h.execEgressPacketSend
  | fxwPacketArrive _ _ => exact h.execFxwPacketArrive
  | flagArrive _ _ => exact h.execFlagArrive
  | pendingFlagTimer _ => exact h.execPendingFlagTimer
  | shortfallArrive _ _ => exact h.execShortfallArrive
  | failureNoticeArrive _ _ => exact h.execFailureNoticeArrive
  | flagAckArrive _ _ => exact h.execFlagAckArrive
  | flagResendTimer _ => exact h.execFlagResendTimer
  | remoteReadRequest _ _ => exact h.execRemoteReadRequest
  | remoteReadReply _ _ _ => exact h.execRemoteReadReply
  | remoteReadRetransmit _ => exact h.execRemoteReadRetransmit
  | remoteAtomicRequest _ _ => exact h.execRemoteAtomicRequest
  | remoteAtomicReply _ _ => exact h.execRemoteAtomicReply
  | remoteAtomicReissue _ => exact h.execRemoteAtomicReissue
  | deliveryContextTeardown _ => exact h.execDeliveryContextTeardown
  | ingestDatagram _ _ => exact h.execIngestDatagram
  | submissionPush _ _ => exact h.execSubmissionPush
  | nodeOffer _ _ => exact h.execNodeOffer
  | pushRetryTimer _ _ => exact h.execPushRetryTimer
  | launchFetch _ => exact h.execLaunchFetch
  | launchFetchRetry _ => exact h.execLaunchFetchRetry
  | launchOpen _ => exact h.execLaunchOpen
  | agentClaim _ => exact h.execAgentClaim
  | claimReturn _ => exact h.execClaimReturn
  | ctxsaveDone _ => exact h.execCtxsaveDone
  | ctxloadDone _ => exact h.execCtxloadDone
  | ctxSwitchSave _ => exact h.execCtxSwitchSave
  | ctxSwitchRestore _ => exact h.execCtxSwitchRestore
  | invalidationComplete _ => exact h.execInvalidationComplete
  | hvInvalidateAll => exact h.execHvInvalidateAll
  | hvInvalidateVf _ => exact h.execHvInvalidateVf
  | hvInvalidatePage _ _ => exact h.execHvInvalidatePage
  | hvInvalidateGpa _ _ => exact h.execHvInvalidateGpa
  | pageReply _ => exact h.execPageReply
  | quoteRequest _ => exact h.execQuoteRequest
  | quoteComplete => exact h.execQuoteComplete
  | ashapeHostWrite _ _ => exact h.execAshapeHostWrite
  | cadenceWrite _ _ => exact h.execCadenceWrite
  | nodeEnable _ _ _ => exact h.execNodeEnable
  | leafEnable _ _ _ => exact h.execLeafEnable
  | counterEnable _ _ => exact h.execCounterEnable
  | counterDisable _ _ => exact h.execCounterDisable
  | ingestRingEnable _ _ => exact h.execIngestRingEnable
  | ingestRingDisable _ _ => exact h.execIngestRingDisable
  | keyInstall _ _ => exact h.execKeyInstall
  | keySlotZeroise _ _ => exact h.execKeySlotZeroise
  | peerEnable _ _ => exact h.execPeerEnable
  | portEnableWrite _ _ => exact h.execPortEnableWrite
  | hostApertureRead _ _ _ => exact h.execHostApertureRead
  | hostApertureWrite _ _ _ => exact h.execHostApertureWrite
  | partitionChangeGo _ => exact h.execPartitionChangeGo
  | partitionQuiesceDone => exact h.execPartitionQuiesceDone
  | partitionDrainTimeout => exact h.execPartitionDrainTimeout
  | partitionFlushDone => exact h.execPartitionFlushDone
  | partitionReenumerateDone => exact h.execPartitionReenumerateDone
  | heartbeatWrite _ => exact h.execHeartbeatWrite
  | watchdogExpire => exact h.execWatchdogExpire
  | thermalTrip _ => exact h.execThermalTrip
  | thermalTripClear _ => exact h.execThermalTripClear
  | thermalPowerOff _ => exact h.execThermalPowerOff
  | currentLimitRaise _ => exact h.execCurrentLimitRaise
  | currentLimitRelease => exact h.execCurrentLimitRelease
  | energyBooking _ => exact h.execEnergyBooking
  | operatingPointRequest _ _ => exact h.execOperatingPointRequest
  | voltageRampDone _ => exact h.execVoltageRampDone
  | clockRelockDone _ _ => exact h.execClockRelockDone
  | scrubRead _ _ => exact h.execScrubRead
  | infieldTestSelect => exact h.execInfieldTestSelect
  | infieldTestRun => exact h.execInfieldTestRun
  | infieldTestEnd _ => exact h.execInfieldTestEnd
  | fwStage _ => exact h.execFwStage
  | fwActivatePower _ => exact h.execFwActivatePower
  | fwRaiseMinimum _ => exact h.execFwRaiseMinimum
  | fwActionComplete => exact h.execFwActionComplete
  | deviceReset => exact h.execDeviceReset
  | registerWrite _ _ _ => exact h.execRegisterWrite
  | rankLdt _ _ => exact h.execRankLdt
  | rankLdn _ _ => exact h.execRankLdn
  | rankLdf _ _ _ => exact h.execRankLdf
  | rankStn _ _ => exact h.execRankStn
  | rankStf _ _ _ => exact h.execRankStf
  | rankAdd _ _ _ => exact h.execRankAdd
  | rankAddi _ _ _ => exact h.execRankAddi
  | rankSub _ _ _ => exact h.execRankSub
  | rankMul _ _ _ => exact h.execRankMul
  | rankShl _ _ _ => exact h.execRankShl
  | rankShr _ _ _ => exact h.execRankShr
  | rankMin _ _ _ _ => exact h.execRankMin
  | rankMax _ _ _ _ => exact h.execRankMax
  | rankAnd _ _ _ => exact h.execRankAnd
  | rankOr _ _ _ => exact h.execRankOr
  | rankCmplt _ _ _ _ => exact h.execRankCmplt
  | rankSel _ _ _ _ => exact h.execRankSel
  | rankNow _ _ => exact h.execRankNow
  | rankEmit _ => exact h.execRankEmit
  | rankRefuse _ => exact h.execRankRefuse
  | translationConsumerWrite _ _ => exact h.execTranslationConsumerWrite

/-! ### What happens next -/

protected theorem Canonical.landBlocks (h : Canonical s) : Canonical (landBlocks s) := by
  unfold landBlocks
  exact .foldl (fun _ _ h => .ite h (.foldl (fun _ _ h => h.landBlock) h)) h

protected theorem Canonical.landAll (h : Canonical s) : Canonical (landAll s) := by
  unfold landAll
  exact (Canonical.ite h.landBlocks.stopHalted.upd h.landBlocks).askKnown.takeHeld.landWaiting

protected theorem Canonical.countIssue {core slot t} (h : Canonical t) : Canonical (countIssue core slot t) := by
  unfold countIssue
  split
  · exact .ite h.act h
  · exact h

protected theorem CanonicalRes.counted {core slot r} (h : CanonicalRes r) : CanonicalRes (counted core slot r) := by
  cases r with
  | next t => exact Canonical.countIssue h
  | fault => exact h
  | refused => exact h

protected theorem Canonical.runInstr {i} (h : Canonical s) : CanonicalRes (runInstr i s) := by
  have hr := h.exec (i := i)
  unfold runInstr
  split
  · rename_i e
    split
    · exact (hr.next e).exec.counted
    · exact hr.next e
  · exact hr

protected theorem Canonical.issueAt {core slot} (h : Canonical s) : CanonicalRes (issueAt s core slot) := by
  have hf := h.fetchIssue (core := core) (slot := slot)
  unfold issueAt
  split
  · rename_i e
    rw [e] at hf
    exact (Canonical.upd hf).exec.counted
  · rename_i e
    rw [e] at hf
    exact hf

protected theorem Canonical.firstWaits {core sl t} (h : Canonical s) (e : firstWaits s core sl = some t) : Canonical t := by
  unfold firstWaits at e
  split at e
  · cases e
  · split at e
    · rename_i u e1
      split at e
      · cases e
        exact h.updPart.issueAt.next e1
      · cases e
    · cases e

protected theorem Canonical.selectAt {core p} (h : Canonical s) : CanonicalRes (selectAt s core p) := by
  unfold selectAt
  dsimp only
  split
  · exact h.upd
  · exact h.exec

protected theorem Canonical.presentAt {core sl} (h : Canonical s) : CanonicalRes (presentAt s core sl) :=
  Canonical.getD (fun _ => h.upd.firstWaits) h.upd

protected theorem Canonical.runCand {c} (h : Canonical s) : CanonicalRes (runCand s c) := by
  unfold runCand
  dsimp only
  refine .ite h.tick.landAll.upd ?_
  split
  · exact h.tick.landAll.upd.presentAt
  · exact h.tick.landAll.upd.issueAt
  · exact h.tick.landAll.upd.selectAt
  · exact h.tick.landAll.upd.runInstr

protected theorem Canonical.advance (h : Canonical s) : CanonicalRes (advance s) := by
  unfold advance
  split
  · exact .ite h.tick h.runCand
  · exact h.runCand
  · exact h.tick
  · exact h.tick

protected theorem Canonical.ownStep (h : Canonical s) : CanonicalRes (ownStep s) := by
  unfold ownStep
  refine .ite h.advance ?_
  split
  · exact h.runInstr
  · split
    · exact h.hostResume
    · exact h.advance

protected theorem Canonical.redoStep {line i} (h : Canonical s) : CanonicalRes (redoStep s line i) := by
  have hr := h.exec (i := i)
  unfold redoStep
  split
  · rename_i e
    exact (h.redoPort e).grantLine
  · split
    · rename_i e
      exact (hr.next e).grantLine
    · exact hr

protected theorem Canonical.deviceStep (h : Canonical s) : CanonicalRes (deviceStep s) := by
  unfold deviceStep
  dsimp only
  split
  · exact h.upd.redoStep
  · split
    · exact .ite h.upd.applyInput.upd h.ownStep
    · exact h.ownStep

protected theorem Canonical.arrivalStep {t i l} (h : Canonical s) : CanonicalRes (arrivalStep s t i l) := by
  unfold arrivalStep
  dsimp only
  split
  · exact h.runInstr
  · exact h.upd.runInstr

protected theorem Canonical.rankStep {j} (h : Canonical s) : CanonicalRes (rankStep s j) := by
  unfold rankStep
  split
  · exact h.exec
  · exact h.jobRunaway

/-! ### One step -/

protected theorem Canonical.step (h : Canonical s) : CanonicalRes (step s) := by
  unfold step
  refine .ite h ?_
  dsimp only
  split
  · exact h.landAll.rankStep
  · split
    · exact .ite h.landAll.arrivalStep h.landAll.deviceStep
    · exact h.landAll.deviceStep

end

/-- Settles O56: an operation writes memory by bytes (`State.setByte`), moves what a partition change evacuates, or filters it at a reset;
each of the three keeps the canonical form, and a step is composed of such operations. -/
theorem memoryStaysCanonical : Obligations.MemoryStaysCanonical := by
  unfold Obligations.MemoryStaysCanonical
  intro s t h e
  exact ((Canonical.mk h).step.next e).wf

end Sys2Proof.Machine
end


-- ==== Sys2Proof/Proofs/StoresPerformRefuted.lean ====
section
/-!
# The bank clause of StoresPerform fails

An operation to bank memory that is ordered before the copy owning its line does not wait for that copy: it goes home, and
takes with it what its core has written back to the line (`flushLine`, 05 R110). Those bytes change memory outside the
operation's own. The clause for a store that stays in the L1 asks that no copy owns the line; the bank clause does not.
-/

namespace Sys2Proof.Machine

/-- Address 0 of a tower's bank memory. -/
def bankAddr : Nat := 0x40000000000

/-- An add of 1 to a word of bank memory, by lane 0. -/
def bankAdd : LaneAcc := { lane := 0, addr := bankAddr, attr := {}, a := [1], b := [] }

/-- The operation that holds it, number 1 of its core. -/
def bankOp : MemOp :=
  { op0 (.bank 0) with
    id := 1, space := .glob, ty := .i32, accs := [bankAdd], members := [(0, laneBit 0)], opens := [0], isLoad := false }

/-- A copy whose release orders the operations of warp 0 with a number below 2 before it. -/
def laterCopy : CopyOp :=
  { id := 7, core := 0, block := 0, kind := .cpy 1 false false [], dst := 0, members := [], rels := [(0, 2)], bytes := 0, segMax := 0, iaddr := 0
    task := { id := 0, kind := 0, cls := 0, tenant := 0, flow := 0, length := 0, deadline := 0, user0 := 0, user1 := 0, origin := 0, fn := 0
              body := .seg 7 0 0 } }

/-- A line written back with byte 4 dirty, of value 255. -/
def writtenBack : Line := { valid := bit128 4, dirty := bit128 4, data := 0xFF00000000, prio := 0, used := 0 }

/-- The warp that issued the operation and waits for nothing else. -/
def bankWarp : Warp := { block := 0, num := 0, role := .plain, agent := false, pc := 0, path := 1, ops := [bankOp] }

/-- The copy owns the line of the word, and a write-back of core 0 waits for it there. -/
def ownedLine : State :=
  { cores := [(0, { warps := [(0, bankWarp)] })], copies := [laterCopy]
    owners := [(lineOf bankAddr, { copy := some 7, queue := [], waiters := [.write 0 writtenBack] })] }

theorem lastAccess_ownedLine : LastAccess ownedLine 0 0 bankWarp bankOp bankAdd where
  core_ok := by decide
  warp := by decide
  op := by decide
  accs := rfl
  alone := rfl
  remote := rfl
  plain := by decide
  free := by decide
  lane := by decide
  members := rfl
  counts := by decide
  calm := by decide

/-- The operation on bytes 0 to 3 goes before the copy, and byte 4 of its line becomes what the core had written back. -/
theorem exec_ownedLine_writes_waiting :
    (match exec (.storePerform 0 0 1 (laneBit 0)) ownedLine with
     | .next t => some (t.byte (bankAddr + 4))
     | _ => none) = some 255 := by decide +kernel

/-- Refutes O17: its bank clause has no premise that no write-back of the core waits at the operation's line. In `ownedLine` an
add to the first word of a line of bank memory is ordered before the copy that owns the line, so the core's write-back that
waits there goes home with it, and byte 4 of the line, outside the operation, changes from 0 to 255. -/
theorem not_storesPerform : ¬ Obligations.StoresPerform := by
  unfold Obligations.StoresPerform
  intro h
  obtain ⟨-, -, -, hbank⟩ := h ownedLine 0 0 bankWarp bankOp bankAdd lastAccess_ownedLine rfl rfl
  obtain ⟨t, ⟨ht, -⟩, -, houtside, -⟩ := hbank 0 rfl rfl (by decide) (by decide)
  have hkept : t.byte (bankAddr + 4) = ownedLine.byte (bankAddr + 4) := houtside _ (.inr (by decide))
  have hwritten := exec_ownedLine_writes_waiting
  rw [show exec (.storePerform 0 0 1 (laneBit 0)) ownedLine = .next t from ht] at hwritten
  exact absurd ((congrArg some hkept).symm.trans hwritten) (by decide)

end Sys2Proof.Machine
end

