-- ==== Sys2Proof/Proofs/PortFrames.lean ====
section
/-!
# What a port's packets leave unchanged

A packet that arrives, and one that is sent, move one of the port's counters (27 R457). No counter is a word that the maps of
physical memory, the secure regions or the inbound windows are read from, so the bytes a request names are the same before
and after the count. What the device writes at an address changes memory and the copies of it alone.
-/
namespace Sys2Proof.Machine

/-! ### A BAR0 word after another is written -/

theorem State.reg_setReg_ne (s : State) {a b : Nat} (v : Word) (h : b ≠ a) : (s.setReg a v).reg b = s.reg b := by
  unfold State.reg State.setReg smGetD smSetD
  split
  · rw [smGet?_smDel_ne _ h]
  · rw [smGet?_smPut_ne _ _ h]

theorem reg_portBump_ne (s : State) {port off o : Nat} (hlo : o ≠ portCtr port off) (hhi : o ≠ portCtr port off + 4) :
    (portBump s port off).reg o = s.reg o := by
  unfold portBump State.bump64 State.setReg64
  rw [State.reg_setReg_ne _ _ hhi, State.reg_setReg_ne _ _ hlo]

/-! What writing a word of BAR0 keeps, a count keeps, and so does sending a packet, where the packet's own record keeps it. -/

theorem portBump_keeps {α : Type} {f : State → α} (hreg : ∀ s o v, f (State.setReg s o v) = f s) (s : State) (port off : Nat) :
    f (portBump s port off) = f s := by
  unfold portBump State.bump64 State.setReg64
  rw [hreg, hreg]

@[simp] theorem portBump_cfg (s : State) (port off : Nat) : (portBump s port off).cfg = s.cfg := portBump_keeps State.setReg_cfg s port off
@[simp] theorem portBump_now (s : State) (port off : Nat) : (portBump s port off).now = s.now := portBump_keeps State.setReg_now s port off
@[simp] theorem portBump_mem (s : State) (port off : Nat) : (portBump s port off).mem = s.mem := portBump_keeps State.setReg_mem s port off
@[simp] theorem portBump_poison (s : State) (port off : Nat) : (portBump s port off).poison = s.poison := portBump_keeps State.setReg_poison s port off
@[simp] theorem portBump_owners (s : State) (port off : Nat) : (portBump s port off).owners = s.owners := portBump_keeps State.setReg_owners s port off
@[simp] theorem portBump_cores (s : State) (port off : Nat) : (portBump s port off).cores = s.cores := portBump_keeps State.setReg_cores s port off
@[simp] theorem portBump_out (s : State) (port off : Nat) : (portBump s port off).out = s.out := portBump_keeps State.setReg_out s port off
@[simp] theorem portBump_replyCache (s : State) (port off : Nat) : (portBump s port off).replyCache = s.replyCache :=
  portBump_keeps State.setReg_replyCache s port off

theorem sentFrame_keeps {α : Type} {f : State → α} (hreg : ∀ s o v, f (State.setReg s o v) = f s)
    (hpdcs : ∀ (s : State) x, f { s with pdcs := x } = f s) (s : State) (port peer : Nat) : f (sentFrame s port peer) = f s := by
  unfold sentFrame
  rw [hpdcs, portBump_keeps hreg]

theorem portSend_keeps {α : Type} {f : State → α} (hreg : ∀ s o v, f (State.setReg s o v) = f s)
    (hpdcs : ∀ (s : State) x, f { s with pdcs := x } = f s) (hemit : ∀ s o, f (State.emit s o) = f s) (s : State) (port peer : Nat) (o : Out) :
    f (portSend s port peer o) = f s := by
  unfold portSend
  split
  · rw [hemit, sentFrame_keeps hreg hpdcs]
  · rfl

@[simp] theorem portSend_mem (s : State) (port peer : Nat) (o : Out) : (portSend s port peer o).mem = s.mem :=
  portSend_keeps State.setReg_mem (fun _ _ => rfl) State.emit_mem s port peer o
@[simp] theorem portSend_cores (s : State) (port peer : Nat) (o : Out) : (portSend s port peer o).cores = s.cores :=
  portSend_keeps State.setReg_cores (fun _ _ => rfl) State.emit_cores s port peer o
@[simp] theorem portSend_replyCache (s : State) (port peer : Nat) (o : Out) : (portSend s port peer o).replyCache = s.replyCache :=
  portSend_keeps State.setReg_replyCache (fun _ _ => rfl) State.emit_replyCache s port peer o

/-- An enabled port's packet goes out after what went out before. -/
theorem portSend_out {s : State} {port : Nat} (h : s.portOn port = true) (peer : Nat) (o : Out) :
    (portSend s port peer o).out = s.out ++ [o] := by
  unfold portSend
  rw [if_pos h]
  exact congrArg (· ++ [o]) (sentFrame_keeps State.setReg_out (fun _ _ => rfl) s port peer)

/-! ### The words that memory and the windows are mapped by -/

/-- From s to t the words from 0x01000000 on and those of the inbound windows are the same, and so is the fused map. -/
structure SameMap (s t : State) : Prop where
  cfg     : t.cfg = s.cfg
  high    : ∀ o, 0x01000000 ≤ o → t.reg o = s.reg o
  windows : ∀ i k, i < 64 → k < 8 → t.reg (winReg i k) = s.reg (winReg i k)

theorem SameMap.kind {s t : State} (h : SameMap s t) (a : Nat) : t.kind a = s.kind a := by
  have hmap : ∀ k, t.reg (mapReg k) = s.reg (mapReg k) := fun k => h.high _ (by unfold mapReg; omega)
  unfold State.kind State.memStrata State.computeStrata State.roles
  rw [h.cfg, hmap 0, hmap 1]

theorem SameMap.secureMem {s t : State} (h : SameMap s t) (a : Nat) : t.secureMem a = s.secureMem a := by
  have hregion : ∀ k r w, t.reg (regionReg k r w) = s.reg (regionReg k r w) := fun k r w => h.high _ (by unfold regionReg; omega)
  simp only [State.secureMem, h.kind, hregion]

theorem SameMap.portSecure {s t : State} (h : SameMap s t) (port : Nat) : t.portSecure port = s.portSecure port := by
  unfold State.portSecure
  rw [h.high _ (by unfold worldReg; omega)]

theorem findSome?_congr_of_mem {α β : Type} {f g : α → Option β} {l : List α} (h : ∀ x ∈ l, f x = g x) : l.findSome? f = l.findSome? g := by
  induction l with
  | nil => rfl
  | cons x xs ih =>
    rw [List.findSome?_cons, List.findSome?_cons, h x List.mem_cons_self, ih fun y hy => h y (List.mem_cons_of_mem _ hy)]

theorem SameMap.inWindow {s t : State} (h : SameMap s t) (port off n : Nat) : inWindow t port off n = inWindow s port off n := by
  unfold Machine.inWindow
  refine findSome?_congr_of_mem fun i hi => ?_
  have hwin : ∀ k, k < 8 → t.reg (winReg i k) = s.reg (winReg i k) := fun k hk => h.windows i k (List.mem_range.1 hi) hk
  simp only [portMem, State.worldOk, h.portSecure, h.secureMem, hwin 0 (by decide), hwin 2 (by decide), hwin 3 (by decide),
    hwin 4 (by decide), hwin 5 (by decide), hwin 6 (by decide), hwin 7 (by decide)]

/-- A port's own counter maps nothing. -/
theorem sameMap_portBump (s : State) {port off : Nat} (hp : port < 12) (hoff : off < 0x100) : SameMap s (portBump s port off) where
  cfg := portBump_cfg s port off
  high o ho := by
    apply reg_portBump_ne <;> unfold portCtr fabReg <;> omega
  windows i k hi hk := by
    apply reg_portBump_ne <;> unfold winReg portCtr fabReg <;> omega

/-! ### The port's own words, and the times, beside its counters -/

theorem reg_portReg_portBump (s : State) {port off w : Nat} (hw : w < 0x20) (hoff : 0x80 ≤ off) :
    (portBump s port off).reg (portReg port w) = s.reg (portReg port w) := by
  apply reg_portBump_ne <;> unfold portReg portCtr <;> omega

theorem portOn_portBump (s : State) {port off : Nat} (hoff : 0x80 ≤ off) : (portBump s port off).portOn port = s.portOn port := by
  unfold State.portOn
  rw [reg_portReg_portBump s (by decide) hoff]

theorem entropy_portBump (s : State) {port off : Nat} (n : Nat) (hoff : 0x80 ≤ off) :
    entropy (portBump s port off) port n = entropy s port n := by
  unfold entropy
  rw [reg_portReg_portBump s (by decide) hoff]

/-- The first packet of a burst has the port's entropy value as it stands (27 R450). -/
theorem entropy_zero (s : State) (port : Nat) : entropy s port 0 = fld (s.reg (portReg port 1)) 31 16 := by
  simp [entropy, fld]

theorem tLostClk_portBump (s : State) {port off : Nat} (hp : port < 12) (hoff : off < 0x100) :
    tLostClk (portBump s port off) = tLostClk s := by
  unfold tLostClk State.regN
  rw [reg_portBump_ne] <;> unfold timeReg portCtr fabReg <;> omega

/-! ### What an access to memory finds -/

/-- From s to t the bytes, the poison marks and the owners of lines are the same. -/
structure SameMemory (s t : State) : Prop where
  mem    : t.mem = s.mem
  poison : t.poison = s.poison
  owners : t.owners = s.owners

theorem byte_congr {s t : State} (h : t.mem = s.mem) (a : Nat) : t.byte a = s.byte a := congrArg (smGetD · memDefault a) h

theorem readBytes_congr {s t : State} (h : t.mem = s.mem) (a n : Nat) : readBytes t a n = readBytes s a n := by
  simp only [readBytes_eq, byte_congr h]

theorem memNat_congr {s t : State} (h : t.mem = s.mem) (a n : Nat) : t.memNat a n = s.memNat a n :=
  congrArg ofBytes (readBytes_congr h a n)

theorem SameMemory.poisoned {s t : State} (h : SameMemory s t) (a : Nat) : t.poisoned a = s.poisoned a := by
  unfold State.poisoned
  rw [h.poison]

theorem SameMemory.clean {s t : State} (h : SameMemory s t) {a n : Nat} (hs : Clean s a n) : Clean t a n :=
  fun i hi => (h.poisoned (a + i)).trans (hs i hi)

theorem SameMemory.unheld {s t : State} (h : SameMemory s t) {a n : Nat} (hs : Unheld s a n) : Unheld t a n := by
  simpa only [Unheld, rangeHeld, lineHeld, ownedBy, h.owners] using hs

theorem sameMemory_portBump (s : State) (port off : Nat) : SameMemory s (portBump s port off) :=
  ⟨portBump_mem s port off, portBump_poison s port off, portBump_owners s port off⟩

theorem waitHeld_eq_none {s : State} {pa n : Nat} (i : Instr) (h : Unheld s pa n) : waitHeld s pa n i = none := by
  unfold Unheld rangeHeld at h
  unfold waitHeld
  rw [Option.map_eq_none_iff, List.find?_eq_none]
  intro k hk hheld
  have howned : s.owners.isEmpty = false := by
    cases ho : s.owners with
    | nil => simp [lineHeld, ownedBy, ho, smGet?] at hheld
    | cons _ _ => rfl
  rw [howned] at h
  exact List.any_eq_false.1 h k hk hheld

/-! ### What the device writes at an address -/

@[simp] theorem length_toBytes (n x : Nat) : (toBytes n x).length = n := by
  induction n generalizing x with
  | zero => rfl
  | succ n ih => simp [toBytes, ih]

/-- From s to t nothing changed but memory, its copies in the L2 tiles and at the host, and its poison marks. -/
def OnlyMemory (s t : State) : Prop := { t with mem := s.mem, hostMem := s.hostMem, l2 := s.l2, poison := s.poison } = s

theorem OnlyMemory.refl (s : State) : OnlyMemory s s := rfl

theorem OnlyMemory.trans {s t u : State} (h : OnlyMemory s t) (k : OnlyMemory t u) : OnlyMemory s u := by
  have hu := congrArg (fun x : State => { x with mem := s.mem, hostMem := s.hostMem, l2 := s.l2, poison := s.poison }) k
  exact hu.trans h

theorem OnlyMemory.keeps {α : Type} {f : State → α} {s t : State} (h : OnlyMemory s t)
    (hf : ∀ (s : State) m c l p, f { s with mem := m, hostMem := c, l2 := l, poison := p } = f s) : f t = f s := by
  rw [← hf t s.mem s.hostMem s.l2 s.poison]
  exact congrArg f h

theorem OnlyMemory.cores {s t : State} (h : OnlyMemory s t) : t.cores = s.cores := h.keeps (f := State.cores) fun _ _ _ _ _ => rfl
theorem OnlyMemory.bar0 {s t : State} (h : OnlyMemory s t) : t.bar0 = s.bar0 := h.keeps (f := State.bar0) fun _ _ _ _ _ => rfl
theorem OnlyMemory.out {s t : State} (h : OnlyMemory s t) : t.out = s.out := h.keeps (f := State.out) fun _ _ _ _ _ => rfl
theorem OnlyMemory.now {s t : State} (h : OnlyMemory s t) : t.now = s.now := h.keeps (f := State.now) fun _ _ _ _ _ => rfl

theorem OnlyMemory.reg {s t : State} (h : OnlyMemory s t) (o : Nat) : t.reg o = s.reg o := by
  unfold State.reg
  rw [h.bar0]

theorem OnlyMemory.ite {c : Prop} {_ : Decidable c} {s t u : State} (ht : OnlyMemory s t) (hu : OnlyMemory s u) :
    OnlyMemory s (if c then t else u) := by
  split
  · exact ht
  · exact hu

theorem onlyMemory_foldl {α : Type} {f : State → α → State} (hf : ∀ s x, OnlyMemory s (f s x)) (l : List α) (s : State) :
    OnlyMemory s (l.foldl f s) :=
  List.foldlRecOn l f (OnlyMemory.refl s) fun t ht x _ => ht.trans (hf t x)

theorem onlyMemory_writeBytes (s : State) (a : Nat) (bs : List Byte) : OnlyMemory s (writeBytes s a bs) := by
  have h := congrArg (fun x : State => { x with hostMem := s.hostMem, l2 := s.l2, poison := s.poison }) (writeBytes_mem_only bs s a)
  exact h

theorem onlyMemory_hostPut (bs : List Byte) (s : State) (a : Nat) : OnlyMemory s (hostPut s a bs) := by
  induction bs generalizing s a with
  | nil => exact .refl s
  | cons b bs ih => exact OnlyMemory.trans (t := { s with hostMem := smSetD s.hostMem memDefault a b }) rfl (ih _ (a + 1))

theorem onlyMemory_toMemory (s : State) (a : Nat) (bs : List Byte) : OnlyMemory s (s.toMemory a bs) :=
  .ite (onlyMemory_hostPut bs s a) (.refl s)

theorem onlyMemory_l2Clean (s : State) (line : Nat) : OnlyMemory s (s.l2Clean line) := by
  unfold State.l2Clean
  split
  · exact .ite (.trans (onlyMemory_toMemory s _ _) rfl) (.refl s)
  · exact .refl s

theorem onlyMemory_l2Drop (s : State) (line : Nat) : OnlyMemory s (s.l2Drop line) := .trans (onlyMemory_l2Clean s line) rfl

theorem onlyMemory_l2Room (s : State) (line : Nat) : OnlyMemory s (s.l2Room line) := by
  unfold State.l2Room
  refine .ite (.refl s) ?_
  split
  · exact onlyMemory_l2Drop s _
  · exact .refl s

theorem onlyMemory_l2Use (s : State) (a alloc prio : Nat) (dirty : Bool) : OnlyMemory s (s.l2Use a alloc prio dirty) := by
  unfold State.l2Use
  split
  · exact .refl s
  · exact .refl s
  · dsimp only
    split
    · exact rfl
    · exact .ite (.refl s) (.trans (onlyMemory_l2Room s _) rfl)

theorem onlyMemory_homePut (s : State) (a : Nat) (bs : List Byte) (at' : Attr) : OnlyMemory s (s.homePut a bs at') := by
  unfold State.homePut
  extract_lets thru written forwarded kept
  have hforwarded : OnlyMemory s forwarded :=
    .ite (.trans (onlyMemory_writeBytes s a bs) (onlyMemory_toMemory written a bs)) (onlyMemory_writeBytes s a bs)
  have hkept : OnlyMemory s kept := hforwarded.trans (onlyMemory_l2Use forwarded _ _ _ _)
  exact .ite (hkept.trans rfl) hkept

theorem onlyMemory_homeWrite (s : State) (a : Nat) (bs : List Byte) : OnlyMemory s (s.homeWrite a bs) :=
  onlyMemory_foldl (fun s _ => onlyMemory_homePut s _ _ _) _ s

/-- What the device writes at an address leaves every other byte. -/
theorem memoryOutside_homeWrite (s : State) (a : Nat) (bs : List Byte) : MemoryOutside s (s.homeWrite a bs) a bs.length :=
  fun b hb => (byte_congr (homeWrite_mem s a bs) b).trans (byte_writeBytes_of_outside s hb)

/-- What the device writes at an address is read there. -/
theorem readBytes_homeWrite (s : State) (a : Nat) (bs : List Byte) : readBytes (s.homeWrite a bs) a bs.length = bs :=
  (readBytes_congr (homeWrite_mem s a bs) a _).trans (readBytes_writeBytes s a bs)

end Sys2Proof.Machine
end

