-- ==== Sys2Proof/Proofs/RemoteRequests.lean ====
section
/-!
# A peer reads and applies atomics once

The answer to a remote read, to a remote atomic that is new, and to one that is issued again, each as what
the owner's state holds afterwards; the request's arrival before it moves the port's counter alone.
-/
namespace Sys2Proof.Machine

theorem exec_remoteReadRequest {s : State} {port : Nat} (r : RemoteReq) (h : s.portOn port = true) :
    exec (.remoteReadRequest port r) s = .next (remReadGo port r (portBump s port 0x88)) := by
  show execRemoteReadRequest port r s = _
  unfold execRemoteReadRequest
  rw [h]
  rfl

theorem exec_remoteAtomicRequest {s : State} {port : Nat} (r : RemoteReq) (h : s.portOn port = true) :
    exec (.remoteAtomicRequest port r) s = .next (remAtomicGo port r (portBump s port 0x88)) := by
  show execRemoteAtomicRequest port r s = _
  unfold execRemoteAtomicRequest
  rw [h]
  rfl

/-! ### A remote read (05 R114, 08 R181) -/

/-- The bytes of a read within one packet go out in that packet (27 R450). -/
theorem remReadGo_of_onePacket {s : State} {port pa : Nat} {r : RemoteReq} (hone : (r.off + r.len - 1) / 4096 = r.off / 4096)
    (hwin : inWindow s port r.off r.len = some pa) (hclean : Clean s pa r.len) (hfree : Unheld s pa r.len) :
    remReadGo port r s = portSend s port r.src (.readReply port r.src r.tag 0 (entropy s port 0) (s.bytesAt pa r.len)) := by
  have hhi : min r.len (4096 * (r.off / 4096 + 0 + 1) - r.off) = r.len := by omega
  have hok : ¬ (List.range r.len).any (fun k => s.poisoned (pa + k)) = true := by
    simpa using fun k hk => hclean k hk
  unfold remReadGo
  rw [hwin]
  dsimp only
  rw [waitHeld_eq_none _ hfree]
  simp only [hone, Nat.sub_self, Nat.zero_add, List.range_one, List.foldl_cons, List.foldl_nil, if_true, hhi, Nat.sub_zero, Nat.add_zero, if_neg hok]
  rfl

/-! ### A remote atomic (05 R114, 08 R182) -/

/-- The owner's state once the operation of a remote atomic on the bytes at pa is done. -/
def atomicDone (r : RemoteReq) (pa : Nat) (s : State) : State :=
  match atomNew r.op.toNat r.ty (s.memNat pa (r.ty.width / 8)) r.a r.b with
  | some v => s.homeWrite pa (toBytes (r.ty.width / 8) v)
  | none => s

theorem atomicDone_of_some {r : RemoteReq} {pa v : Nat} {s : State}
    (h : atomNew r.op.toNat r.ty (s.memNat pa (r.ty.width / 8)) r.a r.b = some v) :
    atomicDone r pa s = s.homeWrite pa (toBytes (r.ty.width / 8) v) := by
  unfold atomicDone
  rw [h]

theorem atomicDone_of_none {r : RemoteReq} {pa : Nat} {s : State}
    (h : atomNew r.op.toNat r.ty (s.memNat pa (r.ty.width / 8)) r.a r.b = none) : atomicDone r pa s = s := by
  unfold atomicDone
  rw [h]

theorem onlyMemory_atomicDone (r : RemoteReq) (pa : Nat) (s : State) : OnlyMemory s (atomicDone r pa s) := by
  unfold atomicDone
  split
  · exact onlyMemory_homeWrite s _ _
  · exact .refl s

theorem memoryOutside_atomicDone (r : RemoteReq) (pa : Nat) (s : State) :
    MemoryOutside s (atomicDone r pa s) pa (r.ty.width / 8) := by
  unfold atomicDone
  split
  · simpa using memoryOutside_homeWrite s pa (toBytes (r.ty.width / 8) _)
  · exact fun _ _ => rfl

/-- The reply cache lets go of what it has kept for its time (08 R182). -/
def dropReplies (s : State) : State := { s with replyCache := s.replyCache.filter fun q => decide (s.now < q.2.2.2) }

theorem sameMap_dropReplies (s : State) : SameMap s (dropReplies s) := ⟨rfl, fun _ _ => rfl, fun _ _ _ _ => rfl⟩

theorem sameMemory_dropReplies (s : State) : SameMemory s (dropReplies s) := ⟨rfl, rfl, rfl⟩

theorem dropReplies_cores (s : State) : (dropReplies s).cores = s.cores := rfl
theorem dropReplies_out (s : State) : (dropReplies s).out = s.out := rfl
theorem dropReplies_portOn (s : State) (port : Nat) : (dropReplies s).portOn port = s.portOn port := rfl

/-- The owner's state once a new remote atomic is done and its answer kept, before the answer is sent. -/
def atomicKept (r : RemoteReq) (pa : Nat) (s : State) : State :=
  let t := atomicDone r pa (dropReplies s)
  { t with replyCache := t.replyCache ++ [(r.src, r.tag, s.memNat pa (r.ty.width / 8), t.now + 4 * tLostClk t)] }

theorem atomicKept_mem (r : RemoteReq) (pa : Nat) (s : State) :
    (atomicKept r pa s).mem = (atomicDone r pa (dropReplies s)).mem := rfl

theorem atomicKept_cores (r : RemoteReq) (pa : Nat) (s : State) : (atomicKept r pa s).cores = s.cores :=
  (onlyMemory_atomicDone r pa (dropReplies s)).cores

theorem atomicKept_out (r : RemoteReq) (pa : Nat) (s : State) : (atomicKept r pa s).out = s.out :=
  (onlyMemory_atomicDone r pa (dropReplies s)).out

theorem atomicKept_reg (r : RemoteReq) (pa : Nat) (s : State) (o : Nat) : (atomicKept r pa s).reg o = s.reg o :=
  (onlyMemory_atomicDone r pa (dropReplies s)).reg o

theorem atomicKept_portOn (r : RemoteReq) (pa : Nat) (s : State) (port : Nat) : (atomicKept r pa s).portOn port = s.portOn port := by
  unfold State.portOn
  rw [atomicKept_reg]

/-- The answer is kept for four times T_lost. -/
theorem mem_atomicKept_replyCache (r : RemoteReq) (pa : Nat) (s : State) :
    (r.src, r.tag, s.memNat pa (r.ty.width / 8), s.now + 4 * tLostClk s) ∈ (atomicKept r pa s).replyCache := by
  have hdone := onlyMemory_atomicDone r pa (dropReplies s)
  have hlost : tLostClk (atomicDone r pa (dropReplies s)) = tLostClk s := by
    unfold tLostClk State.regN
    rw [hdone.reg]
    rfl
  refine List.mem_append_right _ (List.mem_singleton.2 ?_)
  rw [hlost, hdone.now]
  rfl

theorem memoryOutside_atomicKept (r : RemoteReq) (pa : Nat) (s : State) :
    MemoryOutside s (atomicKept r pa s) pa (r.ty.width / 8) :=
  memoryOutside_atomicDone r pa (dropReplies s)

theorem bytesAt_atomicKept (r : RemoteReq) (pa : Nat) (s : State) :
    (atomicKept r pa s).bytesAt pa (r.ty.width / 8) =
      ((atomNew r.op.toNat r.ty (s.memNat pa (r.ty.width / 8)) r.a r.b).map (toBytes (r.ty.width / 8))).getD (s.bytesAt pa (r.ty.width / 8)) := by
  have hold : (dropReplies s).memNat pa (r.ty.width / 8) = s.memNat pa (r.ty.width / 8) := memNat_congr (sameMemory_dropReplies s).mem _ _
  rw [State.bytesAt, readBytes_congr (atomicKept_mem r pa s)]
  cases hnew : atomNew r.op.toNat r.ty (s.memNat pa (r.ty.width / 8)) r.a r.b with
  | none =>
    rw [atomicDone_of_none (by rw [hold, hnew])]
    exact readBytes_congr (sameMemory_dropReplies s).mem _ _
  | some v =>
    rw [atomicDone_of_some (by rw [hold, hnew])]
    simpa using readBytes_homeWrite (dropReplies s) pa (toBytes (r.ty.width / 8) v)

/-- An atomic whose answer is not in the reply cache is done, its answer kept and sent. -/
theorem remAtomicGo_of_new {s : State} {port pa : Nat} {r : RemoteReq} (hnew : ∀ q ∈ s.replyCache, ¬ (q.1 = r.src ∧ q.2.1 = r.tag))
    (hwin : inWindow s port r.off (r.ty.width / 8) = some pa) (hclean : s.poisoned pa = false) (hfree : Unheld s pa (r.ty.width / 8)) :
    remAtomicGo port r s = portSend (atomicKept r pa s) port r.src (.atomReply port r.src r.tag (s.memNat pa (r.ty.width / 8))) := by
  have hfind : (dropReplies s).replyCache.find? (fun q => q.1 == r.src && q.2.1 == r.tag) = none :=
    List.find?_eq_none.2 fun q hq => by simpa using hnew q (List.mem_filter.1 hq).1
  have hold : (dropReplies s).memNat pa (r.ty.width / 8) = s.memNat pa (r.ty.width / 8) := memNat_congr (sameMemory_dropReplies s).mem _ _
  unfold remAtomicGo
  rw [← dropReplies]
  dsimp only
  rw [hfind]
  dsimp only
  rw [(sameMap_dropReplies s).inWindow, hwin]
  dsimp only
  rw [waitHeld_eq_none _ ((sameMemory_dropReplies s).unheld hfree)]
  dsimp only
  rw [(sameMemory_dropReplies s).poisoned, hclean, hold]
  unfold atomicKept atomicDone
  rw [hold]
  rfl

/-- What is found first, and kept, is found first among what is kept. -/
theorem find?_filter_of_kept {α : Type} {p keep : α → Bool} {l : List α} {x : α} (h : l.find? p = some x) (hx : keep x = true) :
    (l.filter keep).find? p = some x := by
  rw [List.find?_eq_some_iff_append] at h ⊢
  obtain ⟨hp, before, after, rfl, hbefore⟩ := h
  exact ⟨hp, before.filter keep, after.filter keep, by simp [hx], fun a ha => hbefore a (List.mem_filter.1 ha).1⟩

/-- One that is issued again within that time gets the answer that was kept. -/
theorem remAtomicGo_of_kept {s : State} (port : Nat) {r : RemoteReq} {q : Nat × Nat × Nat × Nat}
    (h : s.replyCache.find? (fun q => q.1 == r.src && q.2.1 == r.tag) = some q) (hdue : s.now < q.2.2.2) :
    remAtomicGo port r s = portSend (dropReplies s) port r.src (.atomReply port r.src r.tag q.2.2.1) := by
  have hfind : (dropReplies s).replyCache.find? (fun q => q.1 == r.src && q.2.1 == r.tag) = some q :=
    find?_filter_of_kept h (decide_eq_true hdue)
  unfold remAtomicGo
  rw [← dropReplies]
  dsimp only
  rw [hfind]

/-! ### The three answers together -/

/-- Settles O42: the count of the arrival moves no word that the request's window, its bytes or the reply cache depend on; then the read
sends the bytes, a new atomic is done and its answer kept, and one issued again is answered from the reply cache. -/
theorem remoteRequests : Obligations.RemoteRequests := by
  unfold Obligations.RemoteRequests
  intro s port pa r hon hport
  have hmap : SameMap s (portBump s port 0x88) := sameMap_portBump s hport (by decide)
  have hmemory : SameMemory s (portBump s port 0x88) := sameMemory_portBump s port 0x88
  have hon' : (portBump s port 0x88).portOn port = true := (portOn_portBump s (by decide)).trans hon
  refine ⟨fun _ hone hwin hclean hfree => ?_, fun hwin hclean hfree hnew => ?_, fun q hfind hdue => ?_⟩
  · have hgo := remReadGo_of_onePacket hone ((hmap.inWindow _ _ _).trans hwin) (hmemory.clean hclean) (hmemory.unheld hfree)
    rw [entropy_portBump s 0 (by decide), entropy_zero, State.bytesAt, readBytes_congr hmemory.mem] at hgo
    refine ⟨_, exec_remoteReadRequest r hon, ?_⟩
    rw [hgo]
    exact ⟨by simp, by simp, by rw [portSend_out hon', portBump_out]; rfl⟩
  · have hgo := remAtomicGo_of_new (by simpa using hnew) ((hmap.inWindow _ _ _).trans hwin) ((hmemory.poisoned pa).trans hclean)
      (hmemory.unheld hfree)
    have hold : (portBump s port 0x88).memNat pa (r.ty.width / 8) = s.memNat pa (r.ty.width / 8) := memNat_congr hmemory.mem _ _
    have hbytes := bytesAt_atomicKept r pa (portBump s port 0x88)
    have hcache := mem_atomicKept_replyCache r pa (portBump s port 0x88)
    rw [hold] at hgo hbytes hcache
    rw [tLostClk_portBump s hport (by decide), portBump_now] at hcache
    refine ⟨_, exec_remoteAtomicRequest r hon, ?_⟩
    rw [hgo]
    refine ⟨fun b hb => ?_, ?_, ?_, ?_, ?_⟩
    · rw [byte_congr (portSend_mem _ _ _ _), memoryOutside_atomicKept r pa _ b hb, byte_congr hmemory.mem]
    · rw [portSend_cores, atomicKept_cores, portBump_cores]
    · rw [portSend_out ((atomicKept_portOn r pa _ port).trans hon'), atomicKept_out, portBump_out]
    · rwa [portSend_replyCache]
    · rw [State.bytesAt, readBytes_congr (portSend_mem _ _ _ _)]
      refine hbytes.trans ?_
      cases atomNew r.op.toNat r.ty (s.memNat pa (r.ty.width / 8)) r.a r.b with
      | none => exact readBytes_congr hmemory.mem _ _
      | some v => rfl
  · have hgo := remAtomicGo_of_kept port (s := portBump s port 0x88) (by rwa [portBump_replyCache]) (by rwa [portBump_now])
    refine ⟨_, exec_remoteAtomicRequest r hon, ?_⟩
    rw [hgo]
    refine ⟨?_, ?_, ?_⟩
    · rw [portSend_mem, (sameMemory_dropReplies _).mem, portBump_mem]
    · rw [portSend_cores, dropReplies_cores, portBump_cores]
    · rw [portSend_out ((dropReplies_portOn _ port).trans hon'), dropReplies_out, portBump_out]

end Sys2Proof.Machine
end

