-- ==== Sys2Proof/Proofs/FaultsTaken.lean ====
section
/-!
# What a fault stops

A fault that is found precisely stops its warp at the instruction, with its record, and the warps of its set or block with it
(03 R70, R71, 09 R183). What has landed before, and the stop itself, change no memory and no register of the device.
-/
namespace Sys2Proof.Machine

/-! ### What landing and updates of warps leave -/

theorem foldl_keeps {α β : Type} {f : State → α} {g : State → β → State} (hg : ∀ s b, f (g s b) = f s) (l : List β) (s : State) :
    f (l.foldl g s) = f s :=
  List.foldlRecOn (motive := fun u => f u = f s) l g rfl fun u hu b _ => (hg u b).trans hu

section
variable {α : Type} {f : State → α} (hcores : ∀ (s : State) c k, f (s.setCore c k) = f s)
include hcores

theorem updWarp_keeps (s : State) (c w : Nat) (g : Warp → Warp) : f (s.updWarp c w g) = f s := by
  unfold State.updWarp
  split
  · exact hcores s c _
  · rfl

theorem applyBWr_keeps (core bi : Nat) (s : State) (x : BWr) : f (applyBWr core bi s x) = f s := by
  cases x with
  | nf k v n => exact hcores s core _
  | user k v n => exact hcores s core _
  | pool t r l v => exact hcores s core _
  | xflags sl due v => exact updWarp_keeps hcores s core sl _
  | xstat sl v => exact updWarp_keeps hcores s core sl _
  | ashape v =>
    show f (if v = 0 then s else _) = f s
    split
    · rfl
    · exact hcores s core _

/-- What lands in a warp and its block stays on the core. -/
theorem landWarp_keeps (s : State) (core slot : Nat) : f (landWarp s core slot) = f s := by
  have hblock (bi : Nat) : f (landBlock s core bi) = f s := by
    unfold landBlock
    dsimp only
    split
    · rfl
    · exact (foldl_keeps (fun s (p : Nat × BWr) => applyBWr_keeps hcores core bi s p.2) _ _).trans (hcores s core _)
  unfold landWarp
  split
  · rfl
  · exact (updWarp_keeps hcores _ core slot _).trans (hblock _)

end

/-- Of warps that are updated one after the other, each that is there satisfies what every update establishes. -/
theorem exists_warp?_foldl_updWarp {α : Type} {P : Warp → Prop} (core : Nat) (key : α → Nat) (f : State → α → Warp → Warp)
    (hf : ∀ s a w, P (f s a w)) {sl : Nat} (l : List α) {s : State} {w : Warp} (hw : s.warp? core sl = some w) (h : P w ∨ sl ∈ l.map key) :
    ∃ v, (l.foldl (fun s a => s.updWarp core (key a) (f s a)) s).warp? core sl = some v ∧ P v := by
  induction l generalizing s w with
  | nil => exact ⟨w, hw, by simpa using h⟩
  | cons a l ih =>
    have hread := State.warp?_updWarp s core (key a) core sl (f s a)
    rw [hw] at hread
    by_cases hsl : sl = key a
    · exact ih (hread.trans (if_pos ⟨rfl, hsl⟩)) (.inl (hf s a w))
    · exact ih (hread.trans (if_neg fun hk => hsl hk.2)) (h.imp_right fun hm => (List.mem_cons.1 hm).resolve_left hsl)

/-- What updates of warps keep of the warp in a slot, they keep one after the other. -/
theorem foldl_updWarp_keeps {α : Type} {P : Warp → Prop} (core : Nat) (key : α → Nat) (f : State → α → Warp → Warp)
    (hf : ∀ s a w, P w → P (f s a w)) {sl : Nat} (l : List α) {s : State} (h : ∃ w, s.warp? core sl = some w ∧ P w) :
    ∃ w, (l.foldl (fun s a => s.updWarp core (key a) (f s a)) s).warp? core sl = some w ∧ P w :=
  List.foldlRecOn (motive := fun u : State => ∃ w, u.warp? core sl = some w ∧ P w) l _ h fun u ⟨w, hw, hp⟩ a _ => by
    rw [State.warp?_updWarp, hw]
    split
    · exact ⟨_, rfl, hf u a w hp⟩
    · exact ⟨w, rfl, hp⟩

theorem smGet?_isSome_of_mem {α : Type} {m : Sparse α} {e : Nat × α} (h : e ∈ m) : (smGet? m e.1).isSome = true := by
  induction m with
  | nil => cases h
  | cons p m ih =>
    obtain ⟨k, v⟩ := p
    rw [smGet?]
    split
    · rfl
    · next hne =>
      refine ih ((List.mem_cons.1 h).resolve_left fun he => hne ?_)
      rw [he]

/-! ### The partition of a warp -/

theorem State.partn_updWarp (s : State) (c w d p : Nat) (f : Warp → Warp) : (s.updWarp c w f).partn d p = s.partn d p := by
  unfold State.partn
  by_cases h : d = c
  · rw [h, State.core_updWarp]
  · rw [State.core_updWarp_ne s w f h]

theorem getElem?_setAt_self {α : Type} (l : List α) (i : Nat) (v : α) : (setAt l i v)[i]? = (l[i]?).map fun _ => v := by
  induction l generalizing i with
  | nil => rfl
  | cons x l ih =>
    cases i with
    | zero => rfl
    | succ i => exact ih i

theorem holder_releasePart (s : State) (core slot : Nat) : ((releasePart s core slot).partn core (partOf slot)).holder ≠ some slot := by
  unfold releasePart
  split
  · unfold State.updPart State.partn
    rw [State.core_updCore_self]
    dsimp only
    rw [getElem?_setAt_self]
    cases (s.core core).parts[partOf slot]? <;> exact nofun
  · assumption

theorem warp?_releasePart (s : State) (core slot d sl : Nat) : (releasePart s core slot).warp? d sl = s.warp? d sl := by
  unfold releasePart
  split
  · exact State.warp?_updPart s core _ d sl _
  · rfl

/-! ### A warp stops, and others share its fate (03 R70, R71) -/

/-- The record r as it is kept: with the temporaries as they then stand, for a group that covers g. -/
def RecordedFor (g : List Nat) (r q : FaultRec) : Prop := { q with temps := r.temps, group := r.group } = r ∧ g ⊆ q.group

/-- A warp that stops with the record r: its results on the way are in the temporaries that the record holds (09 R189). -/
def Warp.stoppedWith (w : Warp) (b : Block) (r : FaultRec) : Warp :=
  { w with stopped := some { r with temps := (w.applyAll b (w.pend.flatMap (·.writes))).tmp }, halt := none }

section
variable {s : State} {core slot : Nat} {w : Warp} (hw : s.warp? core slot = some w) (hrun : w.stopped = none) (htrailer : w.trailer = none)
include hw hrun htrailer

theorem stopWarp_eq (r : FaultRec) : stopWarp s core slot r =
    releasePart { s.setWarp core slot (w.stoppedWith (s.block core w.block) r) with
      walks := s.walks.filter fun x => !(x.failed && x.who == .warp core slot) } core slot := by
  unfold stopWarp
  rw [hw]
  dsimp only
  rw [if_neg (by simp [hrun]), if_neg (by simp [htrailer])]
  rfl

theorem warp?_stopWarp (r : FaultRec) (sl : Nat) :
    (stopWarp s core slot r).warp? core sl = if sl = slot then some (w.stoppedWith (s.block core w.block) r) else s.warp? core sl := by
  rw [stopWarp_eq hw hrun htrailer, warp?_releasePart]
  refine (State.warp?_setWarp s core slot core sl (w.stoppedWith (s.block core w.block) r)).trans ?_
  simp only [true_and]

theorem holder_stopWarp (r : FaultRec) : ((stopWarp s core slot r).partn core (partOf slot)).holder ≠ some slot := by
  rw [stopWarp_eq hw hrun htrailer]
  exact holder_releasePart _ core slot

end

theorem haltWith_isHalted (w : Warp) (now : Nat) (g : List Nat) :
    ((w.haltWith now g).halt.isSome || (w.haltWith now g).stopped.isSome) = true := by
  unfold Warp.haltWith
  split <;> simp

/-- The warp has stopped at an address with the record r. -/
def StoppedAt (pc : Nat) (g : List Nat) (r : FaultRec) (w : Warp) : Prop := w.pc = pc ∧ ∃ q, w.stopped = some q ∧ RecordedFor g r q

/-- A warp that has stopped keeps its record when others share its fate, for a larger group. -/
theorem StoppedAt.haltWith {pc : Nat} {g : List Nat} {r : FaultRec} {w : Warp} (h : StoppedAt pc g r w) (now : Nat) (g' : List Nat) :
    StoppedAt pc g r (w.haltWith now g') := by
  obtain ⟨hpc, q, hq, hrecord, hgroup⟩ := h
  unfold Warp.haltWith
  rw [hq]
  exact ⟨hpc, _, rfl, hrecord, fun x hx => List.mem_eraseDups.2 (List.mem_append_left _ (hgroup hx))⟩

/-- The slots that stop in a fault taken by the warp in a slot: its own, and those that share its fate. -/
def faultGroup (s : State) (core slot : Nat) (w : Warp) (whole : Bool) : List Nat :=
  (slot :: stopsWith s core w.block w.num whole ++ (w.halt.map (·.2)).getD []).eraseDups

theorem stopsWith_subset_faultGroup (s : State) (core slot : Nat) (w : Warp) (whole : Bool) :
    stopsWith s core w.block w.num whole ⊆ faultGroup s core slot w whole := fun _ h =>
  List.mem_eraseDups.2 (List.mem_append_left _ (List.mem_cons_of_mem _ h))

/-- The state in which a fault has stopped its warp, and those that share its fate are to stop. -/
def faultStops (s : State) (core slot : Nat) (w : Warp) (r : FaultRec) (whole : Bool) : State :=
  (stopsWith s core w.block w.num whole).foldl (fun t o => t.updWarp core o fun v => v.haltWith t.now (faultGroup s core slot w whole))
    (stopWarp s core slot { r with group := faultGroup s core slot w whole })

/-- A fault that is not of poisoned data stops warps, and no count of the device moves. -/
theorem takeFault_eq {s : State} {core slot : Nat} {w : Warp} (hw : s.warp? core slot = some w) {r : FaultRec} (hcode : r.code ≠ 0x17)
    (whole : Bool) : takeFault s core slot r whole = { faultStops s core slot w r whole with waits := [] } := by
  unfold takeFault
  simp only [hw, hcode, if_false]
  rfl

theorem isSome_warp?_of_mem_stopsWith {s : State} {core bi num sl : Nat} {whole : Bool} (h : sl ∈ stopsWith s core bi num whole) :
    (s.warp? core sl).isSome = true := by
  obtain ⟨e, he, rfl⟩ := List.mem_map.1 h
  exact smGet?_isSome_of_mem (List.mem_filter.1 (List.mem_filter.1 he).1).1

section
variable {s : State} {core slot : Nat} {w : Warp} (hw : s.warp? core slot = some w) (hrun : w.stopped = none) (htrailer : w.trailer = none)
include hw hrun htrailer

/-- The warp that takes a fault stands at its instruction, stopped with the record. -/
theorem warp?_faultStops_self (r : FaultRec) (whole : Bool) :
    ∃ v, (faultStops s core slot w r whole).warp? core slot = some v ∧ StoppedAt w.pc (faultGroup s core slot w whole) r v :=
  foldl_updWarp_keeps core id (fun t _ v => v.haltWith t.now (faultGroup s core slot w whole)) (fun _ _ _ h => h.haltWith _ _) _
    ⟨_, (warp?_stopWarp hw hrun htrailer _ slot).trans (if_pos rfl), rfl, _, rfl, rfl, fun _ h => h⟩

/-- The warps that share its fate stop in this clk, or have stopped. -/
theorem warp?_faultStops_other (r : FaultRec) {whole : Bool} {sl : Nat} (hsl : sl ∈ stopsWith s core w.block w.num whole) (hne : sl ≠ slot) :
    ∃ v, (faultStops s core slot w r whole).warp? core sl = some v ∧ (v.halt.isSome || v.stopped.isSome) = true := by
  obtain ⟨x, hx⟩ := Option.isSome_iff_exists.1 (isSome_warp?_of_mem_stopsWith hsl)
  refine exists_warp?_foldl_updWarp core id (fun t _ v => v.haltWith t.now (faultGroup s core slot w whole)) (fun _ _ v => haltWith_isHalted v _ _) _
    ((warp?_stopWarp hw hrun htrailer _ sl).trans ((if_neg hne).trans hx)) (.inr ?_)
  rwa [List.map_id]

theorem holder_faultStops (r : FaultRec) (whole : Bool) :
    ((faultStops s core slot w r whole).partn core (partOf slot)).holder ≠ some slot := by
  unfold faultStops
  refine List.foldlRecOn (motive := fun u : State => (u.partn core (partOf slot)).holder ≠ some slot) _ _ (holder_stopWarp hw hrun htrailer _) ?_
  intro u hu o _
  rwa [State.partn_updWarp]

end

/-- The memory and the registers of the device stay as they are. -/
theorem takeFault_keeps_device (s : State) (core slot : Nat) {r : FaultRec} (hcode : r.code ≠ 0x17) (whole : Bool) :
    (takeFault s core slot r whole).mem = s.mem ∧ (takeFault s core slot r whole).bar0 = s.bar0 := by
  obtain ⟨b, hstops, hb⟩ := onlyStops_takeFault s core slot r whole
  rw [hb hcode] at hstops
  exact ⟨hstops.mem, hstops.bar0⟩

end Sys2Proof.Machine
end

