-- ==== Sys2Proof/Proofs/IssueFaults.lean ====
section
/-!
# Faults found at issue

Every Z1 instruction goes through the same checks (09 R185). Where one refuses it, the issue takes the fault in place of
the instruction's meaning, and the order of the checks decides which fault that is.
-/
namespace Sys2Proof.Machine

/-! ### An instruction's issue -/

/-- Every Z1 instruction is executed by the one issue, each with a meaning of its own. -/
theorem exec_of_z1? {i : Instr} {o : Op} {x : Z1} (h : i.z1? = some (o, x)) : ∃ body, ∀ s, exec i s = issue o x body s := by
  cases i
  all_goals simp only [Instr.z1?, Option.some.injEq, Prod.mk.injEq, reduceCtorEq] at h
  all_goals
    obtain ⟨rfl, rfl⟩ := h
    exact ⟨_, fun _ => rfl⟩

/-- A check that refuses the instruction takes its fault. -/
theorem issue_of_issueCheck {o : Op} {x : Z1} (body : Ctx → State → Act) {s : State} {core slot code : Nat} {w : Warp}
    (hfiring : s.firing = none) (hcur : s.cur = some (core, slot)) (hthere : (s.warp? core slot).isSome = true)
    (hw : (landWarp s core slot).warp? core slot = some w) (hreplay : w.replay = none)
    (hcheck : issueCheck ((landWarp s core slot).block core w.block) w
      (if isXfer o then peekWord (landWarp s core slot) core ((landWarp s core slot).block core w.block) w (w.pc + (8 + 4 * x.ext.lenCode)) else none) o x
        = some code) :
    issue o x body s =
      .next { issueFault (landWarp s core slot) core slot code 0 (execMask w x) 0 w.pc [] (x.scope == .block) with cur := none } := by
  obtain ⟨w0, hw0⟩ := Option.isSome_iff_exists.1 hthere
  unfold issue
  simp only [hfiring, hcur, hw0]
  unfold warpIssue
  simp only [hw, hreplay, hcheck]

/-! ### The checks at issue (09 R185) -/

/-- No check at issue finds poisoned data. -/
theorem issueCheck_ne_poison {b : Block} {w : Warp} {n : Option Nat} {o : Op} {x : Z1} {code : Nat} (h : issueCheck b w n o x = some code) :
    code ≠ 0x17 := by
  rintro rfl
  unfold issueCheck at h
  repeat' split at h
  all_goals cases h

/-- The record of a fault found at issue: its code, its instruction, its lanes and its place in the run. -/
theorem mkRecord_issue {s : State} {core slot : Nat} {w : Warp} (hw : s.warp? core slot = some w) (code : Nat) (lanes : Mask) (instr : Nat) :
    let r := mkRecord s core slot code 0 0 lanes 0 instr []
    r.code = code ∧ r.instr = instr ∧ r.lanes = lanes ∧ r.pos = w.pos ∧ r.resolved = decide (code = 0) := by
  refine ⟨rfl, rfl, rfl, ?_, rfl⟩
  unfold mkRecord
  rw [hw]
  rfl

/-! Each check, as what it asks for. -/

theorem encodingRefused_iff (b : Block) (o : Op) (x : Z1) : (!o.legal x || (o == .bar && decide (b.barCount ≤ fld x.mod 3 0))) = true ↔
    ¬ (o.legal x = true ∧ (o = .bar → fld x.mod 3 0 < b.barCount)) := by
  cases o.legal x <;> simp

theorem scopeRefused_iff (o : Op) (x : Z1) : (!o.scopes.contains x.scope || (x.scope != .set && poolDst (dstsOf o x))) = true ↔
    ¬ (o.scopes.contains x.scope = true ∧ (poolDst (dstsOf o x) = true → x.scope = .set)) := by
  cases o.scopes.contains x.scope <;> simp [and_comm]

theorem setMissing_iff (b : Block) (num : Nat) (x : Z1) :
    (x.scope == .set && (b.setOf num).isNone) = true ↔ ¬ (x.scope = .set → (b.setOf num).isSome = true) := by
  simp

theorem trailerMissing_iff (o : Op) (next : Option Nat) :
    (isXfer o && next.any fun v => opcodeOf v != 2) = true ↔ ¬ (isXfer o = true → ∀ v, next = some v → opcodeOf v = 2) := by
  cases next <;> simp

theorem runHazard_iff (l fills : List Nat) : l.any fills.contains = true ↔ ¬ ∀ r ∈ l, r ∉ fills := by
  simp

/-- Settles O60. A check that refuses an instruction takes its fault before the meaning is asked, and a fault stops warps and changes
nothing else; the checks are one chain, so each finds its fault where those before it pass. -/
theorem issueFaults : Obligations.IssueFaults := by
  unfold Obligations.IssueFaults
  refine ⟨?_, ?_⟩
  · intro i o x s core slot code w hz hfiring hcur hthere hw hreplay hrun htrailer t b hcheck
    obtain ⟨body, hexec⟩ := exec_of_z1? hz
    obtain ⟨hcode, hinstr, hlanes, hpos, hresolved⟩ := mkRecord_issue hw code (execMask w x) w.pc
    have hissue := (hexec s).trans (issue_of_issueCheck body hfiring hcur hthere hw hreplay hcheck)
    unfold issueFault at hissue
    generalize mkRecord (landWarp s core slot) core slot code 0 0 (execMask w x) 0 w.pc [] = r at hissue hcode hinstr hlanes hpos hresolved
    have hclean : r.code ≠ 0x17 := hcode ▸ issueCheck_ne_poison hcheck
    obtain ⟨hmem, hbar0⟩ := takeFault_keeps_device t core slot hclean (x.scope == .block)
    rw [takeFault_eq hw hclean] at hissue hmem hbar0
    obtain ⟨v, hv, hpc, q, hq, hrecord, hgroup⟩ := warp?_faultStops_self hw hrun htrailer r (x.scope == .block)
    refine ⟨_, v, q, hissue, hmem.trans (landWarp_keeps (f := State.mem) (fun _ _ _ => rfl) s core slot),
      hbar0.trans (landWarp_keeps (f := State.bar0) (fun _ _ _ => rfl) s core slot), hv, hpc, hq, (congrArg FaultRec.code hrecord).trans hcode,
      (congrArg FaultRec.instr hrecord).trans hinstr, (congrArg FaultRec.lanes hrecord).trans hlanes, (congrArg FaultRec.pos hrecord).trans hpos,
      (congrArg FaultRec.resolved hrecord).trans hresolved, holder_faultStops hw hrun htrailer r _, fun sl hsl => ?_⟩
    refine ⟨hgroup (stopsWith_subset_faultGroup _ _ _ _ _ hsl), fun hne => ?_⟩
    obtain ⟨y, hy, hhalted⟩ := warp?_faultStops_other hw hrun htrailer r hsl hne
    exact (congrArg (Option.any _) hy).trans hhalted
  · intro b w n o x check
    refine ⟨fun hpos ho => if_pos ⟨hpos, ho⟩, ?_⟩
    intro hpos encodes inScope placed member role priv regs free
    have hfull : ¬ (w.pos ≥ 24 ∧ o ≠ .runend) := fun h => hpos.elim (Nat.not_lt.2 h.1) h.2
    have hcheck : check = issueCheck b w n o x := rfl
    -- Every condition of the chain is the negation of what the statement names, so each clause goes down the chain to its branch.
    have hencodes : _ = ¬ encodes := propext (encodingRefused_iff b o x)
    have hscope : _ = ¬ inScope := propext (scopeRefused_iff o x)
    have hplaced : _ = ¬ placed := propext (trailerMissing_iff o n)
    have hmember : _ = ¬ member := propext (setMissing_iff b w.num x)
    have hrole : ((!roleOk b w.role o) = true) = ¬ role := by simp [role]
    have hpriv : ((!privOk w.agent o x) = true) = ¬ priv := by simp [priv]
    have hregs : ((!regsOk b w o x) = true) = ¬ regs := by simp [regs]
    have hfree : _ = ¬ free := propext (runHazard_iff (regsNamed b o x) w.fills)
    clear_value check encodes inScope placed member role priv regs free
    unfold issueCheck at hcheck
    rw [if_neg hfull] at hcheck
    obtain _ | v := n
    all_goals
      simp only [Option.any_none, Option.any_some] at hplaced
      simp only [hencodes, hscope, hplaced, hmember, hrole, hpriv, hregs, hfree] at hcheck
      refine ⟨?_, ?_, ?_, ?_, ?_, ?_, ?_, ?_, ?_⟩
      all_goals
        intros
        simp only [*, not_true, not_false_iff, if_true, if_false]

end Sys2Proof.Machine
end

