-- ==== Sys2Proof/Proofs/FaultReportEnds.lean ====
section
/-!
# The report of a block's last fault

A core lists its warps in the order of their slots, and the device its cores in theirs: there a value that is put replaces the one
at its key, so that a warp whose record has been reported has no other report due, and the launch's policy follows (09 R191).
-/
namespace Sys2Proof.Machine

theorem mem_of_smGet? {α : Type} {m : Sparse α} {i : Nat} {v : α} (h : smGet? m i = some v) : (i, v) ∈ m := by
  induction m with
  | nil => cases h
  | cons e m ih =>
    obtain ⟨k, w⟩ := e
    rw [smGet?] at h
    split at h
    · next hk =>
      cases h
      exact hk ▸ List.mem_cons_self
    · exact List.mem_cons_of_mem _ (ih h)

/-- In a table in order nothing else is left at the key that is put. -/
theorem mem_smPut_of_sorted {α : Type} {m : Sparse α} (hm : smSorted m = true) {i : Nat} {v : α} {p : Nat × α} (h : p ∈ smPut m i v) :
    p = (i, v) ∨ p ∈ m ∧ p.1 ≠ i := by
  induction m with
  | nil => exact .inl (List.mem_singleton.1 h)
  | cons q m ih =>
    obtain ⟨k, w⟩ := q
    have hlt := smSorted_lt hm
    rw [smPut] at h
    split at h
    · next hk =>
      rcases List.mem_cons.1 h with h | h
      · exact .inl h
      · exact .inr ⟨List.mem_cons_of_mem _ h, fun hp => absurd (hlt p h) (by omega)⟩
    · next hne =>
      split at h
      · next hik =>
        rcases List.mem_cons.1 h with h | h
        · exact .inl h
        · refine .inr ⟨h, fun hp => ?_⟩
          rcases List.mem_cons.1 h with h | h
          · exact hne (by rw [← hp, h])
          · exact absurd (hlt p h) (by omega)
      · rcases List.mem_cons.1 h with h | h
        · exact .inr ⟨h ▸ List.mem_cons_self, by rw [h]; exact fun hk => hne hk.symm⟩
        · exact (ih (smSorted_tail hm) h).imp_right fun h => ⟨List.mem_cons_of_mem _ h.1, h.2⟩

/-- Where the tables are in order, a warp that is put is the only one listed at its slot. -/
theorem mem_warps_setWarp {s : State} {core slot : Nat} {w : Warp} (hcores : smSorted s.cores = true)
    (hwarps : smSorted (s.core core).warps = true) {e : Nat × Core} (he : e ∈ (s.setWarp core slot w).cores) {x : Nat × Warp}
    (hx : x ∈ e.2.warps) : x = (slot, w) ∨ (∃ k, (e.1, k) ∈ s.cores ∧ x ∈ k.warps) ∧ ¬ (e.1 = core ∧ x.1 = slot) := by
  rcases mem_smPut_of_sorted hcores he with rfl | ⟨he, hne⟩
  · rcases mem_smPut_of_sorted hwarps hx with rfl | ⟨hx, hne⟩
    · exact .inl rfl
    · refine .inr ⟨⟨s.core core, mem_of_smGet? ?_, hx⟩, fun h => hne h.2⟩
      cases hk : smGet? s.cores core with
      | none => simp [State.core, smGetD, hk] at hx
      | some k => simp [State.core, smGetD, hk]
  · exact .inr ⟨⟨e.2, he, hx⟩, fun h => hne h.1⟩

/-! ### A block that is ended (09 R191) -/

/-- The warp has ended, with nothing in flight but stores. -/
def Warp.Ended (v : Warp) : Prop :=
  v.exited = fullMask ∧ v.stopped = none ∧ v.trailer = none ∧ v.pend = [] ∧ v.copies = 0 ∧ ∀ o ∈ v.ops, opStands o = true ∧ o.dst = none

theorem releasePart_keeps {α : Type} {f : State → α} (hcores : ∀ (s : State) c k, f (s.setCore c k) = f s) (s : State) (core slot : Nat) :
    f (releasePart s core slot) = f s := by
  unfold releasePart
  split
  · exact hcores s core _
  · rfl

/-- What is left of a warp's operations when its block is ended stores or is an atomic, and returns nothing. -/
theorem standingOps_stand (ops : List MemOp) : ∀ o ∈ (ops.filter opStands).map fun o => { o with dst := none, acq := false, todo := 0 },
    opStands o = true ∧ o.dst = none := by
  intro o ho
  obtain ⟨p, hp, rfl⟩ := List.mem_map.1 ho
  exact ⟨(List.mem_filter.1 hp).2, rfl⟩

theorem warp?_foldl_releasePart (l : List (Nat × Warp)) (s : State) (core sl : Nat) :
    (l.foldl (fun s e => releasePart s core e.1) s).warp? core sl = s.warp? core sl :=
  foldl_keeps (f := (State.warp? · core sl)) (fun s e => warp?_releasePart s core e.1 core sl) l s

/-- Where no copy is in progress, every warp of a block that is ended has ended, and memory stays as it is. -/
theorem terminateBlock_ends {s : State} (hcopies : s.copies = []) (core bi : Nat) : (terminateBlock s core bi).mem = s.mem ∧
    ∀ sl x, s.warp? core sl = some x → x.block = bi → x.agent = false → ∃ v, (terminateBlock s core bi).warp? core sl = some v ∧ v.Ended := by
  unfold terminateBlock
  extract_lets ws mine dropped cut keep run released warpsEnded blockEnded marked
  have hkeeps {α : Type} {f : State → α} (hcores : ∀ (s : State) c k, f (s.setCore c k) = f s) (hcut : f cut = f s) : f blockEnded = f s :=
    (hcores _ core _).trans ((foldl_keeps (fun s e => updWarp_keeps hcores s core e.1 _) ws released).trans
      ((foldl_keeps (fun s e => releasePart_keeps hcores s core e.1) ws cut).trans hcut))
  have hnone : marked.copies = [] := by
    simp only [marked, (hkeeps (f := State.copies) (fun _ _ _ => rfl) rfl).trans hcopies, List.map_nil]
  rw [hnone, List.filter_nil, List.foldl_nil]
  refine ⟨hkeeps (f := State.mem) (fun _ _ _ => rfl) rfl, fun sl x hx hblock hagent => ?_⟩
  have hmem : sl ∈ ws.map (·.1) :=
    List.mem_map.2 ⟨(sl, x), List.mem_filter.2 ⟨mem_of_smGet? hx, by simp [hblock, hagent]⟩, rfl⟩
  have hcut : cut.warp? core sl = some x := hx
  have hreleased : released.warp? core sl = some x := by rw [← hcut]; exact warp?_foldl_releasePart ws cut core sl
  have hended : ∃ v, warpsEnded.warp? core sl = some v ∧ v.Ended :=
    exists_warp?_foldl_updWarp core (·.1) _ (fun _ _ w => ⟨rfl, rfl, rfl, rfl, rfl, standingOps_stand w.ops⟩) ws hreleased (.inr hmem)
  have hsame : blockEnded.warp? core sl = warpsEnded.warp? core sl := State.warp?_updBlock warpsEnded core bi core sl _
  rwa [← hsame] at hended

/-! ### The last report -/

/-- The warp's record has been reported. -/
def Warp.reported (w : Warp) : Warp := { w with stopped := w.stopped.map fun q => { q with reported := true } }

theorem reportable_reported (w : Warp) : reportable w.reported = none := by
  unfold reportable Warp.reported
  cases w.stopped <;> simp

/-- A report is due that no agent takes and no debugger holds, it is the only one, no copy is in progress, and the tables of cores and of
the core's warps are in order. -/
structure LastReport (s : State) (core slot : Nat) (w : Warp) (r : FaultRec) : Prop where
  warp    : s.warp? core slot = some w
  due     : reportable w = some r
  native  : nativeAgent s core = true
  acted   : debugStop (s.block core w.block) r = false
  idle    : s.copies = []
  ordered : smSorted s.cores = true ∧ smSorted (s.core core).warps = true
  alone   : ∀ e ∈ s.cores, ∀ x ∈ e.2.warps, (reportable x.2).isSome = true → e.1 = core ∧ x.1 = slot

/-- Once it is reported, no report is due. -/
theorem LastReport.moreReports_setWarp {s : State} {core slot : Nat} {w : Warp} {r : FaultRec} (h : LastReport s core slot w r) (bi : Nat) :
    moreReports (s.setWarp core slot w.reported) core bi = false := by
  unfold moreReports
  refine List.any_eq_false.2 fun e he hmore => ?_
  obtain ⟨x, hx, hdue⟩ := List.any_eq_true.1 hmore
  have hsome : (reportable x.2).isSome = true := by
    cases hx : reportable x.2 with
    | none => simp [hx] at hdue
    | some q => rfl
  rcases mem_warps_setWarp h.ordered.1 h.ordered.2 (List.mem_filter.1 he).1 hx with rfl | ⟨⟨k, hk, hxk⟩, hne⟩
  · rw [reportable_reported] at hsome
    cases hsome
  · exact hne (h.alone (e.1, k) hk x hxk hsome)

theorem nativeAgent_setWarp {s : State} {core slot : Nat} {w : Warp} (hw : s.warp? core slot = some w) (w' : Warp) :
    nativeAgent (s.setWarp core slot w') core = nativeAgent s core := by
  unfold nativeAgent
  rw [State.warp?_setWarp]
  split
  · next h => rw [h.2, hw]; rfl
  · rfl

/-- The state in which a report is done: the record is marked, and the policy follows where no agent and no debugger takes it and no other
report is due. -/
def reportDone (core slot bi : Nat) (r : FaultRec) (s : State) : State :=
  let t := s.updWarp core slot Warp.reported
  if nativeAgent t core && !debugStop (s.block core bi) r && !moreReports t core bi then faultPolicy t core bi else { t with waits := [] }

theorem exec_faultReport_of_noArea {s : State} {core slot : Nat} {w : Warp} {r : FaultRec} (hw : s.warp? core slot = some w)
    (hr : reportable w = some r) (harea : ∀ l, s.launch? (s.block core w.block).launch = some l → l.field 96 8 = 0) :
    exec (.faultReport core slot) s = .next (reportDone core slot w.block r s) := by
  show execFaultReport core slot s = _
  unfold execFaultReport
  rw [hw]
  dsimp only
  rw [hr]
  dsimp only
  split
  · rfl
  · next l hl =>
    rw [if_pos (harea l hl)]
    rfl

/-- The policy follows the last report. -/
theorem LastReport.reportDone_eq {s : State} {core slot : Nat} {w : Warp} {r : FaultRec} (h : LastReport s core slot w r) :
    reportDone core slot w.block r s = faultPolicy (s.setWarp core slot w.reported) core w.block := by
  unfold reportDone
  dsimp only
  rw [State.updWarp_eq, h.warp]
  dsimp only
  rw [nativeAgent_setWarp h.warp, h.native, h.acted, h.moreReports_setWarp]
  rfl

/-- The block ends with its last report, unless its launch is to be aborted (09 R191). -/
theorem exec_faultReport_ends {s : State} {core slot : Nat} {w : Warp} {r : FaultRec} (h : LastReport s core slot w r)
    (harea : ∀ l, s.launch? (s.block core w.block).launch = some l → l.field 96 8 = 0)
    (hpolicy : (s.block core w.block).abortPol = false ∨ s.launch? (s.block core w.block).launch = none) :
    ∃ u, exec (.faultReport core slot) s = .next u ∧ u.mem = s.mem ∧
      ∀ sl x, s.warp? core sl = some x → x.block = w.block → x.agent = false → ∃ v, u.warp? core sl = some v ∧ v.Ended := by
  refine ⟨_, exec_faultReport_of_noArea h.warp h.due harea, ?_⟩
  have hends : faultPolicy (s.setWarp core slot w.reported) core w.block = terminateBlock (s.setWarp core slot w.reported) core w.block := by
    unfold faultPolicy
    dsimp only
    rw [State.block_setWarp, if_neg]
    rcases hpolicy with hp | hp
    · simp [hp]
    · have hlaunch : (s.setWarp core slot w.reported).launch? (s.block core w.block).launch = none := hp
      simp [hlaunch]
  obtain ⟨hmem, hall⟩ := terminateBlock_ends (s := s.setWarp core slot w.reported) h.idle core w.block
  rw [h.reportDone_eq, hends]
  refine ⟨hmem, fun sl x hx hblock hagent => ?_⟩
  by_cases hsl : sl = slot
  · subst hsl
    obtain rfl : x = w := Option.some.inj (hx.symm.trans h.warp)
    exact hall sl x.reported (State.warp?_setWarp_self s core sl _) hblock hagent
  · exact hall sl x ((State.warp?_setWarp s core slot core sl _).trans ((if_neg fun hk => hsl hk.2).trans hx)) hblock hagent

end Sys2Proof.Machine
end

