-- ==== Sys2Proof/Proofs/FaultReportsRefuted.lean ====
section
/-!
# The last report of a block, on a core that lists its slots out of order

The record of a stopped warp is marked as reported by putting the warp back at its slot. A list out of order takes it in front of the
first larger slot, and what it listed for the slot before stays behind it: the report that was just made seems to be due still.
-/
namespace Sys2Proof.Machine

/-- A TRAP's record, not reported yet. -/
def trapRecord : FaultRec :=
  { code := 0x15, sub := 0, flags := 0, warp := 0, set := 0, pos := 0, instr := 0, runStart := 0, lanes := 1, trap := 0, tempsW := 0, time := 0
    addrs := [], temps := [], reported := false, resolved := false, walks := [], group := [0] }

def runningWarp (n : Nat) : Warp := { block := 0, num := n, role := .plain, agent := false, pc := 0, path := 1 }

def trappedWarp : Warp := { runningWarp 0 with stopped := some trapRecord }

/-- A core without an agent whose block has a trapped and a running warp. -/
def trappedState (warps : List (Nat × Warp)) : State := { cores := [(0, { warps := warps, blocks := [(0, { slots := [0, 1], nwarps := 2 })] })] }

/-- The slots in their order. -/
def slotsInOrder : State := trappedState [(0, trappedWarp), (1, runningWarp 1)]

/-- The same warps, listed with slot 1 in front. -/
def slotsOutOfOrder : State := trappedState [(1, runningWarp 1), (0, trappedWarp)]

/-- A state that meets the premises of `exec_faultReport_ends`. -/
theorem lastReport_slotsInOrder : LastReport slotsInOrder 0 0 trappedWarp trapRecord :=
  ⟨by decide, by decide, by decide, by decide, by decide, by decide, by decide⟩

theorem wit_exec_faultReport_ends :
    ∃ u, exec (.faultReport 0 0) slotsInOrder = .next u ∧ u.mem = slotsInOrder.mem ∧ ∃ v, u.warp? 0 1 = some v ∧ v.Ended := by
  obtain ⟨u, hu, hmem, hended⟩ := exec_faultReport_ends lastReport_slotsInOrder (by decide) (.inl rfl)
  exact ⟨u, hu, hmem, hended 1 (runningWarp 1) rfl rfl rfl⟩

/-- Slot 0 is listed twice after the report, and its warp is not ended. -/
theorem exec_slotsOutOfOrder_keeps_stopped :
    (match exec (.faultReport 0 0) slotsOutOfOrder with
     | .next t => some ((t.core 0).warps.map (·.1), (t.warp? 0 0).map (·.stopped.isSome))
     | _ => none) = some ([0, 1, 0], some true) := by decide

/-- Refutes O24: the clauses of the last report ask that a core lists each slot once, not that it lists them in order. In `slotsOutOfOrder`
the record marked as reported goes in front of slot 1, and the trapped warp as it was stays listed behind it: it counts as a report
that is still due, so the policy does not follow and the warp stays stopped. Where the tables are in order, the refuted clause holds:
`exec_faultReport_ends`. -/
theorem not_faultReports : ¬ Obligations.FaultReports := by
  unfold Obligations.FaultReports
  intro h
  obtain ⟨hnoArea, -⟩ := h slotsOutOfOrder 0 0 trappedWarp trapRecord rfl rfl
  obtain ⟨-, -, hends, -⟩ := hnoArea (by decide)
  obtain ⟨t, ht, -, hended⟩ := hends (by decide) (.inl rfl)
  obtain ⟨v, hv, -, hgoing, -⟩ := hended 0 trappedWarp rfl rfl rfl
  have hstopped := exec_slotsOutOfOrder_keeps_stopped
  rw [ht] at hstopped
  simp [hv, hgoing] at hstopped

end Sys2Proof.Machine
end

