-- ==== Sys2Proof/Proofs/IntegerArithmetic.lean ====
section
/-!
# Integer arithmetic

What a lane computes, as 12 R233 to R241 say it, is what the model's functions of one lane compute. The shared shapes of the
meanings (`gives_typed`, `gives_preds`) turn each of these equations into the completion of the instruction.
-/
namespace Sys2Proof.Machine

/-- An issue whose effect is a result that may write registers, predicates and flags together. -/
theorem gives_result {i : Instr} {o : Op} {x : Z1} {body : Ctx → State → Act} {s : State} {en : Entry} {L d n : Nat} {f : Nat → List Word}
    {ps : List (Nat × (Nat → Bool))} {flags : BitVec 5} (he : exec i s = issue o x body s) (h : entry o x s = some en)
    (hb : body en.c en.s = .done (en.c.result en.s L (some d) f ps flags)) (hn : ∀ l, (f l).length ≤ n) :
    Gives i s en L d n f ps flags := by
  obtain ⟨t, ht, hreg, hpred, hflags, hdest, hissue⟩ := issue_result h hb
  exact ⟨t, he.trans ht, hreg, hpred, hflags, hdest, hn, hissue⟩

/-! ### The functions of one lane (12 R233 to R239) -/

theorem satIf_decide (p : Prop) [Decidable p] (t : Ty) (z : Int) :
    satIf (decide p) t z = if p then satI z (loT t) (hiT t) else z := by
  simp only [satIf, decide_eq_true_eq]

theorem divT_fst (t : Ty) (x y : Int) :
    (divT t x y).1 = if y = 0 then (if t.signed then -1 else hiT t) else if t.signed ∧ x = loT t ∧ y = -1 then loT t else x.tdiv y := by
  simp only [divT, apply_ite Prod.fst]

theorem divT_snd (t : Ty) (x y : Int) :
    (divT t x y).2 = if y = 0 then x else if t.signed ∧ x = loT t ∧ y = -1 then 0 else x.tmod y := by
  simp only [divT, apply_ite Prod.snd, Int.tmod_def, Int.mul_comm y]

theorem ite_neg_eq_natAbs (z : Int) : (if z < 0 then -z else z) = (z.natAbs : Int) := by
  split <;> omega

/-- A choice by a predicate and its negation, written as the other choice (12 R239). -/
theorem ite_bne_eq_cast_ite (p q : Bool) (u v : Nat) : (if p != q then (u : Int) else (v : Int)) = ((if p = q then v else u : Nat) : Int) := by
  by_cases h : p = q <;> simp [h]

/-- Settles O1: each clause is the completion of the instruction's shape at the value its rule gives. -/
theorem integerArithmetic : Obligations.IntegerArithmetic := by
  unfold Obligations.IntegerArithmetic
  intro x s en sat lim
  refine ⟨fun h => ?iadd, fun h => ?isub, fun h => ?imul, fun h => ?imulh, fun h => ?imad, fun h => ?idiv, fun h => ?irem, fun h => ?imin,
    fun h => ?imax, fun h => ?iabs, fun h => ?ineg, fun h => ?iaddc, fun h => ?icmp, fun h => ?sel, fun h => ?mov, fun h => ?lea⟩
  case imul | imulh | imad | mov | lea => exact gives_typed rfl h rfl fun _ => rfl
  case iadd | isub | ineg => exact gives_typed rfl h rfl fun _ => congrArg (wrT x.ty) (satIf_decide _ _ _)
  case idiv => exact gives_typed rfl h rfl fun _ => congrArg (wrT x.ty) (divT_fst _ _ _)
  case irem => exact gives_typed rfl h rfl fun _ => congrArg (wrT x.ty) (divT_snd _ _ _)
  case imin => exact gives_typed rfl h rfl fun _ => congrArg (wrT x.ty) (Int.min_def _ _)
  case imax => exact gives_typed rfl h rfl fun _ => congrArg (wrT x.ty) (Int.max_def _ _)
  case iabs =>
    exact gives_typed rfl h rfl fun _ =>
      congrArg (wrT x.ty) ((congrArg (satIf (sat0 x) x.ty) (ite_neg_eq_natAbs _)).trans (satIf_decide _ _ _))
  case iaddc => exact gives_result rfl h rfl fun _ => Nat.le_refl 1
  case icmp => exact gives_preds rfl h rfl rfl
  case sel => exact gives_typed rfl h rfl fun _ => congrArg (wrT x.ty) (ite_bne_eq_cast_ite _ _ _ _)

end Sys2Proof.Machine
end

