-- ==== Sys2Proof/Proofs/LogicAndBits.lean ====
section
/-!
# Logic, shifts, fields, counts and packing

The functions of one lane in 12 R242 to R252, equated with the rules' own sums and bits where the model folds over a list or tests
a flag. The other meanings state their rule word for word.
-/
namespace Sys2Proof.Machine

theorem foldl_add_eq_add_sum {α β : Type} [Add β] [Zero β] [Std.Associative fun u v : β => u + v]
    [Std.LawfulIdentity (fun u v : β => u + v) 0] (f : α → β) (l : List α) (z : β) :
    l.foldl (fun a i => a + f i) z = z + (l.map f).sum := by
  rw [List.sum_eq_foldl, ← List.foldl_assoc (op := fun u v : β => u + v), List.foldl_map]
  exact congrArg (fun a => l.foldl (fun a i => a + f i) a) (Std.LawfulRightIdentity.right_id (op := fun u v : β => u + v) z).symm

/-- The result register keeps 32 bits (12 R244). -/
theorem ofNat_fshfN (p : Prop) [Decidable p] (a b s : Nat) :
    BitVec.ofNat 32 (fshfN (decide p) a b s) =
      BitVec.ofNat 32 (if p then (a * 2 ^ 32 + b) * 2 ^ min s 32 / 2 ^ 32 else (a * 2 ^ 32 + b) / 2 ^ min s 32) := by
  refine BitVec.eq_of_toNat_eq ?_
  by_cases h : p <;> simp [fshfN, h]

theorem popcount_eq_sum (w x : Nat) : popcount w x = ((List.range w).map fun i => (x >>> i) % 2).sum :=
  (foldl_add_eq_add_sum _ _ 0).trans (Nat.zero_add _)

/-- P2V weighs predicate k by 2^k (12 R250). -/
theorem foldl_predBits_eq_sum (f : Nat → Bool) :
    (List.range 8).foldl (fun a k => a + (f k).toNat * 2 ^ k) 0 = ((List.range 8).map fun k => (f k).toNat * 2 ^ k).sum :=
  (foldl_add_eq_add_sum _ _ 0).trans (Nat.zero_add _)

theorem shiftRight_mod_two_beq_one (v k : Nat) : ((v >>> k) % 2 == 1) = v.testBit k := by
  rw [Nat.testBit_eq_decide_div_mod_eq, Nat.shiftRight_eq_div_pow]
  rfl

/-- Byte j of a 32-bit source of IDOT4, signed or unsigned (12 R251). -/
def dotByte (sg : Bool) (v j : Nat) : Int := if sg then sextN 8 (v / 2 ^ (8 * j) % 256) else (v / 2 ^ (8 * j) % 256 : Nat)

theorem nfld_byte (v j : Nat) : nfld v (8 * j + 7) (8 * j) = v / 2 ^ (8 * j) % 256 := by
  have hwidth : 8 * j + 7 + 1 - 8 * j = 8 := by omega
  simp only [nfld, Nat.shiftRight_eq_div_pow, hwidth, Nat.reducePow]

theorem idot4_eq_sum (sa sb : Bool) (a b : Nat) (acc : Int) :
    idot4 sa sb a b acc = acc + ((List.range 4).map fun j => dotByte sa a j * dotByte sb b j).sum := by
  simp only [idot4, nfld_byte, foldl_add_eq_add_sum, dotByte]

theorem ipack_decide (t : Ty) (p : Prop) [Decidable p] (a b c : Nat) :
    ipack t (decide p) a b c =
      let pack (v : Nat) : Nat := truncN t.width (satI (if p then (v : Int) else sextN 32 v) (loT t) (hiT t))
      if t.width = 16 then pack a + 2 ^ 16 * pack b else pack a + 2 ^ 8 * pack b + 2 ^ 16 * (c % 2 ^ 16) := by
  simp only [ipack, decide_eq_true_eq]

/-- Settles O2: each clause is the completion of the instruction's shape at the value its rule gives. -/
theorem logicAndBits : Obligations.LogicAndBits := by
  unfold Obligations.LogicAndBits
  intro x s en n w el
  refine ⟨fun h => ?and, fun h => ?or, fun h => ?xor, fun h => ?andn, fun h => ?not, fun h => ?shl, fun h => ?shr, fun h => ?sar, fun h => ?rot,
    fun h => ?fshf, fun h => ?bfx, fun h => ?bfi, fun h => ?clz, fun h => ?ffs, fun h => ?popc, fun h => ?brev, fun h => ?prmt,
    fun h => ?pset, fun h => ?p2v, fun h => ?v2p, fun h => ?idot4, fun h => ?ipack⟩
  case and | or | xor | andn | not | shl | shr | sar | rot | bfx | bfi | brev => exact gives_typed rfl h rfl fun _ => rfl
  case clz | ffs | prmt => exact gives_plain rfl h rfl fun _ => rfl
  case fshf => exact gives_plain rfl h rfl fun _ => congrArg (fun v => [v]) (ofNat_fshfN _ _ _ _)
  case popc => exact gives_plain rfl h rfl fun _ => congrArg (fun v => [BitVec.ofNat 32 v]) (popcount_eq_sum _ _)
  case pset => exact gives_preds rfl h rfl rfl
  case p2v => exact gives_plain rfl h rfl fun _ => congrArg (fun v => [BitVec.ofNat 32 v]) (foldl_predBits_eq_sum _)
  case v2p =>
    exact gives_preds rfl h rfl (List.map_congr_left fun k _ => congrArg (Prod.mk k) (funext fun _ => shiftRight_mod_two_beq_one _ k))
  case idot4 =>
    exact gives_typed rfl h rfl fun _ =>
      congrArg (wrT x.ty) ((congrArg (satIf (fld x.mod 2 2 = 1) x.ty) (idot4_eq_sum _ _ _ _ _)).trans (satIf_decide _ _ _))
  case ipack => exact gives_plain rfl h rfl fun _ => congrArg (fun v => [BitVec.ofNat 32 v]) (ipack_decide _ _ _ _ _)

end Sys2Proof.Machine
end

