-- ==== Sys2Proof/Proofs/FloatingResults.lean ====
section
/-!
# Floating arithmetic, comparison and conversion

A fixed-latency floating instruction computes its table of lanes once and sends each lane the entry of the lane that supplies its
sources (13 R253). That is said once here; the clauses then give the functions of one lane.
-/
namespace Sys2Proof.Machine

theorem latOf_eq_clks {o : Op} {x : Z1} {en : Entry} {n : Nat} (h : o.lat x.ty = .fixed n) : latOf en.c o x = clks en o x n n := by
  simp only [latOf, h, clks, ite_self]

theorem result_of_empty {c : Ctx} (he : c.e = 0) (s : State) (L : Nat) (d : Option Nat) (f : Nat → List Word)
    (ps : List (Nat × (Nat → Bool))) (flags : BitVec 5) : c.result s L d f ps flags = s := by
  unfold Ctx.result
  exact if_pos he

theorem flagsOf_zero (c : Ctx) : (flagsOf c fun _ => 0) = 0 :=
  List.foldlRecOn (motive := fun a => a = 0) (computing c) _ rfl fun _ ha _ _ => (BitVec.or_zero).trans ha

/-- The effect of a fixed-latency floating instruction: the words of the lane that supplies the sources, and the flags
of the lanes that compute (13 R253). -/
theorem fpWords_eq_result (o : Op) (x : Z1) (f : Ctx → State → Nat → List Word × BitVec 5) (c : Ctx) (s : State) :
    fpWords o x f c s = .done (c.result s (latOf c o x) (some x.d.toNat) (fun l => (f c s (srcLane c l)).1) []
      (if c.e = 0 then 0 else flagsOf c fun l => (f c s l).2)) := by
  unfold fpWords
  by_cases he : c.e = 0
  · rw [if_pos he, result_of_empty he]
  · simp only [if_neg he, tableAt_laneTable, foldl_laneTable c (f c s) Prod.snd]

/-- An instruction whose effect is that of a fixed-latency floating one. -/
theorem gives_fpBody {i : Instr} {o : Op} {x : Z1} {body : Ctx → State → Act} {s : State} {en : Entry} {L n : Nat}
    {f : Ctx → State → Nat → List Word × BitVec 5} {w : Nat → List Word} {flags : BitVec 5}
    (he : exec i s = issue o x body s) (h : entry o x s = some en) (hb : body en.c en.s = fpWords o x f en.c en.s)
    (hl : latOf en.c o x = L) (hw : ∀ l, (f en.c en.s (srcLane en.c l)).1 = w l)
    (hf : (if en.c.e = 0 then 0 else flagsOf en.c fun l => (f en.c en.s l).2) = flags) (hn : ∀ l, (w l).length ≤ n) :
    Gives i s en L x.d.toNat n w [] flags := by
  obtain rfl : (fun l => (f en.c en.s (srcLane en.c l)).1) = w := funext hw
  subst hl hf
  exact gives_result he h (hb.trans (fpWords_eq_result o x f en.c en.s)) hn

theorem bodyFcmp_eq_result (x : Z1) (c : Ctx) (s : State) :
    let r (l : Nat) : Bool × BitVec 5 := fcmpF (fmtOf x.ty) (fld x.mod 6 3) (elem x.ty (c.srcA s x 1 l) 0) (elem x.ty (c.srcB s x 1 l) 0)
    bodyFcmp x c s = .done (c.result s (latOf c .fcmp x) none (fun _ => [])
      (if c.e = 0 then [] else [(fld x.mod 2 0, fun l => (r (srcLane c l)).1)]) (if c.e = 0 then 0 else flagsOf c fun l => (r l).2)) := by
  intro r
  unfold bodyFcmp
  by_cases he : c.e = 0
  · rw [if_pos he, result_of_empty he]
  · simp only [if_neg he, tableAt_laneTable]
    rw [foldl_laneTable c r Prod.snd]

theorem withNf_of_valid {x : Z1} {k : BitVec 16 → Ctx → State → Act} {c : Ctx} {s : State}
    (h : nfValid (smGetD c.b.nf 0 (fld x.mod 6 4)) = true) : withNf x k c s = k (smGetD c.b.nf 0 (fld x.mod 6 4)) c s :=
  if_pos h

/-- An instruction whose effect is predicates and flags. -/
theorem gives_predResult {i : Instr} {o : Op} {x : Z1} {body : Ctx → State → Act} {s : State} {en : Entry} {L : Nat}
    {ps : List (Nat × (Nat → Bool))} {flags : BitVec 5} (he : exec i s = issue o x body s) (h : entry o x s = some en)
    (hl : latOf en.c o x = L) (hb : body en.c en.s = .done (en.c.result en.s (latOf en.c o x) none (fun _ => []) ps flags)) :
    GivesPreds i s en L ps flags := by
  subst hl
  obtain ⟨t, ht, hpred, hflags, hdest, hissue⟩ := issue_preds h hb
  exact ⟨t, he.trans ht, hpred, hflags, hdest, hissue⟩

/-- Settles O3: each clause is the completion of the floating shape at the function of one lane its rule gives. -/
theorem floatArithmetic : Obligations.FloatArithmetic := by
  unfold Obligations.FloatArithmetic
  intro x s en f mode L
  refine ⟨fun h => ?_, fun h => ?_, fun h => ?_, fun h => ?_, fun h => ?_, fun h => ?_, fun h => ?_, fun h => ?_⟩
  all_goals exact gives_fpWords rfl h (latOf_eq_clks rfl) fun _ => rfl

/-- Settles O4: the conversions and FCLASS are floating results of one word; F2I and FMAXI may have two, FCMP gives a predicate, and F2N
and N2F reach theirs where the descriptor they name is valid (06 R124). -/
theorem floatCompareAndConvert : Obligations.FloatCompareAndConvert := by
  unfold Obligations.FloatCompareAndConvert
  intro x s en f mode g nf L
  refine ⟨fun h => ?fcmp, fun h => ?fclass, fun h => ?frnd, fun h => ?f2i, fun h => ?i2f, fun h => ?f2f, fun h hnf => ?f2n, fun h hnf => ?n2f,
    fun h => ?fmaxi⟩
  case fclass | frnd | i2f | f2f => exact gives_fpWords rfl h (latOf_eq_clks rfl) fun _ => rfl
  case fcmp => exact gives_predResult rfl h (latOf_eq_clks rfl) (bodyFcmp_eq_result x en.c en.s)
  case f2i => exact gives_fpBody rfl h rfl (latOf_eq_clks rfl) (fun _ => rfl) rfl fun _ => wrT_length _ _
  case f2n | n2f => exact gives_fpBody rfl h (withNf_of_valid hnf) (latOf_eq_clks rfl) (fun _ => rfl) rfl fun _ => Nat.le_refl 1
  case fmaxi =>
    have hflags : (if en.c.e = 0 then 0 else flagsOf en.c fun _ => 0) = 0 := by rw [flagsOf_zero, ite_self]
    exact gives_fpBody rfl h rfl (latOf_eq_clks rfl) (fun _ => rfl) hflags fun _ => List.length_take_le _ _

end Sys2Proof.Machine
end

