-- ==== Sys2Proof/Proofs/QueuedOperations.lean ====
section
/-!
# Queued operations

What the queuing of an operation does to the warps that take part, whatever the operation is: its counter rises by one in every
member with lanes, and the leader holds it (02 R36, R38).
-/
namespace Sys2Proof.Machine

/-! ### A change of every member with lanes -/

/-- Change the warp of every member with lanes. -/
def updMembers (core : Nat) (f : Warp → Warp) (ms : List (Nat × Mask)) (s : State) : State :=
  ms.foldl (fun s p => if p.2 = 0 then s else s.updWarp core p.1 f) s

theorem moveCnt_eq_updMembers (s : State) (core : Nat) (ms : List (Nat × Mask)) (k : Cnt) (up : Bool) :
    moveCnt s core ms k up = updMembers core (fun w => w.addCnt k up) ms s := rfl

theorem expectAll_eq_updMembers (s : State) (core : Nat) (ms : List (Nat × Mask)) (id : Nat) (regs : List Nat) :
    expectAll s core ms id regs = updMembers core (fun w => w.expect id regs) ms s := rfl

theorem updMembers_cons (core : Nat) (f : Warp → Warp) (p : Nat × Mask) (ms : List (Nat × Mask)) (s : State) :
    updMembers core f (p :: ms) s = updMembers core f ms (if p.2 = 0 then s else s.updWarp core p.1 f) := rfl

/-- What a change keeps of a warp, it keeps of every warp there is. -/
theorem map_warp?_updWarp_of_keeps {α : Type} {g : Warp → α} {f : Warp → Warp} (hf : ∀ w, g (f w) = g w) (s : State) (core i sl : Nat) :
    ((s.updWarp core i f).warp? core sl).map g = (s.warp? core sl).map g := by
  rw [State.warp?_updWarp]
  split
  · rw [Option.map_map]
    exact congrArg (Option.map · _) (funext hf)
  · rfl

theorem map_warp?_updMembers_of_keeps {α : Type} {g : Warp → α} {f : Warp → Warp} (hf : ∀ w, g (f w) = g w) (core : Nat)
    (ms : List (Nat × Mask)) (s : State) (sl : Nat) : ((updMembers core f ms s).warp? core sl).map g = (s.warp? core sl).map g := by
  induction ms generalizing s with
  | nil => rfl
  | cons p ms ih =>
    rw [updMembers_cons, ih]
    split
    · rfl
    · exact map_warp?_updWarp_of_keeps hf s core p.1 sl

theorem warp?_updMembers_of_notMem (core : Nat) (f : Warp → Warp) {ms : List (Nat × Mask)} (s : State) {sl : Nat}
    (h : sl ∉ ms.map (·.1)) : (updMembers core f ms s).warp? core sl = s.warp? core sl := by
  induction ms generalizing s with
  | nil => rfl
  | cons p ms ih =>
    obtain ⟨hp, hms⟩ := not_or.1 fun hm => h (List.mem_cons.2 hm)
    rw [updMembers_cons, ih _ hms]
    split
    · rfl
    · rw [State.warp?_updWarp, if_neg fun hk => hp hk.2]

/-- Where each warp takes part once, a member with lanes is changed once. -/
theorem warp?_updMembers_of_mem (core : Nat) (f : Warp → Warp) {ms : List (Nat × Mask)} (s : State) (hms : (ms.map (·.1)).Nodup)
    {q : Nat × Mask} (hq : q ∈ ms) (h0 : q.2 ≠ 0) : (updMembers core f ms s).warp? core q.1 = (s.warp? core q.1).map f := by
  induction ms generalizing s with
  | nil => cases hq
  | cons p ms ih =>
    obtain ⟨hp, hnodup⟩ := List.nodup_cons.1 hms
    rw [updMembers_cons]
    rcases List.mem_cons.1 hq with rfl | hq
    · rw [warp?_updMembers_of_notMem core f _ hp, if_neg h0, State.warp?_updWarp_self]
    · have hne : q.1 ≠ p.1 := fun hk => hp (List.mem_map.2 ⟨q, hq, hk⟩)
      rw [ih _ hnodup hq]
      split
      · rfl
      · rw [State.warp?_updWarp, if_neg fun hk => hne hk.2]

/-! ### The queuing of an operation -/

/-- The operation as the leader holds it. -/
def queuedOp (c : Ctx) (s : State) (o : MemOp) : MemOp :=
  { o with id := s.nextId, members := c.members, low := c.low, e := c.e, iaddr := c.addr
           opens := (c.members.filter fun p => p.2 != 0).map (·.1) }

/-- The counter that an operation moves (02 R38). -/
def MemOp.counter (o : MemOp) : Cnt := if o.isLoad then .loads else .stores

/-- The leader takes the operation. -/
def heldByLeader (c : Ctx) (s : State) (o : MemOp) : State :=
  s.fresh.2.updWarp c.core c.slot fun w => { w with ops := w.ops ++ [queuedOp c s o] }

theorem pushOp_eq (c : Ctx) (s : State) (o : MemOp) :
    pushOp c s o = expectAll (moveCnt (heldByLeader c s o) c.core c.members o.counter true) c.core c.members s.nextId (dstRegs o.dst o.nreg) := rfl

theorem cnt_addCnt_up (w : Warp) (k : Cnt) : (w.addCnt k true).cnt k = w.cnt k + 1 := by cases k <;> rfl

theorem ops_addCnt (w : Warp) (k : Cnt) (up : Bool) : (w.addCnt k up).ops = w.ops := by cases k <;> rfl

theorem cnt_expect (w : Warp) (id : Nat) (regs : List Nat) (k : Cnt) : (w.expect id regs).cnt k = w.cnt k := by cases k <;> rfl

theorem ops_expect (w : Warp) (id : Nat) (regs : List Nat) : (w.expect id regs).ops = w.ops := rfl

/-- The counter of a queued operation rises by one in every member with lanes. -/
theorem cnt_pushOp {c : Ctx} (s : State) (o : MemOp) (hms : (c.members.map (·.1)).Nodup) {q : Nat × Mask} (hq : q ∈ c.members) (h0 : q.2 ≠ 0) :
    ((pushOp c s o).warp? c.core q.1).map (Warp.cnt · o.counter) = (s.warp? c.core q.1).map fun w => w.cnt o.counter + 1 := by
  rw [pushOp_eq, expectAll_eq_updMembers, map_warp?_updMembers_of_keeps fun w => cnt_expect w _ _ o.counter,
    moveCnt_eq_updMembers, warp?_updMembers_of_mem _ _ _ hms hq h0, Option.map_map]
  have hrise : (Warp.cnt · o.counter) ∘ (Warp.addCnt · o.counter true) = fun w => w.cnt o.counter + 1 := funext fun w => cnt_addCnt_up w _
  rw [hrise]
  exact map_warp?_updWarp_of_keeps (fun w => congrArg (· + 1) (by cases o.counter <;> rfl)) s.fresh.2 c.core c.slot q.1

/-- The leader holds the operations it held, and the one that is queued. -/
theorem ops_pushOp (c : Ctx) (s : State) (o : MemOp) :
    ((pushOp c s o).warp? c.core c.slot).map Warp.ops = (s.warp? c.core c.slot).map fun w => w.ops ++ [queuedOp c s o] := by
  rw [pushOp_eq, expectAll_eq_updMembers, map_warp?_updMembers_of_keeps fun w => ops_expect w _ _,
    moveCnt_eq_updMembers, map_warp?_updMembers_of_keeps fun w => ops_addCnt w _ _, heldByLeader, State.warp?_updWarp_self, Option.map_map]
  rfl

/-! ### The end of an issue that queued an operation -/

theorem OnlyCore.onlyWarps {core : Nat} {s t : State} (h : OnlyCore core s t) : OnlyWarps core s t := by
  obtain ⟨hstate, hcores, hcore⟩ := h
  exact ⟨congrArg (fun z : State => { z with nextId := s.nextId }) hstate, hcores, hcore⟩

/-- What a warp's place does not bear on stays as the warps move. -/
theorem OnlyPlace.map_of_still {α : Type} {core : Nat} {s t : State} (h : OnlyPlace core s t) {g : Warp → α} (hg : ∀ w : Warp, g w.still = g w)
    (sl : Nat) : (t.warp? core sl).map g = (s.warp? core sl).map g := by
  have hs := congrArg (Option.map g) (h.issue.2.1 sl)
  rwa [Option.map_map, Option.map_map, show g ∘ Warp.still = g from funext hg] at hs

theorem OnlyPlace.onlyOps {core : Nat} {s t : State} (h : OnlyPlace core s t) : OnlyOps core s t :=
  ⟨h.1.onlyWarps, h.map_of_still fun _ => rfl, h.issue.2.2⟩

theorem cnt_still (w : Warp) (k : Cnt) : w.still.cnt k = w.cnt k := by cases k <;> rfl

/-- From s to t the leader of an issue queued an operation, and otherwise its warps only moved. -/
theorem raises_of_pushOp {en : Entry} {s t : State} {o : MemOp} (hfair : en.Fair) (hs : ∀ sl, s.warp? en.c.core sl = en.s.warp? en.c.core sl)
    (k : OnlyPlace en.c.core (pushOp en.c s o) t) : Raises en t o.counter := by
  intro q hq h0 w hw
  have hcnt := (k.map_of_still (fun w => cnt_still w o.counter) q.1).trans (cnt_pushOp s o hfair.1 hq h0)
  rw [hs, hw] at hcnt
  exact Option.map_eq_some_iff.1 hcnt

theorem queues_of_pushOp {en : Entry} {s t : State} {o : MemOp} {f : MemOp → Prop} (hfair : en.Fair)
    (hs : ∀ sl, s.warp? en.c.core sl = en.s.warp? en.c.core sl) (hid : s.nextId = en.s.nextId)
    (k : OnlyPlace en.c.core (pushOp en.c s o) t) (hf : f (queuedOp en.c s o)) : Queues en t f := by
  obtain ⟨w0, hw0⟩ := Option.isSome_iff_exists.1 hfair.2.2
  have hops := (k.map_of_still (g := Warp.ops) (fun _ => rfl) en.c.slot).trans (ops_pushOp en.c s o)
  rw [hs, hw0] at hops
  obtain ⟨w, hw, hlist⟩ := Option.map_eq_some_iff.1 hops
  exact ⟨w, hw, queuedOp en.c s o, hlist ▸ List.mem_append_right _ (List.mem_singleton.2 rfl), hid, rfl, hf⟩

end Sys2Proof.Machine
end

