-- ==== Sys2Proof/Proofs/SpecialFunctions.lean ====
section
/-!
# Special functions

A special function whose unit is free takes the unit and queues an operation with the value of every lane (02 R36, 13 R265).
-/
namespace Sys2Proof.Machine

/-- The special-function unit of the leader's partition is taken for the lanes that compute (13 R265). -/
def sfuTaken (c : Ctx) (s : State) : State :=
  s.updPart c.core (partOf c.slot) fun q =>
    { q with sfuFree := s.now + ceilDiv (if c.scope = .warp then 1 else popcount 32 c.e.toNat) 16 }

/-- The function of one lane, of the first elements of two sources. -/
def sfuLane (x : Z1) (f : FFmt → Nat → FV → FV → Nat × BitVec 5) (c : Ctx) (s : State) (l : Nat) : Nat × BitVec 5 :=
  f (fmtOf x.ty) (modeOf x) (decodeF (fmtOf x.ty) (elem x.ty (c.srcA s x 1 l) 0)) (decodeF (fmtOf x.ty) (elem x.ty (c.srcB s x 1 l) 0))

/-- The value that a special function fixes at issue. -/
def sfuOp (x : Z1) (f : FFmt → Nat → FV → FV → Nat × BitVec 5) (c : Ctx) (s : State) : MemOp :=
  { op0 .value with
    dst := some x.d.toNat, nreg := 1, flags := flagsOf c fun l => (sfuLane x f c s l).2
    accs := (maskLanes c.e).map fun l =>
      { lane := l, addr := 0, attr := {}, a := [BitVec.ofNat 32 (sfuLane x f c s (srcLane c l)).1], b := [] } }

theorem sfu_of_empty {x : Z1} {f : FFmt → Nat → FV → FV → Nat × BitVec 5} {c : Ctx} {s : State} (hfree : sfuBusy c s = false)
    (he : c.e = 0) : sfu x f c s = .done s := by
  unfold sfu
  simp only [hfree, Bool.false_eq_true, if_false, he, if_true]

/-- A special function reads its sources beside the unit it takes. -/
theorem sfuLane_sfuTaken (x : Z1) (f : FFmt → Nat → FV → FV → Nat × BitVec 5) (c : Ctx) (s : State) :
    sfuLane x f c (sfuTaken c s) = sfuLane x f c s := rfl

theorem sfuOp_sfuTaken (x : Z1) (f : FFmt → Nat → FV → FV → Nat × BitVec 5) (c : Ctx) (s : State) :
    sfuOp x f c (sfuTaken c s) = sfuOp x f c s := by
  simp only [sfuOp, sfuLane_sfuTaken]

theorem sfu_of_lanes {x : Z1} {f : FFmt → Nat → FV → FV → Nat × BitVec 5} {c : Ctx} {s : State} (hfree : sfuBusy c s = false)
    (he : c.e ≠ 0) : sfu x f c s = .done (pushOp c (sfuTaken c s) (sfuOp x f c s)) := by
  unfold sfu
  simp only [hfree, Bool.false_eq_true, if_false, if_neg he, valueOp, tableAt_laneTable]
  rw [foldl_laneTable c _ Prod.snd]
  exact congrArg (fun o => Act.done (pushOp c (sfuTaken c s) o)) (sfuOp_sfuTaken x f c s)

/-- A special function whose unit is free completes: with lanes it queues its values, and with none it only advances (13 R265). -/
theorem givesLater_of_sfu {i : Instr} {o : Op} {x : Z1} {f : FFmt → Nat → FV → FV → Nat × BitVec 5} {s : State} {en : Entry}
    {g : Nat → Nat × BitVec 5} (he : exec i s = issue o x (sfu x f) s) (h : entry o x s = some en) (hfair : en.Fair)
    (hfree : sfuBusy en.c en.s = false) (hg : ∀ l, sfuLane x f en.c en.s l = g l) : GivesLater i s en x g := by
  obtain rfl : sfuLane x f en.c en.s = g := funext hg
  by_cases h0 : en.c.e = 0
  · exact ⟨_, he.trans (issue_done h (sfu_of_empty hfree h0)), (onlyPlace_finish _ _ _ _).onlyOps, fun hne => absurd h0 hne⟩
  · have k := onlyPlace_finish o x en (pushOp en.c (sfuTaken en.c en.s) (sfuOp x f en.c en.s))
    have hs (sl : Nat) : (sfuTaken en.c en.s).warp? en.c.core sl = en.s.warp? en.c.core sl := State.warp?_updPart _ _ _ _ _ _
    refine ⟨_, he.trans (issue_done h (sfu_of_lanes hfree h0)), ?frame, fun _ => ⟨?loads, ?op⟩⟩
    case frame => exact (onlyPlace_updPart _ _ _ _).onlyOps.trans ((onlyOps_pushOp _ _ _).trans k.onlyOps)
    case loads => exact raises_of_pushOp hfair hs k
    case op =>
      refine queues_of_pushOp hfair hs rfl k ⟨rfl, rfl, rfl, fun l hl hm => ?_⟩
      exact ⟨_, List.mem_map_of_mem (mem_maskLanes.2 ⟨hl, hm⟩), rfl, rfl⟩

/-- Settles O5: each special function is the shape at its own correctly rounded function. -/
theorem specialFunctions : Obligations.SpecialFunctions := by
  unfold Obligations.SpecialFunctions
  intro x s en hfair hfree v
  refine ⟨fun h => ?_, fun h => ?_, fun h => ?_, fun h => ?_, fun h => ?_, fun h => ?_, fun h => ?_, fun h => ?_, fun h => ?_⟩
  all_goals exact givesLater_of_sfu rfl h hfair hfree fun _ => rfl

end Sys2Proof.Machine
end
